-- ==== Sys2Proof/Word.lean ====
section
/-! DEFINITION. The words of the model: bytes of the control link, the numbering of cylinders. -/

namespace Sys2Proof

/-- One byte of the control link (R165). -/
abbrev Byte := BitVec 8

/-- A cylinder: value `c` stands for cylinder number `c + 1` (Conventions, "Cylinders and banks"). -/
abbrev Cyl := Fin 8

end Sys2Proof
end

