-- ==== Sys2Proof/Config.lean ====
section
/-! DEFINITION. The constants the manual fixes for the part. The manual leaves no value open that an
implementation chooses, so there is no uninterpreted field here. -/

namespace Sys2Proof.Config

/-- Angle counts of one engine cycle (Conventions, "Angle"). -/
def cycle : Nat := 11520

/-- Angle counts of one revolution. -/
def revolution : Nat := 5760

/-- Noise filter of both edge inputs, in ticks (R3). -/
def filterTicks : Nat := 200

/-- Length of a tooth echo or cycle marker pulse, in ticks (R22, R23). -/
def echoTicks : Nat := 200

/-- Stall timeout: 250 ms in ticks (R16). -/
def stallTicks : Nat := 2500000

/-- End of the busy period after either reset, in ticks of the timebase (R171). -/
def busyEnd : Nat := 20000

/-- Recharge steps fall at whole positive multiples of this many ticks (R115). -/
def rechargeTicks : Nat := 1000

/-- Supply samples fall at whole positive multiples of this many ticks (R123). -/
def supplyTicks : Nat := 10000

/-- The first shot of a service chain falls due this long after the SERVICE is taken (R160). -/
def serviceLead : Nat := 10000

/-- Ticks of one millisecond, for the link-silence length (R173). -/
def msTicks : Nat := 10000

/-- Shots a bank queue holds at most (R89). -/
def queueMax : Nat := 16

/-- Hysteresis of the supply bands, in counts (R126). -/
def bandHysteresis : Nat := 12

/-- Samples of the supply window (R124). -/
def supplyWindow : Nat := 8

/-- Samples of the trace buffer (R146). -/
def traceSize : Nat := 64

/-- Bytes of a frame that the receive buffer keeps (R166). -/
def rxMax : Nat := 63

/-- Largest speed the part reports, in rpm (R19). -/
def speedMax : Nat := 8191

/-- READ_ID: the family number (chapter 11, "Short replies"). -/
def family : Nat := 0x45

/-- READ_ID: the part number. -/
def part : Nat := 0x08

/-- READ_ID: the revision number. -/
def partRevision : Nat := 0x01

/-- READ_ID: the count of command codes the part knows. -/
def commandCount : Nat := 28

end Sys2Proof.Config
end

