-- ==== Sys2Proof/Syntax.lean ====
section
/-! DEFINITION. The commands of the part: one constructor per row of the opcode table, with the operands
the outside world supplies. -/

namespace Sys2Proof

/-- The two drive banks (Conventions, "Cylinders and banks"). -/
inductive Bank where
  | bankA
  | bankB
deriving DecidableEq, Repr

/-- A transition on an edge input (R2). -/
inductive Transition where
  | rising
  | falling
deriving DecidableEq, Repr

/-- One accepted tooth can both make shots fall due and close windows (R91, R94), and the manual lets
either be taken first (R95, R101). The command that brings the tooth says which was. -/
inductive TieOrder where
  | dueFirst
  | closeFirst
deriving DecidableEq, Repr

/-- What a transaction carries after the code byte (R165, R166): the length byte, every whole byte received
after it, and the bits of a last byte begun but not finished (R167). -/
structure Frame where
  len  : Byte
  rest : List Byte
  odd  : List Bool := []
deriving DecidableEq, Repr

/-- The commands. An event of a bank names the bank, an event of one shot its tag, a sample the count
read at the input, and a link command the transaction that carries its frame. -/
inductive Instr where
  /-- POWER_ON_RESET (R171). -/
  | powerOnReset
  /-- BUSY_PERIOD_END (R171). -/
  | busyPeriodEnd
  /-- CRANK_EDGE (R3): a transition on CRK. -/
  | crankEdge (tr : Transition) (tie : TieOrder)
  /-- CAM_EDGE (R10): a transition on CAM. -/
  | camEdge (tr : Transition)
  /-- DEADLINE_EXPIRY (R13). -/
  | deadlineExpiry (tie : TieOrder)
  /-- STALL (R16). -/
  | stall
  /-- TECHO_PULSE_END (R22). -/
  | techoPulseEnd
  /-- CMARK_PULSE_END (R23). -/
  | cmarkPulseEnd
  /-- TIMED_INSTANT (R91). -/
  | timedInstant (b : Bank) (tag : Byte)
  /-- CHAIN_SHOT_DUE (R92). -/
  | chainShotDue (b : Bank) (tag : Byte)
  /-- GAP_END (R96). -/
  | gapEnd (b : Bank)
  /-- DEFER_DEADLINE (R99). -/
  | deferDeadline (b : Bank) (tag : Byte)
  /-- SCHEDULED_END (R105). -/
  | scheduledEnd (b : Bank)
  /-- WINDOW_CLOSE (R95). -/
  | windowClose (b : Bank) (c : Cyl)
  /-- DRIVE_SAMPLE (R132): the count at the bank's current sense input. -/
  | driveSample (b : Bank) (x : Byte)
  /-- TRACE_SAMPLE (R146): the count at the captured bank's current sense input. -/
  | traceSample (x : Byte)
  /-- RECHARGE_STEP (R115). -/
  | rechargeStep
  /-- SUPPLY_SAMPLE (R123): the count at VSUP. -/
  | supplySample (x : BitVec 10)
  /-- LINK_SILENCE (R174). -/
  | linkSilence
  /-- BROKEN_TRANSACTION (R167): the whole bytes received and the bits of an unfinished one. -/
  | brokenTransaction (bytes : List Byte) (odd : List Bool)
  /-- UNKNOWN (R170): a complete frame whose code byte names no command. -/
  | unknown (code : Byte) (f : Frame)
  /-- NOP (R176). -/
  | nop (f : Frame)
  /-- RESET (R172). -/
  | reset (f : Frame)
  /-- READ_ID (R176). -/
  | readId (f : Frame)
  /-- LOAD_WHEEL (R26). -/
  | loadWheel (f : Frame)
  /-- LOAD_CYL (R29). -/
  | loadCyl (f : Frame)
  /-- LOAD_PROFILE (R33). -/
  | loadProfile (f : Frame)
  /-- LOAD_PATTERN (R37). -/
  | loadPattern (f : Frame)
  /-- SWAP (R38). -/
  | swap (f : Frame)
  /-- LOAD_LIMITS (R41). -/
  | loadLimits (f : Frame)
  /-- READ_TABLE (R43). -/
  | readTable (f : Frame)
  /-- DEMAND (R55). -/
  | demand (f : Frame)
  /-- ARM (R46). -/
  | arm (f : Frame)
  /-- DISARM (R47). -/
  | disarm (f : Frame)
  /-- STOP (R49). -/
  | stop (f : Frame)
  /-- CUT_SET (R151). -/
  | cutSet (f : Frame)
  /-- CUT_CLEAR (R150). -/
  | cutClear (f : Frame)
  /-- CUT_TOGGLE (R150). -/
  | cutToggle (f : Frame)
  /-- CUT_TEST (R150). -/
  | cutTest (f : Frame)
  /-- CLEAR_FAULT (R158). -/
  | clearFault (f : Frame)
  /-- SERVICE (R160). -/
  | service (f : Frame)
  /-- TRACE_ARM (R145). -/
  | traceArm (f : Frame)
  /-- TRACE_READ (R147). -/
  | traceRead (f : Frame)
  /-- READ_ANGLE (R183). -/
  | readAngle (f : Frame)
  /-- READ_TIME (R1). -/
  | readTime (f : Frame)
  /-- READ_STATUS (R182). -/
  | readStatus (f : Frame)
  /-- READ_CYL (R184). -/
  | readCyl (f : Frame)
  /-- READ_REPORT (R164). -/
  | readReport (f : Frame)
  /-- READ_QUEUE (R185). -/
  | readQueue (f : Frame)
  /-- READ_COUNTERS (R186). -/
  | readCounters (f : Frame)
  /-- READ_EVENTS (R180). -/
  | readEvents (f : Frame)
  /-- SET_MASK (R181). -/
  | setMask (f : Frame)
deriving DecidableEq, Repr

end Sys2Proof
end

