-- ==== Sys2Proof/Machine/State.lean ====
section
/-! DEFINITION. The state of the part, block by block (00_scope, "Block overview"), the reasons a step could
stop, and the state right after a reset. Plain data throughout. -/

namespace Sys2Proof.Machine

/-! ### Names -/

/-- Synchronisation state of the Angle Clock (section 1.3). -/
inductive Sync where
  | stalled
  | seeking
  | crankSync
  | fullSync
deriving DecidableEq, Repr

/-- Firing state (R45). -/
inductive Firing where
  | safe
  | armed
  | draining
deriving DecidableEq, Repr

/-- Class of a shot (Conventions, "Pulse classes"). -/
inductive PulseClass where
  | late
  | after
  | pilot
  | main
deriving DecidableEq, Repr

/-- Supply band (section 6.7). -/
inductive Band where
  | normal
  | low
  | crank
  | under
deriving DecidableEq, Repr

/-- Converter mode of a reservoir (R40). -/
inductive ConverterMode where
  | off
  | normal
  | auto
deriving DecidableEq, Repr

/-- Bank condition (R96). -/
inductive BankCond where
  | idle
  | gap
  | active
deriving DecidableEq, Repr

/-- Phase of a Drive Stage (section 7.4). -/
inductive Phase where
  | off
  | boost
  | peak
  | hold
  | quench
deriving DecidableEq, Repr

/-- Trace state (section 7.7). -/
inductive TraceState where
  | idle
  | armed
  | capturing
  | done
deriving DecidableEq, Repr

/-- State of a queued shot (R77). -/
inductive ShotState where
  | planned
  | timed
  | deferred
deriving DecidableEq, Repr

/-- Outcome of a shot (R112). -/
inductive ShotOutcome where
  | fired
  | firedCutWindow
  | firedPreempted
  | firedDegraded
  | faulted
  | shedBoost
  | shedConflict
  | shedWindow
  | shedQueueFull
  | shedChain
  | broken
  | cancelledSync
  | cancelledCut
  | cancelledStop
  | cancelledFault
deriving DecidableEq, Repr

/-- Kind of an injector fault (R140, R141). -/
inductive FaultKind where
  | short
  | openLoad
deriving DecidableEq, Repr

/-- Condition code of a cylinder and summary code of a report (R154, R155; codes of section 11.2). -/
inductive CondCode where
  | none
  | firedClean
  | clamped
  | windowFit
  | deferred
  | shedBoost
  | stale
  | overspeed
  | cut
  | shedConflict
  | degraded
  | openLoad
  | short
  | slowRise
  | firstPulseFault
  | locked
  | serviceDone
deriving DecidableEq, Repr

/-- Kind of a plan and of its report (R153). -/
inductive ReportKind where
  | angle
  | service
deriving DecidableEq, Repr

/-- The thirteen event kinds (section 10.1). -/
inductive Event where
  | syncUp
  | syncDown
  | camFault
  | stall
  | noise
  | shed
  | injFault
  | lockout
  | stale
  | overspeed
  | supplyBand
  | linkSilence
  | traceDone
deriving DecidableEq, Repr

/-- The eleven results of a response (R170). -/
inductive Result where
  | ok
  | okClamped
  | badCrc
  | framing
  | unknown
  | badLength
  | badParam
  | wrongState
  | busy
  | powerOn
  | softReset
deriving DecidableEq, Repr

/-! ### Two banks, eight cylinders, four profiles -/

/-- One value for each bank. -/
structure Banks (α : Type) where
  a : α
  b : α
deriving DecidableEq, Repr

/-- One value for each cylinder. -/
structure Cyls (α : Type) where
  c1 : α
  c2 : α
  c3 : α
  c4 : α
  c5 : α
  c6 : α
  c7 : α
  c8 : α
deriving DecidableEq, Repr

/-- One value for each profile number 0 to 3. -/
structure Profiles (α : Type) where
  p0 : α
  p1 : α
  p2 : α
  p3 : α
deriving DecidableEq, Repr

/-! ### Angle Clock (chapter 1) -/

/-- The Angle Clock (section 1.3, R3 to R5, R19 to R23). -/
structure AngleClock where
  sync      : Sync
  /-- Timestamp of the last accepted tooth, real or synthetic. -/
  lastTooth : Option Nat
  /-- R4: last interval, 0 when absent. -/
  t1        : Nat
  /-- R4: the interval before, 0 when absent. -/
  t2        : Nat
  /-- R4: the prediction, 0 when absent. -/
  tpred     : Nat
  /-- Index of the last accepted tooth in its revolution. -/
  index     : Nat
  /-- The last accepted tooth belongs to revolution 1. -/
  rev1      : Bool
  /-- Gap search of R7: `some n` holds a first candidate with `n` normal teeth since. -/
  gapSearch : Option Nat
  camCount  : Nat
  synth     : Nat
  absorb    : Bool
  deadline  : Option Nat
  /-- Stall timer of R16: the instant of its last restart, or stopped. -/
  stallFrom : Option Nat
  held      : Nat
  speed     : Nat
  overspeed : Bool
  /-- Arrival of the previous crank edge, for the filter of R3. -/
  lastCrank : Option Nat
  /-- Arrival of the previous cam edge of the counted polarity. -/
  lastCam   : Option Nat
  /-- TECHO is high until this instant (R22). -/
  techo     : Option Nat
  /-- CMARK is high until this instant (R23). -/
  cmark     : Option Nat
deriving DecidableEq, Repr

/-! ### Table Store (chapter 2) -/

/-- Wheel record (R25). -/
structure WheelRecord where
  n        : Nat
  m        : Nat
  refAngle : Nat
  polarity : Transition
  loaded   : Bool
deriving DecidableEq, Repr

/-- Cylinder record (R27). `output` is the injector number less 1. -/
structure CylRecord where
  enabled     : Bool
  tdc         : Nat
  output      : Fin 8
  profile     : Fin 4
  windowOpen  : Nat
  windowClose : Nat
  freezeLead  : Nat
deriving DecidableEq, Repr

/-- Profile record (R32). Times in µs, levels in counts. -/
structure ProfileRecord where
  boostCost  : Nat
  recup      : Nat
  peak       : Nat
  hold       : Nat
  short      : Nat
  openDetect : Nat
  boostMax   : Nat
  peakHold   : Nat
  minOn      : Nat
  minSep     : Nat
deriving DecidableEq, Repr

/-- Anchor of a pattern entry, with the fields each kind carries (R35). -/
inductive EntryAnchor where
  | angle (offset : Int) (advanceApplies : Bool)
  | chain (gapUs : Nat)
deriving DecidableEq, Repr

/-- Duration source of a pattern entry (R35). -/
inductive DurationSource where
  | fixed (us : Nat)
  | fraction (per256 : Nat)
deriving DecidableEq, Repr

/-- Pattern entry (R35). -/
structure PatternEntry where
  cls         : PulseClass
  anchor      : EntryAnchor
  duration    : DurationSource
  maxUs       : Nat
  repeats     : Nat
  repeatGapUs : Nat
  lowBoost    : Bool
deriving DecidableEq, Repr

/-- Limits record (R40). -/
structure Limits where
  bankGapUs    : Nat
  deferMain    : Nat
  deferPilot   : Nat
  deferAfter   : Nat
  deferLate    : Nat
  staleHold    : Nat
  lockout      : Nat
  linkSilence  : Nat
  maxSpeed     : Nat
  lowThr       : Nat
  crankThr     : Nat
  underThr     : Nat
  capacity     : Banks Nat
  rateNormal   : Nat
  rateFast     : Nat
  lowWater     : Nat
  converter    : Banks ConverterMode
deriving DecidableEq, Repr

/-- Table Store (section 2.8). A page is the list of its 16 patterns, by id. -/
structure TableStore where
  wheel       : WheelRecord
  cyl         : Cyls CylRecord
  profile     : Profiles ProfileRecord
  page0       : List (List PatternEntry)
  page1       : List (List PatternEntry)
  /-- Page 1 is the active page. -/
  activePage1 : Bool
  swapPending : Bool
  limits      : Limits
deriving DecidableEq, Repr

/-! ### Demand Stage (chapter 3) -/

/-- A demand as staged (R52). Advance is in units of 4 counts. -/
structure Demand where
  pattern : Fin 16
  mainUs  : Nat
  advance : Int
deriving DecidableEq, Repr

/-- An active demand (R52). -/
structure ActiveDemand where
  demand : Demand
  stale  : Bool
deriving DecidableEq, Repr

/-- What the Demand Stage holds for a cylinder (R52). -/
structure CylDemand where
  staged     : Option Demand
  active     : Option ActiveDemand
  staleCount : Nat
  starved    : Bool
deriving DecidableEq, Repr

/-! ### Bank Schedulers (chapter 5) -/

/-- The shot flags (section 11.2). -/
structure ShotFlags where
  raisedMin  : Bool := false
  clampedMax : Bool := false
  startMoved : Bool := false
  windowFit  : Bool := false
  service    : Bool := false
  preempted  : Bool := false
  degraded   : Bool := false
  slowRise   : Bool := false
  deferred   : Bool := false
deriving DecidableEq, Repr

/-- Anchor of a shot (R77): a start angle, or a predecessor's tag (none for the first shot of a service
chain) and a gap in ticks. -/
inductive Anchor where
  | angle (start : Nat)
  | chain (pred : Option Byte) (gap : Nat)
deriving DecidableEq, Repr

/-- Shot record (R77, R89 to R92, R99). -/
structure Shot where
  tag      : Byte
  cyl      : Cyl
  entry    : Nat
  rep      : Nat
  cls      : PulseClass
  anchor   : Anchor
  /-- Order angle: the start angle, or the provisional angle of R76. -/
  order    : Nat
  ticks    : Nat
  lowBoost : Bool
  flags    : ShotFlags
  state    : ShotState
  /-- Reached mark (R89). -/
  reached  : Bool
  /-- Timed instant or due instant once known. -/
  due      : Option Nat
  /-- The shot has fallen due: a waiting shot (section 5.1). -/
  waiting  : Bool
  /-- Defer deadline (R99). -/
  deadline : Option Nat
deriving DecidableEq, Repr

/-- Active pulse (R104). -/
structure Pulse where
  tag         : Byte
  cyl         : Cyl
  cls         : PulseClass
  startTime   : Nat
  startAngle  : Nat
  schedEnd    : Nat
  windowClose : Option Nat
  flags       : ShotFlags
deriving DecidableEq, Repr

/-- State of a window track (R94). -/
inductive TrackState where
  | tracking
  | closing (instant : Nat)
  | closed
deriving DecidableEq, Repr

/-- Window track (R94); `tracking` is the manual's OPEN. -/
structure Track where
  cyl        : Cyl
  openAngle  : Nat
  closeAngle : Nat
  state      : TrackState
deriving DecidableEq, Repr

/-- Bank Scheduler (section 5.1). -/
structure Sched where
  queue     : List Shot
  cond      : BankCond
  lastEnd   : Option Nat
  active    : Option Pulse
  tracks    : List Track
  placed    : BitVec 32
  started   : BitVec 32
  shed      : BitVec 32
  cancelled : BitVec 32
  nextTag   : Byte
deriving DecidableEq, Repr

/-! ### Drive Stages and Trace Capture (chapter 7) -/

/-- Profile copy of a pulse (R133). -/
structure ProfileCopy where
  peak       : Nat
  hold       : Nat
  short      : Nat
  openDetect : Nat
  boostMax   : Nat
  peakHold   : Nat
  recup      : Nat
deriving DecidableEq, Repr

/-- Drive Stage (section 7.1). `output` is the injector number less 1. -/
structure DriveStage where
  phase     : Phase
  output    : Option (Fin 8)
  degraded  : Bool
  profile   : ProfileCopy
  startTime : Nat
  samples   : Nat
  gate      : Bool
  boostSw   : Bool
  entryTime : Nat
deriving DecidableEq, Repr

/-- Trace Capture (section 7.7). `cyl` is 0 (none) or a cylinder number 1 to 8. -/
structure TraceCapture where
  state    : TraceState
  cyl      : Nat
  interval : Nat
  bank     : Option Bank
  start    : Option Nat
  buffer   : List Byte
  stored   : Nat
  readPtr  : Nat
deriving DecidableEq, Repr

/-! ### Supply Monitor (chapter 6) -/

/-- Supply Monitor (R123 to R126): the window of samples, oldest first. -/
structure SupplyMonitor where
  window     : List Nat
  band       : Band
  nextSample : Nat
deriving DecidableEq, Repr

/-! ### Cylinder Supervisor (chapter 8) -/

/-- The outcome written into a place (R152). -/
structure PlaceOutcome where
  outcome    : ShotOutcome
  fault      : Option FaultKind
  startAngle : Nat
  onTime     : Nat
  flags      : ShotFlags
deriving DecidableEq, Repr

/-- One place of a plan (R152). -/
structure Place where
  tag     : Byte
  entry   : Nat
  rep     : Nat
  cls     : PulseClass
  /-- Planning flags, and the DEFERRED mark once set. -/
  flags   : ShotFlags
  outcome : Option PlaceOutcome
deriving DecidableEq, Repr

/-- Open plan (R152). -/
structure Plan where
  kind         : ReportKind
  freezes      : BitVec 16
  demand       : Option ActiveDemand
  overspeed    : Bool
  serviceCount : Nat
  /-- R154: the summary the report has if the plan stays without entries. -/
  emptySummary : CondCode
  /-- The Planner is still adding places, so the plan is not complete yet. -/
  making       : Bool
  places       : List Place
deriving DecidableEq, Repr

/-- One entry of a cycle report (R153). -/
structure ReportEntry where
  entry      : Nat
  rep        : Nat
  cls        : PulseClass
  outcome    : ShotOutcome
  fault      : Option FaultKind
  flags      : ShotFlags
  startAngle : Nat
  onTime     : Nat
deriving DecidableEq, Repr

/-- Cycle report (R153). -/
structure Report where
  kind         : ReportKind
  freezes      : BitVec 16
  demand       : Option ActiveDemand
  overspeed    : Bool
  summary      : CondCode
  serviceCount : Nat
  entries      : List ReportEntry
deriving DecidableEq, Repr

/-- What the Supervisor holds for a cylinder (R148). -/
structure CylSup where
  cut        : Bool
  locked     : Bool
  faults     : Nat
  firstPulse : Bool
  code       : CondCode
  plan       : Option Plan
  report     : Option Report
  freezes    : BitVec 16
deriving DecidableEq, Repr

/-! ### Event Latch and Link Interface (chapters 9 and 10) -/

/-- Event Latch (R178): bit k is the kind of row k + 1 of the event table. -/
structure EventLatch where
  latched : BitVec 13
  mask    : BitVec 13
deriving DecidableEq, Repr

/-- A response (R169); length and CRC follow from its parts. -/
structure Response where
  code   : Byte
  result : Result
  data   : List Byte
deriving DecidableEq, Repr

/-- LSEL, and the transaction in progress while it is low (R165). -/
inductive Select where
  /-- LSEL is high. -/
  | released
  /-- LSEL is low since before the power-on reset ended: no transaction before its next fall. -/
  | missed
  /-- LSEL is low in a transaction: the bits LDI has carried so far, first to last, and the place in the pending response of
  the bit now on LDO. -/
  | transaction (bits : List Bool) (out : Nat)
deriving DecidableEq, Repr

/-- An edge of the link's select or clock pin; the sender's. LDI counts at the rising edges of LCLK alone (R165). -/
inductive LinkEdge where
  | selectFall
  | clockRise (ldi : Bool)
  | clockFall
  | selectRise
deriving DecidableEq, Repr

/-- Link Interface (section 9.1). -/
structure LinkIface where
  /-- Receive buffer: the frame of the current transaction, up to 63 bytes of it, and between transactions that of the last
  one (log entry 30). -/
  rx        : List Byte
  /-- Whole bytes received in the current transaction, or in the last one (log entry 30). -/
  count     : Nat
  /-- Pending response. -/
  response  : Response
  /-- End of the busy period while it runs. -/
  busyUntil : Option Nat
  /-- Silence timer: the instant of its last restart, or stopped. -/
  silence   : Option Nat
  /-- The bits LDO has carried in the current transaction, or the last one: one for each rising edge of LCLK (the model's
  record of that output). -/
  ldo       : List Bool
  /-- LSEL and the transaction in progress. -/
  select    : Select
  /-- The edges of LSEL and LCLK that wait to come in, first in, first out (the model's own; log entry 32). -/
  edges     : List LinkEdge
deriving DecidableEq, Repr

/-! ### The whole part -/

/-- The state of the part. `pending` is the queue of commands that wait, first in, first out. -/
structure State where
  /-- R1: ticks since the last reset. -/
  timebase     : Nat
  clock        : AngleClock
  tables       : TableStore
  firing       : Firing
  demand       : Cyls CylDemand
  sched        : Banks Sched
  /-- R114: reservoir levels. -/
  level        : Banks Nat
  /-- R115: the instant of the next recharge step. -/
  nextRecharge : Nat
  drive        : Banks DriveStage
  /-- Last reading of ISA and ISB with its instant: samples of one instant read one count (R146). -/
  sense        : Banks (Option (Nat × Byte))
  trace        : TraceCapture
  supply       : SupplyMonitor
  sup          : Cyls CylSup
  /-- R148: the cylinder whose service chain runs. -/
  service      : Option Cyl
  events       : EventLatch
  link         : LinkIface
  pending      : List Instr
deriving DecidableEq, Repr

/-! ### Reasons to stop -/

/-- The manual names no condition that stops the part, and no command of the model faults. -/
inductive Fault where
deriving DecidableEq, Repr

/-- Why a command could have no meaning. -/
inductive Refusal where
  /-- Raised only by an arm of `exec` whose command has no meaning yet. Safe: the machine stops. -/
  | notModelled (mnemonic : String)
deriving DecidableEq, Repr

/-! ### Reset -/

/-- The same value for every cylinder. -/
def Cyls.all {α : Type} (x : α) : Cyls α := ⟨x, x, x, x, x, x, x, x⟩

/-- The same value for both banks. -/
def Banks.both {α : Type} (x : α) : Banks α := ⟨x, x⟩

/-- R5. -/
def AngleClock.reset : AngleClock where
  sync := .stalled
  lastTooth := none
  t1 := 0
  t2 := 0
  tpred := 0
  index := 0
  rev1 := false
  gapSearch := none
  camCount := 0
  synth := 0
  absorb := false
  deadline := none
  stallFrom := none
  held := 0
  speed := 0
  overspeed := false
  lastCrank := none
  lastCam := none
  techo := none
  cmark := none

/-- R25: what the wheel record reads as while it is not loaded. -/
def WheelRecord.reset : WheelRecord :=
  { n := 60, m := 2, refAngle := 0, polarity := .rising, loaded := false }

/-- R30: the cylinder record of a cylinder after either reset. -/
def CylRecord.reset (c : Cyl) : CylRecord :=
  { enabled := false, tdc := 0, output := c, profile := 0, windowOpen := 0, windowClose := 0, freezeLead := 160 }

/-- R32: the defaults of a profile. -/
def ProfileRecord.default : ProfileRecord :=
  { boostCost := 400, recup := 60, peak := 180, hold := 80, short := 240, openDetect := 20,
    boostMax := 250, peakHold := 300, minOn := 150, minSep := 200 }

/-- R40: the defaults of the limits record. -/
def Limits.default : Limits where
  bankGapUs := 50
  deferMain := 300
  deferPilot := 200
  deferAfter := 500
  deferLate := 2000
  staleHold := 3
  lockout := 3
  linkSilence := 100
  maxSpeed := 3000
  lowThr := 500
  crankThr := 400
  underThr := 275
  capacity := Banks.both 3000
  rateNormal := 6
  rateFast := 12
  lowWater := 800
  converter := Banks.both .normal

/-- R34: a page of sixteen empty patterns. -/
def emptyPage : List (List PatternEntry) := List.replicate 16 []

/-- Section 2.8. -/
def TableStore.reset : TableStore where
  wheel := WheelRecord.reset
  cyl := ⟨.reset 0, .reset 1, .reset 2, .reset 3, .reset 4, .reset 5, .reset 6, .reset 7⟩
  profile := ⟨.default, .default, .default, .default⟩
  page0 := emptyPage
  page1 := emptyPage
  activePage1 := false
  swapPending := false
  limits := Limits.default

/-- R52. -/
def CylDemand.reset : CylDemand := { staged := none, active := none, staleCount := 0, starved := false }

/-- R88, R78. -/
def Sched.reset : Sched where
  queue := []
  cond := .idle
  lastEnd := none
  active := none
  tracks := []
  placed := 0
  started := 0
  shed := 0
  cancelled := 0
  nextTag := 0

/-- R130. DESIGN CHOICE (log entry 2): the profile copy, the start time and the phase entry time have no
meaning while the phase is OFF and read 0. -/
def DriveStage.reset : DriveStage where
  phase := .off
  output := none
  degraded := false
  profile := ⟨0, 0, 0, 0, 0, 0, 0⟩
  startTime := 0
  samples := 0
  gate := false
  boostSw := false
  entryTime := 0

/-- R144. -/
def TraceCapture.reset : TraceCapture where
  state := .idle
  cyl := 0
  interval := 1
  bank := none
  start := none
  buffer := List.replicate Config.traceSize 0
  stored := 0
  readPtr := 0

/-- R123, R124. -/
def SupplyMonitor.reset : SupplyMonitor :=
  { window := [], band := .normal, nextSample := Config.supplyTicks }

/-- R148. -/
def CylSup.reset : CylSup where
  cut := false
  locked := false
  faults := 0
  firstPulse := true
  code := .none
  plan := none
  report := none
  freezes := 0

/-- R178. -/
def EventLatch.reset : EventLatch := { latched := 0, mask := 0 }

/-- R169: the response pending after a power-on reset. -/
def Response.powerOn : Response := { code := 0, result := .powerOn, data := [] }

/-- Section 9.1, after a power-on reset. -/
def LinkIface.reset : LinkIface where
  rx := []
  count := 0
  response := Response.powerOn
  busyUntil := some Config.busyEnd
  silence := none
  ldo := []
  select := .released
  edges := []

/-- The part right after the power-on reset, with no command waiting. -/
def State.reset : State where
  timebase := 0
  clock := AngleClock.reset
  tables := TableStore.reset
  firing := .safe
  demand := Cyls.all CylDemand.reset
  sched := Banks.both Sched.reset
  level := Banks.both 0
  nextRecharge := Config.rechargeTicks
  drive := Banks.both DriveStage.reset
  sense := Banks.both none
  trace := TraceCapture.reset
  supply := SupplyMonitor.reset
  sup := Cyls.all CylSup.reset
  service := none
  events := EventLatch.reset
  link := LinkIface.reset
  pending := []

end Sys2Proof.Machine
end

