-- ==== Sys2Proof/Machine/Flags.lean ====
section
/-! DEFINITION. Ranks, codes and flag fields: the numbers each name carries (section 11.2), the event set,
the shot flags, and the condition code an outcome gives (R154). -/

namespace Sys2Proof.Machine

/-- Rank of a class (Conventions, "Pulse classes"); also its code. -/
def PulseClass.rank : PulseClass → Nat
  | .late => 0
  | .after => 1
  | .pilot => 2
  | .main => 3

/-- The class of a two-bit code (section 11.2). -/
def PulseClass.ofCode (k : Nat) : PulseClass :=
  if k = 0 then .late else if k = 1 then .after else if k = 2 then .pilot else .main

def Sync.code : Sync → Nat
  | .stalled => 0
  | .seeking => 1
  | .crankSync => 2
  | .fullSync => 3

def Firing.code : Firing → Nat
  | .safe => 0
  | .armed => 1
  | .draining => 2

def Band.code : Band → Nat
  | .normal => 0
  | .low => 1
  | .crank => 2
  | .under => 3

def ConverterMode.code : ConverterMode → Nat
  | .off => 0
  | .normal => 1
  | .auto => 2

/-- R41: codes are ordered OFF, NORMAL, AUTO, and a code above AUTO is clamped to AUTO. -/
def ConverterMode.ofCode (k : Nat) : ConverterMode :=
  if k = 0 then .off else if k = 1 then .normal else .auto

/-- The bank's code (section 11.2). -/
def bankCode : Bank → Nat
  | .bankA => 0
  | .bankB => 1

def BankCond.code : BankCond → Nat
  | .idle => 0
  | .gap => 1
  | .active => 2

def Phase.code : Phase → Nat
  | .off => 0
  | .boost => 1
  | .peak => 2
  | .hold => 3
  | .quench => 4

def TraceState.code : TraceState → Nat
  | .idle => 0
  | .armed => 1
  | .capturing => 2
  | .done => 3

def ShotState.code : ShotState → Nat
  | .planned => 0
  | .timed => 1
  | .deferred => 2

def ReportKind.code : ReportKind → Nat
  | .angle => 1
  | .service => 2

def FaultKind.code : FaultKind → Nat
  | .short => 1
  | .openLoad => 2

def ShotOutcome.code : ShotOutcome → Nat
  | .fired => 1
  | .firedCutWindow => 2
  | .firedPreempted => 3
  | .firedDegraded => 4
  | .faulted => 5
  | .shedBoost => 6
  | .shedConflict => 7
  | .shedWindow => 8
  | .shedQueueFull => 9
  | .shedChain => 10
  | .broken => 11
  | .cancelledSync => 12
  | .cancelledCut => 13
  | .cancelledStop => 14
  | .cancelledFault => 15

/-- R112: the outcomes counted as shed. -/
def ShotOutcome.isShed : ShotOutcome → Bool
  | .shedBoost | .shedConflict | .shedWindow | .shedQueueFull | .shedChain | .broken => true
  | .fired | .firedCutWindow | .firedPreempted | .firedDegraded | .faulted => false
  | .cancelledSync | .cancelledCut | .cancelledStop | .cancelledFault => false

def CondCode.code : CondCode → Nat
  | .none => 0
  | .firedClean => 1
  | .clamped => 2
  | .windowFit => 3
  | .deferred => 4
  | .shedBoost => 5
  | .stale => 6
  | .overspeed => 7
  | .cut => 8
  | .shedConflict => 9
  | .degraded => 10
  | .openLoad => 11
  | .short => 12
  | .slowRise => 13
  | .firstPulseFault => 14
  | .locked => 15
  | .serviceDone => 16

/-- The code a fault's kind sets (R155). -/
def FaultKind.condCode : FaultKind → CondCode
  | .short => .short
  | .openLoad => .openLoad

def Result.code : Result → Nat
  | .ok => 0x00
  | .okClamped => 0x01
  | .badCrc => 0x10
  | .framing => 0x11
  | .unknown => 0x12
  | .badLength => 0x13
  | .badParam => 0x14
  | .wrongState => 0x15
  | .busy => 0x16
  | .powerOn => 0x20
  | .softReset => 0x21

/-- The bit of an event kind in the event set (section 11.2). -/
def Event.bit : Event → Nat
  | .syncUp => 0
  | .syncDown => 1
  | .camFault => 2
  | .stall => 3
  | .noise => 4
  | .shed => 5
  | .injFault => 6
  | .lockout => 7
  | .stale => 8
  | .overspeed => 9
  | .supplyBand => 10
  | .linkSilence => 11
  | .traceDone => 12

/-- The event set that holds one kind. -/
def Event.mask (e : Event) : BitVec 13 := 1#13 <<< e.bit

/-- R179: INT is high while at least one latched kind is unmasked. -/
def EventLatch.int (e : EventLatch) : Bool := e.latched &&& e.mask != 0#13

/-- A weighted flag bit. -/
def flagBit (b : Bool) (k : Nat) : Nat := if b then 2 ^ k else 0

/-- The 16-bit shot flags field (section 11.2). -/
def ShotFlags.toNat (f : ShotFlags) : Nat :=
  flagBit f.raisedMin 0 + flagBit f.clampedMax 1 + flagBit f.startMoved 2 + flagBit f.windowFit 3 +
  flagBit f.service 4 + flagBit f.preempted 5 + flagBit f.degraded 6 + flagBit f.slowRise 7 +
  flagBit f.deferred 8

/-- R153: the entry flags are the union of the place's flags and those of the pulse. -/
def ShotFlags.union (f g : ShotFlags) : ShotFlags where
  raisedMin := f.raisedMin || g.raisedMin
  clampedMax := f.clampedMax || g.clampedMax
  startMoved := f.startMoved || g.startMoved
  windowFit := f.windowFit || g.windowFit
  service := f.service || g.service
  preempted := f.preempted || g.preempted
  degraded := f.degraded || g.degraded
  slowRise := f.slowRise || g.slowRise
  deferred := f.deferred || g.deferred

/-! ### Condition codes of a report (R154) -/

/-- The codes an entry can give, from highest severity to lowest. -/
def severityList : List CondCode :=
  [.short, .openLoad, .cut, .degraded, .slowRise, .shedBoost, .shedConflict, .deferred, .windowFit,
   .clamped, .firedClean]

/-- The condition of the list of R154 under which an entry gives a code. -/
def ReportEntry.gives (e : ReportEntry) : CondCode → Bool
  | .short => e.outcome == .faulted && e.fault == some .short
  | .openLoad => e.outcome == .faulted && e.fault == some .openLoad
  | .cut => e.outcome == .cancelledCut
  | .degraded => e.flags.degraded
  | .slowRise => e.flags.slowRise
  | .shedBoost => e.outcome == .shedBoost || e.outcome == .broken
  | .shedConflict =>
    e.outcome == .shedConflict || e.outcome == .shedQueueFull || e.outcome == .firedPreempted
  | .deferred => e.flags.deferred
  | .windowFit =>
    e.outcome == .firedCutWindow || e.outcome == .shedWindow || e.flags.windowFit || e.flags.startMoved
  | .clamped => e.flags.raisedMin || e.flags.clampedMax
  | .firedClean => e.outcome == .fired
  | .none | .stale | .overspeed | .firstPulseFault | .locked | .serviceDone => false

/-- R154: the code an entry gives: the first of the list whose condition it meets. -/
def ReportEntry.code (e : ReportEntry) : Option CondCode := severityList.find? e.gives

/-- R154: the code of highest severity among the codes the entries give, or NONE. -/
def entriesSummary (es : List ReportEntry) : CondCode :=
  (severityList.find? fun k => es.any fun e => e.code == some k).getD .none

end Sys2Proof.Machine
end

