-- ==== Sys2Proof/Machine/Operands.lean ====
section
/-! DEFINITION. The fields of frames and replies: reading a parameter at its offset and width, the checks of
each load's fields, and the bytes of each record (chapter 11, R187). -/

namespace Sys2Proof.Machine

/-! ### Bytes -/

/-- The byte at an offset, as an unsigned number. -/
def u8 (ps : List Byte) (i : Nat) : Nat := (ps.getD i 0).toNat

/-- A two-byte field, little-endian. -/
def u16 (ps : List Byte) (i : Nat) : Nat := u8 ps i + 256 * u8 ps (i + 1)

/-- A two-byte field in two's complement. -/
def s16 (ps : List Byte) (i : Nat) : Int := if u16 ps i < 32768 then u16 ps i else (u16 ps i : Int) - 65536

/-- A one-byte field in two's complement. -/
def s8 (ps : List Byte) (i : Nat) : Int := if u8 ps i < 128 then u8 ps i else (u8 ps i : Int) - 256

/-- A number in `k` bytes, little-endian: its low `8 * k` bits. -/
def leBytes : Nat → Nat → List Byte
  | 0, _ => []
  | k + 1, n => BitVec.ofNat 8 n :: leBytes k (n / 256)

/-- One byte. -/
def byte (n : Nat) : Byte := BitVec.ofNat 8 n

/-- A flag byte. -/
def flagByte (b : Bool) : Byte := if b then 1 else 0

/-- An 8-bit field in two's complement. -/
def s8Byte (x : Int) : Byte := BitVec.ofInt 8 x

/-- A 16-bit field in two's complement, little-endian. -/
def s16Bytes (x : Int) : List Byte := leBytes 2 (x % 65536).toNat

/-- The CRC of R168: one byte combined, then eight shifts with 0x1D. -/
def crcShift (v : Byte) : Byte := if v.msb then (v <<< 1) ^^^ 0x1D#8 else v <<< 1

/-- R168: one byte folded into the running value. -/
def crcByte (v x : Byte) : Byte :=
  crcShift (crcShift (crcShift (crcShift (crcShift (crcShift (crcShift (crcShift (v ^^^ x))))))))

/-- R168: the CRC over bytes in frame order, from 0xFF. -/
def crc8 (bs : List Byte) : Byte := bs.foldl crcByte 0xFF#8

/-- R169: the bytes of a response: echoed code, result, length, data, CRC. -/
def Response.bytes (r : Response) : List Byte :=
  let body := r.code :: byte r.result.code :: byte r.data.length :: r.data
  body ++ [crc8 body]

/-! ### Numbers that name something -/

/-- A cylinder number 1 to 8. -/
def cylOf (n : Nat) : Option Cyl := if h : 1 ≤ n ∧ n ≤ 8 then some ⟨n - 1, by omega⟩ else none

/-- A profile number 0 to 3. -/
def profileOf (n : Nat) : Option (Fin 4) := if h : n < 4 then some ⟨n, h⟩ else none

/-- A pattern id 0 to 15. -/
def patternOf (n : Nat) : Option (Fin 16) := if h : n < 16 then some ⟨n, h⟩ else none

/-- A bank code (section 11.2). -/
def bankOfCode (n : Nat) : Option Bank := if n = 0 then some .bankA else if n = 1 then some .bankB else none

/-- A flag byte whose table lists 0 and 1 (R187). -/
def flagOf (n : Nat) : Option Bool := if n = 0 then some false else if n = 1 then some true else none

/-- A cylinder's number. -/
def cylNumber (c : Cyl) : Nat := c.val + 1

/-- A value inside a range, both ends included. -/
def within (lo hi n : Nat) : Bool := decide (lo ≤ n ∧ n ≤ hi)

/-- A value brought into a range. -/
def clampTo (lo hi n : Nat) : Nat := max lo (min hi n)

/-! ### LOAD_WHEEL (R25) -/

/-- The wheel record of a LOAD_WHEEL frame, if every field is in range. -/
def parseWheel (ps : List Byte) : Option WheelRecord :=
  let n := u8 ps 0
  let m := u8 ps 1
  let r := u16 ps 2
  let p := u8 ps 4
  if (n = 24 ∨ n = 36 ∨ n = 60 ∨ n = 72) ∧ (m = 1 ∨ m = 2) ∧ r ≤ 11519 ∧ p ≤ 1 then
    some { n := n, m := m, refAngle := r, polarity := if p = 0 then .rising else .falling, loaded := true }
  else none

/-- The LOAD_WHEEL layout of a record. -/
def wheelBytes (w : WheelRecord) : List Byte :=
  byte w.n :: byte w.m :: (leBytes 2 w.refAngle ++ [flagByte (w.polarity == .falling)])

/-! ### LOAD_CYL (R27) -/

/-- The cylinder and record of a LOAD_CYL frame, if the number and every field are in range. -/
def parseCyl (ps : List Byte) : Option (Cyl × CylRecord) :=
  match cylOf (u8 ps 0), flagOf (u8 ps 1), cylOf (u8 ps 4), profileOf (u8 ps 5) with
  | some c, some en, some out, some prof =>
    if u16 ps 2 ≤ 11519 ∧ u16 ps 6 ≤ 3200 ∧ u16 ps 8 ≤ 3200 ∧ within 160 2880 (u16 ps 10) then
      some (c, { enabled := en, tdc := u16 ps 2, output := out, profile := prof, windowOpen := u16 ps 6,
                 windowClose := u16 ps 8, freezeLead := u16 ps 10 })
    else none
  | _, _, _, _ => none

/-- The LOAD_CYL layout of a record. -/
def cylBytes (c : Cyl) (r : CylRecord) : List Byte :=
  byte (cylNumber c) :: flagByte r.enabled ::
    (leBytes 2 r.tdc ++ [byte (r.output.val + 1), byte r.profile.val] ++ leBytes 2 r.windowOpen ++
     leBytes 2 r.windowClose ++ leBytes 2 r.freezeLead)

/-! ### LOAD_PROFILE (R32) -/

/-- R32: the ranges of a profile's fields and the two cross-checks. -/
def ProfileRecord.inRange (p : ProfileRecord) : Bool :=
  within 0 1000 p.boostCost && within 0 500 p.recup && within 50 250 p.peak && within 20 200 p.hold &&
  decide (p.short ≤ 255) && within 10 100 p.openDetect && within 50 500 p.boostMax &&
  within 0 1000 p.peakHold && within 100 1000 p.minOn && within 100 5000 p.minSep &&
  decide (p.hold < p.peak) && decide (p.peak < p.short)

/-- The number and record of a LOAD_PROFILE frame, if the checks pass. -/
def parseProfile (ps : List Byte) : Option (Fin 4 × ProfileRecord) :=
  let p : ProfileRecord :=
    { boostCost := u16 ps 1, recup := u16 ps 3, peak := u8 ps 5, hold := u8 ps 6, short := u8 ps 7,
      openDetect := u8 ps 8, boostMax := u16 ps 9, peakHold := u16 ps 11, minOn := u16 ps 13,
      minSep := u16 ps 15 }
  match profileOf (u8 ps 0) with
  | some i => if p.inRange then some (i, p) else none
  | none => none

/-- The LOAD_PROFILE layout of a record. -/
def profileBytes (i : Fin 4) (p : ProfileRecord) : List Byte :=
  byte i.val :: (leBytes 2 p.boostCost ++ leBytes 2 p.recup ++
    [byte p.peak, byte p.hold, byte p.short, byte p.openDetect] ++ leBytes 2 p.boostMax ++
    leBytes 2 p.peakHold ++ leBytes 2 p.minOn ++ leBytes 2 p.minSep)

/-! ### LOAD_PATTERN (R35, R36) -/

/-- The anchor of an entry, if its carried field is in range. -/
def parseAnchor (ctl : Nat) (ps : List Byte) : Option EntryAnchor :=
  if ctl / 4 % 2 = 0 then
    if -3200 ≤ s16 ps 1 ∧ s16 ps 1 ≤ 3200 then some (.angle (s16 ps 1) (ctl / 8 % 2 == 1)) else none
  else
    if within 100 10000 (u16 ps 1) then some (.chain (u16 ps 1)) else none

/-- The duration source of an entry, if its carried field is in range. -/
def parseDuration (ctl : Nat) (ps : List Byte) : Option DurationSource :=
  if ctl / 16 % 2 = 0 then
    if u16 ps 3 ≤ 10000 then some (.fixed (u16 ps 3)) else none
  else
    if within 1 256 (u16 ps 3) then some (.fraction (u16 ps 3)) else none

/-- R35: the entry in nine bytes, if every field carried is in range. -/
def parseEntry (ps : List Byte) : Option PatternEntry :=
  let ctl := u8 ps 0
  match parseAnchor ctl ps, parseDuration ctl ps with
  | some anchor, some duration =>
    if within 100 10000 (u16 ps 5) && within 100 10000 (u16 ps 7) then
      some { cls := PulseClass.ofCode (ctl % 4), anchor := anchor, duration := duration, maxUs := u16 ps 5,
             repeats := ctl / 64 + 1, repeatGapUs := u16 ps 7, lowBoost := ctl / 32 % 2 == 1 }
    else none
  | _, _ => none

/-- The `n` entries that follow one another, nine bytes each. -/
def parseEntries : Nat → List Byte → Option (List PatternEntry)
  | 0, _ => some []
  | n + 1, ps =>
    match parseEntry ps, parseEntries n (ps.drop 9) with
    | some e, some es => some (e :: es)
    | _, _ => none

/-- R36: the first entry is not chained and the repeat counts sum to at most 8. -/
def patternAdmitted (es : List PatternEntry) : Bool :=
  (match es with
   | [] => true
   | e :: _ => match e.anchor with
     | .angle _ _ => true
     | .chain _ => false) &&
  decide ((es.map PatternEntry.repeats).sum ≤ 8)

/-- The id and entries of a LOAD_PATTERN frame, if R35 and R36 admit them. -/
def parsePattern (ps : List Byte) : Option (Fin 16 × List PatternEntry) :=
  match patternOf (u8 ps 0), parseEntries (u8 ps 1) (ps.drop 2) with
  | some i, some es => if patternAdmitted es then some (i, es) else none
  | _, _ => none

/-- The nine bytes of an entry. A field not carried is sent as 0 (R187). -/
def entryBytes (e : PatternEntry) : List Byte :=
  let ctlAnchor := match e.anchor with
    | .angle _ adv => flagBit adv 3
    | .chain _ => 4
  let ctlDuration := match e.duration with
    | .fixed _ => 0
    | .fraction _ => 16
  let ctl := e.cls.rank + ctlAnchor + ctlDuration + flagBit e.lowBoost 5 + 64 * (e.repeats - 1)
  let place := match e.anchor with
    | .angle off _ => s16Bytes off
    | .chain gap => leBytes 2 gap
  let dur := match e.duration with
    | .fixed us => us
    | .fraction fr => fr
  byte ctl :: (place ++ leBytes 2 dur ++ leBytes 2 e.maxUs ++ leBytes 2 e.repeatGapUs)

/-- The LOAD_PATTERN layout of a pattern. -/
def patternBytes (i : Fin 16) (es : List PatternEntry) : List Byte :=
  byte i.val :: byte es.length :: es.flatMap entryBytes

/-! ### LOAD_LIMITS (R41) -/

/-- The fields of a LOAD_LIMITS frame as sent; a converter code above AUTO already reads AUTO. -/
def rawLimits (ps : List Byte) : Limits where
  bankGapUs := u8 ps 0
  deferMain := u16 ps 1
  deferPilot := u16 ps 3
  deferAfter := u16 ps 5
  deferLate := u16 ps 7
  staleHold := u8 ps 9
  lockout := u8 ps 10
  linkSilence := u16 ps 11
  maxSpeed := u16 ps 13
  lowThr := u16 ps 15
  crankThr := u16 ps 17
  underThr := u16 ps 19
  capacity := ⟨u16 ps 21, u16 ps 23⟩
  rateNormal := u8 ps 25
  rateFast := u8 ps 26
  lowWater := u16 ps 27
  converter := ⟨.ofCode (u8 ps 29), .ofCode (u8 ps 30)⟩

/-- R41: every field into its range; the thresholds in order low, crank, under; low-water against the
clamped capacities. -/
def clampLimits (l : Limits) : Limits :=
  let low := clampTo 100 1000 l.lowThr
  let crank := clampTo 50 (low - 13) l.crankThr
  let capA := clampTo 1000 4000 l.capacity.a
  let capB := clampTo 1000 4000 l.capacity.b
  { bankGapUs := clampTo 0 200 l.bankGapUs
    deferMain := clampTo 0 5000 l.deferMain
    deferPilot := clampTo 0 5000 l.deferPilot
    deferAfter := clampTo 0 5000 l.deferAfter
    deferLate := clampTo 0 5000 l.deferLate
    staleHold := clampTo 0 15 l.staleHold
    lockout := clampTo 1 7 l.lockout
    linkSilence := clampTo 10 1000 l.linkSilence
    maxSpeed := clampTo 500 4000 l.maxSpeed
    lowThr := low
    crankThr := crank
    underThr := clampTo 25 (crank - 13) l.underThr
    capacity := ⟨capA, capB⟩
    rateNormal := clampTo 1 63 l.rateNormal
    rateFast := clampTo 1 63 l.rateFast
    lowWater := clampTo 0 (min capA capB) l.lowWater
    converter := l.converter }

/-- R41: some field of the frame was changed by clamping. -/
def limitsClamped (ps : List Byte) : Bool :=
  clampLimits (rawLimits ps) != rawLimits ps || decide (2 < u8 ps 29) || decide (2 < u8 ps 30)

/-- The LOAD_LIMITS layout of the stored record. -/
def limitsBytes (l : Limits) : List Byte :=
  byte l.bankGapUs ::
    (leBytes 2 l.deferMain ++ leBytes 2 l.deferPilot ++ leBytes 2 l.deferAfter ++ leBytes 2 l.deferLate ++
     [byte l.staleHold, byte l.lockout] ++ leBytes 2 l.linkSilence ++ leBytes 2 l.maxSpeed ++
     leBytes 2 l.lowThr ++ leBytes 2 l.crankThr ++ leBytes 2 l.underThr ++ leBytes 2 l.capacity.a ++
     leBytes 2 l.capacity.b ++ [byte l.rateNormal, byte l.rateFast] ++ leBytes 2 l.lowWater ++
     [byte l.converter.a.code, byte l.converter.b.code])

/-- The defer limit of a class, in µs (R40). -/
def Limits.deferUs (l : Limits) : PulseClass → Nat
  | .main => l.deferMain
  | .pilot => l.deferPilot
  | .after => l.deferAfter
  | .late => l.deferLate

/-! ### DEMAND (R53, R54) -/

/-- One entry of a DEMAND frame as sent. -/
structure DemandEntry where
  cyl     : Nat
  pattern : Nat
  mainUs  : Nat
  advance : Int
deriving DecidableEq, Repr

/-- The entries of a DEMAND frame, five bytes each. -/
def parseDemandEntries : Nat → List Byte → List DemandEntry
  | 0, _ => []
  | n + 1, ps =>
    { cyl := u8 ps 0, pattern := u8 ps 1, mainUs := u16 ps 2, advance := s8 ps 4 } ::
      parseDemandEntries n (ps.drop 5)

/-- R54: an advance brought into −120 to +120. -/
def clampAdvance (x : Int) : Int := max (-120) (min 120 x)

/-- R54: a field of the entry is clamped. -/
def DemandEntry.clamped (e : DemandEntry) : Bool :=
  decide (10000 < e.mainUs) || decide (120 < e.advance) || decide (e.advance < -120)

/-- R53, R54: what the entry stages and for which cylinder; none when the entry refuses the frame. -/
def DemandEntry.staged (enabled : Cyl → Bool) (e : DemandEntry) : Option (Cyl × Demand) :=
  match cylOf e.cyl, patternOf e.pattern with
  | some c, some p =>
    if enabled c then
      some (c, { pattern := p, mainUs := min 10000 e.mainUs, advance := clampAdvance e.advance })
    else none
  | _, _ => none

/-- All entries of a frame, or none when one of them refuses it. -/
def stagedEntries (enabled : Cyl → Bool) : List DemandEntry → Option (List (Cyl × Demand))
  | [] => some []
  | e :: es =>
    match e.staged enabled, stagedEntries enabled es with
    | some x, some xs => some (x :: xs)
    | _, _ => none

/-- The four bytes of a demand in a reply: pattern id, main_us, advance (READ_CYL). -/
def demandBytes : Option Demand → List Byte
  | none => [0, 0, 0, 0]
  | some d => byte d.pattern.val :: (leBytes 2 d.mainUs ++ [s8Byte d.advance])

end Sys2Proof.Machine
end

