-- ==== Sys2Proof/Machine/Ops.lean ====
section
/-! DEFINITION. The named operations every block uses: reading and writing one bank, one cylinder or one
profile; angle arithmetic; the angle reading; events; the current sense inputs. -/

namespace Sys2Proof.Machine

/-! ### Selection -/

def Banks.get {α : Type} (x : Banks α) : Bank → α
  | .bankA => x.a
  | .bankB => x.b

def Banks.set {α : Type} (x : Banks α) (k : Bank) (v : α) : Banks α :=
  match k with
  | .bankA => { x with a := v }
  | .bankB => { x with b := v }

def Cyls.get {α : Type} (x : Cyls α) (c : Cyl) : α :=
  match c.val with
  | 0 => x.c1
  | 1 => x.c2
  | 2 => x.c3
  | 3 => x.c4
  | 4 => x.c5
  | 5 => x.c6
  | 6 => x.c7
  | _ => x.c8

def Cyls.set {α : Type} (x : Cyls α) (c : Cyl) (v : α) : Cyls α :=
  match c.val with
  | 0 => { x with c1 := v }
  | 1 => { x with c2 := v }
  | 2 => { x with c3 := v }
  | 3 => { x with c4 := v }
  | 4 => { x with c5 := v }
  | 5 => { x with c6 := v }
  | 6 => { x with c7 := v }
  | _ => { x with c8 := v }

/-- All cylinders in increasing number. -/
def allCyls : List Cyl := [0, 1, 2, 3, 4, 5, 6, 7]

def Profiles.get {α : Type} (x : Profiles α) (i : Fin 4) : α :=
  match i.val with
  | 0 => x.p0
  | 1 => x.p1
  | 2 => x.p2
  | _ => x.p3

def Profiles.set {α : Type} (x : Profiles α) (i : Fin 4) (v : α) : Profiles α :=
  match i.val with
  | 0 => { x with p0 := v }
  | 1 => { x with p1 := v }
  | 2 => { x with p2 := v }
  | _ => { x with p3 := v }

/-! ### One bank or one cylinder of the state -/

def State.schedOf (s : State) (k : Bank) : Sched := s.sched.get k
def State.driveOf (s : State) (k : Bank) : DriveStage := s.drive.get k
def State.levelOf (s : State) (k : Bank) : Nat := s.level.get k
def State.supOf (s : State) (c : Cyl) : CylSup := s.sup.get c
def State.demandOf (s : State) (c : Cyl) : CylDemand := s.demand.get c
def State.cylOf (s : State) (c : Cyl) : CylRecord := s.tables.cyl.get c

def State.setSched (s : State) (k : Bank) (x : Sched) : State := { s with sched := s.sched.set k x }
def State.setDrive (s : State) (k : Bank) (x : DriveStage) : State := { s with drive := s.drive.set k x }
def State.setLevel (s : State) (k : Bank) (x : Nat) : State := { s with level := s.level.set k x }
def State.setSup (s : State) (c : Cyl) (x : CylSup) : State := { s with sup := s.sup.set c x }
def State.setDemand (s : State) (c : Cyl) (x : CylDemand) : State := { s with demand := s.demand.set c x }
def State.setClock (s : State) (x : AngleClock) : State := { s with clock := x }
def State.setTables (s : State) (x : TableStore) : State := { s with tables := x }
def State.setTrace (s : State) (x : TraceCapture) : State := { s with trace := x }
def State.setLink (s : State) (x : LinkIface) : State := { s with link := x }
def State.setEvents (s : State) (x : EventLatch) : State := { s with events := x }
def State.setFiring (s : State) (x : Firing) : State := { s with firing := x }

/-- An event sets its latch, masked or not (R178). -/
def State.raise (s : State) (e : Event) : State :=
  s.setEvents { s.events with latched := s.events.latched ||| e.mask }

/-- The profile named by a cylinder's record. -/
def State.profileOf (s : State) (c : Cyl) : ProfileRecord := s.tables.profile.get (s.cylOf c).profile

/-! ### Arithmetic -/

/-- Forward distance from angle `x` to angle `y` (Conventions, "Angle"). -/
def fwd (x y : Nat) : Nat := (y + (Config.cycle - x % Config.cycle)) % Config.cycle

/-- The cycle angle of an integer number of counts. -/
def wrapAngle (x : Int) : Nat := (x % (Config.cycle : Int)).toNat

/-- Quotient rounded toward plus infinity. -/
def ceilDiv (n d : Nat) : Nat := (n + d - 1) / d

/-! ### Cylinders (R27, R31) -/

/-- Outputs 1 to 4 are in bank A, 5 to 8 in bank B. -/
def CylRecord.bank (r : CylRecord) : Bank := if r.output.val < 4 then .bankA else .bankB

/-- The bank a cylinder's shots go to. -/
def State.bankOf (s : State) (c : Cyl) : Bank := (s.cylOf c).bank

/-- R31: window open. -/
def CylRecord.openAngle (r : CylRecord) : Nat := wrapAngle ((r.tdc : Int) - r.windowOpen)

/-- R31: window close. -/
def CylRecord.closeAngle (r : CylRecord) : Nat := (r.tdc + r.windowClose) % Config.cycle

/-- R31: window span. -/
def CylRecord.span (r : CylRecord) : Nat := r.windowOpen + r.windowClose

/-- R31, R56: freeze angle. -/
def CylRecord.freezeAngle (r : CylRecord) : Nat := wrapAngle ((r.tdc : Int) - r.windowOpen - r.freezeLead)

/-- R31: total lead. -/
def CylRecord.totalLead (r : CylRecord) : Nat := r.freezeLead + r.span

/-! ### The wheel and the angle reading -/

/-- The pitch P = 5760 / N (R25). -/
def WheelRecord.pitch (w : WheelRecord) : Nat := Config.revolution / w.n

/-- The index after which the gap follows. -/
def WheelRecord.lastIndex (w : WheelRecord) : Nat := w.n - w.m - 1

/-- The interval that begins at a tooth of this index is the gap interval. -/
def WheelRecord.gapAfter (w : WheelRecord) (index : Nat) : Bool := index == w.lastIndex

/-- Pitches the interval that begins at a tooth of this index spans. -/
def WheelRecord.pitches (w : WheelRecord) (index : Nat) : Nat := if w.gapAfter index then w.m + 1 else 1

/-- R18: the span S of the interval a tooth begins. -/
def WheelRecord.spanAt (w : WheelRecord) (index : Nat) : Nat := w.pitches index * w.pitch

/-- R9: the angle of the last accepted tooth, modulo the cycle in FULL_SYNC and modulo the revolution in
CRANK_SYNC. -/
def toothAngle (w : WheelRecord) (k : AngleClock) : Nat :=
  match k.sync with
  | .fullSync => (w.refAngle + k.index * w.pitch + (if k.rev1 then Config.revolution else 0)) % Config.cycle
  | _ => (w.refAngle + k.index * w.pitch) % Config.revolution

/-- R21: counts gone since the last tooth by the prediction, held below the span. -/
def anglePast (w : WheelRecord) (k : AngleClock) (now : Nat) : Nat :=
  min (w.spanAt k.index - 1) ((now - k.lastTooth.getD now) * w.pitch / k.tpred)

/-- R21: the angle reading at the present instant. -/
def State.angleReading (s : State) : Nat :=
  match s.clock.sync with
  | .stalled => s.clock.held
  | .seeking => 0
  | .crankSync => (toothAngle s.tables.wheel s.clock + anglePast s.tables.wheel s.clock s.timebase) % Config.revolution
  | .fullSync => (toothAngle s.tables.wheel s.clock + anglePast s.tables.wheel s.clock s.timebase) % Config.cycle

/-! ### Output lines -/

/-- TECHO (R22). -/
def State.techo (s : State) : Bool := s.clock.techo.isSome

/-- CMARK (R23). -/
def State.cmark (s : State) : Bool := s.clock.cmark.isSome

/-- INT (R179). -/
def State.intLine (s : State) : Bool := s.events.int

/-- The gate line of an injector output, number less 1 (R131). -/
def State.gateLine (s : State) (out : Fin 8) : Bool :=
  (s.drive.a.output == some out && s.drive.a.gate) || (s.drive.b.output == some out && s.drive.b.gate)

/-- The boost switch line of a bank (R131). -/
def State.boostLine (s : State) (k : Bank) : Bool := (s.driveOf k).boostSw

/-! ### Sense inputs -/

/-- R146: samples of a bank's current that fall at one instant read one count: the first reading at an
instant stands for the rest of it. -/
def State.senseValue (s : State) (k : Bank) (x : Byte) : Byte :=
  match s.sense.get k with
  | some (t, v) => if t = s.timebase then v else x
  | none => x

/-- The reading of a bank's sense input is kept with its instant. -/
def State.readSense (s : State) (k : Bank) (x : Byte) : State :=
  { s with sense := s.sense.set k (some (s.timebase, s.senseValue k x)) }

/-! ### Patterns and the swap (R34, R39) -/

/-- A page by number. -/
def TableStore.page (t : TableStore) (page1 : Bool) : List (List PatternEntry) :=
  if page1 then t.page1 else t.page0

/-- The pattern of an id on a page. -/
def TableStore.pattern (t : TableStore) (page1 : Bool) (i : Fin 16) : List PatternEntry :=
  (t.page page1).getD i.val []

/-- R37: a pattern of one page replaced. -/
def TableStore.setPattern (t : TableStore) (page1 : Bool) (i : Fin 16) (es : List PatternEntry) : TableStore :=
  if page1 then { t with page1 := t.page1.set i.val es } else { t with page0 := t.page0.set i.val es }

/-- R38: the pages exchange their roles, and no swap is pending. -/
def TableStore.swapPages (t : TableStore) : TableStore :=
  { t with activePage1 := !t.activePage1, swapPending := false }

/-- R39: a pending swap is taken; with none pending nothing changes. -/
def State.takePendingSwap (s : State) : State :=
  if s.tables.swapPending then s.setTables s.tables.swapPages else s

end Sys2Proof.Machine
end

