-- ==== Sys2Proof/Machine/Link.lean ====
section
/-! DEFINITION. The Link Interface (chapter 9): the bits and bytes of a transaction in both directions, its edges at the
pins, the checks of a frame in their order, the silence timer's restart, and the response. -/

namespace Sys2Proof

/-! ### Bits and bytes (R165) -/

/-- A byte from its bits, most significant first. -/
def byteOfBits (a b c d e f g h : Bool) : Byte :=
  BitVec.ofNat 8 (128 * a.toNat + 64 * b.toNat + 32 * c.toNat + 16 * d.toNat + 8 * e.toNat + 4 * f.toNat +
    2 * g.toNat + h.toNat)

/-- The bits of a byte, most significant first. -/
def bitsOfByte (x : Byte) : List Bool :=
  [x.getLsbD 7, x.getLsbD 6, x.getLsbD 5, x.getLsbD 4, x.getLsbD 3, x.getLsbD 2, x.getLsbD 1, x.getLsbD 0]

/-- The whole bytes of a transaction, and the bits of a byte begun but not finished. -/
def bytesOfBits : List Bool → List Byte × List Bool
  | a :: b :: c :: d :: e :: f :: g :: h :: rest =>
    (byteOfBits a b c d e f g h :: (bytesOfBits rest).1, (bytesOfBits rest).2)
  | odd => ([], odd)

/-- The bits of whole bytes. -/
def bitsOfBytes : List Byte → List Bool
  | [] => []
  | x :: xs => bitsOfByte x ++ bitsOfBytes xs

end Sys2Proof

namespace Sys2Proof.Machine

/-! ### The frame -/

/-- R166: the parameter bytes of a frame. -/
def frameParams (f : Frame) : List Byte := f.rest.take f.len.toNat

/-- R166: the CRC byte of a complete frame. -/
def frameCrc (f : Frame) : Byte := f.rest.getD f.len.toNat 0

/-- R166: the whole frame has been received. -/
def frameComplete (f : Frame) : Bool := decide (f.len.toNat < f.rest.length)

/-- R168, R170: the CRC check. -/
def frameChecks (code : Byte) (f : Frame) : Bool := crc8 (code :: f.len :: frameParams f) == frameCrc f

/-- The whole bytes of a transaction that carries a frame. -/
def frameBytes (code : Byte) (f : Frame) : List Byte := code :: f.len :: f.rest

/-- The frame a command with these parameters is sent in (section 11.1). -/
def makeFrame (code : Byte) (params : List Byte) : Frame :=
  let len := byte params.length
  { len := len, rest := params ++ [crc8 (code :: len :: params)] }

/-! ### The transaction -/

/-- R166: how many of the bytes received belong to the frame. -/
def frameSpan : List Byte → Nat
  | _ :: l :: _ => l.toNat + 3
  | _ => 2

/-- R165, R169: a bit of the response as LDO carries it: its bytes in order, most significant bit first, and zeros after its
end. -/
def Response.bit (r : Response) (i : Nat) : Bool := (bitsOfBytes r.bytes).getD i false

/-- R165, R169: the bits LDO carries at the rising edges of a transaction, of which there are `edges`: the response byte for
byte, most significant bit first, and zeros once it is exhausted. -/
def Response.clockedOut (r : Response) (edges : Nat) : List Bool :=
  (bitsOfBytes r.bytes ++ List.replicate edges false).take edges

/-- R166: the receive buffer and the byte count with these whole bytes received. -/
def LinkIface.holding (l : LinkIface) (bytes : List Byte) : LinkIface :=
  { l with rx := (bytes.take (frameSpan bytes)).take Config.rxMax, count := bytes.length }

/-- R165, R166, R169: a whole transaction, from the fall of LSEL to its rise. Its bytes go in, and the pending response goes
out with them, a bit at every rising edge, those of a byte begun but not finished among them. The receive buffer and the
byte count keep what they hold until the next transaction: DESIGN CHOICE (log entry 30). That it takes the place of a
transaction in progress at the pins: DESIGN CHOICE (log entry 32). -/
def LinkIface.clocked (l : LinkIface) (bytes : List Byte) (odd : List Bool) : LinkIface :=
  { l.holding bytes with ldo := l.response.clockedOut (8 * bytes.length + odd.length), select := .released }

/-- The whole bytes LDO carried in the last transaction (R165). -/
def LinkIface.ldoBytes (l : LinkIface) : List Byte := (bytesOfBits l.ldo).1

/-! ### The pins (R165) -/

/-- The level LDO is driven to; none while it is not driven, which is while no transaction is in progress. -/
def LinkIface.ldoPin (l : LinkIface) : Option Bool :=
  match l.select with
  | .transaction _ out => some (l.response.bit out)
  | .missed => none
  | .released => none

/-- R165: LSEL falls. A transaction begins, with nothing received and the first bit of the response on LDO. -/
def LinkIface.selectFall (l : LinkIface) : LinkIface :=
  match l.select with
  | .released => { l.holding [] with ldo := [], select := .transaction [] 0 }
  | .missed => l
  | .transaction _ _ => l

/-- R165: LCLK rises. In a transaction LDI is sampled, and every eighth bit makes a byte; the bit on LDO has gone out. -/
def LinkIface.clockRise (l : LinkIface) (ldi : Bool) : LinkIface :=
  match l.select with
  | .transaction bits out =>
    { l.holding (bytesOfBits (bits ++ [ldi])).1 with
      ldo := l.ldo ++ [l.response.bit out], select := .transaction (bits ++ [ldi]) out }
  | .missed => l
  | .released => l

/-- R165: LCLK falls. In a transaction LDO changes to the bit for the next rising edge. -/
def LinkIface.clockFall (l : LinkIface) : LinkIface :=
  match l.select with
  | .transaction bits _ => { l with select := .transaction bits bits.length }
  | .missed => l
  | .released => l

/-- R165: what the end of a power-on reset leaves of the select: a transaction in progress is not seen, and with LSEL low
the next one begins at the next fall. -/
def Select.afterPowerOn : Select → Select
  | .released => .released
  | .missed => .missed
  | .transaction _ _ => .missed

/-- The edges of a whole transaction that carries these bits on LDI. -/
def transactionEdges (bits : List Bool) : List LinkEdge :=
  .selectFall :: (bits.flatMap fun b => [.clockRise b, .clockFall]) ++ [.selectRise]

/-! ### The transaction as one command -/

/-- The transaction at the Link Interface: its whole bytes, and the bits of a byte begun but not finished. -/
def clockTransaction (s : State) (bytes : List Byte) (odd : List Bool) : State := s.setLink (s.link.clocked bytes odd)

/-- R169: the response to a frame becomes the pending one. -/
def respond (s : State) (code : Byte) (r : Result) (data : List Byte) : State :=
  s.setLink { s.link with response := { code := code, result := r, data := data } }

/-- R173: a running silence timer restarts. -/
def restartSilence (s : State) : State :=
  s.setLink { s.link with silence := s.link.silence.map fun _ => s.timebase }

/-! ### Owners -/

/-- What an owning block answers: the state after, the result, and the data of the reply. -/
structure Reply where
  state  : State
  result : Result
  data   : List Byte
deriving DecidableEq, Repr

/-- A frame refused by its owner has no effect (R170). -/
def refuse (s : State) (r : Result) : Reply := { state := s, result := r, data := [] }

/-- A frame taken with no data. -/
def took (s : State) : Reply := { state := s, result := .ok, data := [] }

/-- A frame taken with data. -/
def answer (s : State) (data : List Byte) : Reply := { state := s, result := .ok, data := data }

/-- R167: a broken transaction. The bits of a byte not finished are discarded. -/
def breakTransaction (s : State) (bytes : List Byte) (odd : List Bool) : State :=
  respond (clockTransaction s bytes odd) (bytes.headD 0) .framing []

/-- R170, checks 3 to 5: a frame whose CRC and code have passed. -/
def dispatchFrame (s : State) (code : Byte) (f : Frame) (admits : List Byte → Bool)
    (owner : State → List Byte → Reply) : State :=
  if 60 < f.len.toNat ∨ admits (frameParams f) = false then respond s code .badLength []
  else if s.link.busyUntil.isSome then respond s code .busy []
  else
    let r := owner s (frameParams f)
    respond r.state code r.result r.data

/-- R165 to R173: a transaction that carries a frame of a known command. -/
def takeFrame (s : State) (code : Byte) (f : Frame) (admits : List Byte → Bool)
    (owner : State → List Byte → Reply) : State :=
  if frameComplete f then
    let s := clockTransaction s (frameBytes code f) f.odd
    if frameChecks code f then dispatchFrame (restartSilence s) code f admits owner
    else respond s code .badCrc []
  else breakTransaction s (frameBytes code f) f.odd

/-- R170: a transaction that carries a frame whose code names no command. -/
def takeUnknown (s : State) (code : Byte) (f : Frame) : State :=
  if frameComplete f then
    let s := clockTransaction s (frameBytes code f) f.odd
    if frameChecks code f then respond (restartSilence s) code .unknown []
    else respond s code .badCrc []
  else breakTransaction s (frameBytes code f) f.odd

/-! ### Admitted lengths (section 11.1) -/

/-- The command admits one length. -/
def exactly (n : Nat) (ps : List Byte) : Bool := ps.length == n

/-- R36, R187: a LOAD_PATTERN length matches its entry count, at most six. -/
def admitsPattern (ps : List Byte) : Bool := decide (u8 ps 1 ≤ 6) && ps.length == 2 + 9 * u8 ps 1

/-- R53: a DEMAND length makes 1 to 8 whole entries. -/
def admitsDemand (ps : List Byte) : Bool := ps.length % 5 == 0 && within 1 8 (ps.length / 5)

end Sys2Proof.Machine
end

