-- ==== Sys2Proof/Decode.lean ====
section
/-! DEFINITION. Decoding. No row of the opcode table gives bits, so no word spells a command. A transaction of the
control link does spell one: the bits LDI carries, most significant first (R165), are cut into bytes and read as a
frame (R166); the way back is `encodeTransaction`. -/

namespace Sys2Proof

open Sys2Proof.Machine

/-- The command a word spells by the table's bits: the table gives no row any bits. -/
def decodeTableWord (_ _ : Nat) : Option Instr := none

/-! ### Frames to commands (section 11.1) -/

/-- The row of a CUT frame: its operation where the frame carries one, else CUT_TEST, whose meaning refuses it. -/
def cutRow (f : Frame) : Frame → Instr :=
  match frameParams f with
  | [_, op] => if op = 1 then .cutSet else if op = 2 then .cutClear else if op = 3 then .cutToggle else .cutTest
  | _ => .cutTest

/-- The command codes. -/
def codeTable : List (Byte × (Frame → Instr)) :=
  [(0x01, .nop), (0x02, .reset), (0x03, .readId), (0x10, .loadWheel), (0x11, .loadCyl), (0x12, .loadProfile),
   (0x13, .loadPattern), (0x14, .swap), (0x15, .loadLimits), (0x16, .readTable)] ++
  [(0x20, .demand), (0x21, .arm), (0x22, .disarm), (0x23, .stop), (0x30, fun f => cutRow f f),
   (0x31, .clearFault), (0x32, .service), (0x38, .traceArm), (0x39, .traceRead)] ++
  [(0x40, .readAngle), (0x41, .readTime), (0x42, .readStatus), (0x43, .readCyl), (0x44, .readReport),
   (0x45, .readQueue), (0x46, .readCounters), (0x47, .readEvents), (0x48, .setMask)]

/-- The command of a code, if the code names one. -/
def commandOf (code : Byte) : Option (Frame → Instr) := codeTable.lookup code

/-- The command a transaction of whole bytes and odd bits carries (R166, R167, R170). -/
def decodeBytes (bytes : List Byte) (odd : List Bool) : Instr :=
  match bytes with
  | code :: len :: rest =>
    let f : Frame := { len := len, rest := rest, odd := odd }
    if frameComplete f then
      match commandOf code with
      | some cmd => cmd f
      | none => .unknown code f
    else .brokenTransaction bytes odd
  | _ => .brokenTransaction bytes odd

/-- The command the bits on LDI carry in one transaction. -/
def decodeTransaction (bits : List Bool) : Instr := decodeBytes (bytesOfBits bits).1 (bytesOfBits bits).2

/-! ### Commands to bits -/

/-- The code, length byte, further bytes and odd bits of a command that comes over the link. -/
def linkParts : Instr → Option (List Byte × List Bool)
  | .brokenTransaction bytes odd => some (bytes, odd)
  | .unknown code f => some (frameBytes code f, f.odd)
  | .nop f => some (frameBytes 0x01 f, f.odd)
  | .reset f => some (frameBytes 0x02 f, f.odd)
  | .readId f => some (frameBytes 0x03 f, f.odd)
  | .loadWheel f => some (frameBytes 0x10 f, f.odd)
  | .loadCyl f => some (frameBytes 0x11 f, f.odd)
  | .loadProfile f => some (frameBytes 0x12 f, f.odd)
  | .loadPattern f => some (frameBytes 0x13 f, f.odd)
  | .swap f => some (frameBytes 0x14 f, f.odd)
  | .loadLimits f => some (frameBytes 0x15 f, f.odd)
  | .readTable f => some (frameBytes 0x16 f, f.odd)
  | .demand f => some (frameBytes 0x20 f, f.odd)
  | .arm f => some (frameBytes 0x21 f, f.odd)
  | .disarm f => some (frameBytes 0x22 f, f.odd)
  | .stop f => some (frameBytes 0x23 f, f.odd)
  | .cutSet f => some (frameBytes 0x30 f, f.odd)
  | .cutClear f => some (frameBytes 0x30 f, f.odd)
  | .cutToggle f => some (frameBytes 0x30 f, f.odd)
  | .cutTest f => some (frameBytes 0x30 f, f.odd)
  | .clearFault f => some (frameBytes 0x31 f, f.odd)
  | .service f => some (frameBytes 0x32 f, f.odd)
  | .traceArm f => some (frameBytes 0x38 f, f.odd)
  | .traceRead f => some (frameBytes 0x39 f, f.odd)
  | .readAngle f => some (frameBytes 0x40 f, f.odd)
  | .readTime f => some (frameBytes 0x41 f, f.odd)
  | .readStatus f => some (frameBytes 0x42 f, f.odd)
  | .readCyl f => some (frameBytes 0x43 f, f.odd)
  | .readReport f => some (frameBytes 0x44 f, f.odd)
  | .readQueue f => some (frameBytes 0x45 f, f.odd)
  | .readCounters f => some (frameBytes 0x46 f, f.odd)
  | .readEvents f => some (frameBytes 0x47 f, f.odd)
  | .setMask f => some (frameBytes 0x48 f, f.odd)
  | .powerOnReset => none
  | .busyPeriodEnd => none
  | .crankEdge _ _ => none
  | .camEdge _ => none
  | .deadlineExpiry _ => none
  | .stall => none
  | .techoPulseEnd => none
  | .cmarkPulseEnd => none
  | .timedInstant _ _ => none
  | .chainShotDue _ _ => none
  | .gapEnd _ => none
  | .deferDeadline _ _ => none
  | .scheduledEnd _ => none
  | .windowClose _ _ => none
  | .driveSample _ _ => none
  | .traceSample _ => none
  | .rechargeStep => none
  | .supplySample _ => none
  | .linkSilence => none

/-- The bits LDI carries for a command that comes over the link; none for a pin event or a timed event. -/
def encodeTransaction (i : Instr) : Option (List Bool) := (linkParts i).map fun p => bitsOfBytes p.1 ++ p.2

end Sys2Proof
end

