-- ==== Sys2Proof/Machine/Supervise.lean ====
section
/-! DEFINITION. Plans and cycle reports of the Cylinder Supervisor (R148, R152 to R155), the mode and activity it
reports (R149), and the end of draining (R48). -/

namespace Sys2Proof.Machine

/-! ### Places -/

/-- R152: the outcome written into the first place of that tag that has none. -/
def fillPlaces (tag : Byte) (o : PlaceOutcome) : List Place → List Place
  | [] => []
  | p :: ps =>
    if p.tag = tag ∧ p.outcome = none then { p with outcome := some o } :: ps
    else p :: fillPlaces tag o ps

/-- R152: the DEFERRED mark set on the first place of that tag without an outcome. -/
def markPlaces (tag : Byte) : List Place → List Place
  | [] => []
  | p :: ps =>
    if p.tag = tag ∧ p.outcome = none then { p with flags := { p.flags with deferred := true } } :: ps
    else p :: markPlaces tag ps

/-- R153: every place has its outcome, and the Planner has finished. -/
def Plan.complete (p : Plan) : Bool := !p.making && p.places.all fun x => x.outcome.isSome

/-- READ_CYL: places still without an outcome (R184). -/
def Plan.openCount (p : Plan) : Nat := (p.places.filter fun x => x.outcome.isNone).length

/-- R153: the entry of a place that has its outcome. -/
def Place.toEntry (p : Place) : Option ReportEntry :=
  p.outcome.map fun o =>
    { entry := p.entry, rep := p.rep, cls := p.cls, outcome := o.outcome, fault := o.fault,
      flags := p.flags.union o.flags, startAngle := o.startAngle, onTime := o.onTime }

/-- The last eight of a list, or all of it when it has eight or fewer. -/
def lastEight {α : Type} (l : List α) : List α := l.drop (l.length - 8)

/-- R153: the entries of the report of a plan. -/
def Plan.entries (p : Plan) : List ReportEntry :=
  match p.kind with
  | .angle => p.places.filterMap Place.toEntry
  | .service => lastEight (p.places.filterMap Place.toEntry)

/-- R154: the summary code of a plan's report. -/
def Plan.summary (p : Plan) : CondCode :=
  match p.kind with
  | .service => .serviceDone
  | .angle => if p.entries = [] then p.emptySummary else entriesSummary p.entries

/-- R153: the report a plan is published as. -/
def Plan.report (p : Plan) : Report where
  kind := p.kind
  freezes := p.freezes
  demand := p.demand
  overspeed := p.overspeed
  summary := p.summary
  serviceCount := p.serviceCount
  entries := p.entries

/-! ### Publication -/

/-- R155: a publication sets the condition code unless its summary is NONE. -/
def codeAfter (summary old : CondCode) : CondCode := if summary = .none then old else summary

/-- R153, R155, R161: a plan is published, its plan closed, and the end of a service chain returns the service
state to none. -/
def publish (s : State) (c : Cyl) (p : Plan) : State :=
  let x := s.supOf c
  let s := s.setSup c { x with report := some p.report, plan := none, code := codeAfter p.summary x.code }
  match p.kind with
  | .angle => s
  | .service => { s with service := none }

/-- R153: a plan that has become complete is published at that instant. -/
def publishIfComplete (s : State) (c : Cyl) : State :=
  match (s.supOf c).plan with
  | none => s
  | some p => if p.complete then publish s c p else s

/-- The open plan of a cylinder replaced. -/
def setPlan (s : State) (c : Cyl) (p : Option Plan) : State := s.setSup c { s.supOf c with plan := p }

/-- R112, R152: an outcome reaches the open plan of its cylinder. -/
def writeOutcome (s : State) (c : Cyl) (tag : Byte) (o : PlaceOutcome) : State :=
  match (s.supOf c).plan with
  | none => s
  | some p => publishIfComplete (setPlan s c (some { p with places := fillPlaces tag o p.places })) c

/-- R152: the DEFERRED mark reaches the open plan. -/
def markDeferred (s : State) (c : Cyl) (tag : Byte) : State :=
  match (s.supOf c).plan with
  | none => s
  | some p => setPlan s c (some { p with places := markPlaces tag p.places })

/-- The outcome of a shot that never opened: start angle and on-time 0 (R112). -/
def PlaceOutcome.unopened (o : ShotOutcome) : PlaceOutcome :=
  { outcome := o, fault := none, startAngle := 0, onTime := 0, flags := {} }

/-! ### Firing becomes SAFE (R39, R48, R173) -/

/-- Firing becomes SAFE: a pending swap is taken and the silence timer stops. -/
def goSafe (s : State) : State :=
  let s := (s.setFiring .safe).takePendingSwap
  s.setLink { s.link with silence := none }

/-- R48: both queues are empty and neither bank has an active pulse. -/
def drained (s : State) : Bool :=
  s.sched.a.queue.isEmpty && s.sched.b.queue.isEmpty && s.sched.a.active.isNone && s.sched.b.active.isNone

/-- R48: the test of the Demand Stage while DRAINING. -/
def drainTest (s : State) : State := if s.firing = .draining ∧ drained s then goSafe s else s

/-! ### Mode and activity (R149) -/

/-- Mode codes of section 11.2. -/
inductive Mode where
  | unused
  | locked
  | cut
  | service
  | active
deriving DecidableEq, Repr

def Mode.code : Mode → Nat
  | .unused => 0
  | .locked => 1
  | .cut => 2
  | .service => 3
  | .active => 4

/-- Activity codes of section 11.2. -/
inductive Activity where
  | idle
  | waiting
  | scheduled
  | firing
deriving DecidableEq, Repr

def Activity.code : Activity → Nat
  | .idle => 0
  | .waiting => 1
  | .scheduled => 2
  | .firing => 3

/-- R149: the first line of the mode table that holds. -/
def modeOf (s : State) (c : Cyl) : Mode :=
  if !(s.cylOf c).enabled then .unused
  else if (s.supOf c).locked then .locked
  else if (s.supOf c).cut then .cut
  else if s.service = some c then .service
  else .active

/-- The active pulse of the cylinder's bank belongs to the cylinder. -/
def pulseIs (s : State) (k : Bank) (c : Cyl) : Bool :=
  match (s.schedOf k).active with
  | none => false
  | some p => p.cyl == c

/-- R149: the activity, IDLE in any mode other than ACTIVE. -/
def activityOf (s : State) (c : Cyl) : Activity :=
  if modeOf s c ≠ .active then .idle
  else if pulseIs s (s.bankOf c) c then .firing
  else if (s.schedOf (s.bankOf c)).queue.any (fun x => x.cyl == c) then .scheduled
  else if s.firing = .armed then .waiting
  else .idle

end Sys2Proof.Machine
end

