-- ==== Sys2Proof/Machine/Bank.lean ====
section
/-! DEFINITION. The shared operations of the Bank Schedulers (chapter 5), with what a pulse's start and end do in
the Drive Stage, the Boost Reservoir, the Trace Capture and the Cylinder Supervisor. -/

namespace Sys2Proof.Machine

/-! ### The queue -/

/-- The queued shot of a tag. -/
def findShot (tag : Byte) (q : List Shot) : Option Shot := q.find? fun x => x.tag == tag

/-- The queue without the shot of a tag. -/
def eraseShot (tag : Byte) (q : List Shot) : List Shot := q.eraseP fun x => x.tag == tag

/-- The queue with the shot of a tag changed; the order stays (R89). -/
def updateShot (tag : Byte) (f : Shot → Shot) (q : List Shot) : List Shot :=
  q.map fun x => if x.tag = tag then f x else x

/-- The shot is anchored on the end of the shot of that tag. -/
def Shot.follows (x : Shot) (tag : Byte) : Bool :=
  match x.anchor with
  | .chain (some t) _ => t == tag
  | .chain none _ => false
  | .angle _ => false

/-- The gap of a chained shot, in ticks. -/
def Shot.gapTicks (x : Shot) : Nat :=
  match x.anchor with
  | .chain _ g => g
  | .angle _ => 0

/-- The shot is anchored on an angle. -/
def Shot.isAngle (x : Shot) : Bool :=
  match x.anchor with
  | .angle _ => true
  | .chain _ _ => false

/-- The queue of a bank replaced. -/
def setQueue (s : State) (k : Bank) (q : List Shot) : State := s.setSched k { s.schedOf k with queue := q }

/-! ### Removal with an outcome (R93, R112, R113) -/

/-- R113: the counter a removal moves. -/
def Sched.countRemoval (x : Sched) (o : ShotOutcome) : Sched :=
  if o.isShed then { x with shed := x.shed + 1 } else { x with cancelled := x.cancelled + 1 }

/-- R112: a removal with an outcome counted as shed raises SHED. -/
def raiseIfShed (s : State) (o : ShotOutcome) : State := if o.isShed then s.raise .shed else s

/-- R112: a queued shot is removed with its outcome. A tag that names no queued shot changes nothing. -/
def dropShot (k : Bank) (s : State) (t : Byte × ShotOutcome) : State :=
  match findShot t.1 (s.schedOf k).queue with
  | none => s
  | some x =>
    let q := s.schedOf k
    let s := s.setSched k { q.countRemoval t.2 with queue := eraseShot t.1 q.queue }
    drainTest (writeOutcome (raiseIfShed s t.2) x.cyl t.1 (.unopened t.2))

/-- R93: the outcome a successor takes from a predecessor removed with an outcome. -/
def successorOutcome (o : ShotOutcome) (sameEntry : Bool) : ShotOutcome :=
  if o = .broken ∧ sameEntry then .broken else .shedChain

/-- R93: the shots whose chain leads back to a tag, each with the outcome it takes; `n` bounds the length
of a chain. -/
def chainDrops : Nat → List Shot → Byte → Nat → ShotOutcome → List (Byte × ShotOutcome)
  | 0, _, _, _, _ => []
  | n + 1, q, tag, entry, o =>
    (q.filter fun x => x.follows tag).flatMap fun x =>
      let o' := successorOutcome o (x.entry == entry)
      (x.tag, o') :: chainDrops n q x.tag x.entry o'

/-- R93: a queued shot is removed, and its successors after it. -/
def dropWithChain (k : Bank) (s : State) (tag : Byte) (o : ShotOutcome) : State :=
  let q := (s.schedOf k).queue
  match findShot tag q with
  | none => s
  | some x => ((tag, o) :: chainDrops q.length q tag x.entry o).foldl (dropShot k) s

/-- The shots of a bank's queue that satisfy a test are removed with one outcome. -/
def cancelShots (k : Bank) (s : State) (p : Shot → Bool) (o : ShotOutcome) : State :=
  (((s.schedOf k).queue.filter p).map fun x => (x.tag, o)).foldl (dropShot k) s

/-! ### Window tracks (R94) -/

/-- The track of a cylinder on a bank. -/
def trackOf (s : State) (k : Bank) (c : Cyl) : Option Track := (s.schedOf k).tracks.find? fun t => t.cyl == c

/-- A cylinder's track is discarded. -/
def discardTrack (s : State) (k : Bank) (c : Cyl) : State :=
  s.setSched k { s.schedOf k with tracks := (s.schedOf k).tracks.filter fun t => t.cyl != c }

/-- R92, R102: the cylinder's track is CLOSED, or the angle reading lies at or beyond the window close. -/
def windowPassed (s : State) (k : Bank) (c : Cyl) : Bool :=
  (trackOf s k c).any (fun t => t.state == .closed) ||
  decide ((s.cylOf c).span ≤ fwd (s.cylOf c).openAngle s.angleReading)

/-- R104: the close instant a pulse of the cylinder takes at its start, if the track is CLOSING. -/
def closingInstant (s : State) (k : Bank) (c : Cyl) : Option Nat :=
  match trackOf s k c with
  | some t => match t.state with
    | .closing i => some i
    | .tracking => none
    | .closed => none
  | none => none

/-! ### The end of a pulse (R105, R118, R138, R156) -/

/-- R118: recuperation, clipped at the capacity. -/
def creditRecup (s : State) (k : Bank) : State :=
  s.setLevel k (min (s.tables.limits.capacity.get k) (s.levelOf k + (s.driveOf k).profile.recup))

/-- R138: the Drive Stage at a pulse end. The phase entry time keeps the earlier phase's instant: DEDUCED (log entry 9). -/
def DriveStage.quenched (d : DriveStage) : DriveStage :=
  { d with phase := .quench, output := none, gate := false, boostSw := false }

/-- R105: the scheduler at a pulse end. -/
def Sched.ended (x : Sched) (now : Nat) : Sched := { x with active := none, cond := .gap, lastEnd := some now }

/-- R105: what a pulse writes into the plan at its end. -/
def Pulse.result (p : Pulse) (now : Nat) (o : ShotOutcome) (fault : Option FaultKind) : PlaceOutcome where
  outcome := o
  fault := fault
  startAngle := p.startAngle
  onTime := (now - p.startTime) / 10
  flags := { p.flags with preempted := p.flags.preempted || o == .firedPreempted }

/-- R156: an end other than FAULTED sets the fault count to 0 and clears the first-pulse flag. -/
def countEnd (s : State) (c : Cyl) (o : ShotOutcome) : State :=
  if o = .faulted then s else s.setSup c { s.supOf c with faults := 0, firstPulse := false }

/-- R92: the successors of a pulse that fired become TIMED with their due instant. -/
def timeSuccessors (s : State) (k : Bank) (tag : Byte) : State :=
  setQueue s k ((s.schedOf k).queue.map fun x =>
    if x.follows tag then { x with state := .timed, due := some (s.timebase + x.gapTicks) } else x)

/-- R93: what the end of a pulse does to its successors. The close sweep, the faults and the cancellations
remove the cylinder's shots themselves. -/
def followEnd (s : State) (k : Bank) (tag : Byte) (o : ShotOutcome) : State :=
  if o = .fired ∨ o = .firedDegraded then timeSuccessors s k tag
  else if o = .firedPreempted then
    (chainDrops (s.schedOf k).queue.length (s.schedOf k).queue tag 0 .firedPreempted).foldl (dropShot k) s
  else s

/-- R105: the active pulse of a bank ends with an outcome; with no pulse on nothing changes. -/
def endPulse (k : Bank) (s : State) (o : ShotOutcome) (fault : Option FaultKind) : State :=
  match (s.schedOf k).active with
  | none => s
  | some p =>
    let s := creditRecup s k
    let s := s.setDrive k (s.driveOf k).quenched
    let s := s.setSched k ((s.schedOf k).ended s.timebase)
    let s := countEnd (writeOutcome s p.cyl p.tag (p.result s.timebase o fault)) p.cyl o
    drainTest (followEnd s k p.tag o)

/-! ### The start of a pulse (R102 to R104, R133, R146) -/

/-- What the three tests at a start instant find. -/
inductive StartTest where
  | refused (o : ShotOutcome)
  | boosted
  | degraded
deriving DecidableEq, Repr

/-- R102, R103: the window, the break condition and the boost, in that order. -/
def startTest (s : State) (k : Bank) (x : Shot) : StartTest :=
  if !x.flags.service && windowPassed s k x.cyl then .refused .shedWindow
  else if x.lowBoost && decide (s.levelOf k < s.tables.limits.lowWater) then .refused .broken
  else if (s.profileOf x.cyl).boostCost ≤ s.levelOf k then .boosted
  else if x.cls = .main then .degraded
  else .refused .shedBoost

/-- R133: the profile copy. -/
def ProfileRecord.copy (p : ProfileRecord) : ProfileCopy :=
  { peak := p.peak, hold := p.hold, short := p.short, openDetect := p.openDetect, boostMax := p.boostMax,
    peakHold := p.peakHold, recup := p.recup }

/-- R133: the Drive Stage at a pulse start. -/
def DriveStage.started (r : CylRecord) (p : ProfileRecord) (now : Nat) (degraded : Bool) : DriveStage where
  phase := if degraded then (if p.peakHold = 0 then .hold else .peak) else .boost
  output := some r.output
  degraded := degraded
  profile := p.copy
  startTime := now
  samples := 0
  gate := true
  boostSw := !degraded
  entryTime := now

/-- R104: the active pulse of a shot that opens. -/
def Shot.pulse (x : Shot) (now angle : Nat) (close : Option Nat) (degraded : Bool) : Pulse where
  tag := x.tag
  cyl := x.cyl
  cls := x.cls
  startTime := now
  startAngle := angle
  schedEnd := now + x.ticks
  windowClose := close
  flags := { x.flags with degraded := degraded }

/-- R146: the start of a pulse of the armed cylinder moves the trace to CAPTURING. -/
def traceStart (s : State) (k : Bank) (c : Cyl) : State :=
  if s.trace.state = .armed ∧ s.trace.cyl = cylNumber c then
    s.setTrace { s.trace with state := .capturing, bank := some k, start := some s.timebase }
  else s

/-- R104: a queued shot opens. -/
def openPulse (k : Bank) (s : State) (x : Shot) (degraded : Bool) : State :=
  let q := s.schedOf k
  let pulse := x.pulse s.timebase s.angleReading (closingInstant s k x.cyl) degraded
  let s := s.setSched k
    { q with queue := eraseShot x.tag q.queue, started := q.started + 1, active := some pulse, cond := .active }
  let s := s.setDrive k (.started (s.cylOf x.cyl) (s.profileOf x.cyl) s.timebase degraded)
  traceStart s k x.cyl

/-- R103: the charge of a boosted opening. -/
def chargeBoost (s : State) (k : Bank) (c : Cyl) : State :=
  s.setLevel k (s.levelOf k - (s.profileOf c).boostCost)

/-- Section 5.6: the shot is taken to its start instant; the Boolean says whether it opened. -/
def attemptStart (k : Bank) (s : State) (x : Shot) : State × Bool :=
  match startTest s k x with
  | .refused o => (dropWithChain k s x.tag o, false)
  | .boosted => (openPulse k (chargeBoost s k x.cyl) x false, true)
  | .degraded => (openPulse k s x true, true)

/-! ### Deferral (R99) -/

/-- R99: a waiting shot becomes DEFERRED; a deadline that has passed sheds it at once (R100). -/
def deferShot (k : Bank) (s : State) (tag : Byte) : State :=
  match findShot tag (s.schedOf k).queue with
  | none => s
  | some x =>
    let deadline := x.due.getD s.timebase + 10 * s.tables.limits.deferUs x.cls
    let s := setQueue s k (updateShot tag (fun y => { y with state := .deferred, deadline := some deadline })
      (s.schedOf k).queue)
    let s := markDeferred s x.cyl tag
    if deadline ≤ s.timebase then dropWithChain k s tag .shedConflict else s

/-- R100: when a pulse opens, every other waiting shot is judged against it; a shot already DEFERRED keeps
its deadline. -/
def deferRest (k : Bank) (s : State) : State :=
  (((s.schedOf k).queue.filter fun x => x.waiting && x.state != .deferred).map Shot.tag).foldl (deferShot k) s

/-! ### The arbiter (R100) -/

/-- R100: `x` is chosen before `y`, which stands earlier in the queue: a higher rank, or an equal rank and an
earlier due instant. -/
def Shot.beats (x y : Shot) : Bool :=
  decide (y.cls.rank < x.cls.rank) ||
  (x.cls.rank == y.cls.rank && decide (x.due.getD 0 < y.due.getD 0))

/-- R100: the choice among shots in queue order. -/
def bestWaiting : List Shot → Option Shot
  | [] => none
  | x :: xs =>
    match bestWaiting xs with
    | none => some x
    | some y => if y.beats x then some y else some x

/-- R100: the waiting shot the arbiter chooses. -/
def chooseWaiting (q : List Shot) : Option Shot := bestWaiting (q.filter fun x => x.waiting)

/-- R100: the arbiter chooses until a pulse opens or no shot is waiting; `n` bounds the choices. -/
def arbitrate : Nat → Bank → State → State
  | 0, _, s => s
  | n + 1, k, s =>
    match chooseWaiting (s.schedOf k).queue with
    | none => s
    | some x =>
      match attemptStart k s x with
      | (s', true) => deferRest k s'
      | (s', false) => arbitrate n k s'

/-- R100: the arbiter acts on an IDLE bank. -/
def runArbiter (k : Bank) (s : State) : State :=
  if (s.schedOf k).cond = .idle then arbitrate (s.schedOf k).queue.length k s else s

/-! ### The gap's end (R96) -/

/-- R96, R138: the gap runs out: the bank is IDLE, QUENCH gives way to OFF, and the arbiter acts. -/
def endGap (k : Bank) (s : State) : State :=
  let s := s.setSched k { s.schedOf k with cond := .idle }
  let s := s.setDrive k { s.driveOf k with phase := .off }
  runArbiter k s

/-- R96: with bank_gap_us at 0 the bank passes from ACTIVE to IDLE at the end itself. -/
def settleGap (k : Bank) (s : State) : State :=
  if (s.schedOf k).cond = .gap ∧ s.tables.limits.bankGapUs = 0 then endGap k s else s

/-- The gap's end of a bank in GAP has been reached (R96). -/
def gapOver (s : State) (k : Bank) : Bool :=
  match (s.schedOf k).lastEnd with
  | some t => decide (t + 10 * s.tables.limits.bankGapUs ≤ s.timebase)
  | none => true

/-! ### Falling due (R91, R92, R97 to R101) -/

/-- R97: a shot that falls due becomes a waiting shot, with its due instant recorded. -/
def markWaiting (k : Bank) (s : State) (tag : Byte) : State :=
  setQueue s k (updateShot tag (fun y => { y with state := .timed, due := some s.timebase, waiting := true })
    (s.schedOf k).queue)

/-- R92: a CHAIN shot of an angle plan falls due at or after its window close. -/
def duePassed (s : State) (k : Bank) (x : Shot) : Bool :=
  !x.isAngle && !x.flags.service && windowPassed s k x.cyl

/-- R98: a shot of class `x` preempts a pulse of class `y`. -/
def preempts (x y : PulseClass) : Bool :=
  decide (y.rank < x.rank) && (x == .main || x == .pilot) && y != .main

/-- R97 to R99: one shot falls due and is taken by the bank's condition. -/
def takeOneDue (k : Bank) (s : State) (tag : Byte) : State :=
  match findShot tag (s.schedOf k).queue with
  | none => s
  | some x =>
    if duePassed s k x then dropWithChain k s tag .shedWindow
    else
      let s := markWaiting k s tag
      match (s.schedOf k).active with
      | none => runArbiter k s
      | some p =>
        if preempts x.cls p.cls then settleGap k (endPulse k s .firedPreempted none)
        else deferShot k s tag

/-- The shot's due instant is known and has come, and it has not fallen due yet. -/
def Shot.dueNow (x : Shot) (now : Nat) : Bool :=
  !x.waiting && (match x.due with
    | some t => decide (t ≤ now)
    | none => false)

/-- R101: on an IDLE bank the shots of one instant are arbitrated together. -/
def takeTogether (k : Bank) (s : State) (tags : List Byte) : State :=
  let group := ((s.schedOf k).queue.filter fun x => !x.waiting && (tags.contains x.tag || x.dueNow s.timebase)).map Shot.tag
  let late := ((s.schedOf k).queue.filter fun x => group.contains x.tag && duePassed s k x).map Shot.tag
  let s := late.foldl (fun s t => dropWithChain k s t .shedWindow) s
  runArbiter k (group.foldl (markWaiting k) s)

/-- R97, R101: shots of one instant fall due, together on an IDLE bank, one after another otherwise. -/
def takeDue (k : Bank) (s : State) (tags : List Byte) : State :=
  if (s.schedOf k).cond = .idle then takeTogether k s tags else tags.foldl (takeOneDue k) s

/-! ### Window close (R95) -/

/-- R95: the sweep: a shot whose predecessor is removed by the same sweep, or is the pulse just ended, takes
SHED_CHAIN, every other one SHED_WINDOW. -/
def sweepOutcomes (q : List Shot) (c : Cyl) (ended : Option Byte) : List (Byte × ShotOutcome) :=
  let mine := q.filter fun x => x.cyl == c
  let gone := ended.toList ++ mine.map Shot.tag
  mine.map fun x => (x.tag, if gone.any (fun t => x.follows t) then .shedChain else .shedWindow)

/-- The tag of the bank's active pulse if it is an angle-scheduled pulse of the cylinder. -/
def anglePulseTag (s : State) (k : Bank) (c : Cyl) : Option Byte :=
  match (s.schedOf k).active with
  | none => none
  | some p => if p.cyl = c ∧ p.flags.service = false then some p.tag else none

/-- R95: a window track becomes CLOSED. -/
def closeTrack (k : Bank) (s : State) (c : Cyl) : State :=
  let ended := anglePulseTag s k c
  let s := if ended.isSome then endPulse k s .firedCutWindow none else s
  let s := (sweepOutcomes (s.schedOf k).queue c ended).foldl (dropShot k) s
  settleGap k (discardTrack s k c)

/-! ### Cancellations (R106 to R111) -/

/-- R107, R108: every shot of the bank is removed and its pulse ended with one cancellation, and its tracks
are discarded. -/
def cancelBank (k : Bank) (s : State) (o : ShotOutcome) : State :=
  let s := endPulse k (cancelShots k s (fun _ => true) o) o none
  settleGap k (s.setSched k { s.schedOf k with tracks := [] })

/-- The shots of a cylinder are removed from a bank's queue and its track is discarded. -/
def cancelCylinder (k : Bank) (s : State) (c : Cyl) (o : ShotOutcome) : State :=
  discardTrack (cancelShots k s (fun x => x.cyl == c) o) k c

/-- R109: the cut of a cylinder at the Scheduler of its bank. -/
def cutCylinder (k : Bank) (s : State) (c : Cyl) : State :=
  let s := cancelShots k s (fun x => x.cyl == c) .cancelledCut
  let s := if pulseIs s k c then endPulse k s .cancelledCut none else s
  settleGap k (discardTrack s k c)

/-- R111, R162: the abort of a service chain at the Scheduler of its bank. -/
def abortChain (k : Bank) (s : State) (c : Cyl) : State :=
  let s := cancelShots k s (fun x => x.cyl == c && x.flags.service) .cancelledSync
  let s := if pulseIs s k c then endPulse k s .cancelledSync none else s
  settleGap k s

/-! ### Faults (R106, R143, R156, R157) -/

/-- R157: a lockout follows a fault. -/
def locksOut (s : State) (c : Cyl) (faults : Nat) : Bool :=
  !(s.supOf c).locked && ((s.supOf c).firstPulse || decide (s.tables.limits.lockout ≤ faults))

/-- R157: the lockout. -/
def lockOut (k : Bank) (s : State) (c : Cyl) : State :=
  let x := s.supOf c
  let s := s.setSup c { x with locked := true, code := if x.firstPulse then .firstPulseFault else .locked }
  cancelCylinder k (s.raise .lockout) c .cancelledFault

/-- R156: a FAULTED end reaches the Supervisor. -/
def takeFault (k : Bank) (s : State) (c : Cyl) (kind : FaultKind) : State :=
  let x := s.supOf c
  let faults := min 7 (x.faults + 1)
  let s := s.setSup c { x with faults := faults, code := kind.condCode }
  let s := if locksOut s c faults then lockOut k s c else s
  s.setSup c { s.supOf c with firstPulse := false }

/-- R143: a fault found at a sample. -/
def injectorFault (k : Bank) (s : State) (kind : FaultKind) : State :=
  match (s.schedOf k).active with
  | none => s
  | some p =>
    let s := endPulse k (s.raise .injFault) .faulted (some kind)
    let s := cancelCylinder k s p.cyl .cancelledFault
    settleGap k (takeFault k s p.cyl kind)

end Sys2Proof.Machine
end

