-- ==== Sys2Proof/Machine/Planner.lean ====
section
/-! DEFINITION. The Shot Planner (chapter 4): durations, starts, window fit, provisional angles, placement and
eviction; and the placing of a service chain (R160). -/

namespace Sys2Proof.Machine

/-- R18: an accepted tooth is a real edge, or stands for one that did not come (R13). -/
inductive ToothKind where
  | real
  | synthetic
deriving DecidableEq, Repr

/-- The report of an accepted tooth (R18). A tooth of SEEKING carries no angle. -/
structure ToothReport where
  kind        : ToothKind
  sync        : Sync
  t0          : Nat
  angle       : Option Nat
  span        : Nat
  tpred       : Nat
  pitch       : Nat
  marker      : Bool
  leftStalled : Bool
deriving DecidableEq, Repr

/-- The angle A the receivers measure forward distances from. They act on teeth reported in FULL_SYNC alone (R56, R88),
and such a report carries its angle. -/
def ToothReport.base (r : ToothReport) : Nat := r.angle.getD 0

/-- R73, R76: the counts the crank is predicted to turn in some ticks, rounded up. -/
def ToothReport.extent (r : ToothReport) (ticks : Nat) : Nat := ceilDiv (ticks * r.pitch) r.tpred

/-! ### Omission and duration (R67 to R70) -/

/-- R67. -/
def omitted : Band → PulseClass → Bool
  | .normal, _ => false
  | .low, _ => false
  | .crank, c => c == .late
  | .under, c => c != .main

/-- R68: the duration D of an entry in µs, before any limit. -/
def sourceUs (e : PatternEntry) (mainUs : Nat) : Nat :=
  match e.duration with
  | .fixed us => us
  | .fraction fr => mainUs * fr / 256

/-- R68, R69: the duration in µs and its flags, or none when the entry creates no shot. -/
def entryDuration (e : PatternEntry) (minOn mainUs : Nat) : Option (Nat × ShotFlags) :=
  let d := sourceUs e mainUs
  if d = 0 then none
  else if d < minOn ∧ e.cls ≠ .main then none
  else
    let raised := decide (d < minOn)
    let d1 := if d < minOn then minOn else d
    some (min d1 e.maxUs, { raisedMin := raised, clampedMax := decide (e.maxUs < d1) })

/-! ### Starts and the window (R71 to R73) -/

/-- R71: the signed position of an ANGLE start relative to TDC. -/
def startPosition (offset : Int) (applies : Bool) (advance : Int) : Int :=
  if applies then offset - 4 * advance else offset

/-- R72: the window position of a start and whether it was moved; none when the entry creates no shot. -/
def windowPosition (r : CylRecord) (pos : Int) : Option (Nat × Bool) :=
  let moved := decide (pos < -(r.windowOpen : Int))
  let p := if pos < -(r.windowOpen : Int) then -(r.windowOpen : Int) else pos
  if (r.windowClose : Int) ≤ p then none else some ((p + r.windowOpen).toNat, moved)

/-- R73: the fitted duration and whether it was fitted; none when the entry creates no shot. -/
def windowFit (r : CylRecord) (minOn : Nat) (t : ToothReport) (wpos ticks : Nat) : Option (Nat × Bool) :=
  if wpos + t.extent ticks ≤ r.span then some (ticks, false)
  else
    let fitted := (r.span - wpos) * t.tpred / t.pitch
    if fitted < 10 * minOn then none else some (fitted, true)

/-- R76: the provisional angle of a window position. -/
def provisionalAngle (r : CylRecord) (pos : Nat) : Nat :=
  if pos < r.span then (r.openAngle + pos) % Config.cycle else r.closeAngle

/-! ### Placement (R78 to R83) -/

/-- R79, R89: the key of a queued shot from the angle of the current tooth. -/
def Shot.key (x : Shot) (angle : Nat) : Nat := if x.reached then 0 else fwd angle x.order

/-- R79: a queued shot stands before a new one. -/
def Shot.standsBefore (x y : Shot) (angle : Nat) : Bool :=
  decide (x.key angle < y.key angle) || (x.key angle == y.key angle && decide (y.cls.rank ≤ x.cls.rank))

/-- R79: a new shot at its order position. -/
def insertShot (angle : Nat) (y : Shot) : List Shot → List Shot
  | [] => [y]
  | x :: xs => if x.standsBefore y angle then x :: insertShot angle y xs else y :: x :: xs

/-- R81: the tags of a shot's own chain, back to its first shot; `n` bounds the chain. -/
def chainBack : Nat → List Shot → Anchor → List Byte
  | 0, _, _ => []
  | n + 1, q, a =>
    match a with
    | .chain (some t) _ => t :: (match findShot t q with
      | some x => chainBack n q x.anchor
      | none => [])
    | .chain none _ => []
    | .angle _ => []

/-- R81: `y`, later in queue order than `x`, is the victim rather than `x`. -/
def Shot.ratherVictim (y x : Shot) (angle : Nat) : Bool :=
  decide (y.cls.rank < x.cls.rank) ||
  (y.cls.rank == x.cls.rank && decide (x.key angle ≤ y.key angle))

/-- R81: lowest rank, then greatest key, then later in queue order. -/
def worstShot (angle : Nat) : List Shot → Option Shot
  | [] => none
  | x :: xs =>
    match worstShot angle xs with
    | none => some x
    | some y => if y.ratherVictim x angle then some y else some x

/-- R81: the victim among the PLANNED and TIMED shots off the new shot's own chain. -/
def victim (angle : Nat) (q : List Shot) (new : Shot) : Option Shot :=
  let chain := chainBack q.length q new.anchor
  worstShot angle (q.filter fun x => x.state != .deferred && !chain.contains x.tag)

/-- A created shot takes its place in the cylinder's plan (R66, R152). -/
def addPlace (s : State) (x : Shot) : State :=
  match (s.supOf x.cyl).plan with
  | none => s
  | some p =>
    setPlan s x.cyl (some { p with places := p.places ++
      [{ tag := x.tag, entry := x.entry, rep := x.rep, cls := x.cls, flags := x.flags, outcome := none }] })

/-- R78, R113: the placed counter and the tag counter rise. -/
def Sched.countPlaced (x : Sched) : Sched := { x with placed := x.placed + 1, nextTag := x.nextTag + 1 }

/-- R79: a shot enters the queue at its order position. -/
def enqueue (k : Bank) (s : State) (angle : Nat) (x : Shot) : State :=
  let q := s.schedOf k
  s.setSched k { q.countPlaced with queue := insertShot angle x q.queue }

/-- R83: a shot is counted as placed and shed at once. -/
def shedAtPlacement (k : Bank) (s : State) (x : Shot) : State :=
  let q := s.schedOf k
  let s := s.setSched k { q.countPlaced with shed := q.shed + 1 }
  writeOutcome (s.raise .shed) x.cyl x.tag (.unopened .shedQueueFull)

/-- R79 to R83: a created shot is placed, with an eviction if the queue is full, or shed at once. The Boolean
says whether it entered the queue. -/
def placeShot (k : Bank) (s : State) (angle : Nat) (x : Shot) : State × Bool :=
  let q := (s.schedOf k).queue
  let s := addPlace s x
  if q.length < Config.queueMax then (enqueue k s angle x, true)
  else
    match victim angle q x with
    | none => (shedAtPlacement k s x, false)
    | some v =>
      if v.cls.rank < x.cls.rank then (enqueue k (dropWithChain k s v.tag .shedQueueFull) angle x, true)
      else (shedAtPlacement k s x, false)

/-! ### One plan (R64 to R66, R74, R75) -/

/-- The last shot created in this plan: its tag, its window position, its duration and whether it was shed
at placement. -/
structure Made where
  tag   : Byte
  wpos  : Nat
  ticks : Nat
  shed  : Bool
deriving DecidableEq, Repr

/-- A plan being made: the state so far, the last shot created, and whether a shot has entered the queue. -/
structure PlanRun where
  state  : State
  last   : Option Made
  queued : Bool
deriving DecidableEq, Repr

/-- What the Planner reads once at the freeze (R64). -/
structure PlanInput where
  cyl     : Cyl
  record  : CylRecord
  profile : ProfileRecord
  demand  : Demand
  band    : Band
  tooth   : ToothReport
deriving DecidableEq, Repr

/-- R77: the record of a created shot. -/
def PlanInput.shot (i : PlanInput) (tag : Byte) (entry rep : Nat) (e : PatternEntry) (anchor : Anchor)
    (order ticks : Nat) (flags : ShotFlags) : Shot where
  tag := tag
  cyl := i.cyl
  entry := entry
  rep := rep
  cls := e.cls
  anchor := anchor
  order := order
  ticks := ticks
  lowBoost := e.lowBoost
  flags := flags
  state := .planned
  reached := false
  due := none
  waiting := false
  deadline := none

/-- A created shot is placed and becomes the last one of the plan. -/
def PlanRun.create (r : PlanRun) (i : PlanInput) (entry rep : Nat) (e : PatternEntry) (anchor : Anchor)
    (wpos ticks : Nat) (flags : ShotFlags) : PlanRun :=
  let k := i.record.bank
  let tag := (r.state.schedOf k).nextTag
  let order := match anchor with
    | .angle a => a
    | .chain _ _ => provisionalAngle i.record wpos
  let (s, entered) := placeShot k r.state i.tooth.base (i.shot tag entry rep e anchor order ticks flags)
  { state := s, last := some { tag := tag, wpos := wpos, ticks := ticks, shed := !entered },
    queued := r.queued || entered }

/-- R74 to R76: a shot chained on the last one created; none when there is no such shot or it was shed at
placement (R83). -/
def PlanRun.createChained (r : PlanRun) (i : PlanInput) (entry rep : Nat) (e : PatternEntry) (gapUs ticks : Nat)
    (flags : ShotFlags) : Option PlanRun :=
  match r.last with
  | none => none
  | some m =>
    if m.shed then none
    else
      let gap := 10 * max gapUs i.profile.minSep
      let wpos := m.wpos + i.tooth.extent m.ticks + i.tooth.extent gap
      some (r.create i entry rep e (.chain (some m.tag) gap) wpos ticks flags)

/-- R75: the `n` repeats from index `rep` on, each chained on the one before. -/
def PlanRun.repeats (i : PlanInput) (entry : Nat) (e : PatternEntry) (ticks : Nat) (flags : ShotFlags) :
    Nat → Nat → PlanRun → PlanRun
  | 0, _, r => r
  | n + 1, rep, r =>
    match r.createChained i entry rep e e.repeatGapUs ticks flags with
    | none => r
    | some r' => PlanRun.repeats i entry e ticks flags n (rep + 1) r'

/-- R71 to R75: the first shot of an entry; none when the entry creates no shot. -/
def PlanRun.first (r : PlanRun) (i : PlanInput) (entry : Nat) (e : PatternEntry) (ticks : Nat) (flags : ShotFlags) :
    Option PlanRun :=
  match e.anchor with
  | .chain gapUs => r.createChained i entry 0 e gapUs ticks flags
  | .angle offset applies =>
    match windowPosition i.record (startPosition offset applies i.demand.advance) with
    | none => none
    | some (wpos, moved) =>
      match windowFit i.record i.profile.minOn i.tooth wpos ticks with
      | none => none
      | some (fitted, fit) =>
        some (r.create i entry 0 e (.angle ((i.record.openAngle + wpos) % Config.cycle)) wpos fitted
          { flags with startMoved := moved, windowFit := fit })

/-- R66 to R75: one entry and its repeats. -/
def PlanRun.entry (i : PlanInput) (entry : Nat) (e : PatternEntry) (r : PlanRun) : PlanRun :=
  if omitted i.band e.cls then r
  else
    match entryDuration e i.profile.minOn i.demand.mainUs with
    | none => r
    | some (d, flags) =>
      match r.first i entry e (10 * d) flags with
      | none => r
      | some r' => PlanRun.repeats i entry e (10 * d) flags (e.repeats - 1) 1 r'

/-- R66: the entries in order of entry index. -/
def PlanRun.entries (i : PlanInput) : Nat → List PatternEntry → PlanRun → PlanRun
  | _, [], r => r
  | n, e :: es, r => PlanRun.entries i (n + 1) es (PlanRun.entry i n e r)

/-- R94: a freeze that placed a shot opens a window track for the cylinder, with the window of the cylinder record. A bank
holds at most one track per cylinder: where an earlier plan's track is still there, which takes a LOAD_CYL in SAFE that
moved the window before it closed, the new one replaces it. That the new one stays: DESIGN CHOICE (log entry 31). -/
def openTrack (k : Bank) (s : State) (c : Cyl) : State :=
  let r := s.cylOf c
  let s := discardTrack s k c
  s.setSched k { s.schedOf k with
    tracks := (s.schedOf k).tracks ++
      [{ cyl := c, openAngle := r.openAngle, closeAngle := r.closeAngle, state := .tracking }] }

/-- The Planner has finished: the plan is published if it is already complete (R65, R153). -/
def finishPlan (s : State) (c : Cyl) : State :=
  match (s.supOf c).plan with
  | none => s
  | some p => publishIfComplete (setPlan s c (some { p with making := false })) c

/-- R154: the summary of an empty plan. -/
def emptyPlanCode (s : State) (c : Cyl) (demand : Option ActiveDemand) : CondCode :=
  if (s.supOf c).locked then .locked
  else if (s.supOf c).cut then .cut
  else if demand.isNone then .stale
  else if s.clock.overspeed then .overspeed
  else .none

/-- R61, R152: the freeze count advances and the cylinder's plan is opened. -/
def openPlan (s : State) (c : Cyl) (demand : Option ActiveDemand) : State :=
  let x := s.supOf c
  s.setSup c { x with
    freezes := x.freezes + 1
    plan := some { kind := .angle, freezes := x.freezes + 1, demand := demand, overspeed := s.clock.overspeed,
                   serviceCount := 0, emptySummary := emptyPlanCode s c demand, making := true, places := [] } }

/-- R65: the pattern entries to expand; none of them for a cut or locked cylinder, without a demand, or while
overspeed. -/
def entriesToPlan (s : State) (c : Cyl) (demand : Option ActiveDemand) : List PatternEntry :=
  match demand with
  | none => []
  | some d =>
    if (s.supOf c).cut || (s.supOf c).locked || s.clock.overspeed then []
    else s.tables.pattern s.tables.activePage1 d.demand.pattern

/-- R64: what the Planner reads at the freeze. -/
def planInput (s : State) (c : Cyl) (d : Demand) (t : ToothReport) : PlanInput :=
  { cyl := c, record := s.cylOf c, profile := s.profileOf c, demand := d, band := s.supply.band, tooth := t }

/-- R64 to R66: the plan of a cylinder, already open at the Supervisor, is made and finished. -/
def planShots (s : State) (c : Cyl) (demand : Option ActiveDemand) (t : ToothReport) : State :=
  match demand with
  | none => finishPlan s c
  | some d =>
    let r := PlanRun.entries (planInput s c d.demand t) 0 (entriesToPlan s c demand)
      { state := s, last := none, queued := false }
    finishPlan (if r.queued then openTrack (s.bankOf c) r.state c else r.state) c

/-! ### Service chains (R160) -/

/-- R160: the shot at a position of the chain (from 0); the first one falls due at a set instant. -/
def serviceShot (c : Cyl) (first : Byte) (gap ticks dueAt : Nat) (i : Nat) : Shot where
  tag := first + BitVec.ofNat 8 i
  cyl := c
  entry := 0
  rep := 0
  cls := .main
  anchor := .chain (if i = 0 then none else some (first + BitVec.ofNat 8 (i - 1))) gap
  order := 0
  ticks := ticks
  lowBoost := false
  flags := { service := true }
  state := .planned
  reached := false
  due := if i = 0 then some dueAt else none
  waiting := false
  deadline := none

/-- R153, R160: the place of a service shot; its position, 1 upward, stands for the entry index. -/
def servicePlace (first : Byte) (i : Nat) : Place where
  tag := first + BitVec.ofNat 8 i
  entry := i + 1
  rep := 0
  cls := .main
  flags := { service := true }
  outcome := none

/-- R160: a service chain starts. -/
def startService (s : State) (c : Cyl) (onUs count gapUs : Nat) : State :=
  let k := s.bankOf c
  let q := s.schedOf k
  let gap := 10 * max gapUs (s.profileOf c).minSep
  let shots := (List.range count).map (serviceShot c q.nextTag gap (10 * onUs) (s.timebase + Config.serviceLead))
  let plan : Plan :=
    { kind := .service, freezes := (s.supOf c).freezes, demand := none, overspeed := false, serviceCount := count,
      emptySummary := .none, making := false, places := (List.range count).map (servicePlace q.nextTag) }
  let s := setPlan s c (some plan)
  let s := s.setSched k { q with
    queue := q.queue ++ shots
    placed := q.placed + BitVec.ofNat 32 count
    nextTag := q.nextTag + BitVec.ofNat 8 count }
  { s with service := some c }

end Sys2Proof.Machine
end

