-- ==== Sys2Proof/Machine/Clock.lean ====
section
/-! DEFINITION. The Angle Clock by itself (chapter 1): history and prediction, speed and overspeed, deadlines,
the gap search, the cam checks, and leaving FULL_SYNC. -/

namespace Sys2Proof.Machine

/-! ### Prediction, speed, overspeed -/

/-- R4: the prediction from the last two intervals, 0 standing for absent. -/
def predict (t1 t2 : Nat) : Nat :=
  if t1 = 0 then 0
  else if t2 = 0 then t1
  else clampTo (3 * t1 / 4) (5 * t1 / 4) ((t1 : Int) + ((t1 : Int) - t2).tdiv 2).toNat

/-- R4: the history moves on with a normalised interval. -/
def AngleClock.moveHistory (k : AngleClock) (t1 : Nat) : AngleClock :=
  { k with t1 := t1, t2 := k.t1, tpred := predict t1 k.t1 }

/-- R19: the speed in rpm. -/
def AngleClock.speedNow (w : WheelRecord) (k : AngleClock) : Nat :=
  match k.sync with
  | .stalled => 0
  | .seeking => 0
  | .crankSync => min Config.speedMax (600000000 / (k.t1 * w.n))
  | .fullSync => min Config.speedMax (600000000 / (k.t1 * w.n))

/-- R20: the overspeed flag after an evaluation. -/
def overspeedAfter (was : Bool) (speed maxSpeed : Nat) : Bool :=
  if maxSpeed < speed then true else if speed < maxSpeed - 100 then false else was

/-- R20: the flag is evaluated, and OVERSPEED is raised when it passes from clear to set. -/
def judgeOverspeed (s : State) : State :=
  let flag := overspeedAfter s.clock.overspeed s.clock.speed s.tables.limits.maxSpeed
  let s' := s.setClock { s.clock with overspeed := flag }
  if flag && !s.clock.overspeed then s'.raise .overspeed else s'

/-- R19, R20: speed is recomputed. -/
def setSpeed (s : State) : State :=
  judgeOverspeed (s.setClock { s.clock with speed := s.clock.speedNow s.tables.wheel })

/-! ### Leaving synchronisation -/

/-- R12, R39: every departure from FULL_SYNC raises SYNC_DOWN, cancels both banks and takes a pending swap. -/
def departFullSync (s : State) : State :=
  let s := s.raise .syncDown
  let s := cancelBank .bankA s .cancelledSync
  (cancelBank .bankB s .cancelledSync).takePendingSwap

/-- The clock replaced by one in another synchronisation state; leaving FULL_SYNC has its effects, and speed
is recomputed (R19). -/
def changeSync (s : State) (k : AngleClock) : State :=
  let s' := s.setClock k
  setSpeed (if s.clock.sync = .fullSync then departFullSync s' else s')

/-- R8, R15, R16, R17: what every loss of crank sync clears. -/
def AngleClock.cleared (k : AngleClock) (x : Sync) : AngleClock :=
  { k with sync := x, rev1 := false, gapSearch := none, camCount := 0, synth := 0, absorb := false,
           deadline := none }

/-- R16, R17: the history forgotten. -/
def AngleClock.forgotten (k : AngleClock) : AngleClock := { k with lastTooth := none, t1 := 0, t2 := 0, tpred := 0 }

/-- R8, R15: sync is lost to SEEKING with the history kept. -/
def loseSync (s : State) : State := changeSync s (s.clock.cleared .seeking)

/-- R16: the stall. -/
def stallClock (s : State) : State :=
  changeSync (s.raise .stall)
    { (s.clock.cleared .stalled).forgotten with held := s.angleReading, stallFrom := none }

/-- R17: the wheel record has been loaded. The arrival of the last cam edge is kept, whatever the new polarity: DESIGN
CHOICE (log entry 27). -/
def reloadClock (s : State) : State :=
  if s.clock.sync = .stalled then s else changeSync s (s.clock.cleared .seeking).forgotten

/-! ### Teeth in the sync states -/

/-- R13: the deadline of the interval the last tooth begins. -/
def AngleClock.deadlineFor (w : WheelRecord) (k : AngleClock) : Nat :=
  k.lastTooth.getD 0 + (if w.gapAfter k.index then (2 * w.m + 3) * k.tpred / 2 else 3 * k.tpred / 2)

/-- R13: the timestamp of the synthetic tooth of the next position. -/
def AngleClock.syntheticTime (w : WheelRecord) (k : AngleClock) : Nat :=
  k.lastTooth.getD 0 + w.pitches k.index * k.tpred

/-- R9, R13: the position moves on, the history moves on, and the last tooth time is the tooth's. -/
def AngleClock.advance (w : WheelRecord) (k : AngleClock) (t t1 : Nat) : AngleClock :=
  let k' := { k.moveHistory t1 with lastTooth := some t }
  if w.gapAfter k.index then { k' with index := 0, rev1 := k.sync == .fullSync && !k.rev1 }
  else { k' with index := k.index + 1 }

/-- What the cam count of an ended revolution says (R11, R12). -/
inductive CamVerdict where
  | keep
  | up
  | fault
deriving DecidableEq, Repr

/-- R11, R12: the verdict at a tooth of index 0; `rev1` is already the revolution the tooth begins. -/
def AngleClock.camVerdict (k : AngleClock) : CamVerdict :=
  match k.sync with
  | .stalled => .keep
  | .seeking => .keep
  | .crankSync => if k.camCount = 1 then .up else .keep
  | .fullSync => if k.camCount = (if k.rev1 then 0 else 1) then .keep else .fault

/-- R10 to R12: the cam count restarts and the state follows the verdict. -/
def AngleClock.examined (k : AngleClock) (v : CamVerdict) : AngleClock :=
  match v with
  | .keep => { k with camCount := 0 }
  | .up => { k with camCount := 0, sync := .fullSync, rev1 := false }
  | .fault => { k with camCount := 0, sync := .crankSync, rev1 := false }

/-- The verdict a tooth brings: only a tooth of index 0 examines the count. -/
def AngleClock.toothVerdict (k : AngleClock) : CamVerdict := if k.index = 0 then k.camVerdict else .keep

/-- R9, R13, R14: the clock after a tooth with its position, history and revolution settled. A synthetic tooth leaves the
absorb window open, unless the tooth changes the state, which closes it. -/
def AngleClock.settled (w : WheelRecord) (k : AngleClock) (synthetic : Bool) (now : Nat) : AngleClock :=
  let v := k.toothVerdict
  let k := if k.index = 0 then k.examined v else k
  { k with
    synth := if synthetic then k.synth + 1 else 0
    absorb := synthetic && v == .keep
    stallFrom := if synthetic then k.stallFrom else some now
    deadline := some (k.deadlineFor w) }

/-- R11, R12: the events and effects of a verdict. -/
def signalVerdict (v : CamVerdict) (s : State) : State :=
  match v with
  | .keep => s
  | .up => s.raise .syncUp
  | .fault => departFullSync (s.raise .camFault)

/-- The tooth begins revolution 0 in FULL_SYNC (R18, R23). -/
def AngleClock.atMarker (k : AngleClock) : Bool := k.sync == .fullSync && k.index == 0 && !k.rev1

/-- R22, R23: the echo of an accepted tooth, and the marker pulse with it. -/
def AngleClock.echoed (k : AngleClock) (now : Nat) : AngleClock :=
  { k with techo := some (now + Config.echoTicks),
           cmark := if k.atMarker then some (now + Config.echoTicks) else k.cmark }

/-- R9, R18: the angle a tooth is reported with: none in SEEKING (R7). -/
def reportedAngle (w : WheelRecord) (k : AngleClock) : Option Nat :=
  match k.sync with
  | .stalled => none
  | .seeking => none
  | .crankSync => some (toothAngle w k)
  | .fullSync => some (toothAngle w k)

/-- R18: the span a tooth is reported with: the gap's where the tooth begins the gap interval. A tooth of SEEKING has no
position, so it begins none. -/
def reportedSpan (w : WheelRecord) (k : AngleClock) : Nat :=
  match k.sync with
  | .stalled => w.pitch
  | .seeking => w.pitch
  | .crankSync => w.spanAt k.index
  | .fullSync => w.spanAt k.index

/-- R18: the report of the tooth just taken. -/
def toothReport (w : WheelRecord) (k : AngleClock) (kind : ToothKind) (leftStalled : Bool) : ToothReport where
  kind := kind
  sync := k.sync
  t0 := k.lastTooth.getD 0
  angle := reportedAngle w k
  span := reportedSpan w k
  tpred := k.tpred
  pitch := w.pitch
  marker := k.atMarker
  leftStalled := leftStalled

/-- R9, R13: a tooth is accepted in a sync state: the clock takes it, its revolution check has its effects, it is
echoed and speed is recomputed. -/
def clockTooth (s : State) (synthetic : Bool) (t t1 : Nat) : State :=
  let w := s.tables.wheel
  let k := s.clock.advance w t t1
  let s := s.setClock ((k.settled w synthetic s.timebase).echoed s.timebase)
  setSpeed (signalVerdict k.toothVerdict s)

/-! ### Edges in STALLED and SEEKING (R6, R7) -/

/-- R7: the interval is a gap candidate. -/
def AngleClock.gapCandidate (w : WheelRecord) (k : AngleClock) (dt : Nat) : Bool :=
  decide (k.t1 ≠ 0) && decide ((2 * w.m + 1) * k.t1 ≤ 2 * dt)

/-- R7: the gap is confirmed and CRANK_SYNC entered at tooth index 0. -/
def AngleClock.confirmed (w : WheelRecord) (k : AngleClock) : AngleClock :=
  let k := { k with sync := .crankSync, index := 0, rev1 := false, camCount := 0, synth := 0, absorb := false,
                    gapSearch := none }
  { k with deadline := some (k.deadlineFor w) }

/-- R7: the gap search after a tooth. -/
def AngleClock.searched (w : WheelRecord) (k : AngleClock) (candidate : Bool) : AngleClock :=
  match candidate, k.gapSearch with
  | false, none => k
  | false, some n => { k with gapSearch := some (min 72 (n + 1)) }
  | true, none => { k with gapSearch := some 0 }
  | true, some n => if n = w.n - w.m - 1 then k.confirmed w else { k with gapSearch := some 0 }

/-- R7: an edge taken in SEEKING. With `may` false the interval is one pitch whatever its length: R8 says so of
the edge that lost sync. -/
def AngleClock.sought (w : WheelRecord) (k : AngleClock) (may : Bool) (now : Nat) : AngleClock :=
  match k.lastTooth with
  | none => { k with lastTooth := some now, stallFrom := some now }
  | some t =>
    let candidate := may && k.gapCandidate w (now - t)
    let t1 := if candidate then (now - t) / (w.m + 1) else now - t
    ({ k.moveHistory t1 with lastTooth := some now, stallFrom := some now }).searched w candidate

/-- R7: a SEEKING edge is accepted, echoed, and speed is recomputed. -/
def seekTooth (s : State) (may : Bool) : State :=
  setSpeed (s.setClock ((s.clock.sought s.tables.wheel may s.timebase).echoed s.timebase))

/-- R6: the clock leaves STALLED. -/
def leaveStalled (s : State) : State :=
  let k := { s.clock with sync := .seeking, lastTooth := some s.timebase, stallFrom := some s.timebase }
  setSpeed (s.setClock (k.echoed s.timebase))

end Sys2Proof.Machine
end

