-- ==== Sys2Proof/Machine/Tooth.lean ====
section
/-! DEFINITION. What an accepted tooth does in the other blocks (R18): the swap at the marker, the abort of a service
chain, the freezes (R56 to R61), the timing of shots (R89 to R91) and the window tracks (R94). -/

namespace Sys2Proof.Machine

/-! ### Freezes -/

/-- R59, R60: the demand of a cylinder after its freeze has resolved it. -/
def CylDemand.resolved (d : CylDemand) (hold : Nat) : CylDemand :=
  match d.staged with
  | some x => { staged := none, active := some { demand := x, stale := false }, staleCount := 0, starved := false }
  | none =>
    let n := min 15 (d.staleCount + 1)
    match d.active with
    | some a =>
      if n ≤ hold then { d with active := some { a with stale := true }, staleCount := n, starved := false }
      else { d with active := none, staleCount := n, starved := true }
    | none => { d with active := none, staleCount := n, starved := true }

/-- R60: a starved freeze sets the condition code, and raises STALE if the mark was clear before it. -/
def signalStarved (s : State) (c : Cyl) (was now : Bool) : State :=
  if now then
    let s := s.setSup c { s.supOf c with code := .stale }
    if was then s else s.raise .stale
  else s

/-- R57 to R61: the freeze of one cylinder. -/
def freeze (r : ToothReport) (s : State) (c : Cyl) : State :=
  let old := s.demandOf c
  let new := old.resolved s.tables.limits.staleHold
  let s := signalStarved (s.setDemand c new) c old.starved new.starved
  planShots (openPlan s c new.active) c new.active r

/-- R56: the tooth is the freeze tooth of an enabled cylinder. -/
def freezesAt (s : State) (r : ToothReport) (c : Cyl) : Bool :=
  (s.cylOf c).enabled && decide (fwd r.base (s.cylOf c).freezeAngle < r.span)

/-- R58: a cylinder enters the freeze order by forward distance, after those of equal distance. -/
def insertFreeze (s : State) (r : ToothReport) (c : Cyl) : List Cyl → List Cyl
  | [] => [c]
  | d :: ds =>
    if fwd r.base (s.cylOf c).freezeAngle < fwd r.base (s.cylOf d).freezeAngle then c :: d :: ds
    else d :: insertFreeze s r c ds

/-- R58: the cylinders a tooth freezes, in their order. -/
def freezeOrder (s : State) (r : ToothReport) : List Cyl :=
  (allCyls.filter (freezesAt s r)).foldl (fun l c => insertFreeze s r c l) []

/-- R57, R58: the freezes of a tooth, taken only while ARMED. -/
def freezes (r : ToothReport) (s : State) : State :=
  if s.firing = .armed then (freezeOrder s r).foldl (freeze r) s else s

/-! ### Timing (R89 to R91) -/

/-- R90, R94: the predicted passage of a forward distance, rounded half up. -/
def ToothReport.passage (r : ToothReport) (d : Nat) : Nat := r.t0 + (d * r.tpred + r.pitch / 2) / r.pitch

/-- R90: the timed instant of a start, held at the window open where that lies in the same interval. -/
def timedInstant (r : ToothReport) (openAngle start : Nat) : Nat :=
  let d := fwd r.base start
  let dOpen := fwd r.base openAngle
  if dOpen < r.span ∧ dOpen ≤ d then max (r.passage d) (r.t0 + ceilDiv (dOpen * r.tpred) r.pitch)
  else r.passage d

/-- R89, R90: a tooth's interval reaches a queued shot: it is marked, and timed if it is a PLANNED ANGLE shot. -/
def reachShot (s : State) (r : ToothReport) (x : Shot) : Shot :=
  if fwd r.base x.order < r.span then
    if x.isAngle ∧ x.state = .planned then
      { x with reached := true, state := .timed, due := some (timedInstant r (s.cylOf x.cyl).openAngle x.order) }
    else { x with reached := true }
  else x

/-- R90: the shots of a bank are timed against the tooth. -/
def timeShots (r : ToothReport) (k : Bank) (s : State) : State :=
  setQueue s k ((s.schedOf k).queue.map (reachShot s r))

/-- R91: the TIMED ANGLE shots of a bank that have not fallen due. -/
def timedAngles (s : State) (k : Bank) : List Byte :=
  ((s.schedOf k).queue.filter fun x => x.isAngle && x.state == .timed && !x.waiting).map Shot.tag

/-- R91: the next tooth makes every TIMED ANGLE shot of a bank due. On an IDLE bank they wait for the shots the tooth's
own interval makes due at the same instant, and the arbiter judges all of them together (R101, duePast). -/
def dueAtTooth (k : Bank) (s : State) : State :=
  if (s.schedOf k).cond = .idle then (timedAngles s k).foldl (markWaiting k) s else takeDue k s (timedAngles s k)

/-- R90, R91, R101: the shots just timed whose instant is at or before the acceptance fall due at once, together on an
IDLE bank with those the tooth has already made due. -/
def duePast (k : Bank) (s : State) : State :=
  takeDue k s (((s.schedOf k).queue.filter fun x => x.isAngle && x.state == .timed && x.dueNow s.timebase).map Shot.tag)

/-! ### Window tracks (R94) -/

/-- The track is CLOSING. -/
def Track.isClosing (t : Track) : Bool :=
  match t.state with
  | .tracking => false
  | .closing _ => true
  | .closed => false

/-- R94: the acceptance of the next tooth closes every CLOSING track of a bank, in the order in which the tracks were
opened. DESIGN CHOICE (log entry 28). -/
def closeAtTooth (k : Bank) (s : State) : State :=
  (((s.schedOf k).tracks.filter Track.isClosing).map Track.cyl).foldl (closeTrack k) s

/-- R94: a track takes its close instant if its close angle lies in the interval. -/
def Track.reach (r : ToothReport) (t : Track) : Track :=
  if t.state = .tracking ∧ fwd r.base t.closeAngle < r.span then
    { t with state := .closing (r.passage (fwd r.base t.closeAngle)) }
  else t

/-- R94: the active pulse takes the close instant of its cylinder's track. -/
def Pulse.takeClose (p : Pulse) (tracks : List Track) : Pulse :=
  match tracks.find? fun t => t.cyl == p.cyl with
  | none => p
  | some t =>
    match t.state with
    | .tracking => p
    | .closing i => { p with windowClose := some i }
    | .closed => p

/-- The close instant has come. -/
def Track.closeNow (t : Track) (now : Nat) : Bool :=
  match t.state with
  | .tracking => false
  | .closing i => decide (i ≤ now)
  | .closed => false

/-- R94: the tracks of a bank meet the new interval, and those whose instant is already past close at once. -/
def reachTracks (r : ToothReport) (k : Bank) (s : State) : State :=
  let q := s.schedOf k
  let tracks := q.tracks.map (Track.reach r)
  let s := s.setSched k { q with tracks := tracks, active := q.active.map fun p => p.takeClose tracks }
  ((tracks.filter fun t => t.closeNow s.timebase).map Track.cyl).foldl (closeTrack k) s

/-! ### The whole tooth -/

/-- An operation on both banks, bank A first. -/
def bothBanks (f : Bank → State → State) (s : State) : State := f .bankB (f .bankA s)

/-- R91, R94, R95: what was timed before the tooth falls due at its acceptance. Where closes are taken first, the CLOSING
tracks close before it. -/
def settleOld (tie : TieOrder) (s : State) : State :=
  match tie with
  | .dueFirst => bothBanks dueAtTooth s
  | .closeFirst => bothBanks dueAtTooth (bothBanks closeAtTooth s)

/-- R90, R94, R95, R101: the new interval's own work. Where dues are taken first, the CLOSING tracks close once every shot
due at the tooth has been judged, the old ones and the tooth's own together. -/
def settleNew (tie : TieOrder) (r : ToothReport) (s : State) : State :=
  let s := bothBanks (timeShots r) s
  match tie with
  | .dueFirst => bothBanks (reachTracks r) (bothBanks closeAtTooth (bothBanks duePast s))
  | .closeFirst => bothBanks duePast (bothBanks (reachTracks r) s)

/-- R111, R162: a tooth that left STALLED ends the running service chain. -/
def endServiceByMotion (s : State) : State :=
  match s.service with
  | none => s
  | some c => abortChain (s.bankOf c) s c

/-- R18: an accepted tooth is handed to the neighbours. The order, beyond what R58, R90 and R91 give, is a DESIGN
CHOICE (log entry 6). -/
def handOn (tie : TieOrder) (kind : ToothKind) (leftStalled : Bool) (s : State) : State :=
  let r := toothReport s.tables.wheel s.clock kind leftStalled
  let s := if r.marker then s.takePendingSwap else s
  let s := if r.leftStalled then endServiceByMotion s else s
  if r.sync = .fullSync then settleNew tie r (freezes r (settleOld tie s)) else s

/-! ### Crank edges, cam edges and deadlines -/

/-- R8: what an edge in a sync state is judged to be. -/
inductive EdgeVerdict where
  | early
  | lost
  | tooth
deriving DecidableEq, Repr

/-- R8: the two tables. -/
def AngleClock.judge (w : WheelRecord) (k : AngleClock) (dt : Nat) : EdgeVerdict :=
  if 2 * dt < k.tpred then .early
  else if w.gapAfter k.index ∧ 2 * dt < (2 * w.m + 1) * k.tpred then .lost
  else .tooth

/-- R8, R9: an edge in a sync state that was not absorbed. -/
def judgedEdge (tie : TieOrder) (s : State) : State :=
  let w := s.tables.wheel
  let dt := s.timebase - s.clock.lastTooth.getD s.timebase
  match s.clock.judge w dt with
  | .early => s.raise .noise
  | .lost => handOn tie .real false (seekTooth (loseSync s) false)
  | .tooth => handOn tie .real false (clockTooth s false s.timebase (dt / w.pitches s.clock.index))

/-- R14: the edge is the late original of the last synthetic tooth. -/
def AngleClock.absorbs (k : AngleClock) (now : Nat) : Bool :=
  k.absorb && decide (now - k.lastTooth.getD now < 3 * k.tpred / 4)

/-- R8, R14: an edge in a sync state. -/
def syncEdge (tie : TieOrder) (s : State) : State :=
  if s.clock.absorbs s.timebase then s.setClock { s.clock with synth := 0, absorb := false }
  else judgedEdge tie (s.setClock { s.clock with absorb := false })

/-- R3: an edge comes too soon after the previous one. -/
def filtered (last : Option Nat) (now : Nat) : Bool := last.any fun t => decide (now - t < Config.filterTicks)

/-- R2, R3, R6 to R9: a rising transition on CRK while the wheel is loaded. -/
def risingEdge (tie : TieOrder) (s : State) : State :=
  let noisy := filtered s.clock.lastCrank s.timebase
  let s := s.setClock { s.clock with lastCrank := some s.timebase }
  if noisy then s.raise .noise
  else
    match s.clock.sync with
    | .stalled => handOn tie .real true (leaveStalled s)
    | .seeking => handOn tie .real false (seekTooth s true)
    | .crankSync => syncEdge tie s
    | .fullSync => syncEdge tie s

/-- R2: a transition on CRK. -/
def crankTransition (tr : Transition) (tie : TieOrder) (s : State) : State :=
  if s.tables.wheel.loaded && tr == .rising then risingEdge tie s else s

/-- R10: a cam edge past its filter. -/
def AngleClock.countCam (k : AngleClock) : AngleClock :=
  match k.sync with
  | .stalled => k
  | .seeking => k
  | .crankSync => { k with camCount := min 3 (k.camCount + 1) }
  | .fullSync => { k with camCount := min 3 (k.camCount + 1) }

/-- R2, R3, R10: a transition on CAM. The previous cam edge is the last one that counted, also where a wheel load has
changed the polarity since. DESIGN CHOICE (log entry 27). -/
def camTransition (tr : Transition) (s : State) : State :=
  if s.tables.wheel.loaded && tr == s.tables.wheel.polarity then
    let noisy := filtered s.clock.lastCam s.timebase
    let s := s.setClock { s.clock with lastCam := some s.timebase }
    if noisy then s.raise .noise else s.setClock s.clock.countCam
  else s

/-- R13, R15: the deadline expires. -/
def expireDeadline (tie : TieOrder) (s : State) : State :=
  if s.clock.synth < 2 then
    handOn tie .synthetic false (clockTooth s true (s.clock.syntheticTime s.tables.wheel) s.clock.tpred)
  else loseSync s

end Sys2Proof.Machine
end

