-- ==== Sys2Proof/Machine/Due.lean ====
section
/-! DEFINITION. When each timed event of the part is due: its instant has come and it has not been taken. -/

namespace Sys2Proof.Machine

/-- An instant has come. -/
def State.reached (s : State) (t : Option Nat) : Bool := t.any fun i => decide (i ≤ s.timebase)

/-- R171: the busy period's end. -/
def dueBusyEnd (s : State) : Bool := s.reached s.link.busyUntil

/-- R22: the end of the echo pulse. -/
def dueTechoEnd (s : State) : Bool := s.reached s.clock.techo

/-- R23: the end of the marker pulse. -/
def dueCmarkEnd (s : State) : Bool := s.reached s.clock.cmark

/-- R13: the deadline, which only the sync states hold. -/
def dueDeadline (s : State) : Bool := s.reached s.clock.deadline

/-- R16: the stall timer. -/
def dueStall (s : State) : Bool := s.reached (s.clock.stallFrom.map fun t => t + Config.stallTicks)

/-- R91: a TIMED ANGLE shot at its timed instant. -/
def Shot.timedDue (x : Shot) (now : Nat) : Bool := x.isAngle && x.state == .timed && x.dueNow now

/-- R92: a chain or service shot at its due instant. -/
def Shot.chainDue (x : Shot) (now : Nat) : Bool := !x.isAngle && x.dueNow now

/-- R99: a DEFERRED shot at its deadline. -/
def Shot.deadlineDue (x : Shot) (now : Nat) : Bool :=
  x.state == .deferred && (match x.deadline with
    | some t => decide (t ≤ now)
    | none => false)

/-- The queued shot of a tag meets a test. -/
def shotIs (s : State) (k : Bank) (tag : Byte) (p : Shot → Bool) : Bool := (findShot tag (s.schedOf k).queue).any p

/-- R96: the gap's end. -/
def dueGapEnd (s : State) (k : Bank) : Bool := (s.schedOf k).cond == .gap && gapOver s k

/-- R105: the scheduled end of the active pulse. -/
def dueSchedEnd (s : State) (k : Bank) : Bool := (s.schedOf k).active.any fun p => decide (p.schedEnd ≤ s.timebase)

/-- R94: the close instant of a CLOSING track. -/
def dueClose (s : State) (k : Bank) (c : Cyl) : Bool := (trackOf s k c).any fun t => t.closeNow s.timebase

/-- R132: the next sample of the pulse on a bank. -/
def dueDriveSample (s : State) (k : Bank) : Bool :=
  (s.schedOf k).active.isSome && decide ((s.driveOf k).startTime + 10 * ((s.driveOf k).samples + 1) ≤ s.timebase)

/-- R146: the next stored sample of the capture, on the bank it runs on. -/
def dueTraceSample (s : State) : Option Bank :=
  match s.trace.state, s.trace.bank, s.trace.start with
  | .capturing, some k, some t =>
    if t + 10 * s.trace.interval * (s.trace.stored + 1) ≤ s.timebase then some k else none
  | _, _, _ => none

/-- R115: the next recharge step. -/
def dueRecharge (s : State) : Bool := decide (s.nextRecharge ≤ s.timebase)

/-- R123: the next supply sample. -/
def dueSupply (s : State) : Bool := decide (s.supply.nextSample ≤ s.timebase)

/-- R173: the expiry of the silence timer. -/
def dueSilence (s : State) : Bool :=
  s.reached (s.link.silence.map fun t => t + Config.msTicks * s.tables.limits.linkSilence)

/-- An event takes place only when it is due; a command that names an event not due changes nothing. DESIGN
CHOICE (log entry 4). -/
def whenDue (due : Bool) (f : State → State) (s : State) : State := if due then f s else s

end Sys2Proof.Machine
end

