-- ==== Sys2Proof/Machine/BankEvents.lean ====
section
/-! DEFINITION. The meanings of the timed events of the Bank Schedulers: TIMED_INSTANT, CHAIN_SHOT_DUE, GAP_END,
DEFER_DEADLINE, SCHEDULED_END, WINDOW_CLOSE. -/

namespace Sys2Proof.Machine

/-- TIMED_INSTANT (R91, R97 to R101). -/
def execTimedInstant (k : Bank) (tag : Byte) (s : State) : Host.Outcome State Fault Refusal :=
  .next (whenDue (shotIs s k tag fun x => x.timedDue s.timebase) (fun s => takeDue k s [tag]) s)

/-- CHAIN_SHOT_DUE (R92, R111, R97 to R101). -/
def execChainShotDue (k : Bank) (tag : Byte) (s : State) : Host.Outcome State Fault Refusal :=
  .next (whenDue (shotIs s k tag fun x => x.chainDue s.timebase) (fun s => takeDue k s [tag]) s)

/-- GAP_END (R96, R100, R138). -/
def execGapEnd (k : Bank) (s : State) : Host.Outcome State Fault Refusal := .next (whenDue (dueGapEnd s k) (endGap k) s)

/-- DEFER_DEADLINE (R99). -/
def execDeferDeadline (k : Bank) (tag : Byte) (s : State) : Host.Outcome State Fault Refusal :=
  .next (whenDue (shotIs s k tag fun x => x.deadlineDue s.timebase)
    (fun s => dropWithChain k s tag .shedConflict) s)

/-- R105: the outcome of a scheduled end. -/
def Pulse.endOutcome (p : Pulse) : ShotOutcome := if p.flags.degraded then .firedDegraded else .fired

/-- R105: the active pulse reaches its scheduled end. -/
def endOnSchedule (k : Bank) (s : State) : State :=
  match (s.schedOf k).active with
  | none => s
  | some p => settleGap k (endPulse k s p.endOutcome none)

/-- SCHEDULED_END (R105). -/
def execScheduledEnd (k : Bank) (s : State) : Host.Outcome State Fault Refusal :=
  .next (whenDue (dueSchedEnd s k) (endOnSchedule k) s)

/-- WINDOW_CLOSE (R94, R95). -/
def execWindowClose (k : Bank) (c : Cyl) (s : State) : Host.Outcome State Fault Refusal :=
  .next (whenDue (dueClose s k c) (fun s => closeTrack k s c) s)

end Sys2Proof.Machine
end

