-- ==== Sys2Proof/Machine/ClockEvents.lean ====
section
/-! DEFINITION. The meanings of the reset pin and of the events of the Angle Clock: POWER_ON_RESET, BUSY_PERIOD_END,
CRANK_EDGE, CAM_EDGE, DEADLINE_EXPIRY, STALL, TECHO_PULSE_END, CMARK_PULSE_END. -/

namespace Sys2Proof.Machine

/-- POWER_ON_RESET (R171, section 9.1): the state after a power-on reset; commands still waiting outside stay. -/
def execPowerOnReset (s : State) : Host.Outcome State Fault Refusal :=
  .next { State.reset with
    pending := s.pending
    link := { LinkIface.reset with select := s.link.select.afterPowerOn, edges := s.link.edges } }

/-- The busy period ends (R171). -/
def endBusy (s : State) : State := s.setLink { s.link with busyUntil := none }

/-- BUSY_PERIOD_END (R171). -/
def execBusyPeriodEnd (s : State) : Host.Outcome State Fault Refusal := .next (whenDue (dueBusyEnd s) endBusy s)

/-- CRANK_EDGE (R2, R3, R6 to R9, R14). -/
def execCrankEdge (tr : Transition) (tie : TieOrder) (s : State) : Host.Outcome State Fault Refusal :=
  .next (crankTransition tr tie s)

/-- CAM_EDGE (R2, R3, R10). -/
def execCamEdge (tr : Transition) (s : State) : Host.Outcome State Fault Refusal := .next (camTransition tr s)

/-- DEADLINE_EXPIRY (R13, R15). -/
def execDeadlineExpiry (tie : TieOrder) (s : State) : Host.Outcome State Fault Refusal :=
  .next (whenDue (dueDeadline s) (expireDeadline tie) s)

/-- STALL (R16). -/
def execStall (s : State) : Host.Outcome State Fault Refusal := .next (whenDue (dueStall s) stallClock s)

/-- R22: TECHO goes low. -/
def endTecho (s : State) : State := s.setClock { s.clock with techo := none }

/-- TECHO_PULSE_END (R22). -/
def execTechoPulseEnd (s : State) : Host.Outcome State Fault Refusal := .next (whenDue (dueTechoEnd s) endTecho s)

/-- R23: CMARK goes low. -/
def endCmark (s : State) : State := s.setClock { s.clock with cmark := none }

/-- CMARK_PULSE_END (R23). -/
def execCmarkPulseEnd (s : State) : Host.Outcome State Fault Refusal := .next (whenDue (dueCmarkEnd s) endCmark s)

end Sys2Proof.Machine
end

