-- ==== Sys2Proof/Machine/Firing.lean ====
section
/-! DEFINITION. The Demand Stage as owner of DEMAND, ARM, DISARM and STOP (chapter 3), and the Cylinder Supervisor
as owner of CUT, CLEAR_FAULT and SERVICE (chapter 8). -/

namespace Sys2Proof.Machine

/-! ### STOP (R49, R50, R108) -/

/-- R49: what STOP and the link-silence expiry do. -/
def stopFiring (s : State) : State :=
  cancelBank .bankB (cancelBank .bankA (goSafe s) .cancelledStop) .cancelledStop

/-- STOP (R49). -/
def ownStop (s : State) (_ : List Byte) : Reply := took (stopFiring s)

/-! ### ARM and DISARM (R46, R47) -/

/-- A function of one value applied to every cylinder. -/
def Cyls.map {α β : Type} (f : α → β) (x : Cyls α) : Cyls β :=
  ⟨f x.c1, f x.c2, f x.c3, f x.c4, f x.c5, f x.c6, f x.c7, f x.c8⟩

/-- A function of the values of one cylinder applied to every cylinder. -/
def Cyls.zip {α β γ : Type} (f : α → β → γ) (x : Cyls α) (y : Cyls β) : Cyls γ :=
  ⟨f x.c1 y.c1, f x.c2 y.c2, f x.c3 y.c3, f x.c4 y.c4, f x.c5 y.c5, f x.c6 y.c6, f x.c7 y.c7, f x.c8 y.c8⟩

/-- R46: at least one cylinder is enabled. -/
def anyEnabled (s : State) : Bool := allCyls.any fun c => (s.cylOf c).enabled

/-- R46: the conditions of ARM. -/
def armAdmitted (s : State) : Bool :=
  s.firing != .armed && s.tables.wheel.loaded && anyEnabled s && s.service.isNone

/-- R46: the demand items ARM from SAFE clears. -/
def CylDemand.rearmed (d : CylDemand) : CylDemand := { d with active := none, staleCount := 0, starved := false }

/-- R46: the first-pulse flag of an enabled cylinder is set. -/
def CylSup.rearmed (r : CylRecord) (x : CylSup) : CylSup := if r.enabled then { x with firstPulse := true } else x

/-- R46: ARM taken from SAFE. -/
def armFromSafe (s : State) : State :=
  { s with
    firing := .armed
    demand := s.demand.map CylDemand.rearmed
    sup := Cyls.zip CylSup.rearmed s.tables.cyl s.sup
    link := { s.link with silence := some s.timebase } }

/-- ARM (R46). -/
def ownArm (s : State) (_ : List Byte) : Reply :=
  if armAdmitted s then
    took (if s.firing = .safe then armFromSafe s else s.setFiring .armed)
  else refuse s .wrongState

/-- DISARM (R47, R48). -/
def ownDisarm (s : State) (_ : List Byte) : Reply :=
  if s.firing = .armed then took (drainTest (s.setFiring .draining)) else refuse s .wrongState

/-! ### DEMAND (R53 to R55) -/

/-- R55: one entry is staged. -/
def stageOne (s : State) (x : Cyl × Demand) : State := s.setDemand x.1 { s.demandOf x.1 with staged := some x.2 }

/-- The entries of a DEMAND frame. -/
def demandEntries (ps : List Byte) : List DemandEntry := parseDemandEntries (ps.length / 5) ps

/-- DEMAND (R53 to R55). -/
def ownDemand (s : State) (ps : List Byte) : Reply :=
  match stagedEntries (fun c => (s.cylOf c).enabled) (demandEntries ps) with
  | none => refuse s .badParam
  | some xs =>
    { state := xs.foldl stageOne s
      result := if (demandEntries ps).any DemandEntry.clamped then .okClamped else .ok
      data := [] }

/-! ### CUT (R150, R151) -/

/-- The four cut operations (section 11.2). -/
inductive CutOp where
  | test
  | set
  | clear
  | toggle
deriving DecidableEq, Repr

/-- The operation of a code (section 11.2). -/
def cutOpOf (n : Nat) : Option CutOp :=
  if n = 0 then some .test else if n = 1 then some .set else if n = 2 then some .clear
  else if n = 3 then some .toggle else none

/-- R150: the cut flag after an operation. -/
def CutOp.apply : CutOp → Bool → Bool
  | .test, x => x
  | .set, _ => true
  | .clear, _ => false
  | .toggle, x => !x

/-- R151: a cut flag passes from clear to set: the cancellations, the publication, then the code. -/
def cutNow (s : State) (c : Cyl) : State :=
  let s := s.setSup c { s.supOf c with cut := true }
  let s := cutCylinder (s.bankOf c) s c
  s.setSup c { s.supOf c with code := .cut }

/-- R150: one operation on one cylinder. -/
def cutBy (s : State) (c : Cyl) (op : CutOp) : State :=
  let was := (s.supOf c).cut
  if op.apply was && !was then cutNow s c else s.setSup c { s.supOf c with cut := op.apply was }

/-- CUT (R150): the datum is the flag before the command. -/
def ownCut (s : State) (ps : List Byte) : Reply :=
  match cylOf (u8 ps 0), cutOpOf (u8 ps 1) with
  | some c, some op => answer (cutBy s c op) [flagByte (s.supOf c).cut]
  | some _, none => refuse s .badParam
  | none, _ => refuse s .badParam

/-! ### CLEAR_FAULT (R158) -/

/-- CLEAR_FAULT (R158). -/
def ownClearFault (s : State) (ps : List Byte) : Reply :=
  match cylOf (u8 ps 0) with
  | some c => took (s.setSup c { s.supOf c with locked := false, faults := 0, firstPulse := true, code := .none })
  | none => refuse s .badParam

/-! ### SERVICE (R159, R160) -/

/-- The cylinder of a SERVICE frame, if its parameters are in range (R159, step 3). -/
def serviceParams (ps : List Byte) : Option Cyl :=
  if within 100 10000 (u16 ps 1) && within 1 16 (u8 ps 3) && within 1000 60000 (u16 ps 4) then cylOf (u8 ps 0)
  else none

/-- R159, step 4: the cylinder is enabled and neither cut nor locked. -/
def serviceable (s : State) (c : Cyl) : Bool := (s.cylOf c).enabled && !(s.supOf c).cut && !(s.supOf c).locked

/-- SERVICE (R159, R160). -/
def ownService (s : State) (ps : List Byte) : Reply :=
  if s.service.isSome then refuse s .busy
  else if s.clock.sync ≠ .stalled ∨ s.firing ≠ .safe then refuse s .wrongState
  else
    match serviceParams ps with
    | none => refuse s .badParam
    | some c =>
      if serviceable s c then took (startService s c (u16 ps 1) (u8 ps 3) (u16 ps 4))
      else refuse s .wrongState

end Sys2Proof.Machine
end

