-- ==== Sys2Proof/Machine/CylinderCommands.lean ====
section
/-! DEFINITION. The meanings of the four CUT rows, CLEAR_FAULT and SERVICE. -/

namespace Sys2Proof.Machine

/-- CUT with SET (R151). -/
def execCutSet (f : Frame) (s : State) : Host.Outcome State Fault Refusal :=
  .next (takeFrame s 0x30 f (exactly 2) ownCut)

/-- CUT with CLEAR (R150). -/
def execCutClear (f : Frame) (s : State) : Host.Outcome State Fault Refusal :=
  .next (takeFrame s 0x30 f (exactly 2) ownCut)

/-- CUT with TOGGLE (R150). -/
def execCutToggle (f : Frame) (s : State) : Host.Outcome State Fault Refusal :=
  .next (takeFrame s 0x30 f (exactly 2) ownCut)

/-- CUT with TEST, and every CUT that is refused (R150). -/
def execCutTest (f : Frame) (s : State) : Host.Outcome State Fault Refusal :=
  .next (takeFrame s 0x30 f (exactly 2) ownCut)

/-- CLEAR_FAULT (R158). -/
def execClearFault (f : Frame) (s : State) : Host.Outcome State Fault Refusal :=
  .next (takeFrame s 0x31 f (exactly 1) ownClearFault)

/-- SERVICE (R160). -/
def execService (f : Frame) (s : State) : Host.Outcome State Fault Refusal :=
  .next (takeFrame s 0x32 f (exactly 6) ownService)

end Sys2Proof.Machine
end

