-- ==== Sys2Proof/Machine/Supply.lean ====
section
/-! DEFINITION. The recharge step of the Boost Reservoirs (R115, R116) and the sample, average and band of the
Supply Monitor (R123 to R128). -/

namespace Sys2Proof.Machine

/-! ### Recharge -/

/-- R116: the step rate of a reservoir. -/
def stepRate (l : Limits) (mode : ConverterMode) (band : Band) (level : Nat) : Nat :=
  match mode, band with
  | .off, _ => 0
  | .normal, .under => 0
  | .auto, .under => 0
  | .normal, .crank => l.rateNormal / 2
  | .auto, .crank => l.rateNormal / 2
  | .normal, .low => l.rateNormal
  | .auto, .low => l.rateNormal
  | .normal, .normal => l.rateNormal
  | .auto, .normal => if level < l.lowWater then l.rateFast else l.rateNormal

/-- R115: the level of a bank after a step. -/
def recharged (s : State) (k : Bank) : Nat :=
  let l := s.tables.limits
  min (l.capacity.get k) (s.levelOf k + stepRate l (l.converter.get k) s.supply.band (s.levelOf k))

/-- R115: one step of both reservoirs. -/
def rechargeBoth (s : State) : State :=
  { s with level := ⟨recharged s .bankA, recharged s .bankB⟩, nextRecharge := s.nextRecharge + Config.rechargeTicks }

/-! ### Supply -/

/-- R124: a sample joins the window, and the oldest leaves a full one. -/
def joinWindow (w : List Nat) (x : Nat) : List Nat :=
  if w.length < Config.supplyWindow then w ++ [x] else w.drop 1 ++ [x]

/-- R124: the average of a full window; 0 before (R128). -/
def average (w : List Nat) : Nat := if w.length < Config.supplyWindow then 0 else w.sum / Config.supplyWindow

/-- R125: the class of an average. -/
def Limits.classify (l : Limits) (avg : Nat) : Band :=
  if l.lowThr ≤ avg then .normal else if l.crankThr ≤ avg then .low else if l.underThr ≤ avg then .crank else .under

/-- R126: the highest band above the one in force that the average has returned to. -/
def Limits.risen (l : Limits) (band : Band) (avg : Nat) : Band :=
  if 0 < band.code ∧ l.lowThr + Config.bandHysteresis ≤ avg then .normal
  else if 1 < band.code ∧ l.crankThr + Config.bandHysteresis ≤ avg then .low
  else if 2 < band.code ∧ l.underThr + Config.bandHysteresis ≤ avg then .crank
  else band

/-- R125, R126: the band after a decision. -/
def Limits.decideBand (l : Limits) (band : Band) (avg : Nat) : Band :=
  if band.code ≤ (l.classify avg).code then l.classify avg else l.risen band avg

/-- R124: the band after a sample has joined the window. -/
def SupplyMonitor.nextBand (m : SupplyMonitor) (l : Limits) (w : List Nat) : Band :=
  if w.length < Config.supplyWindow then m.band else l.decideBand m.band (average w)

/-- R123, R124, R128: a supply sample. -/
def takeSupply (s : State) (x : Nat) : State :=
  let w := joinWindow s.supply.window x
  let band := s.supply.nextBand s.tables.limits w
  let s' := { s with supply := { window := w, band := band, nextSample := s.supply.nextSample + Config.supplyTicks } }
  if band = s.supply.band then s' else s'.raise .supplyBand

end Sys2Proof.Machine
end

