-- ==== Sys2Proof/Machine/Reads.lean ====
section
/-! DEFINITION. The replies of the reads (chapter 10, section 11.4), the two trace commands (R145, R147), the mask, and
the commands the Link Interface owns (R172, R176). -/

namespace Sys2Proof.Machine

/-! ### NOP, RESET, READ_ID -/

/-- NOP (R176). -/
def ownNop (s : State) (_ : List Byte) : Reply := took s

/-- R172: every block at its state after either reset. The commands still waiting outside the part stay, and the
bits LDO has carried are what they are. -/
def softReset (s : State) : State :=
  { State.reset with
    pending := s.pending
    link := { LinkIface.reset with ldo := s.link.ldo, select := s.link.select, edges := s.link.edges } }

/-- RESET (R172). -/
def ownReset (s : State) (_ : List Byte) : Reply := { state := softReset s, result := .softReset, data := [] }

/-- READ_ID (R176). -/
def ownReadId (s : State) (_ : List Byte) : Reply :=
  answer s [byte Config.family, byte Config.part, byte Config.partRevision, byte Config.commandCount]

/-! ### Angle and time -/

/-- The clock is in CRANK_SYNC or FULL_SYNC. -/
def Sync.synced : Sync → Bool
  | .stalled => false
  | .seeking => false
  | .crankSync => true
  | .fullSync => true

/-- READ_ANGLE layout (R183). -/
def angleBytes (s : State) : List Byte :=
  byte s.clock.sync.code ::
    (leBytes 2 s.angleReading ++
      [byte (if s.clock.sync.synced then s.clock.index else 0),
       flagByte (s.clock.sync == .fullSync && s.clock.rev1),
       byte s.clock.synth] ++
      leBytes 3 s.clock.tpred ++ leBytes 2 s.clock.speed)

/-- READ_ANGLE (R183). -/
def ownReadAngle (s : State) (_ : List Byte) : Reply := answer s (angleBytes s)

/-- READ_TIME (R1). -/
def ownReadTime (s : State) (_ : List Byte) : Reply := answer s (leBytes 8 s.timebase)

/-! ### Status -/

/-- A cylinder number, or 0 for none. -/
def cylOrNone (c : Option Cyl) : Nat := (c.map cylNumber).getD 0

/-- An event set in its 16-bit field. -/
def eventBytes (e : BitVec 13) : List Byte := leBytes 2 e.toNat

/-- The six bytes of a bank in READ_STATUS. -/
def bankStatus (s : State) (k : Bank) : List Byte :=
  byte (s.schedOf k).cond.code :: byte (s.driveOf k).phase.code :: byte (s.schedOf k).queue.length ::
    (leBytes 2 (s.levelOf k) ++ [byte (cylOrNone ((s.schedOf k).active.map Pulse.cyl))])

/-- READ_STATUS layout (R182). -/
def statusBytes (s : State) : List Byte :=
  byte s.firing.code :: byte s.clock.sync.code ::
    (leBytes 2 s.clock.speed ++
      [byte (flagBit s.clock.overspeed 0 + flagBit s.tables.wheel.loaded 1 + flagBit s.tables.activePage1 2 +
             flagBit s.tables.swapPending 3),
       byte s.supply.band.code] ++
      leBytes 2 (average s.supply.window) ++
      [byte (cylOrNone s.service), byte s.trace.state.code, byte s.trace.cyl] ++
      eventBytes s.events.latched ++ eventBytes s.events.mask ++
      bankStatus s .bankA ++ bankStatus s .bankB)

/-- READ_STATUS (R182). -/
def ownReadStatus (s : State) (_ : List Byte) : Reply := answer s (statusBytes s)

/-! ### One cylinder -/

/-- Report kind and freeze count of a published report, or zeros. -/
def reportHeld : Option Report → List Byte
  | none => [0, 0, 0]
  | some r => byte r.kind.code :: leBytes 2 r.freezes.toNat

/-- Places of an open plan without an outcome. -/
def openPlaces : Option Plan → Nat
  | none => 0
  | some p => p.openCount

/-- READ_CYL layout (R184). -/
def cylStatus (s : State) (c : Cyl) : List Byte :=
  let r := s.cylOf c
  let d := s.demandOf c
  let x := s.supOf c
  [flagByte r.enabled, byte (r.output.val + 1), byte (bankCode r.bank), byte (modeOf s c).code,
   byte (activityOf s c).code, flagByte d.staged.isSome] ++
  demandBytes d.staged ++ [flagByte d.active.isSome] ++ demandBytes (d.active.map ActiveDemand.demand) ++
  [flagByte ((d.active.map ActiveDemand.stale).getD false), byte d.staleCount, flagByte d.starved,
   byte (flagBit x.cut 0 + flagBit x.locked 1 + flagBit x.firstPulse 2), byte x.faults, byte x.code.code] ++
  leBytes 2 x.freezes.toNat ++ reportHeld x.report ++ [byte (openPlaces x.plan)]

/-- READ_CYL (R184). -/
def ownReadCyl (s : State) (ps : List Byte) : Reply :=
  match cylOf (u8 ps 0) with
  | some c => answer s (cylStatus s c)
  | none => refuse s .badParam

/-- The eleven bytes of a report entry. -/
def reportEntryBytes (e : ReportEntry) : List Byte :=
  [byte e.entry, byte e.rep, byte e.cls.rank, byte e.outcome.code, byte ((e.fault.map FaultKind.code).getD 0)] ++
  leBytes 2 e.flags.toNat ++ leBytes 2 e.startAngle ++ leBytes 2 e.onTime

/-- READ_REPORT layout (R164). -/
def reportBytes : Option Report → List Byte
  | none => [0]
  | some r =>
    byte r.kind.code :: (leBytes 2 r.freezes.toNat ++ [flagByte r.demand.isSome] ++
      demandBytes (r.demand.map ActiveDemand.demand) ++
      [flagByte ((r.demand.map ActiveDemand.stale).getD false), flagByte r.overspeed, byte r.summary.code,
       byte r.serviceCount, byte r.entries.length] ++
      r.entries.flatMap reportEntryBytes)

/-- READ_REPORT (R164). -/
def ownReadReport (s : State) (ps : List Byte) : Reply :=
  match cylOf (u8 ps 0) with
  | some c => answer s (reportBytes (s.supOf c).report)
  | none => refuse s .badParam

/-! ### Queues and counters -/

/-- The flags READ_QUEUE shows of an active pulse: SERVICE, PREEMPTED, DEGRADED and SLOW_RISE (R185). DEDUCED
(log entry 20). -/
def shownFlags (f : ShotFlags) : ShotFlags :=
  { service := f.service, preempted := f.preempted, degraded := f.degraded, slowRise := f.slowRise }

/-- The active pulse in the READ_QUEUE header. -/
def pulseBytes : Option Pulse → List Byte
  | none => List.replicate 12 0
  | some p =>
    [1, p.tag, byte (cylNumber p.cyl), byte p.cls.rank] ++ leBytes 2 (shownFlags p.flags).toNat ++
    leBytes 2 p.startAngle ++ leBytes 4 p.schedEnd

/-- Anchor fields of a queue record: start angle or predecessor, then the gap. -/
def anchorBytes : Anchor → List Byte
  | .angle a => leBytes 2 a ++ [0, 0, 0, 0]
  | .chain (some t) g => [t, 0] ++ leBytes 4 g
  | .chain none g => [0, 0] ++ leBytes 4 g

/-- A chained shot with a predecessor. -/
def Shot.hasPred (x : Shot) : Bool :=
  match x.anchor with
  | .chain (some _) _ => true
  | .chain none _ => false
  | .angle _ => false

/-- The 27 bytes of a queue record (R185). -/
def shotBytes (x : Shot) : List Byte :=
  [x.tag, byte (cylNumber x.cyl), byte x.entry, byte x.rep, byte x.cls.rank,
   byte (flagBit (!x.isAngle) 0 + flagBit x.lowBoost 1 + 4 * x.state.code + flagBit x.reached 4 + flagBit x.hasPred 5)] ++
  anchorBytes x.anchor ++ leBytes 2 x.order ++ leBytes 4 x.ticks ++ [byte x.flags.toNat] ++
  leBytes 4 (x.due.getD 0) ++ leBytes 4 (if x.state = .deferred then x.deadline.getD 0 else 0)

/-- The READ_QUEUE layout (R185). -/
def queueBytes (q : Sched) (first : Nat) : List Byte :=
  let xs := (q.queue.drop first).take 8
  [byte q.cond.code, byte q.queue.length, q.nextTag] ++ pulseBytes q.active ++ [byte xs.length] ++
  xs.flatMap shotBytes

/-- READ_QUEUE (R185). -/
def ownReadQueue (s : State) (ps : List Byte) : Reply :=
  match bankOfCode (u8 ps 0) with
  | some k => if u8 ps 1 ≤ 15 then answer s (queueBytes (s.schedOf k) (u8 ps 1)) else refuse s .badParam
  | none => refuse s .badParam

/-- The four counters of a bank. -/
def counterBytes (q : Sched) : List Byte :=
  leBytes 4 q.placed.toNat ++ leBytes 4 q.started.toNat ++ leBytes 4 q.shed.toNat ++ leBytes 4 q.cancelled.toNat

/-- READ_COUNTERS (R186). -/
def ownReadCounters (s : State) (_ : List Byte) : Reply :=
  answer s (counterBytes (s.schedOf .bankA) ++ counterBytes (s.schedOf .bankB))

/-! ### Events -/

/-- READ_EVENTS (R180). -/
def ownReadEvents (s : State) (_ : List Byte) : Reply :=
  answer (s.setEvents { s.events with latched := 0 }) (eventBytes s.events.latched)

/-- SET_MASK (R181). -/
def ownSetMask (s : State) (ps : List Byte) : Reply :=
  if u16 ps 0 < 8192 then took (s.setEvents { s.events with mask := BitVec.ofNat 13 (u16 ps 0) })
  else refuse s .badParam

/-! ### Trace -/

/-- R145: a trace cleared for a cylinder (0 for none). -/
def TraceCapture.armed (t : TraceCapture) (state : TraceState) (cyl interval : Nat) : TraceCapture :=
  { t with state := state, cyl := cyl, interval := interval, bank := none, start := none,
           buffer := List.replicate Config.traceSize 0, stored := 0, readPtr := 0 }

/-- TRACE_ARM (R145). -/
def ownTraceArm (s : State) (ps : List Byte) : Reply :=
  let c := u8 ps 0
  let interval := u8 ps 1
  if c = 0 then took (s.setTrace (s.trace.armed .idle 0 s.trace.interval))
  else if s.trace.state = .armed ∨ s.trace.state = .capturing then refuse s .wrongState
  else if c ≤ 8 ∧ within 1 16 interval then took (s.setTrace (s.trace.armed .armed c interval))
  else refuse s .badParam

/-- R147: how many samples a TRACE_READ returns. -/
def TraceCapture.readCount (t : TraceCapture) : Nat := min 16 (Config.traceSize - t.readPtr)

/-- TRACE_READ layout. -/
def traceBytes (t : TraceCapture) : List Byte :=
  [byte t.cyl, byte t.interval, byte ((t.bank.map bankCode).getD 0)] ++ leBytes 8 (t.start.getD 0) ++
  [byte t.readPtr, byte t.readCount, byte t.stored] ++ (t.buffer.drop t.readPtr).take t.readCount

/-- TRACE_READ (R147). -/
def ownTraceRead (s : State) (_ : List Byte) : Reply :=
  if s.trace.state = .done then
    answer (s.setTrace { s.trace with readPtr := s.trace.readPtr + s.trace.readCount }) (traceBytes s.trace)
  else refuse s .wrongState

end Sys2Proof.Machine
end

