-- ==== Sys2Proof/Machine/EventCommands.lean ====
section
/-! DEFINITION. The meanings of READ_EVENTS and SET_MASK. -/

namespace Sys2Proof.Machine

/-- READ_EVENTS (R180). -/
def execReadEvents (f : Frame) (s : State) : Host.Outcome State Fault Refusal :=
  .next (takeFrame s 0x47 f (exactly 0) ownReadEvents)

/-- SET_MASK (R181). -/
def execSetMask (f : Frame) (s : State) : Host.Outcome State Fault Refusal :=
  .next (takeFrame s 0x48 f (exactly 2) ownSetMask)

end Sys2Proof.Machine
end

