-- ==== Sys2Proof/Machine/FiringCommands.lean ====
section
/-! DEFINITION. The meanings of DEMAND, ARM, DISARM and STOP. -/

namespace Sys2Proof.Machine

/-- DEMAND (R55). -/
def execDemand (f : Frame) (s : State) : Host.Outcome State Fault Refusal :=
  .next (takeFrame s 0x20 f admitsDemand ownDemand)

/-- ARM (R46). -/
def execArm (f : Frame) (s : State) : Host.Outcome State Fault Refusal :=
  .next (takeFrame s 0x21 f (exactly 0) ownArm)

/-- DISARM (R47). -/
def execDisarm (f : Frame) (s : State) : Host.Outcome State Fault Refusal :=
  .next (takeFrame s 0x22 f (exactly 0) ownDisarm)

/-- STOP (R49). -/
def execStop (f : Frame) (s : State) : Host.Outcome State Fault Refusal :=
  .next (takeFrame s 0x23 f (exactly 0) ownStop)

end Sys2Proof.Machine
end

