-- ==== Sys2Proof/Machine/LinkCommands.lean ====
section
/-! DEFINITION. The meanings of the commands of the Link Interface and of the whole part: NOP, RESET, READ_ID;
and the three events of the link: LINK_SILENCE, BROKEN_TRANSACTION, UNKNOWN. -/

namespace Sys2Proof.Machine

/-- R50, R174: the silence timer expires. -/
def expireSilence (s : State) : State := stopFiring (s.raise .linkSilence)

/-- LINK_SILENCE (R174). -/
def execLinkSilence (s : State) : Host.Outcome State Fault Refusal := .next (whenDue (dueSilence s) expireSilence s)

/-- BROKEN_TRANSACTION (R167). -/
def execBrokenTransaction (bytes : List Byte) (odd : List Bool) (s : State) : Host.Outcome State Fault Refusal :=
  .next (breakTransaction s bytes odd)

/-- UNKNOWN (R170). -/
def execUnknown (code : Byte) (f : Frame) (s : State) : Host.Outcome State Fault Refusal := .next (takeUnknown s code f)

/-- NOP (R176). -/
def execNop (f : Frame) (s : State) : Host.Outcome State Fault Refusal :=
  .next (takeFrame s 0x01 f (exactly 0) ownNop)

/-- RESET (R172). -/
def execReset (f : Frame) (s : State) : Host.Outcome State Fault Refusal :=
  .next (takeFrame s 0x02 f (exactly 0) ownReset)

/-- READ_ID (R176). -/
def execReadId (f : Frame) (s : State) : Host.Outcome State Fault Refusal :=
  .next (takeFrame s 0x03 f (exactly 0) ownReadId)

end Sys2Proof.Machine
end

