-- ==== Sys2Proof/Machine/ReadCommands.lean ====
section
/-! DEFINITION. The meanings of the status reads. -/

namespace Sys2Proof.Machine

/-- READ_ANGLE (R183). -/
def execReadAngle (f : Frame) (s : State) : Host.Outcome State Fault Refusal :=
  .next (takeFrame s 0x40 f (exactly 0) ownReadAngle)

/-- READ_TIME (R1). -/
def execReadTime (f : Frame) (s : State) : Host.Outcome State Fault Refusal :=
  .next (takeFrame s 0x41 f (exactly 0) ownReadTime)

/-- READ_STATUS (R182). -/
def execReadStatus (f : Frame) (s : State) : Host.Outcome State Fault Refusal :=
  .next (takeFrame s 0x42 f (exactly 0) ownReadStatus)

/-- READ_CYL (R184). -/
def execReadCyl (f : Frame) (s : State) : Host.Outcome State Fault Refusal :=
  .next (takeFrame s 0x43 f (exactly 1) ownReadCyl)

/-- READ_REPORT (R164). -/
def execReadReport (f : Frame) (s : State) : Host.Outcome State Fault Refusal :=
  .next (takeFrame s 0x44 f (exactly 1) ownReadReport)

/-- READ_QUEUE (R185). -/
def execReadQueue (f : Frame) (s : State) : Host.Outcome State Fault Refusal :=
  .next (takeFrame s 0x45 f (exactly 2) ownReadQueue)

/-- READ_COUNTERS (R186). -/
def execReadCounters (f : Frame) (s : State) : Host.Outcome State Fault Refusal :=
  .next (takeFrame s 0x46 f (exactly 0) ownReadCounters)

end Sys2Proof.Machine
end

