-- ==== Sys2Proof/Machine/Drive.lean ====
section
/-! DEFINITION. The samples of the Drive Stages (R132 to R142) and of the Trace Capture (R146). -/

namespace Sys2Proof.Machine

/-! ### Phases and gate -/

/-- R135: HOLD is entered. -/
def DriveStage.enterHold (d : DriveStage) (now : Nat) : DriveStage := { d with phase := .hold, entryTime := now }

/-- R134: BOOST ends; a peak hold time of 0 passes through PEAK. -/
def DriveStage.endBoost (d : DriveStage) (now : Nat) : DriveStage :=
  let d := { d with phase := .peak, entryTime := now, boostSw := false }
  if d.profile.peakHold = 0 then d.enterHold now else d

/-- R134 to R136: the phase changes of a sample. -/
def DriveStage.movePhase (d : DriveStage) (now x : Nat) : DriveStage :=
  match d.phase with
  | .off => d
  | .boost => if d.profile.peak ≤ x ∨ d.samples = d.profile.boostMax then d.endBoost now else d
  | .peak => if d.entryTime + 10 * d.profile.peakHold ≤ now then d.enterHold now else d
  | .hold => d
  | .quench => d

/-- R137: the gate after a sample against the top of a band. -/
def chop (top x : Nat) (gate : Bool) : Bool := if top ≤ x then false else if x + 10 ≤ top then true else gate

/-- R137: the gate state of a sample. -/
def DriveStage.moveGate (d : DriveStage) (x : Nat) : DriveStage :=
  match d.phase with
  | .off => d
  | .boost => d
  | .peak => { d with gate := chop d.profile.peak x d.gate }
  | .hold => { d with gate := chop d.profile.hold x d.gate }
  | .quench => d

/-! ### Diagnosis -/

/-- The sample is the one at boost max time. -/
def DriveStage.atBoostMax (d : DriveStage) : Bool := d.samples == d.profile.boostMax

/-- R140: SHORT. -/
def DriveStage.isShort (d : DriveStage) (x : Nat) : Bool := decide (d.profile.short < x)

/-- R141: OPEN_LOAD. -/
def DriveStage.isOpen (d : DriveStage) (x : Nat) : Bool :=
  d.atBoostMax && (d.phase == .boost || d.degraded) && decide (x < d.profile.openDetect)

/-- R142: SLOW_RISE. -/
def DriveStage.isSlow (d : DriveStage) (x : Nat) : Bool :=
  d.atBoostMax && d.phase == .boost && decide (x < d.profile.peak)

/-- R142: the flag is set on the bank's active pulse. -/
def markSlow (k : Bank) (s : State) : State :=
  s.setSched k { s.schedOf k with
    active := (s.schedOf k).active.map fun p => { p with flags := { p.flags with slowRise := true } } }

/-- R132: the tests and changes of a sample, the sample count already raised. -/
def judgeSample (k : Bank) (s : State) (x : Nat) : State :=
  let d := s.driveOf k
  if d.isShort x then injectorFault k s .short
  else if d.isOpen x then injectorFault k s .openLoad
  else
    let s := if d.isSlow x then markSlow k s else s
    s.setDrive k ((d.movePhase s.timebase x).moveGate x)

/-- R132: the sample count rises. -/
def DriveStage.counted (d : DriveStage) : DriveStage := { d with samples := d.samples + 1 }

/-- R132: one sample of a bank's current. -/
def takeDriveSample (k : Bank) (s : State) (x : Byte) : State :=
  let v := (s.senseValue k x).toNat
  let s := s.readSense k x
  judgeSample k (s.setDrive k (s.driveOf k).counted) v

/-! ### Trace -/

/-- R146: a sample is stored; the 64th makes the trace DONE. -/
def TraceCapture.store (t : TraceCapture) (v : Byte) : TraceCapture :=
  { t with
    buffer := t.buffer.set t.stored v
    stored := t.stored + 1
    state := if t.stored + 1 = Config.traceSize then .done else t.state }

/-- R146: one sample of the captured bank's current. -/
def takeTraceSample (k : Bank) (s : State) (x : Byte) : State :=
  let v := s.senseValue k x
  let s := s.readSense k x
  let s := s.setTrace (s.trace.store v)
  if s.trace.state = .done then s.raise .traceDone else s

end Sys2Proof.Machine
end

