-- ==== Sys2Proof/Machine/Samples.lean ====
section
/-! DEFINITION. The meanings of the periodic events: DRIVE_SAMPLE, TRACE_SAMPLE, RECHARGE_STEP, SUPPLY_SAMPLE. -/

namespace Sys2Proof.Machine

/-- DRIVE_SAMPLE (R132 to R143). -/
def execDriveSample (k : Bank) (x : Byte) (s : State) : Host.Outcome State Fault Refusal :=
  .next (whenDue (dueDriveSample s k) (fun s => takeDriveSample k s x) s)

/-- TRACE_SAMPLE (R146). -/
def execTraceSample (x : Byte) (s : State) : Host.Outcome State Fault Refusal :=
  match dueTraceSample s with
  | some k => .next (takeTraceSample k s x)
  | none => .next s

/-- RECHARGE_STEP (R115, R116). -/
def execRechargeStep (s : State) : Host.Outcome State Fault Refusal := .next (whenDue (dueRecharge s) rechargeBoth s)

/-- SUPPLY_SAMPLE (R123 to R128). -/
def execSupplySample (x : BitVec 10) (s : State) : Host.Outcome State Fault Refusal :=
  .next (whenDue (dueSupply s) (fun s => takeSupply s x.toNat) s)

end Sys2Proof.Machine
end

