-- ==== Sys2Proof/Machine/Tables.lean ====
section
/-! DEFINITION. The Table Store as owner of the loads, SWAP and READ_TABLE (chapter 2). -/

namespace Sys2Proof.Machine

/-- LOAD_WHEEL (R26). -/
def ownLoadWheel (s : State) (ps : List Byte) : Reply :=
  if s.firing ≠ .safe then refuse s .wrongState
  else
    match parseWheel ps with
    | none => refuse s .badParam
    | some w => took (reloadClock (s.setTables { s.tables with wheel := w }))

/-- R28: another cylinder is enabled with the same output. -/
def outputTaken (s : State) (c : Cyl) (out : Fin 8) : Bool :=
  allCyls.any fun d => d != c && (s.cylOf d).enabled && (s.cylOf d).output == out

/-- R29: a cylinder record replaced; a cylinder left disabled loses its staged demand. -/
def storeCyl (s : State) (c : Cyl) (r : CylRecord) : State :=
  let s := s.setTables { s.tables with cyl := s.tables.cyl.set c r }
  if r.enabled then s else s.setDemand c { s.demandOf c with staged := none }

/-- LOAD_CYL (R27 to R29). -/
def ownLoadCyl (s : State) (ps : List Byte) : Reply :=
  if s.service.isSome then refuse s .busy
  else if s.firing ≠ .safe then refuse s .wrongState
  else
    match parseCyl ps with
    | none => refuse s .badParam
    | some (c, r) => if r.enabled && outputTaken s c r.output then refuse s .badParam else took (storeCyl s c r)

/-- LOAD_PROFILE (R32, R33). -/
def ownLoadProfile (s : State) (ps : List Byte) : Reply :=
  if s.service.isSome then refuse s .busy
  else if s.firing ≠ .safe then refuse s .wrongState
  else
    match parseProfile ps with
    | none => refuse s .badParam
    | some (i, p) => took (s.setTables { s.tables with profile := s.tables.profile.set i p })

/-- LOAD_PATTERN (R35 to R37). -/
def ownLoadPattern (s : State) (ps : List Byte) : Reply :=
  if s.tables.swapPending then refuse s .wrongState
  else
    match parsePattern ps with
    | none => refuse s .badParam
    | some (i, es) => took (s.setTables (s.tables.setPattern (!s.tables.activePage1) i es))

/-- SWAP (R38). -/
def ownSwap (s : State) (_ : List Byte) : Reply :=
  if s.tables.swapPending then refuse s .wrongState
  else if s.firing ≠ .safe ∧ s.clock.sync = .fullSync then took (s.setTables { s.tables with swapPending := true })
  else took (s.setTables s.tables.swapPages)

/-- R119: the levels brought under the capacities in force. -/
def clampLevels (s : State) : State :=
  { s with level := ⟨min s.tables.limits.capacity.a s.level.a, min s.tables.limits.capacity.b s.level.b⟩ }

/-- R96, R138: a bank is in GAP again, and its Drive Stage in QUENCH. -/
def reenterGap (k : Bank) (s : State) : State :=
  let s := s.setSched k { s.schedOf k with cond := .gap }
  s.setDrive k { s.driveOf k with phase := .quench }

/-- R42, R96: the bank condition under a new gap. A bank in GAP whose moved end has passed becomes IDLE at once; an IDLE
bank whose last end lies less than the new gap ago is in GAP until the new end: DEDUCED (log entry 21). -/
def moveGap (k : Bank) (s : State) : State :=
  match (s.schedOf k).cond with
  | .gap => if gapOver s k then endGap k s else s
  | .idle => if gapOver s k then s else reenterGap k s
  | .active => s

/-- R42: what a new limits record does at once. A lowered capacity lowers the level (R119) before the end of a gap lets a
waiting shot be charged; R121 admits either order. DESIGN CHOICE (log entry 29). -/
def applyLimits (s : State) (l : Limits) : State :=
  let old := s.tables.limits
  let s := clampLevels (s.setTables { s.tables with limits := l })
  let s := if l.maxSpeed = old.maxSpeed then s else judgeOverspeed s
  if l.bankGapUs = old.bankGapUs then s else moveGap .bankB (moveGap .bankA s)

/-- LOAD_LIMITS (R41, R42). -/
def ownLoadLimits (s : State) (ps : List Byte) : Reply :=
  { state := applyLimits s (clampLimits (rawLimits ps))
    result := if limitsClamped ps then .okClamped else .ok
    data := [] }

/-- R43: the record a READ_TABLE names, if it names one. -/
def tableBytes (t : TableStore) (table record page : Nat) : Option (List Byte) :=
  if table = 0 then some (wheelBytes t.wheel ++ [flagByte t.wheel.loaded])
  else if table = 1 then (cylOf record).map fun c => cylBytes c (t.cyl.get c)
  else if table = 2 then (profileOf record).map fun i => profileBytes i (t.profile.get i)
  else if table = 3 then
    match patternOf record, flagOf page with
    | some i, some p => some (flagByte p :: patternBytes i (t.pattern p i))
    | some _, none => none
    | none, _ => none
  else if table = 4 then some (limitsBytes t.limits)
  else if table = 5 then some [flagByte t.activePage1, flagByte t.swapPending]
  else none

/-- READ_TABLE (R43). -/
def ownReadTable (s : State) (ps : List Byte) : Reply :=
  match tableBytes s.tables (u8 ps 0) (u8 ps 1) (u8 ps 2) with
  | some bs => answer s bs
  | none => refuse s .badParam

end Sys2Proof.Machine
end

