-- ==== Sys2Proof/Machine/TableCommands.lean ====
section
/-! DEFINITION. The meanings of the loads, SWAP and READ_TABLE. -/

namespace Sys2Proof.Machine

/-- LOAD_WHEEL (R26). -/
def execLoadWheel (f : Frame) (s : State) : Host.Outcome State Fault Refusal :=
  .next (takeFrame s 0x10 f (exactly 5) ownLoadWheel)

/-- LOAD_CYL (R29). -/
def execLoadCyl (f : Frame) (s : State) : Host.Outcome State Fault Refusal :=
  .next (takeFrame s 0x11 f (exactly 12) ownLoadCyl)

/-- LOAD_PROFILE (R33). -/
def execLoadProfile (f : Frame) (s : State) : Host.Outcome State Fault Refusal :=
  .next (takeFrame s 0x12 f (exactly 17) ownLoadProfile)

/-- LOAD_PATTERN (R37). -/
def execLoadPattern (f : Frame) (s : State) : Host.Outcome State Fault Refusal :=
  .next (takeFrame s 0x13 f admitsPattern ownLoadPattern)

/-- SWAP (R38). -/
def execSwap (f : Frame) (s : State) : Host.Outcome State Fault Refusal :=
  .next (takeFrame s 0x14 f (exactly 0) ownSwap)

/-- LOAD_LIMITS (R41). -/
def execLoadLimits (f : Frame) (s : State) : Host.Outcome State Fault Refusal :=
  .next (takeFrame s 0x15 f (exactly 31) ownLoadLimits)

/-- READ_TABLE (R43). -/
def execReadTable (f : Frame) (s : State) : Host.Outcome State Fault Refusal :=
  .next (takeFrame s 0x16 f (exactly 3) ownReadTable)

end Sys2Proof.Machine
end

