-- ==== Sys2Proof/Machine/TraceCommands.lean ====
section
/-! DEFINITION. The meanings of TRACE_ARM and TRACE_READ. -/

namespace Sys2Proof.Machine

/-- TRACE_ARM (R145). -/
def execTraceArm (f : Frame) (s : State) : Host.Outcome State Fault Refusal :=
  .next (takeFrame s 0x38 f (exactly 2) ownTraceArm)

/-- TRACE_READ (R147). -/
def execTraceRead (f : Frame) (s : State) : Host.Outcome State Fault Refusal :=
  .next (takeFrame s 0x39 f (exactly 0) ownTraceRead)

end Sys2Proof.Machine
end

