-- ==== Sys2Proof/Machine/Dispatch.lean ====
section
/-! DEFINITION. One arm per command of the part. -/

namespace Sys2Proof.Machine

def exec (i : Instr) (s : State) : Host.Outcome State Fault Refusal :=
  match i with
  | .powerOnReset => Sys2Proof.Machine.execPowerOnReset s
  | .busyPeriodEnd => Sys2Proof.Machine.execBusyPeriodEnd s
  | .crankEdge tr tie => Sys2Proof.Machine.execCrankEdge tr tie s
  | .camEdge tr => Sys2Proof.Machine.execCamEdge tr s
  | .deadlineExpiry tie => Sys2Proof.Machine.execDeadlineExpiry tie s
  | .stall => Sys2Proof.Machine.execStall s
  | .techoPulseEnd => Sys2Proof.Machine.execTechoPulseEnd s
  | .cmarkPulseEnd => Sys2Proof.Machine.execCmarkPulseEnd s
  | .timedInstant b tag => Sys2Proof.Machine.execTimedInstant b tag s
  | .chainShotDue b tag => Sys2Proof.Machine.execChainShotDue b tag s
  | .gapEnd b => Sys2Proof.Machine.execGapEnd b s
  | .deferDeadline b tag => Sys2Proof.Machine.execDeferDeadline b tag s
  | .scheduledEnd b => Sys2Proof.Machine.execScheduledEnd b s
  | .windowClose b c => Sys2Proof.Machine.execWindowClose b c s
  | .driveSample b x => Sys2Proof.Machine.execDriveSample b x s
  | .traceSample x => Sys2Proof.Machine.execTraceSample x s
  | .rechargeStep => Sys2Proof.Machine.execRechargeStep s
  | .supplySample x => Sys2Proof.Machine.execSupplySample x s
  | .linkSilence => Sys2Proof.Machine.execLinkSilence s
  | .brokenTransaction bytes odd => Sys2Proof.Machine.execBrokenTransaction bytes odd s
  | .unknown code f => Sys2Proof.Machine.execUnknown code f s
  | .nop f => Sys2Proof.Machine.execNop f s
  | .reset f => Sys2Proof.Machine.execReset f s
  | .readId f => Sys2Proof.Machine.execReadId f s
  | .loadWheel f => Sys2Proof.Machine.execLoadWheel f s
  | .loadCyl f => Sys2Proof.Machine.execLoadCyl f s
  | .loadProfile f => Sys2Proof.Machine.execLoadProfile f s
  | .loadPattern f => Sys2Proof.Machine.execLoadPattern f s
  | .swap f => Sys2Proof.Machine.execSwap f s
  | .loadLimits f => Sys2Proof.Machine.execLoadLimits f s
  | .readTable f => Sys2Proof.Machine.execReadTable f s
  | .demand f => Sys2Proof.Machine.execDemand f s
  | .arm f => Sys2Proof.Machine.execArm f s
  | .disarm f => Sys2Proof.Machine.execDisarm f s
  | .stop f => Sys2Proof.Machine.execStop f s
  | .cutSet f => Sys2Proof.Machine.execCutSet f s
  | .cutClear f => Sys2Proof.Machine.execCutClear f s
  | .cutToggle f => Sys2Proof.Machine.execCutToggle f s
  | .cutTest f => Sys2Proof.Machine.execCutTest f s
  | .clearFault f => Sys2Proof.Machine.execClearFault f s
  | .service f => Sys2Proof.Machine.execService f s
  | .traceArm f => Sys2Proof.Machine.execTraceArm f s
  | .traceRead f => Sys2Proof.Machine.execTraceRead f s
  | .readAngle f => Sys2Proof.Machine.execReadAngle f s
  | .readTime f => Sys2Proof.Machine.execReadTime f s
  | .readStatus f => Sys2Proof.Machine.execReadStatus f s
  | .readCyl f => Sys2Proof.Machine.execReadCyl f s
  | .readReport f => Sys2Proof.Machine.execReadReport f s
  | .readQueue f => Sys2Proof.Machine.execReadQueue f s
  | .readCounters f => Sys2Proof.Machine.execReadCounters f s
  | .readEvents f => Sys2Proof.Machine.execReadEvents f s
  | .setMask f => Sys2Proof.Machine.execSetMask f s

end Sys2Proof.Machine
end

