-- ==== Sys2Proof/Machine/Pins.lean ====
section
/-! DEFINITION. The edges of the control link's pins, one at a time (R165): a transaction in progress, bit by bit, and the
frame taken at the rise of LSEL. -/

namespace Sys2Proof.Machine

/-- R165: one edge of LSEL or LCLK. The rise that ends a transaction takes the frame its bits make, as the command they
spell; a rise after a transaction that was not seen takes none. -/
def takeEdge (e : LinkEdge) (s : State) : Host.Outcome State Fault Refusal :=
  match e with
  | .selectFall => .next (s.setLink s.link.selectFall)
  | .clockRise ldi => .next (s.setLink (s.link.clockRise ldi))
  | .clockFall => .next (s.setLink s.link.clockFall)
  | .selectRise =>
    match s.link.select with
    | .transaction bits _ => exec (decodeTransaction bits) s
    | .missed => .next (s.setLink { s.link with select := .released })
    | .released => .next s

end Sys2Proof.Machine
end

