-- ==== Sys2Proof/Machine/Step.lean ====
section
/-! DEFINITION. One step: the command at the front of the queue, or, with none waiting, the next edge at the link's pins,
or the block's own time. -/

namespace Sys2Proof.Machine

/-- The first queued shot of a bank that meets a test, as a command. -/
def firstShot (s : State) (k : Bank) (p : Shot → Bool) (f : Byte → Instr) : Option Instr :=
  ((s.schedOf k).queue.find? p).map fun x => f x.tag

/-- The first track of a bank whose close instant has come. -/
def firstClose (s : State) (k : Bank) : Option Instr :=
  ((s.schedOf k).tracks.find? fun t => t.closeNow s.timebase).map fun t => .windowClose k t.cyl

/-- An event that is due. -/
def onDue (due : Bool) (i : Instr) : Option Instr := if due then some i else none

/-- The events of the present instant that need no input, in the order the model takes them when no command says
otherwise. DESIGN CHOICE (log entry 3). -/
def dueEvents (s : State) : List (Option Instr) :=
  [onDue (dueBusyEnd s) .busyPeriodEnd, onDue (dueTechoEnd s) .techoPulseEnd, onDue (dueCmarkEnd s) .cmarkPulseEnd,
   onDue (dueDeadline s) (.deadlineExpiry .dueFirst), onDue (dueStall s) .stall, onDue (dueRecharge s) .rechargeStep,
   onDue (dueSchedEnd s .bankA) (.scheduledEnd .bankA), onDue (dueSchedEnd s .bankB) (.scheduledEnd .bankB),
   firstClose s .bankA, firstClose s .bankB,
   onDue (dueGapEnd s .bankA) (.gapEnd .bankA), onDue (dueGapEnd s .bankB) (.gapEnd .bankB),
   firstShot s .bankA (fun x => x.chainDue s.timebase) (.chainShotDue .bankA),
   firstShot s .bankB (fun x => x.chainDue s.timebase) (.chainShotDue .bankB),
   firstShot s .bankA (fun x => x.timedDue s.timebase) (.timedInstant .bankA),
   firstShot s .bankB (fun x => x.timedDue s.timebase) (.timedInstant .bankB),
   firstShot s .bankA (fun x => x.deadlineDue s.timebase) (.deferDeadline .bankA),
   firstShot s .bankB (fun x => x.deadlineDue s.timebase) (.deferDeadline .bankB),
   onDue (dueSilence s) .linkSilence]

/-- The first event due. -/
def dueEvent (s : State) : Option Instr := (dueEvents s).findSome? id

/-- A sample is due whose reading a command must bring. -/
def sampleAwaited (s : State) : Bool :=
  dueDriveSample s .bankA || dueDriveSample s .bankB || (dueTraceSample s).isSome || dueSupply s

/-- R1: the timebase advances by one. -/
def tick (s : State) : State := { s with timebase := s.timebase + 1 }

/-- What the block does with no command and no edge waiting: it takes an event that is due, waits for a reading, or lets one tick
pass. DESIGN CHOICE (log entry 3). -/
def idleStep (s : State) : Host.Outcome State Fault Refusal :=
  match dueEvent s with
  | some i => exec i s
  | none => if sampleAwaited s then .next s else .next (tick s)

/-- One step. With no command waiting an edge at the link's pins is taken before the block's own time: DESIGN CHOICE (log
entry 32). -/
def step (s : State) : Host.Outcome State Fault Refusal :=
  match s.pending with
  | i :: rest => exec i { s with pending := rest }
  | [] =>
    match s.link.edges with
    | e :: rest => takeEdge e (s.setLink { s.link with edges := rest })
    | [] => idleStep s

/-- The command a table word spells, put at the front of the queue; the table's rows give no bits. -/
def State.withFetchWord (s : State) (nbits w : Nat) : State :=
  match decodeTableWord nbits w with
  | some i => { s with pending := i :: s.pending }
  | none => s

end Sys2Proof.Machine
end

