-- ==== Sys2Proof/WellFormed.lean ====
section
/-! DEFINITION. The checks that make a command one the outside world can send. -/

namespace Sys2Proof

open Sys2Proof.Machine

/-- Fewer than eight bits have come since the last whole byte (R167). -/
def oddFits (odd : List Bool) : Bool := decide (odd.length < 8)

/-- The transaction carries a complete frame (R166). -/
def frameFits (f : Frame) : Bool := frameComplete f && oddFits f.odd

/-- The whole bytes of a transaction do not make a complete frame (R167). -/
def brokenBytes (bytes : List Byte) : Bool :=
  match bytes with
  | _ :: len :: rest => decide (rest.length ≤ len.toNat)
  | _ => true

/-- A command is well formed when a transaction can carry it, and when its row is the one its bytes name. -/
def Instr.wf : Instr → Bool
  | .brokenTransaction bytes odd => brokenBytes bytes && oddFits odd
  | .unknown code f => frameFits f && (commandOf code).isNone
  | .nop f => frameFits f
  | .reset f => frameFits f
  | .readId f => frameFits f
  | .loadWheel f => frameFits f
  | .loadCyl f => frameFits f
  | .loadProfile f => frameFits f
  | .loadPattern f => frameFits f
  | .swap f => frameFits f
  | .loadLimits f => frameFits f
  | .readTable f => frameFits f
  | .demand f => frameFits f
  | .arm f => frameFits f
  | .disarm f => frameFits f
  | .stop f => frameFits f
  | .cutSet f => frameFits f && cutRow f f == .cutSet f
  | .cutClear f => frameFits f && cutRow f f == .cutClear f
  | .cutToggle f => frameFits f && cutRow f f == .cutToggle f
  | .cutTest f => frameFits f && cutRow f f == .cutTest f
  | .clearFault f => frameFits f
  | .service f => frameFits f
  | .traceArm f => frameFits f
  | .traceRead f => frameFits f
  | .readAngle f => frameFits f
  | .readTime f => frameFits f
  | .readStatus f => frameFits f
  | .readCyl f => frameFits f
  | .readReport f => frameFits f
  | .readQueue f => frameFits f
  | .readCounters f => frameFits f
  | .readEvents f => frameFits f
  | .setMask f => frameFits f
  | .powerOnReset => true
  | .busyPeriodEnd => true
  | .crankEdge _ _ => true
  | .camEdge _ => true
  | .deadlineExpiry _ => true
  | .stall => true
  | .techoPulseEnd => true
  | .cmarkPulseEnd => true
  | .timedInstant _ _ => true
  | .chainShotDue _ _ => true
  | .gapEnd _ => true
  | .deferDeadline _ _ => true
  | .scheduledEnd _ => true
  | .windowClose _ _ => true
  | .driveSample _ _ => true
  | .traceSample _ => true
  | .rechargeStep => true
  | .supplySample _ => true
  | .linkSilence => true

end Sys2Proof
end

