-- ==== Sys2Proof/Safety.lean ====
section
/-! DEFINITION. The terms claims use: what a frame must pass to reach its owner, reading a reply at its offsets, what a
tooth, a freeze, a chain and a cancellation leave, and the agreements between blocks that every step keeps. -/

namespace Sys2Proof.Machine

/-! ### Frames (R165 to R170) -/

/-- The frame of a command that comes over the link as a frame, with its code byte (section 11.1). -/
def frameOf : Instr → Option (Byte × Frame)
  | .unknown code f => some (code, f)
  | .nop f => some (0x01, f)
  | .reset f => some (0x02, f)
  | .readId f => some (0x03, f)
  | .loadWheel f => some (0x10, f)
  | .loadCyl f => some (0x11, f)
  | .loadProfile f => some (0x12, f)
  | .loadPattern f => some (0x13, f)
  | .swap f => some (0x14, f)
  | .loadLimits f => some (0x15, f)
  | .readTable f => some (0x16, f)
  | .demand f => some (0x20, f)
  | .arm f => some (0x21, f)
  | .disarm f => some (0x22, f)
  | .stop f => some (0x23, f)
  | .cutSet f => some (0x30, f)
  | .cutClear f => some (0x30, f)
  | .cutToggle f => some (0x30, f)
  | .cutTest f => some (0x30, f)
  | .clearFault f => some (0x31, f)
  | .service f => some (0x32, f)
  | .traceArm f => some (0x38, f)
  | .traceRead f => some (0x39, f)
  | .readAngle f => some (0x40, f)
  | .readTime f => some (0x41, f)
  | .readStatus f => some (0x42, f)
  | .readCyl f => some (0x43, f)
  | .readReport f => some (0x44, f)
  | .readQueue f => some (0x45, f)
  | .readCounters f => some (0x46, f)
  | .readEvents f => some (0x47, f)
  | .setMask f => some (0x48, f)
  | .powerOnReset => none
  | .busyPeriodEnd => none
  | .crankEdge _ _ => none
  | .camEdge _ => none
  | .deadlineExpiry _ => none
  | .stall => none
  | .techoPulseEnd => none
  | .cmarkPulseEnd => none
  | .timedInstant _ _ => none
  | .chainShotDue _ _ => none
  | .gapEnd _ => none
  | .deferDeadline _ _ => none
  | .scheduledEnd _ => none
  | .windowClose _ _ => none
  | .driveSample _ _ => none
  | .traceSample _ => none
  | .rechargeStep => none
  | .supplySample _ => none
  | .linkSilence => none
  | .brokenTransaction _ _ => none

/-- The lengths a known code admits (section 11.1), told from the parameters received. -/
def lengthAdmitted (code : Byte) (ps : List Byte) : Bool :=
  if code ∈ [0x01, 0x02, 0x03, 0x14, 0x21, 0x22, 0x23, 0x39, 0x40, 0x41, 0x42, 0x46, 0x47] then ps.length == 0
  else if code ∈ [0x31, 0x43, 0x44] then ps.length == 1
  else if code ∈ [0x30, 0x38, 0x45, 0x48] then ps.length == 2
  else if code = 0x16 then ps.length == 3
  else if code = 0x10 then ps.length == 5
  else if code = 0x32 then ps.length == 6
  else if code = 0x11 then ps.length == 12
  else if code = 0x12 then ps.length == 17
  else if code = 0x15 then ps.length == 31
  else if code = 0x13 then [2, 11, 20, 29, 38, 47, 56].contains ps.length && ps.length == 2 + 9 * (ps.getD 1 0).toNat
  else [5, 10, 15, 20, 25, 30, 35, 40].contains ps.length

/-- A complete frame with a good CRC, outside the busy period. -/
def passes (s : State) (code : Byte) (f : Frame) : Bool :=
  frameComplete f && frameChecks code f && s.link.busyUntil.isNone

/-- The state an owner meets a frame in: the transaction has been clocked, and a running silence timer restarted. -/
def received (s : State) (code : Byte) (f : Frame) : State := restartSilence (clockTransaction s (frameBytes code f) f.odd)

/-- R165, R169: what LDO carries with so many rising edges: a bit of the response that was pending at each of them, its bytes
in order and most significant bit first, and zeros after its end. -/
def clockedWith (s : State) (edges : Nat) : List Bool :=
  (bitsOfBytes s.link.response.bytes ++ List.replicate edges false).take edges

/-- What a complete frame with a good CRC does at the Link Interface itself: the transaction is kept and counted (R166; that
the two fields stay so after it is the model's choice, log entry 30), the response that was pending has been clocked out
with it, zeros after its end (R165, R169), a running silence timer restarts (R173), the new response is pending (R169),
and LSEL is high (R165; log entry 32 for a transaction in progress before). -/
def answered (s : State) (code : Byte) (f : Frame) (r : Result) (data : List Byte) : State :=
  { s with link := { s.link with
      rx := ((code :: f.len :: f.rest).take (f.len.toNat + 3)).take 63
      count := f.rest.length + 2
      ldo := clockedWith s (8 * (f.rest.length + 2) + f.odd.length)
      select := .released
      silence := s.link.silence.map fun _ => s.timebase
      response := { code := code, result := r, data := data } } }

/-- The results that say a frame had no effect (R170). -/
def Result.isRefusal : Result → Bool
  | .ok => false
  | .okClamped => false
  | .badCrc => true
  | .framing => true
  | .unknown => true
  | .badLength => true
  | .badParam => true
  | .wrongState => true
  | .busy => true
  | .powerOn => false
  | .softReset => false

/-- A little-endian number (chapter 11). -/
def leValue : List Byte → Nat
  | [] => 0
  | x :: xs => x.toNat + 256 * leValue xs

/-- The field of `n` bytes at an offset of a reply. -/
def fieldAt (ds : List Byte) (off n : Nat) : Nat := leValue ((ds.drop off).take n)

/-- The four bytes of a demand in a reply: pattern id, main_us, signed advance; zeros for none (section 11.4). -/
def demandField : Option Demand → List Byte
  | none => [0, 0, 0, 0]
  | some d => [BitVec.ofNat 8 d.pattern.val, BitVec.ofNat 8 d.mainUs, BitVec.ofNat 8 (d.mainUs / 256),
               BitVec.ofInt 8 d.advance]

/-- The five bytes of an entry of a DEMAND frame (section 11.3). -/
def DemandEntry.bytes (e : DemandEntry) : List Byte :=
  byte e.cyl :: byte e.pattern :: (leBytes 2 e.mainUs ++ [s8Byte e.advance])

/-- The fields of the entry fit their bytes. -/
def DemandEntry.carried (e : DemandEntry) : Bool :=
  decide (e.cyl < 256) && decide (e.pattern < 256) && decide (e.mainUs < 65536) &&
  decide (-128 ≤ e.advance ∧ e.advance ≤ 127)

/-- R53: the entry names an enabled cylinder and a pattern id 0 to 15. -/
def DemandEntry.admitted (s : State) (e : DemandEntry) : Prop :=
  ∃ c : Cyl, e.cyl = c.val + 1 ∧ (s.cylOf c).enabled = true ∧ e.pattern < 16

/-! ### Teeth (R2, R3, R8, R13, R14) -/

/-- The wheel is loaded, and a rising edge now comes no sooner than 200 ticks after the edge before. -/
def crankTaken (s : State) : Prop :=
  s.tables.wheel.loaded = true ∧ ∀ n, s.clock.lastCrank = some n → n + 200 ≤ s.timebase

/-- A rising edge now is a real tooth of a sync state. -/
def realTooth (s : State) : Prop :=
  crankTaken s ∧ (s.clock.sync = .crankSync ∨ s.clock.sync = .fullSync) ∧
  ∃ n, s.clock.lastTooth = some n ∧
    ¬(s.clock.absorb = true ∧ s.timebase - n < 3 * s.clock.tpred / 4) ∧
    s.clock.tpred ≤ 2 * (s.timebase - n) ∧
    (s.clock.index = s.tables.wheel.n - s.tables.wheel.m - 1 →
      (2 * s.tables.wheel.m + 1) * s.clock.tpred ≤ 2 * (s.timebase - n))

/-- The deadline of a sync state has come with fewer than two synthetic teeth since the last real one. -/
def syntheticTooth (s : State) : Prop :=
  (s.clock.sync = .crankSync ∨ s.clock.sync = .fullSync) ∧ s.clock.synth < 2 ∧
  ∃ d, s.clock.deadline = some d ∧ d ≤ s.timebase

/-- The command that brings a tooth: a rising edge, or the deadline for a synthetic one. -/
def toothCommand (synthetic : Bool) (tie : TieOrder) : Instr :=
  if synthetic then .deadlineExpiry tie else .crankEdge .rising tie

/-- That command, taken now, makes an accepted tooth of a sync state. -/
def toothReady (synthetic : Bool) (s : State) : Prop := if synthetic then syntheticTooth s else realTooth s

/-- The interval the next tooth closes is the gap. -/
def atGap (s : State) : Prop := s.clock.index = s.tables.wheel.n - s.tables.wheel.m - 1

/-- R4, R13: the interval the tooth closes, brought to one pitch. -/
def toothInterval (synthetic : Bool) (s : State) : Nat :=
  if synthetic then s.clock.tpred
  else if s.clock.index = s.tables.wheel.n - s.tables.wheel.m - 1 then
    (s.timebase - s.clock.lastTooth.getD 0) / (s.tables.wheel.m + 1)
  else s.timebase - s.clock.lastTooth.getD 0

/-- R9, R13: the tooth's own time. -/
def toothTime (synthetic : Bool) (s : State) : Nat :=
  if synthetic then
    s.clock.lastTooth.getD 0 +
      (if s.clock.index = s.tables.wheel.n - s.tables.wheel.m - 1 then s.tables.wheel.m + 1 else 1) * s.clock.tpred
  else s.timebase

/-! ### Shots that fall due (R91, R92, R97, R102) -/

/-- The command that brings a shot's due instant: TIMED_INSTANT for a shot placed by angle, CHAIN_SHOT_DUE for a chained one. -/
def dueCommand (k : Bank) (x : Shot) : Instr := if x.isAngle then .timedInstant k x.tag else .chainShotDue k x.tag

/-- The shot's instant has come and it has not fallen due yet: a TIMED ANGLE shot at its timed instant (R91), a CHAIN or
service shot at its due instant (R92). -/
def fallsDue (s : State) (x : Shot) : Prop :=
  x.waiting = false ∧ (x.isAngle = true → x.state = .timed) ∧ ∃ n, x.due = some n ∧ n ≤ s.timebase

/-- The shot is queued on the bank, no other queued shot has its tag, and no other is waiting or due. -/
def onlyDue (s : State) (k : Bank) (x : Shot) : Prop :=
  (s.schedOf k).queue.filter (fun y => y.tag == x.tag || y.waiting || y.dueNow s.timebase) = [x]

/-- R92, R102: the window of the shot has not passed, or the shot has none. -/
def inWindow (s : State) (k : Bank) (x : Shot) : Prop := x.flags.service = true ∨ windowPassed s k x.cyl = false

/-- R133: the Drive Stage of a pulse that starts now. -/
def startedStage (s : State) (x : Shot) (degraded : Bool) : DriveStage :=
  let p := s.profileOf x.cyl
  { phase := if degraded then (if p.peakHold = 0 then .hold else .peak) else .boost
    output := some (s.cylOf x.cyl).output, degraded := degraded
    profile := { peak := p.peak, hold := p.hold, short := p.short, openDetect := p.openDetect, boostMax := p.boostMax,
                 peakHold := p.peakHold, recup := p.recup }
    startTime := s.timebase, samples := 0, gate := true, boostSw := !degraded, entryTime := s.timebase }

/-- R104, R113, R133, R146: the state in which a queued shot has opened on its bank. -/
def opened (s : State) (k : Bank) (x : Shot) (degraded : Bool) : State :=
  let q := s.schedOf k
  { s with
    sched := s.sched.set k { q with
      queue := q.queue.filter fun y => y.tag != x.tag
      cond := .active
      started := q.started + 1
      active := some { tag := x.tag, cyl := x.cyl, cls := x.cls, startTime := s.timebase, startAngle := s.angleReading
                       schedEnd := s.timebase + x.ticks, windowClose := closingInstant s k x.cyl
                       flags := { x.flags with degraded := degraded } } }
    drive := s.drive.set k (startedStage s x degraded)
    trace := if s.trace.state = .armed ∧ s.trace.cyl = x.cyl.val + 1 then
        { s.trace with state := .capturing, bank := some k, start := some s.timebase } else s.trace }

/-- R112, R113: the scheduler from which one shot has been shed. -/
def shedFrom (q : Sched) (tag : Byte) : Sched :=
  { q with queue := q.queue.filter fun y => y.tag != tag, shed := q.shed + 1 }

/-- R112, R152, R153, R155: an outcome has reached the open plan of its cylinder, if there is one, and the plan has been
published if that made it complete; the other cylinders are as they were. -/
def outcomeWritten (s t : State) (c : Cyl) (tag : Byte) (o : PlaceOutcome) : Prop :=
  (∀ d, d ≠ c → t.supOf d = s.supOf d) ∧
  match (s.supOf c).plan with
  | none => t.supOf c = s.supOf c ∧ t.service = s.service
  | some p =>
    let p' : Plan := { p with places := fillPlaces tag o p.places }
    if p'.complete then
      t.supOf c = { s.supOf c with
        plan := none, report := some p'.report
        code := if p'.summary = .none then (s.supOf c).code else p'.summary } ∧
      t.service = if p.kind = .service then none else s.service
    else t.supOf c = { s.supOf c with plan := some p' } ∧ t.service = s.service

/-! ### Several outcomes of one act (R93, R112, R152, R153) -/

/-- R93: the outcome a predecessor's fate gives its successor: BROKEN passes to a later repeat of the same entry, every
other one is SHED_CHAIN. -/
def fateAfter (o : ShotOutcome) (sameEntry : Bool) : ShotOutcome :=
  if o = .broken ∧ sameEntry = true then .broken else .shedChain

/-- R93: a queued shot whose chain leads back to the shot of a tag, of an entry, that has met the outcome `o`, and the
outcome the shot takes from it. -/
inductive ChainFate (q : List Shot) (tag : Byte) (entry : Nat) (o : ShotOutcome) : Shot → ShotOutcome → Prop
  | first {y : Shot} : y ∈ q → y.follows tag = true → ChainFate q tag entry o y (fateAfter o (y.entry == entry))
  | next {y z : Shot} {p : ShotOutcome} : ChainFate q tag entry o y p → z ∈ q → z.follows y.tag = true →
      ChainFate q tag entry o z (fateAfter p (z.entry == y.entry))

/-- R78: in the chain that leads back to a tag, each tag names one queued shot, and none of them that tag itself. -/
def chainNamed (q : List Shot) (tag : Byte) (entry : Nat) (o : ShotOutcome) : Prop :=
  ∀ y p, ChainFate q tag entry o y p → y.tag ≠ tag ∧ q.filter (fun z => z.tag == y.tag) = [y]

/-- The list holds the shots of the chain, each once and with its outcome. -/
def chainIs (q : List Shot) (tag : Byte) (entry : Nat) (o : ShotOutcome) (cs : List (Shot × ShotOutcome)) : Prop :=
  (cs.map fun z => z.1.tag).Nodup ∧ ∀ y p, (y, p) ∈ cs ↔ ChainFate q tag entry o y p

/-- The queue without the shots of a list. -/
def withoutShots (q : List Shot) (cs : List (Shot × ShotOutcome)) : List Shot :=
  q.filter fun y => !cs.any fun z => z.1.tag == y.tag

/-- R112: what is written for a shot that never opened. -/
def neverOpened (o : ShotOutcome) : PlaceOutcome :=
  { outcome := o, fault := none, startAngle := 0, onTime := 0, flags := {} }

/-- R105: what is written for a pulse that ends now: its start angle, its on-time in whole µs and its flags. -/
def endedNow (s : State) (p : Pulse) (o : ShotOutcome) (fault : Option FaultKind) : PlaceOutcome :=
  { outcome := o, fault := fault, startAngle := p.startAngle, onTime := (s.timebase - p.startTime) / 10
    flags := if o = .firedPreempted then { p.flags with preempted := true } else p.flags }

/-- The outcomes of the shots of a chain, none of which opened. -/
def chainOutcomes (cs : List (Shot × ShotOutcome)) : List (Cyl × Byte × PlaceOutcome) :=
  cs.map fun z => (z.1.cyl, z.1.tag, neverOpened z.2)

/-- The shots of a list, each with one outcome. -/
def allWith (o : ShotOutcome) (xs : List Shot) : List (Shot × ShotOutcome) := xs.map fun x => (x, o)

/-- The outcome of a pulse that ends now, as one of a list; none without a pulse. -/
def pulseOutcome (s : State) (p : Option Pulse) (o : ShotOutcome) (fault : Option FaultKind) :
    List (Cyl × Byte × PlaceOutcome) :=
  match p with
  | none => []
  | some p => [(p.cyl, p.tag, endedNow s p o fault)]

/-- The outcomes of a list that go to one cylinder. -/
def outcomesOf (os : List (Cyl × Byte × PlaceOutcome)) (c : Cyl) : List (Byte × PlaceOutcome) :=
  (os.filter fun x => x.1 == c).map fun x => x.2

/-- R152: an open plan with outcomes written into its places, one after another. -/
def Plan.filled (p : Plan) (os : List (Byte × PlaceOutcome)) : Plan :=
  { p with places := os.foldl (fun ps x => fillPlaces x.1 x.2 ps) p.places }

/-- R152, R153, R155: what the Supervisor holds for a cylinder after outcomes have reached its open plan, if there is one:
the plan goes on, or is published because they completed it. -/
def CylSup.told (x : CylSup) (os : List (Byte × PlaceOutcome)) : CylSup :=
  match x.plan with
  | none => x
  | some p =>
    if os.isEmpty then x
    else if (p.filled os).complete then
      { x with plan := none, report := some (p.filled os).report
               code := if (p.filled os).summary = .none then x.code else (p.filled os).summary }
    else { x with plan := some (p.filled os) }

/-- R161: the outcomes complete the plan of a service chain. -/
def CylSup.serviceDone (x : CylSup) (os : List (Byte × PlaceOutcome)) : Bool :=
  match x.plan with
  | none => false
  | some p => p.kind == .service && !os.isEmpty && (p.filled os).complete

/-- R112, R152, R153, R155, R161: outcomes written at one act have reached the plans of their cylinders, and what they
completed has been published; a cylinder that gets none is as it was. -/
def outcomesTold (s t : State) (os : List (Cyl × Byte × PlaceOutcome)) : Prop :=
  (∀ c, t.supOf c = (s.supOf c).told (outcomesOf os c)) ∧
  t.service = if ∃ c, (s.supOf c).serviceDone (outcomesOf os c) = true then none else s.service

/-- R156: a pulse of the cylinder has ended other than FAULTED. -/
def endCounted (s : State) (c : Cyl) : State :=
  { s with sup := s.sup.set c { s.supOf c with faults := 0, firstPulse := false } }

/-- R48, R39, R173: the test while DRAINING: with both queues empty and no pulse on, firing becomes SAFE, a pending swap is
taken and the silence timer stops. -/
def drainSettled (s : State) : State :=
  if s.firing = .draining ∧ s.sched.a.queue = [] ∧ s.sched.b.queue = [] ∧ s.sched.a.active = none ∧
      s.sched.b.active = none then
    { s with
      firing := .safe
      tables := if s.tables.swapPending then
          { s.tables with activePage1 := !s.tables.activePage1, swapPending := false } else s.tables
      link := { s.link with silence := none } }
  else s

/-- R96: what follows an end on a bank in GAP: the gap runs on, or, with a bank gap of 0, its end is taken at once. -/
def gapSettled (k : Bank) (u t : State) : Prop :=
  if (u.schedOf k).cond = .gap ∧ u.tables.limits.bankGapUs = 0 then exec (.gapEnd k) u = .next t else t = u

/-- R96: the last end of the bank, if it has one, is not ahead. -/
def endPassed (s : State) (k : Bank) : Prop := ∀ n, (s.schedOf k).lastEnd = some n → n ≤ s.timebase

/-- R118, R138: the Drive Stage after the end of its pulse. -/
def stageEnded (d : DriveStage) : DriveStage :=
  { d with phase := .quench, output := none, gate := false, boostSw := false }

/-- R118: the level after the end of a pulse of a bank. -/
def recuperated (s : State) (k : Bank) : Nat :=
  min (s.tables.limits.capacity.get k) (s.levelOf k + (s.driveOf k).profile.recup)

/-- R105, R118, R138: a bank on which no pulse is on any more: as it was, or, where one was on, after that pulse's end now. -/
def pulseOff (s : State) (k : Bank) (p : Option Pulse) : State :=
  match p with
  | none => s
  | some _ => { s with
      sched := s.sched.set k { s.schedOf k with active := none, cond := .gap, lastEnd := some s.timebase }
      drive := s.drive.set k (stageEnded (s.driveOf k))
      level := s.level.set k (recuperated s k) }

/-- R156: the end of a pulse, other than FAULTED, has been counted, where there was one. -/
def pulseCounted (s : State) (p : Option Pulse) : State :=
  match p with
  | none => s
  | some p => endCounted s p.cyl

/-- R107, R108: a scheduler whose shots and pulse have been cancelled. A bank gap of 0 is over at once. -/
def cancelledSched (s : State) (k : Bank) : Sched :=
  let q := s.schedOf k
  { q with
    queue := [], active := none, tracks := []
    cancelled := q.cancelled + BitVec.ofNat 32 q.queue.length
    lastEnd := if q.active.isSome then some s.timebase else q.lastEnd
    cond := if q.active.isSome ∨ q.cond = .gap then (if s.tables.limits.bankGapUs = 0 then .idle else .gap)
            else q.cond }

/-- R105, R138: the Drive Stage of a bank whose pulse, if it had one, has been cancelled. -/
def cancelledStage (s : State) (k : Bank) : DriveStage :=
  let q := s.schedOf k
  let d := if q.active.isSome then stageEnded (s.driveOf k) else s.driveOf k
  if (q.active.isSome ∨ q.cond = .gap) ∧ s.tables.limits.bankGapUs = 0 then { d with phase := .off } else d

/-- R107, R108: the outcomes of a bank that is emptied: its shots in queue order, then its pulse. -/
def bankOutcomes (s : State) (k : Bank) (o : ShotOutcome) : List (Cyl × Byte × PlaceOutcome) :=
  chainOutcomes (allWith o (s.schedOf k).queue) ++ pulseOutcome s (s.schedOf k).active o none

/-- R107, R108, R112: both banks have been emptied with one cancellation, and the outcomes have reached the plans. -/
def banksCancelled (s t : State) (o : ShotOutcome) : Prop :=
  (∀ k, t.schedOf k = cancelledSched s k ∧ t.driveOf k = cancelledStage s k ∧
    t.levelOf k = if (s.schedOf k).active.isSome then recuperated s k else s.levelOf k) ∧
  outcomesTold (pulseCounted (pulseCounted s (s.schedOf .bankA).active) (s.schedOf .bankB).active) t
    (bankOutcomes s .bankA o ++ bankOutcomes s .bankB o)

/-! ### The arbiter (R100 to R104) -/

/-- R78: each tag names one queued shot, and no chain of the queue leads back to its own start. -/
def chainsNamed (q : List Shot) : Prop :=
  (q.map Shot.tag).Nodup ∧ ∀ x ∈ q, ∀ o, chainNamed q x.tag x.entry o

/-- R100: the waiting shot that is chosen: of the highest rank, of the earliest due instant among those, and of these the
first in queue order. -/
def chosen (q : List Shot) (x : Shot) : Prop :=
  ∃ before after, q = before ++ x :: after ∧ x.waiting = true ∧
    (∀ y ∈ after, y.waiting = true →
      y.cls.rank < x.cls.rank ∨ (y.cls.rank = x.cls.rank ∧ x.due.getD 0 ≤ y.due.getD 0)) ∧
    (∀ y ∈ before, y.waiting = true →
      y.cls.rank < x.cls.rank ∨ (y.cls.rank = x.cls.rank ∧ x.due.getD 0 < y.due.getD 0))

/-- R102, R103: the tests at the start instant refuse the shot, with this outcome. -/
def startRefused (s : State) (k : Bank) (x : Shot) (o : ShotOutcome) : Prop :=
  (o = .shedWindow ∧ ¬inWindow s k x) ∨
  (o = .broken ∧ inWindow s k x ∧ x.lowBoost = true ∧ s.levelOf k < s.tables.limits.lowWater) ∨
  (o = .shedBoost ∧ inWindow s k x ∧ (x.lowBoost = true → s.tables.limits.lowWater ≤ s.levelOf k) ∧
    s.levelOf k < (s.profileOf x.cyl).boostCost ∧ x.cls ≠ .main)

/-- R102, R103: the tests at the start instant pass: with the boost, or degraded for a MAIN shot without it. -/
def startAdmitted (s : State) (k : Bank) (x : Shot) (degraded : Bool) : Prop :=
  inWindow s k x ∧ (x.lowBoost = true → s.tables.limits.lowWater ≤ s.levelOf k) ∧
  if degraded then s.levelOf k < (s.profileOf x.cyl).boostCost ∧ x.cls = .main
  else (s.profileOf x.cyl).boostCost ≤ s.levelOf k

/-- R103, R104: the shot has opened, and a boosted one has paid its cost. -/
def startedNow (s : State) (k : Bank) (x : Shot) (degraded : Bool) : State :=
  { opened s k x degraded with
    level := if degraded then s.level else s.level.set k (s.levelOf k - (s.profileOf x.cyl).boostCost) }

/-- R48, R93, R112, R113: a queued shot has been shed with its outcome and its chain with it, the outcomes have reached the
plans, and a bank left empty while DRAINING has had its test. -/
def shedNow (s : State) (k : Bank) (x : Shot) (o : ShotOutcome) (t : State) : Prop :=
  ∃ cs, chainIs (s.schedOf k).queue x.tag x.entry o cs ∧
    t = drainSettled { s.raise .shed with
      sched := s.sched.set k { s.schedOf k with
        queue := withoutShots (s.schedOf k).queue ((x, o) :: cs)
        shed := (s.schedOf k).shed + BitVec.ofNat 32 (1 + cs.length) }
      sup := t.sup, service := t.service } ∧
    outcomesTold s t (chainOutcomes ((x, o) :: cs))

/-- R152: the DEFERRED mark on the place of a shot, if its plan is open. -/
def deferMarked (s : State) (x : Shot) : State :=
  match (s.supOf x.cyl).plan with
  | none => s
  | some m => { s with
      sup := s.sup.set x.cyl { s.supOf x.cyl with plan := some { m with places := markPlaces x.tag m.places } } }

/-- R99, R100: the deadline of a waiting shot against which a pulse opens now: its own due instant plus its class's limit. -/
def deferDeadline (s : State) (x : Shot) : Nat := x.due.getD s.timebase + 10 * s.tables.limits.deferUs x.cls

/-- R100, R152: the shot is DEFERRED until an instant, and its place says so. -/
def deferredUntil (s : State) (k : Bank) (x : Shot) (deadline : Nat) : State :=
  { deferMarked s x with
    sched := s.sched.set k { s.schedOf k with
      queue := (s.schedOf k).queue.map fun y =>
        if y.tag = x.tag then { y with state := .deferred, deadline := some deadline } else y } }

/-- R100, second paragraph: the shots of a list, one after another, have been judged against the pulse that opened: each is
DEFERRED until its deadline, or shed with SHED_CONFLICT where that has come (log entry 14), unless an earlier one's fate has
taken it along. -/
inductive RestJudged (k : Bank) : List Shot → State → State → Prop
  | done {s : State} : RestJudged k [] s s
  | gone {s t : State} {x : Shot} {xs : List Shot} : (∀ y ∈ (s.schedOf k).queue, y.tag ≠ x.tag) →
      RestJudged k xs s t → RestJudged k (x :: xs) s t
  | deferred {s t : State} {x : Shot} {xs : List Shot} : x ∈ (s.schedOf k).queue → s.timebase < deferDeadline s x →
      RestJudged k xs (deferredUntil s k x (deferDeadline s x)) t → RestJudged k (x :: xs) s t
  | late {s u t : State} {x : Shot} {xs : List Shot} : x ∈ (s.schedOf k).queue → deferDeadline s x ≤ s.timebase →
      shedNow (deferMarked s x) k x .shedConflict u → RestJudged k xs u t → RestJudged k (x :: xs) s t

/-- R100: the arbiter has acted on an IDLE bank: it has chosen until a pulse opened or no shot was waiting, each refused
start has shed its shot, and the other waiting shots have been judged against the pulse, in queue order; one already
DEFERRED keeps its deadline. -/
inductive Arbitrated (k : Bank) : State → State → Prop
  | idle {s : State} : (∀ y ∈ (s.schedOf k).queue, y.waiting = false) → Arbitrated k s s
  | refused {s u t : State} {x : Shot} {o : ShotOutcome} : chosen (s.schedOf k).queue x → startRefused s k x o →
      shedNow s k x o u → Arbitrated k u t → Arbitrated k s t
  | opens {s t : State} {x : Shot} {degraded : Bool} : chosen (s.schedOf k).queue x → startAdmitted s k x degraded →
      RestJudged k ((s.schedOf k).queue.filter fun y => y.tag != x.tag && y.waiting && y.state != .deferred)
        (startedNow s k x degraded) t →
      Arbitrated k s t

/-- R96, R138: the gap of a bank is over: the bank is IDLE and its Drive Stage OFF. -/
def gapPast (s : State) (k : Bank) : State :=
  { s with
    sched := s.sched.set k { s.schedOf k with cond := .idle }
    drive := s.drive.set k { s.driveOf k with phase := .off } }

/-- R42, R96: a bank under a changed bank gap, which is in force in `s`: in GAP it waits for the new end, or is IDLE at once
and the arbiter acts; IDLE it is in GAP again while the new gap runs (log entry 21); a pulse goes on. -/
def gapMoved (k : Bank) (s t : State) : Prop :=
  let q := s.schedOf k
  let runs := ∃ n, q.lastEnd = some n ∧ s.timebase < n + 10 * s.tables.limits.bankGapUs
  (q.cond = .active → t = s) ∧
  (q.cond = .gap → (runs → t = s) ∧ (¬runs → Arbitrated k (gapPast s k) t)) ∧
  (q.cond = .idle → (¬runs → t = s) ∧
    (runs → t = { s with
      sched := s.sched.set k { q with cond := .gap }, drive := s.drive.set k { s.driveOf k with phase := .quench } }))

/-! ### Chains from their end, and the report of a plan (R81, R153, R154) -/

/-- R81: the tags of the chain an anchor hangs on: the tag of its predecessor, the tag that one is anchored on, and so on to
the first of the chain, as far as the predecessors are still queued. -/
inductive BackChain (q : List Shot) : Anchor → Byte → Prop
  | pred {t : Byte} {gap : Nat} : BackChain q (.chain (some t) gap) t
  | back {t u : Byte} {gap : Nat} {y : Shot} : q.find? (fun z => z.tag == t) = some y → BackChain q y.anchor u →
      BackChain q (.chain (some t) gap) u

/-- R154: the code an entry of a report gives: the first of the list whose condition it meets. -/
def codeGiven (e : ReportEntry) : CondCode :=
  if e.outcome = .faulted ∧ e.fault = some .short then .short
  else if e.outcome = .faulted ∧ e.fault = some .openLoad then .openLoad
  else if e.outcome = .cancelledCut then .cut
  else if e.flags.degraded then .degraded
  else if e.flags.slowRise then .slowRise
  else if e.outcome = .shedBoost ∨ e.outcome = .broken then .shedBoost
  else if e.outcome = .shedConflict ∨ e.outcome = .shedQueueFull ∨ e.outcome = .firedPreempted then .shedConflict
  else if e.flags.deferred then .deferred
  else if e.outcome = .firedCutWindow ∨ e.outcome = .shedWindow ∨ e.flags.windowFit ∨ e.flags.startMoved then .windowFit
  else if e.flags.raisedMin ∨ e.flags.clampedMax then .clamped
  else if e.outcome = .fired then .firedClean
  else .none

/-- R154: the severity of a code an entry can give, 0 for NONE and for the codes no entry gives. -/
def severity : CondCode → Nat
  | .short => 11
  | .openLoad => 10
  | .cut => 9
  | .degraded => 8
  | .slowRise => 7
  | .shedBoost => 6
  | .shedConflict => 5
  | .deferred => 4
  | .windowFit => 3
  | .clamped => 2
  | .firedClean => 1
  | .none => 0
  | .stale => 0
  | .overspeed => 0
  | .firstPulseFault => 0
  | .locked => 0
  | .serviceDone => 0

/-! ### What a freeze creates (R65 to R77) -/

/-- R74, R76: the last shot created in a plan: its tag, its window position and its duration in ticks. -/
structure ChainEnd where
  tag   : Byte
  wpos  : Nat
  ticks : Nat
deriving DecidableEq, Repr

/-- R77: the record of a created shot: of the frozen cylinder, with the class and the break condition of its entry, PLANNED,
and with nothing of its progress yet. -/
def createdShot (i : PlanInput) (tag : Byte) (entry rep : Nat) (e : PatternEntry) (anchor : Anchor) (angle ticks : Nat)
    (flags : ShotFlags) : Shot where
  tag := tag
  cyl := i.cyl
  entry := entry
  rep := rep
  cls := e.cls
  anchor := anchor
  order := angle
  ticks := ticks
  lowBoost := e.lowBoost
  flags := flags
  state := .planned
  reached := false
  due := none
  waiting := false
  deadline := none

/-- R74 to R77: a shot chained on the last one created, and that shot as the last one created. -/
def chainedShot (i : PlanInput) (entry rep : Nat) (e : PatternEntry) (gapUs ticks : Nat) (flags : ShotFlags)
    (m : ChainEnd) : Shot × ChainEnd :=
  let gap := 10 * max gapUs i.profile.minSep
  let wpos := m.wpos + i.tooth.extent m.ticks + i.tooth.extent gap
  let angle := if wpos < i.record.span then (i.record.openAngle + wpos) % 11520 else i.record.closeAngle
  (createdShot i (m.tag + 1) entry rep e (.chain (some m.tag) gap) angle ticks flags, ⟨m.tag + 1, wpos, ticks⟩)

/-- R75: the `n` repeats of an entry from index `rep` on. -/
def repeatShots (i : PlanInput) (entry : Nat) (e : PatternEntry) (ticks : Nat) (flags : ShotFlags) :
    Nat → Nat → ChainEnd → List Shot × ChainEnd
  | 0, _, m => ([], m)
  | n + 1, rep, m =>
    let x := chainedShot i entry rep e e.repeatGapUs ticks flags m
    let xs := repeatShots i entry e ticks flags n (rep + 1) x.2
    (x.1 :: xs.1, xs.2)

/-- R71 to R74: the first shot of an entry, if it creates one. The first shot of the plan takes the tag `first`. -/
def leadShot (i : PlanInput) (first : Byte) (entry : Nat) (e : PatternEntry) (ticks : Nat) (flags : ShotFlags)
    (last : Option ChainEnd) : Option (Shot × ChainEnd) :=
  match e.anchor with
  | .chain gapUs => last.map (chainedShot i entry 0 e gapUs ticks flags)
  | .angle offset applies =>
    match windowPosition i.record (if applies then offset - 4 * i.demand.advance else offset) with
    | none => none
    | some (wpos, moved) =>
      match windowFit i.record i.profile.minOn i.tooth wpos ticks with
      | none => none
      | some (fitted, fit) =>
        let tag := match last with
          | none => first
          | some m => m.tag + 1
        let start := (i.record.openAngle + wpos) % 11520
        some (createdShot i tag entry 0 e (.angle start) start fitted { flags with startMoved := moved, windowFit := fit },
          ⟨tag, wpos, fitted⟩)

/-- R66 to R75: the shots of one entry, none where its class is omitted or it has no duration. -/
def entryShots (i : PlanInput) (first : Byte) (entry : Nat) (e : PatternEntry) (last : Option ChainEnd) :
    List Shot × Option ChainEnd :=
  if (i.band = .crank ∧ e.cls = .late) ∨ (i.band = .under ∧ e.cls ≠ .main) then ([], last)
  else
    match entryDuration e i.profile.minOn i.demand.mainUs with
    | none => ([], last)
    | some (d, flags) =>
      match leadShot i first entry e (10 * d) flags last with
      | none => ([], last)
      | some x =>
        let xs := repeatShots i entry e (10 * d) flags (e.repeats - 1) 1 x.2
        (x.1 :: xs.1, some xs.2)

/-- R66: the shots of the entries of a pattern, in plan order, the entries numbered from `n`. -/
def createdShots (i : PlanInput) (first : Byte) : Nat → List PatternEntry → Option ChainEnd → List Shot
  | _, [], _ => []
  | n, e :: es, last =>
    let xs := entryShots i first n e last
    xs.1 ++ createdShots i first (n + 1) es xs.2

/-- R65, R66: the shots a freeze of the cylinder creates from a demand, every one of them entering its queue. -/
def freezeShots (r : ToothReport) (s : State) (c : Cyl) (demand : Option ActiveDemand) : List Shot :=
  match demand with
  | none => []
  | some d =>
    if (s.supOf c).cut = true ∨ (s.supOf c).locked = true ∨ s.clock.overspeed = true then []
    else createdShots { cyl := c, record := s.cylOf c, profile := s.profileOf c, demand := d.demand
                        band := s.supply.band, tooth := r }
      (s.schedOf (s.bankOf c)).nextTag 0 (s.tables.pattern s.tables.activePage1 d.demand.pattern) none

/-- R66, R152: the place of a created shot in its plan. -/
def placeOf (x : Shot) : Place :=
  { tag := x.tag, entry := x.entry, rep := x.rep, cls := x.cls, flags := x.flags, outcome := none }

/-- R66, R152: a created shot has taken its place in the open plan of its cylinder. -/
def withPlace (s : State) (x : Shot) : State :=
  match (s.supOf x.cyl).plan with
  | none => s
  | some p => { s with
      sup := s.sup.set x.cyl { s.supOf x.cyl with
        plan := some { p with places := p.places ++ [placeOf x] } } }

/-! ### The banks at a tooth in FULL_SYNC (R56, R89 to R95) -/

/-- The interval an accepted tooth opens: its angle A, its span S, its time t0, the prediction and the pitch. -/
structure Interval where
  angle : Nat
  span  : Nat
  t0    : Nat
  tpred : Nat
  pitch : Nat
deriving DecidableEq, Repr

/-- The interval of a tooth that took `s` to a state with the clock `k`. -/
def intervalOf (synthetic : Bool) (s : State) (k : AngleClock) : Interval where
  angle := toothAngle s.tables.wheel k
  span := s.tables.wheel.spanAt k.index
  t0 := toothTime synthetic s
  tpred := k.tpred
  pitch := s.tables.wheel.pitch

/-- The angle lies in the interval. -/
def Interval.holds (i : Interval) (angle : Nat) : Prop := fwd i.angle angle < i.span

/-- R90, R94: when the crank is predicted to pass an angle, rounded half up. -/
def Interval.passing (i : Interval) (angle : Nat) : Nat :=
  i.t0 + (fwd i.angle angle * i.tpred + i.pitch / 2) / i.pitch

/-- R90: the timed instant of a start, no sooner than a window open that the same interval holds before it. -/
def Interval.startInstant (i : Interval) (openAngle start : Nat) : Nat :=
  if fwd i.angle openAngle < i.span ∧ fwd i.angle openAngle ≤ fwd i.angle start then
    max (i.passing start) (i.t0 + ceilDiv (fwd i.angle openAngle * i.tpred) i.pitch)
  else i.passing start

/-- R89, R90: a queued shot after the interval has met it. -/
def Interval.met (i : Interval) (s : State) (x : Shot) : Shot :=
  if fwd i.angle x.order < i.span then
    if x.isAngle = true ∧ x.state = .planned then
      { x with reached := true, state := .timed, due := some (i.startInstant (s.cylOf x.cyl).openAngle x.order) }
    else { x with reached := true }
  else x

/-- R94: a window track after the interval has met it. -/
def Interval.trackMet (i : Interval) (y : Track) : Track :=
  if y.state = .tracking ∧ fwd i.angle y.closeAngle < i.span then
    { y with state := .closing (i.passing y.closeAngle) }
  else y

/-- The close instant of the cylinder's track in a list, if the track is CLOSING. -/
def closeInstantIn (tracks : List Track) (c : Cyl) : Option Nat :=
  match (tracks.find? fun y => y.cyl == c).map Track.state with
  | some (.closing n) => some n
  | some .tracking => none
  | some .closed => none
  | none => none

/-- R89, R90, R94: a scheduler after the interval has met its shots, its tracks and its pulse. -/
def Interval.schedMet (i : Interval) (s : State) (k : Bank) : Sched :=
  let q := s.schedOf k
  let tracks := q.tracks.map i.trackMet
  { q with
    queue := q.queue.map (i.met s), tracks := tracks
    active := q.active.map fun p => { p with windowClose := (closeInstantIn tracks p.cyl).or p.windowClose } }

/-- R56, R57: the tooth freezes the cylinder. -/
def freezeTooth (i : Interval) (s : State) (c : Cyl) : Prop :=
  s.firing = .armed ∧ (s.cylOf c).enabled = true ∧ i.holds (s.cylOf c).freezeAngle

/-- A TIMED ANGLE shot that has not fallen due. -/
def timedAhead (x : Shot) : Bool := x.isAngle && x.state == .timed && !x.waiting

/-- The tooth finds the shots `old` on the bank still TIMED, no other shot waiting for an IDLE bank and no window CLOSING,
and of what its own interval holds nothing is due or closes at once. -/
def quietBank (i : Interval) (s : State) (k : Bank) (old : List Shot) : Prop :=
  let q := s.schedOf k
  q.queue.filter timedAhead = old ∧
  (∀ x ∈ q.queue, x.waiting = true → q.cond ≠ .idle) ∧
  (∀ x ∈ (i.schedMet s k).queue, x.waiting = false → (∀ y ∈ old, y.tag ≠ x.tag) →
    ∀ n, x.due = some n → s.timebase < n) ∧
  (∀ y ∈ q.tracks, ∀ n, y.state ≠ .closing n) ∧
  (∀ y ∈ (i.schedMet s k).tracks, ∀ n, y.state = .closing n → s.timebase < n)

/-- R39: the tables after a tooth in FULL_SYNC, which takes a pending swap at the marker. -/
def markerTables (s : State) (k : AngleClock) : TableStore :=
  if k.index = 0 ∧ k.rev1 = false ∧ s.tables.swapPending = true then
    { s.tables with activePage1 := !s.tables.activePage1, swapPending := false } else s.tables

/-- R39, R89, R90, R94: the state in which a tooth has brought the clock and the events given, has met both banks, and has
taken a pending swap at the marker. -/
def bothMet (i : Interval) (s : State) (k : AngleClock) (events : EventLatch) : State :=
  { s with
    clock := k, events := events, tables := markerTables s k, sched := ⟨i.schedMet s .bankA, i.schedMet s .bankB⟩ }

/-- R78: the tags the bank gave out from `s` to `t` name no shot queued in `s`; a tooth gives out fewer than 256. -/
def tagsFree (s t : State) (k : Bank) : Prop :=
  ∀ x ∈ (s.schedOf k).queue,
    ((t.schedOf k).nextTag - (s.schedOf k).nextTag).toNat ≤ (x.tag - (s.schedOf k).nextTag).toNat

/-! ### The freezes of a tooth (R56 to R58) -/

/-- R18: the report of the tooth that took `s` to a state in FULL_SYNC with the clock `k`. -/
def reportOf (synthetic : Bool) (s : State) (k : AngleClock) : ToothReport where
  kind := if synthetic then .synthetic else .real
  sync := .fullSync
  t0 := toothTime synthetic s
  angle := some (toothAngle s.tables.wheel k)
  span := s.tables.wheel.spanAt k.index
  tpred := k.tpred
  pitch := s.tables.wheel.pitch
  marker := decide (k.index = 0) && !k.rev1
  leftStalled := false

/-- R58: the cylinders the tooth freezes, each once, by increasing forward distance from the tooth's angle to the freeze
angle, and for equal freeze angles by increasing number. -/
def freezeOrdered (i : Interval) (s : State) (cs : List Cyl) : Prop :=
  (∀ c, c ∈ cs ↔ freezeTooth i s c) ∧
  cs.Pairwise fun c d =>
    fwd i.angle (s.cylOf c).freezeAngle < fwd i.angle (s.cylOf d).freezeAngle ∨
    (fwd i.angle (s.cylOf c).freezeAngle = fwd i.angle (s.cylOf d).freezeAngle ∧ c.val < d.val)

/-- R77: the record of a queued shot as it was placed, without its progress since. -/
def Shot.asPlaced (x : Shot) : Shot :=
  { x with state := .planned, reached := false, due := none, waiting := false, deadline := none }

/-- R56, R78, R113: no cylinder has been frozen and no shot placed from `s` to `t`: demands, freeze counts, cut and locked
flags, placed counters and tag counters are as they were, and each queue holds nothing that it did not hold. -/
def nothingPlaced (s t : State) : Prop :=
  t.demand = s.demand ∧
  (∀ c, (t.supOf c).cut = (s.supOf c).cut ∧ (t.supOf c).locked = (s.supOf c).locked ∧
    (t.supOf c).freezes = (s.supOf c).freezes) ∧
  ∀ k, (t.schedOf k).placed = (s.schedOf k).placed ∧ (t.schedOf k).nextTag = (s.schedOf k).nextTag ∧
    ((t.schedOf k).queue.map Shot.asPlaced).Sublist ((s.schedOf k).queue.map Shot.asPlaced)

/-- R11, R20, R39: the state a tooth that ends in FULL_SYNC with the clock `k` finds where nothing else meets at it. -/
def toothBegun (s : State) (k : AngleClock) : State :=
  let up := if s.clock.sync = .fullSync then s else s.raise .syncUp
  let e := if k.overspeed && !s.clock.overspeed then up.raise .overspeed else up
  { s with clock := k, events := e.events, tables := markerTables s k }

/-! ### Records in range (R25, R27, R32, R35, R36, R40) -/

/-- R25. -/
def WheelRecord.inRange (w : WheelRecord) : Bool :=
  [24, 36, 60, 72].contains w.n && [1, 2].contains w.m && decide (w.refAngle ≤ 11519)

/-- R27. -/
def CylRecord.inRange (r : CylRecord) : Bool :=
  decide (r.tdc ≤ 11519) && decide (r.windowOpen ≤ 3200) && decide (r.windowClose ≤ 3200) &&
  within 160 2880 r.freezeLead

/-- R35. -/
def EntryAnchor.inRange : EntryAnchor → Bool
  | .angle off _ => decide (-3200 ≤ off ∧ off ≤ 3200)
  | .chain gap => within 100 10000 gap

/-- R35. -/
def DurationSource.inRange : DurationSource → Bool
  | .fixed us => decide (us ≤ 10000)
  | .fraction fr => within 1 256 fr

/-- R35. -/
def PatternEntry.inRange (e : PatternEntry) : Bool :=
  e.anchor.inRange && e.duration.inRange && within 100 10000 e.maxUs && within 1 4 e.repeats &&
  within 100 10000 e.repeatGapUs

/-- R35, R36. -/
def patternInRange (es : List PatternEntry) : Bool :=
  decide (es.length ≤ 6) && es.all PatternEntry.inRange && patternAdmitted es

/-- R40, R41. -/
def Limits.inRange (l : Limits) : Bool :=
  decide (l.bankGapUs ≤ 200) && decide (l.deferMain ≤ 5000) && decide (l.deferPilot ≤ 5000) &&
  decide (l.deferAfter ≤ 5000) && decide (l.deferLate ≤ 5000) && decide (l.staleHold ≤ 15) &&
  within 1 7 l.lockout && within 10 1000 l.linkSilence && within 500 4000 l.maxSpeed &&
  within 100 1000 l.lowThr && decide (50 ≤ l.crankThr ∧ l.crankThr + 13 ≤ l.lowThr) &&
  decide (25 ≤ l.underThr ∧ l.underThr + 13 ≤ l.crankThr) &&
  within 1000 4000 l.capacity.a && within 1000 4000 l.capacity.b &&
  within 1 63 l.rateNormal && within 1 63 l.rateFast &&
  decide (l.lowWater ≤ l.capacity.a ∧ l.lowWater ≤ l.capacity.b)

/-- Every stored record is within its ranges. -/
def tablesInRange (t : TableStore) : Prop :=
  t.wheel.inRange = true ∧ (∀ c, (t.cyl.get c).inRange = true) ∧ (∀ i, (t.profile.get i).inRange = true) ∧
  t.page0.length = 16 ∧ t.page1.length = 16 ∧ (∀ es ∈ t.page0, patternInRange es = true) ∧
  (∀ es ∈ t.page1, patternInRange es = true) ∧ t.limits.inRange = true

/-- R28: no two enabled cylinders use one output. -/
def outputsUnique (t : TableStore) : Prop :=
  ∀ c d, c ≠ d → (t.cyl.get c).enabled = true → (t.cyl.get d).enabled = true →
    (t.cyl.get c).output ≠ (t.cyl.get d).output

/-! ### Agreements between blocks -/

/-- R113: the counters agree with the length of the queue. -/
def countersAgree (q : Sched) : Prop :=
  q.placed - q.started - q.shed - q.cancelled = BitVec.ofNat 32 q.queue.length

/-- R96, R131, R138: the bank condition, the active pulse and the Drive Stage agree. -/
def bankAgrees (q : Sched) (d : DriveStage) : Bool :=
  match q.cond, q.active with
  | .idle, none => d.phase == .off && d.output.isNone && !d.gate && !d.boostSw
  | .gap, none => d.phase == .quench && d.output.isNone && !d.gate && !d.boostSw
  | .active, some _ =>
    (d.phase == .boost || d.phase == .peak || d.phase == .hold) && d.output.isSome &&
    (d.boostSw == (d.phase == .boost))
  | _, _ => false

/-- R104, R131: every shot and the pulse of a bank belong to a cylinder of that bank, and the Drive Stage drives the output of
the pulse's cylinder. -/
def outputsAgree (s : State) : Prop :=
  ∀ k, (∀ x ∈ (s.schedOf k).queue, s.bankOf x.cyl = k) ∧
    ∀ p ∈ (s.schedOf k).active, s.bankOf p.cyl = k ∧ (s.driveOf k).output = some (s.cylOf p.cyl).output

/-- R114: the levels lie within the capacities. -/
def levelsAgree (s : State) : Prop := ∀ k, s.levelOf k ≤ s.tables.limits.capacity.get k

/-- R38, R39: a swap is pending only while ARMED or DRAINING in FULL_SYNC. -/
def swapAgrees (s : State) : Prop :=
  s.tables.swapPending = true → s.firing ≠ .safe ∧ s.clock.sync = .fullSync

/-- R48: DRAINING never outlasts the last shot and the last pulse. -/
def drainAgrees (s : State) : Prop := s.firing = .draining → drained s = false

/-- R45: in SAFE only the shots and the pulse of a service chain. -/
def safeAgrees (s : State) : Prop :=
  s.firing = .safe → ∀ k,
    (∀ x ∈ (s.schedOf k).queue, x.flags.service = true ∧ x.isAngle = false) ∧
    (∀ p ∈ (s.schedOf k).active, p.flags.service = true)

/-- R3, R4, R16: the tooth history and the stall timer, at the present instant. The prediction follows from the last two
intervals, and the stall timer bounds what was measured. -/
def historyAgrees (now : Nat) (k : AngleClock) : Prop :=
  k.tpred = predict k.t1 k.t2 ∧ k.t1 ≤ 2500000 ∧ k.t2 ≤ 2500000 ∧ k.tpred < 3125001 ∧
  (∀ c, k.lastCrank = some c → c ≤ now) ∧
  (∀ n, k.stallFrom = some n → n ≤ now ∧ now ≤ n + 2500000 ∧ ∀ l, k.lastTooth = some l → n ≤ l ∧ l ≤ now)

/-- R3, R4, R13: what the sync states hold of the last tooth. The timestamp of a synthetic tooth runs ahead of the last real
edge by no more than the predictions it was made from, so the filter's 200 ticks keep every interval above 0. -/
def toothAgrees (w : WheelRecord) (k : AngleClock) : Prop :=
  0 < k.t1 ∧ 0 < k.tpred ∧ 8 ≤ k.t1 + 2 * k.synth ∧ (k.synth ≠ 0 → 3 * k.t2 / 4 ≤ k.t1) ∧
  ∃ l c, k.lastTooth = some l ∧ k.lastCrank = some c ∧
    l ≤ c + (if k.synth = 0 then 0 else (w.m + 1) * (k.t1 + if k.synth = 2 then k.t2 else 0)) ∧
    k.deadline = some (l + (if k.index = w.n - w.m - 1 then (2 * w.m + 3) * k.tpred / 2 else 3 * k.tpred / 2))

/-- Section 1.3: what the clock holds agrees with its state, at the present instant. -/
def clockAgrees (w : WheelRecord) (now : Nat) (k : AngleClock) : Prop :=
  (k.sync = .stalled → k.lastTooth = none ∧ k.t1 = 0 ∧ k.t2 = 0 ∧ k.tpred = 0 ∧ k.deadline = none ∧
    k.stallFrom = none ∧ k.speed = 0) ∧
  (k.sync = .seeking → k.deadline = none ∧ k.stallFrom.isSome = true ∧ k.speed = 0 ∧
    (k.gapSearch.isSome = true → ∃ l c, k.lastTooth = some l ∧ k.lastCrank = some c ∧ l ≤ c)) ∧
  (k.sync = .crankSync ∨ k.sync = .fullSync → k.lastTooth.isSome = true ∧ k.deadline.isSome = true ∧
    k.stallFrom.isSome = true ∧ k.index ≤ w.lastIndex ∧ toothAgrees w k) ∧
  (k.sync ≠ .stalled → w.loaded = true) ∧ (k.sync ≠ .fullSync → k.rev1 = false) ∧
  k.synth ≤ 2 ∧ k.camCount ≤ 3 ∧ k.speed ≤ 8191 ∧ k.held ≤ 11519 ∧ w.inRange = true ∧ historyAgrees now k

/-- R70, R104: durations of queued shots and of the pulse on a bank. -/
def durationsAgree (q : Sched) : Prop :=
  (∀ x ∈ q.queue, 1000 ≤ x.ticks ∧ x.ticks ≤ 100000) ∧
  (∀ p ∈ q.active, p.schedEnd ≤ p.startTime + 100000)

end Sys2Proof.Machine
end

