-- ==== Sys2Proof/Certificates/Slice0/Obligations.lean ====
section
/-! DEFINITION. The statements about the part. Their titles, tiers and the rules they rest on stand in OBLIGATIONS.json. -/

open Sys2Proof

open Sys2Proof.Machine

/-! ### The queue, time and the resets -/

/-- The command at the front of the queue is the one a step takes, on the state with the rest of the queue. With no command
waiting a step takes the edge at the front of the link's pins, on the state with the rest of them (the model's choice, log
entry 32). -/
def Obligations.StepRunsFrontCommand : Prop :=
  (∀ (c : Instr) (rest : List Instr) (s : State), s.pending = c :: rest → step s = exec c { s with pending := rest }) ∧
  (∀ (e : LinkEdge) (rest : List LinkEdge) (s : State), s.pending = [] → s.link.edges = e :: rest →
    step s = takeEdge e { s with link := { s.link with edges := rest } })

/-- With no command and no edge waiting, the block takes an event that is due, waits for the reading of a sample that is
due, or lets one tick pass. The model's choice (log entry 3). -/
def Obligations.IdleStep : Prop :=
  ∀ s : State, s.pending = [] → s.link.edges = [] →
    (∀ i, dueEvent s = some i → step s = exec i s) ∧
    (dueEvent s = none → sampleAwaited s = true → step s = .next s) ∧
    (dueEvent s = none → sampleAwaited s = false → step s = .next { s with timebase := s.timebase + 1 })

/-- Every command of the table completes in every state, keeps the commands and the edges that wait, and takes no time; only a reset
moves the timebase, to 0 (R1). -/
def Obligations.EveryCommandCompletes : Prop :=
  ∀ (c : Instr) (s : State), ∃ t, exec c s = .next t ∧ t.pending = s.pending ∧ t.link.edges = s.link.edges ∧
    (t.timebase = s.timebase ∨ (t.timebase = 0 ∧ (c = .powerOnReset ∨ ∃ f, c = .reset f)))

/-- The power-on reset leaves every block at the value its chapter gives (R5, R30, R32, R40, R45, R52, R88, R114, R123,
R130, R144, R148, R171, R178), whatever the state before. That State.reset also has 0 in the Drive Stages' profile copies,
start times and entry times is the model's choice (log entry 2), and that the waiting commands and edges stay is log entry
11. A transaction in progress is not seen: no edge of LCLK acts in it, its end takes no frame, and the next fall of LSEL
begins a transaction (R165). That LDO is not driven meanwhile is log entry 32. -/
def Obligations.PowerOnReset : Prop :=
  ∀ s : State, ∃ t, exec .powerOnReset s = .next t ∧ t = { State.reset with
      pending := s.pending
      link := { State.reset.link with
        edges := s.link.edges, select := if s.link.select = .released then .released else .missed } } ∧
    (s.link.select ≠ .released → t.link.ldoPin = none ∧ takeEdge .selectFall t = .next t ∧ takeEdge .clockFall t = .next t ∧
      (∀ b, takeEdge (.clockRise b) t = .next t) ∧
      ∃ u, takeEdge .selectRise t = .next u ∧ u = { t with link := { t.link with select := .released } } ∧
        takeEdge .selectFall u = .next { t with link := { t.link with select := .transaction [] 0 } }) ∧
    t.timebase = 0 ∧ t.clock.sync = .stalled ∧ t.clock.t1 = 0 ∧ t.clock.t2 = 0 ∧ t.clock.tpred = 0 ∧
    t.clock.lastTooth = none ∧ t.clock.deadline = none ∧ t.clock.stallFrom = none ∧ t.clock.held = 0 ∧
    t.clock.speed = 0 ∧ t.clock.overspeed = false ∧ t.techo = false ∧ t.cmark = false ∧ t.intLine = false ∧
    t.tables.wheel.loaded = false ∧
    (∀ c, t.cylOf c = { enabled := false, tdc := 0, output := c, profile := 0, windowOpen := 0, windowClose := 0,
                        freezeLead := 160 }) ∧
    (∀ i, t.tables.profile.get i =
      { boostCost := 400, recup := 60, peak := 180, hold := 80, short := 240, openDetect := 20, boostMax := 250,
        peakHold := 300, minOn := 150, minSep := 200 }) ∧
    (∀ p i, t.tables.pattern p i = []) ∧ t.tables.activePage1 = false ∧ t.tables.swapPending = false ∧
    t.tables.limits =
      { bankGapUs := 50, deferMain := 300, deferPilot := 200, deferAfter := 500, deferLate := 2000, staleHold := 3,
        lockout := 3, linkSilence := 100, maxSpeed := 3000, lowThr := 500, crankThr := 400, underThr := 275,
        capacity := ⟨3000, 3000⟩, rateNormal := 6, rateFast := 12, lowWater := 800,
        converter := ⟨.normal, .normal⟩ } ∧
    t.firing = .safe ∧
    (∀ c, t.demandOf c = { staged := none, active := none, staleCount := 0, starved := false }) ∧
    (∀ k, (t.schedOf k).queue = [] ∧ (t.schedOf k).cond = .idle ∧ (t.schedOf k).active = none ∧
      (t.schedOf k).tracks = [] ∧ (t.schedOf k).lastEnd = none ∧ (t.schedOf k).placed = 0 ∧
      (t.schedOf k).started = 0 ∧ (t.schedOf k).shed = 0 ∧ (t.schedOf k).cancelled = 0 ∧ (t.schedOf k).nextTag = 0 ∧
      t.levelOf k = 0 ∧ (t.driveOf k).phase = .off ∧ t.boostLine k = false) ∧
    (∀ out, t.gateLine out = false) ∧ t.nextRecharge = 1000 ∧
    t.trace.state = .idle ∧ t.trace.stored = 0 ∧ t.trace.readPtr = 0 ∧
    t.supply.window = [] ∧ t.supply.band = .normal ∧ t.supply.nextSample = 10000 ∧
    (∀ c, t.supOf c = { cut := false, locked := false, faults := 0, firstPulse := true, code := .none, plan := none,
                        report := none, freezes := 0 }) ∧
    t.service = none ∧ t.events.latched = 0 ∧ t.events.mask = 0 ∧
    t.link.response = { code := 0, result := .powerOn, data := [] } ∧ t.link.busyUntil = some 20000 ∧
    t.link.silence = none

/-- RESET returns every block to its state after a reset, starts a new busy period and answers SOFT_RESET (R172). That the
waiting commands and edges and the bits LDO carried stay is log entry 11, and the fields the chapters give no value after a
reset are log entry 2's. -/
def Obligations.SoftReset : Prop :=
  ∀ (f : Frame) (s : State), passes s 0x02 f = true → frameParams f = [] →
    exec (.reset f) s = .next { State.reset with
      pending := s.pending
      link := { rx := [], count := 0, response := { code := 0x02, result := .softReset, data := [] },
                busyUntil := some 20000, silence := none, ldo := (answered s 0x02 f .ok []).link.ldo,
                select := .released, edges := s.link.edges } }

/-- The invariants stated below hold right after a reset, with any commands waiting. -/
def Obligations.ResetMeetsTheInvariants : Prop :=
  ∀ q : List Instr,
    let s : State := { State.reset with pending := q }
    tablesInRange s.tables ∧ outputsUnique s.tables ∧ swapAgrees s ∧ drainAgrees s ∧ safeAgrees s ∧
    clockAgrees s.tables.wheel s.timebase s.clock ∧
    (∀ k, countersAgree (s.schedOf k) ∧ bankAgrees (s.schedOf k) (s.driveOf k) = true ∧ durationsAgree (s.schedOf k)) ∧
    levelsAgree s

/-! ### The link -/

/-- The bits of a transaction give back the command they were sent for: every well-formed command that comes over the
link, at every frame and every odd bit. -/
def Obligations.TransactionRoundTrip : Prop :=
  ∀ (i : Instr) (bits : List Bool), i.wf = true → encodeTransaction i = some bits → decodeTransaction bits = i

/-- Every transaction carries exactly one well-formed command, and that command is sent as the same bits. With every bit that
comes in on LDI one goes out on LDO: the bytes of the response that was pending, most significant bit first, and zeros after
its end (R165, R169). The same edge by edge at the pins: from the fall of LSEL on, LDO shows the response's bit for the next
rising edge of LCLK, the receive buffer and the byte count follow the whole bytes received, and nothing else changes until
LSEL rises and the command acts. After it LDO is not driven, and edges of LCLK are ignored. That an edge waits behind the
commands is the model's choice (log entry 32). -/
def Obligations.EveryTransactionIsACommand : Prop :=
  ∀ bits : List Bool, (decodeTransaction bits).wf = true ∧ encodeTransaction (decodeTransaction bits) = some bits ∧
    (∀ s : State, ∃ t, exec (decodeTransaction bits) s = .next t ∧ t.link.ldo = clockedWith s bits.length ∧
      (bytesOfBits t.link.ldo).1 =
        (s.link.response.bytes ++ List.replicate (bits.length / 8) 0).take (bits.length / 8) ∧
      t.link.ldoPin = none ∧ takeEdge .clockFall t = .next t ∧ ∀ b, takeEdge (.clockRise b) t = .next t) ∧
    (∀ s : State, s.pending = [] → s.link.select = .released → s.link.edges = transactionEdges bits →
      (∀ k ≤ bits.length, ∃ t, core.run (1 + 2 * k) s = .next t ∧
        t.link.ldoPin = some ((bitsOfBytes s.link.response.bytes).getD k false) ∧
        t = { s with link := { s.link with
          rx := ((bytesOfBits (bits.take k)).1.take (frameSpan (bytesOfBits (bits.take k)).1)).take 63
          count := k / 8
          ldo := clockedWith s k
          select := .transaction (bits.take k) k
          edges := (transactionEdges bits).drop (1 + 2 * k) } }) ∧
      core.run (2 * bits.length + 2) s = exec (decodeTransaction bits) { s with link := { s.link with edges := [] } })

/-- R168: the CRC starts from 0xFF and takes each byte in frame order, eight shifts a byte, with 0x1D combined in when the
bit shifted out was 1; a received frame passes when its CRC byte is the value computed over its code, length and
parameters, and a response carries the value computed over its other bytes. From it: two frames that differ in one byte
differ in their CRC, a frame made by section 11.1 passes, and with any other CRC byte it fails. -/
def Obligations.CrcDetectsAChangedByte : Prop :=
  (let shift : Byte → Byte := fun v => if v.getLsbD 7 then (v <<< 1) ^^^ 0x1D#8 else v <<< 1
   crc8 [] = 0xFF ∧ (∀ (bs : List Byte) (b : Byte), crc8 (bs ++ [b]) = shift^[8] (crc8 bs ^^^ b))) ∧
  (∀ (code : Byte) (f : Frame), frameComplete f = true →
    (frameChecks code f = true ↔ f.rest[f.len.toNat]? = some (crc8 (code :: f.len :: f.rest.take f.len.toNat)))) ∧
  (∀ r : Response, ∃ body, r.bytes = body ++ [crc8 body] ∧
    body = [r.code, byte r.result.code, byte r.data.length] ++ r.data) ∧
  (∀ (a b : List Byte) (x y : Byte), x ≠ y → crc8 (a ++ x :: b) ≠ crc8 (a ++ y :: b)) ∧
  (∀ (code : Byte) (params : List Byte), params.length ≤ 255 →
    frameComplete (makeFrame code params) = true ∧ frameChecks code (makeFrame code params) = true ∧
    frameParams (makeFrame code params) = params) ∧
  (∀ (code c : Byte) (f : Frame), frameComplete f = true → frameChecks code f = true → c ≠ frameCrc f →
    frameChecks code { f with rest := f.rest.set f.len.toNat c } = false)

/-- A broken transaction has no effect in any block: it is clocked, the response becomes FRAMING with the first byte
received as its code or 0, and the silence timer is left alone. The odd bits are discarded; LDO has carried a bit at each of
their edges too (R165, R167). That the receive buffer and the byte count stay is the model's choice (log entry 30), and that
the transaction takes the place of one in progress at the pins is too (log entry 32). -/
def Obligations.BrokenTransaction : Prop :=
  (∀ (bytes : List Byte) (odd : List Bool) (s : State),
    exec (.brokenTransaction bytes odd) s = .next { s with link := { s.link with
      rx := (bytes.take (frameSpan bytes)).take 63
      count := bytes.length
      ldo := clockedWith s (8 * bytes.length + odd.length)
      select := .released
      response := { code := bytes.headD 0, result := .framing, data := [] } } }) ∧
  (∀ (i : Instr) (code : Byte) (f : Frame) (s : State), frameOf i = some (code, f) → frameComplete f = false →
    exec i s = exec (.brokenTransaction (code :: f.len :: f.rest) f.odd) s)

/-- A complete frame is judged by its CRC, then its code, then its length, then the busy period; the first check that fails
gives the result and the frame has no other effect. A bad CRC alone leaves the silence timer running on (R170, R171, R173).
What the receive buffer and the byte count hold after the transaction is the model's choice (log entry 30). -/
def Obligations.FrameChecksInOrder : Prop :=
  ∀ (i : Instr) (code : Byte) (f : Frame) (s : State), i.wf = true → frameOf i = some (code, f) →
    (frameChecks code f = false →
      exec i s = .next { answered s code f .badCrc [] with
        link := { (answered s code f .badCrc []).link with silence := s.link.silence } }) ∧
    (frameChecks code f = true → commandOf code = none → exec i s = .next (answered s code f .unknown [])) ∧
    (frameChecks code f = true → (commandOf code).isSome = true → lengthAdmitted code (frameParams f) = false →
      exec i s = .next (answered s code f .badLength [])) ∧
    (frameChecks code f = true → (commandOf code).isSome = true → lengthAdmitted code (frameParams f) = true →
      s.link.busyUntil.isSome = true → exec i s = .next (answered s code f .busy []))

/-- A frame that is answered with a refusal changes nothing outside the Link Interface, and inside it neither the busy
period nor, but for a restart, the silence timer (R170). -/
def Obligations.RefusedFrameHasNoEffect : Prop :=
  ∀ (i : Instr) (code : Byte) (f : Frame) (s t : State), frameOf i = some (code, f) → exec i s = .next t →
    t.link.response.result.isRefusal = true →
    t = { s with link := t.link } ∧ t.link.busyUntil = s.link.busyUntil ∧ t.link.response.code = code ∧
    t.link.response.data = [] ∧
    (t.link.silence = s.link.silence ∨ t.link.silence = s.link.silence.map fun _ => s.timebase)

/-- The busy period ends when the timebase has reached its end (R171); an echo pulse and a marker pulse end 200 ticks
after they began (R22, R23); before its instant the event changes nothing (the model's choice, log entry 4). -/
def Obligations.BusyAndPulseEnds : Prop :=
  (∀ (s : State) (n : Nat), s.link.busyUntil = some n → n ≤ s.timebase →
    exec .busyPeriodEnd s = .next { s with link := { s.link with busyUntil := none } }) ∧
  (∀ (s : State) (n : Nat), s.clock.techo = some n → n ≤ s.timebase →
    exec .techoPulseEnd s = .next { s with clock := { s.clock with techo := none } }) ∧
  (∀ (s : State) (n : Nat), s.clock.cmark = some n → n ≤ s.timebase →
    exec .cmarkPulseEnd s = .next { s with clock := { s.clock with cmark := none } }) ∧
  (∀ (s : State) (n : Nat), s.link.busyUntil = some n → s.timebase < n → exec .busyPeriodEnd s = .next s) ∧
  (∀ (s : State) (n : Nat), s.clock.techo = some n → s.timebase < n → exec .techoPulseEnd s = .next s) ∧
  (∀ (s : State) (n : Nat), s.clock.cmark = some n → s.timebase < n → exec .cmarkPulseEnd s = .next s)

/-- NOP is answered OK with no data; READ_ID with the family, the part, the revision and the number of codes the part knows.
Neither has another effect (R176). What the receive buffer and the byte count hold after the transaction is the model's
choice (log entry 30). -/
def Obligations.NopAndReadId : Prop :=
  ∀ (f : Frame) (s : State), frameParams f = [] →
    (passes s 0x01 f = true → exec (.nop f) s = .next (answered s 0x01 f .ok [])) ∧
    (passes s 0x03 f = true → exec (.readId f) s =
      .next (answered s 0x03 f .ok [0x45, 0x08, 0x01, BitVec.ofNat 8 (codeTable.map Prod.fst).dedup.length]))

/-! ### The Table Store -/

/-- A load whose record is in range replaces that record and nothing else, and a cylinder left disabled loses its staged
demand (R26, R29, R33, R37). LOAD_WHEEL is shown here while STALLED; R17 says what it does to a moving clock. What the
receive buffer and the byte count hold after the transaction is the model's choice (log entry 30). -/
def Obligations.LoadReplacesTheRecord : Prop :=
  (∀ (w : WheelRecord) (f : Frame) (s : State), w.inRange = true → w.loaded = true → s.firing = .safe →
    s.clock.sync = .stalled → passes s 0x10 f = true → frameParams f = wheelBytes w →
    exec (.loadWheel f) s = .next { answered s 0x10 f .ok [] with tables := { s.tables with wheel := w } }) ∧
  (∀ (c : Cyl) (r : CylRecord) (f : Frame) (s : State), r.inRange = true → s.firing = .safe → s.service = none →
    (r.enabled = true → ∀ d, d ≠ c → (s.cylOf d).enabled = true → (s.cylOf d).output ≠ r.output) →
    passes s 0x11 f = true → frameParams f = cylBytes c r →
    exec (.loadCyl f) s = .next { answered s 0x11 f .ok [] with
      tables := { s.tables with cyl := s.tables.cyl.set c r }
      demand := if r.enabled then s.demand else s.demand.set c { s.demandOf c with staged := none } }) ∧
  (∀ (i : Fin 4) (p : ProfileRecord) (f : Frame) (s : State), p.inRange = true → s.firing = .safe → s.service = none →
    passes s 0x12 f = true → frameParams f = profileBytes i p →
    exec (.loadProfile f) s = .next { answered s 0x12 f .ok [] with
      tables := { s.tables with profile := s.tables.profile.set i p } }) ∧
  (∀ (i : Fin 16) (es : List PatternEntry) (f : Frame) (s : State), patternInRange es = true →
    s.tables.swapPending = false → s.tables.page0.length = 16 → s.tables.page1.length = 16 →
    passes s 0x13 f = true → frameParams f = patternBytes i es →
    ∃ t, exec (.loadPattern f) s = .next t ∧ t = { answered s 0x13 f .ok [] with tables := t.tables } ∧
      t.tables = { s.tables with page0 := t.tables.page0, page1 := t.tables.page1 } ∧
      t.tables.page0.length = 16 ∧ t.tables.page1.length = 16 ∧
      ∀ p j, t.tables.pattern p j = if p = !s.tables.activePage1 ∧ j = i then es else s.tables.pattern p j)

/-- A wheel loaded while the crank turns makes the clock SEEKING with its history forgotten; the stall timer goes on (R17).
The cam filter keeps its last edge (the model's choice, log entry 27). In CRANK_SYNC and SEEKING nothing else changes. What
the receive buffer and the byte count hold after the transaction is the model's choice (log entry 30). -/
def Obligations.LoadWheelRestartsTheClock : Prop :=
  ∀ (w : WheelRecord) (f : Frame) (s : State), w.inRange = true → w.loaded = true → s.firing = .safe →
    s.clock.sync ≠ .stalled → passes s 0x10 f = true → frameParams f = wheelBytes w →
    ∃ t, exec (.loadWheel f) s = .next t ∧ t.tables.wheel = w ∧ t.link = (answered s 0x10 f .ok []).link ∧
      t.clock = { s.clock with
        sync := .seeking, lastTooth := none, t1 := 0, t2 := 0, tpred := 0, rev1 := false, gapSearch := none,
        camCount := 0, synth := 0, absorb := false, deadline := none, speed := 0,
        overspeed := if 100 < s.tables.limits.maxSpeed then false else s.clock.overspeed } ∧
      (s.clock.sync ≠ .fullSync →
        t = { answered s 0x10 f .ok [] with clock := t.clock, tables := { s.tables with wheel := w } })

/-- When a load is refused: out of SAFE, during a service chain, for a field out of range, and for an output another enabled
cylinder uses (R26 to R29, R32, R33). A pattern load of any content is refused WRONG_STATE while a swap waits; with none
waiting it is refused BAD_PARAM for an id over 15, for a carried field of an entry out of its range, for a chained entry 0
and for repeat counts over 8 in sum, and is taken otherwise (R35 to R37). What the receive buffer and the byte count hold
after the transaction is the model's choice (log entry 30). -/
def Obligations.LoadsAreRefused : Prop :=
  (∀ (f : Frame) (s : State), passes s 0x10 f = true → (frameParams f).length = 5 →
    (s.firing ≠ .safe → exec (.loadWheel f) s = .next (answered s 0x10 f .wrongState [])) ∧
    (s.firing = .safe → (∀ w : WheelRecord, w.inRange = true → frameParams f ≠ wheelBytes w) →
      exec (.loadWheel f) s = .next (answered s 0x10 f .badParam []))) ∧
  (∀ (f : Frame) (s : State), passes s 0x11 f = true → (frameParams f).length = 12 →
    (s.service.isSome = true → exec (.loadCyl f) s = .next (answered s 0x11 f .busy [])) ∧
    (s.service = none → s.firing ≠ .safe → exec (.loadCyl f) s = .next (answered s 0x11 f .wrongState [])) ∧
    (s.service = none → s.firing = .safe →
      (∀ c (r : CylRecord), r.inRange = true → frameParams f ≠ cylBytes c r) →
      exec (.loadCyl f) s = .next (answered s 0x11 f .badParam [])) ∧
    (s.service = none → s.firing = .safe → ∀ c (r : CylRecord) d, frameParams f = cylBytes c r → r.inRange = true →
      r.enabled = true → d ≠ c → (s.cylOf d).enabled = true → (s.cylOf d).output = r.output →
      exec (.loadCyl f) s = .next (answered s 0x11 f .badParam []))) ∧
  (∀ (f : Frame) (s : State), passes s 0x12 f = true → (frameParams f).length = 17 →
    (s.service.isSome = true → exec (.loadProfile f) s = .next (answered s 0x12 f .busy [])) ∧
    (s.service = none → s.firing ≠ .safe → exec (.loadProfile f) s = .next (answered s 0x12 f .wrongState [])) ∧
    (s.service = none → s.firing = .safe →
      (∀ i (p : ProfileRecord), p.inRange = true → frameParams f ≠ profileBytes i p) →
      exec (.loadProfile f) s = .next (answered s 0x12 f .badParam []))) ∧
  (∀ (i : Fin 16) (es : List PatternEntry) (f : Frame) (s : State), passes s 0x13 f = true →
    frameParams f = patternBytes i es → es.length ≤ 6 → es.all PatternEntry.inRange = true →
    (s.tables.swapPending = true → exec (.loadPattern f) s = .next (answered s 0x13 f .wrongState [])) ∧
    (s.tables.swapPending = false → patternAdmitted es = false →
      exec (.loadPattern f) s = .next (answered s 0x13 f .badParam []))) ∧
  (∀ (f : Frame) (s : State), passes s 0x13 f = true → lengthAdmitted 0x13 (frameParams f) = true →
    let n := fieldAt (frameParams f) 1 1
    let ctl (j : Nat) := fieldAt (frameParams f) (2 + 9 * j) 1
    let v (j off : Nat) := fieldAt (frameParams f) (2 + 9 * j + off) 2
    let bad (j : Nat) : Prop :=
      (ctl j / 4 % 2 = 0 ∧ 3200 < v j 1 ∧ v j 1 < 62336) ∨ (ctl j / 4 % 2 = 1 ∧ ¬(100 ≤ v j 1 ∧ v j 1 ≤ 10000)) ∨
      (ctl j / 16 % 2 = 0 ∧ 10000 < v j 3) ∨ (ctl j / 16 % 2 = 1 ∧ ¬(1 ≤ v j 3 ∧ v j 3 ≤ 256)) ∨
      ¬(100 ≤ v j 5 ∧ v j 5 ≤ 10000) ∨ ¬(100 ≤ v j 7 ∧ v j 7 ≤ 10000)
    let refused : Prop := 15 < fieldAt (frameParams f) 0 1 ∨ (∃ j, j < n ∧ bad j) ∨ (0 < n ∧ ctl 0 / 4 % 2 = 1) ∨
      8 < ((List.range n).map fun j => ctl j / 64 + 1).sum
    (s.tables.swapPending = true → exec (.loadPattern f) s = .next (answered s 0x13 f .wrongState [])) ∧
    (s.tables.swapPending = false → refused → exec (.loadPattern f) s = .next (answered s 0x13 f .badParam [])) ∧
    (s.tables.swapPending = false → ¬refused → ∃ t, exec (.loadPattern f) s = .next t ∧
      t = { answered s 0x13 f .ok [] with tables := t.tables }))

/-- LOAD_LIMITS clamps every field it can and says whether it did: each stored field from its place in the frame, the
thresholds in order and low-water under the capacities (R40, R41); the levels come under the new capacities (R119) and a
changed maximum speed judges the speed at once (R42, R20). With the bank gap unchanged nothing else moves; with a changed
one a bank in GAP is IDLE once the new gap has run out, and a bank that was IDLE is back in GAP while the new gap runs
(R96, read as log entry 21 says). Where the bank in GAP is so made IDLE the arbiter acts by R100 under the new limits;
that the capacities lower the levels before a waiting shot is charged is the model's choice (log entry 29). The phase
entry time of the Drive Stage stays (log entry 9). What the receive buffer and the byte count hold after the transaction
is the model's choice (log entry 30). -/
def Obligations.LoadLimits : Prop :=
  ∀ (f : Frame) (s : State), passes s 0x15 f = true → (frameParams f).length = 31 →
    let v := fieldAt (frameParams f)
    let low := max 100 (min 1000 (v 15 2))
    let crank := max 50 (min (low - 13) (v 17 2))
    let capA := max 1000 (min 4000 (v 21 2))
    let capB := max 1000 (min 4000 (v 23 2))
    let max' := max 500 (min 4000 (v 13 2))
    let flag := if max' = s.tables.limits.maxSpeed then s.clock.overspeed
                else if max' < s.clock.speed then true
                else if s.clock.speed < max' - 100 then false else s.clock.overspeed
    ∃ t, exec (.loadLimits f) s = .next t ∧
      t.tables.limits = {
        bankGapUs := min 200 (v 0 1), deferMain := min 5000 (v 1 2), deferPilot := min 5000 (v 3 2),
        deferAfter := min 5000 (v 5 2), deferLate := min 5000 (v 7 2), staleHold := min 15 (v 9 1),
        lockout := max 1 (min 7 (v 10 1)), linkSilence := max 10 (min 1000 (v 11 2)), maxSpeed := max',
        lowThr := low, crankThr := crank, underThr := max 25 (min (crank - 13) (v 19 2)),
        capacity := ⟨capA, capB⟩, rateNormal := max 1 (min 63 (v 25 1)), rateFast := max 1 (min 63 (v 26 1)),
        lowWater := min (min capA capB) (v 27 2),
        converter := ⟨ConverterMode.ofCode (v 29 1), ConverterMode.ofCode (v 30 1)⟩ } ∧
      t.link.response.result = (if limitsBytes t.tables.limits = frameParams f then .ok else .okClamped) ∧
      t.clock = { s.clock with overspeed := flag } ∧
      (t.tables.limits.bankGapUs = s.tables.limits.bankGapUs →
        t = { answered s 0x15 f t.link.response.result [] with
          tables := { s.tables with limits := t.tables.limits }, clock := t.clock
          level := ⟨min capA s.level.a, min capB s.level.b⟩
          events := if flag && !s.clock.overspeed then (s.raise .overspeed).events else s.events }) ∧
      (t.tables.limits.bankGapUs ≠ s.tables.limits.bankGapUs → (∀ k, chainsNamed (s.schedOf k).queue) →
        ∃ v, gapMoved .bankA { answered s 0x15 f t.link.response.result [] with
            tables := { s.tables with limits := t.tables.limits }, clock := t.clock
            level := ⟨min capA s.level.a, min capB s.level.b⟩
            events := if flag && !s.clock.overspeed then (s.raise .overspeed).events else s.events } v ∧
          gapMoved .bankB v t) ∧
      (t.tables.limits.bankGapUs ≠ s.tables.limits.bankGapUs → ∀ k n, (s.schedOf k).cond = .gap →
        (s.schedOf k).lastEnd = some n → (s.schedOf k).queue.all (fun x => !x.waiting) = true →
        t.schedOf k = { s.schedOf k with
          cond := if n + 10 * t.tables.limits.bankGapUs ≤ s.timebase then .idle else .gap }) ∧
      (∀ k, (s.schedOf k).cond = .active → t.schedOf k = s.schedOf k ∧ t.driveOf k = s.driveOf k) ∧
      (t.tables.limits.bankGapUs ≠ s.tables.limits.bankGapUs → ∀ k, (s.schedOf k).cond = .idle →
        if ∃ n, (s.schedOf k).lastEnd = some n ∧ s.timebase < n + 10 * t.tables.limits.bankGapUs then
          t.schedOf k = { s.schedOf k with cond := .gap } ∧ t.driveOf k = { s.driveOf k with phase := .quench }
        else t.schedOf k = s.schedOf k ∧ t.driveOf k = s.driveOf k)

/-- SWAP exchanges the pages at once, but waits for the marker while firing in FULL_SYNC, and is refused while one waits
(R38). What the receive buffer and the byte count hold after the transaction is the model's choice (log entry 30). -/
def Obligations.Swap : Prop :=
  ∀ (f : Frame) (s : State), passes s 0x14 f = true → frameParams f = [] →
    (s.tables.swapPending = true → exec (.swap f) s = .next (answered s 0x14 f .wrongState [])) ∧
    (s.tables.swapPending = false → s.firing ≠ .safe → s.clock.sync = .fullSync →
      exec (.swap f) s = .next { answered s 0x14 f .ok [] with tables := { s.tables with swapPending := true } }) ∧
    (s.tables.swapPending = false → s.firing = .safe ∨ s.clock.sync ≠ .fullSync →
      exec (.swap f) s = .next { answered s 0x14 f .ok [] with
        tables := { s.tables with activePage1 := !s.tables.activePage1 } })

/-- What a load stored is what READ_TABLE returns, byte for byte, in the layout of the load (R43, R187). What the receive
buffer and the byte count hold after the transaction is the model's choice (log entry 30). -/
def Obligations.ReadTableReturnsTheLoad : Prop :=
  (∀ (f g : Frame) (s t : State), exec (.loadWheel f) s = .next t → t.link.response.result = .ok →
    passes t 0x16 g = true → ∀ x y, frameParams g = [0, x, y] →
    exec (.readTable g) t = .next (answered t 0x16 g .ok (frameParams f ++ [1]))) ∧
  (∀ (f g : Frame) (s t : State), exec (.loadCyl f) s = .next t → t.link.response.result = .ok →
    passes t 0x16 g = true → ∀ y, frameParams g = [1, (frameParams f).getD 0 0, y] →
    exec (.readTable g) t = .next (answered t 0x16 g .ok (frameParams f))) ∧
  (∀ (f g : Frame) (s t : State), exec (.loadProfile f) s = .next t → t.link.response.result = .ok →
    passes t 0x16 g = true → ∀ y, frameParams g = [2, (frameParams f).getD 0 0, y] →
    exec (.readTable g) t = .next (answered t 0x16 g .ok (frameParams f))) ∧
  (∀ (i : Fin 16) (es : List PatternEntry) (f g : Frame) (s t : State), exec (.loadPattern f) s = .next t →
    t.link.response.result = .ok → patternInRange es = true → frameParams f = patternBytes i es →
    s.tables.page0.length = 16 → s.tables.page1.length = 16 → passes t 0x16 g = true →
    frameParams g = [3, byte i.val, flagByte (!s.tables.activePage1)] →
    exec (.readTable g) t =
      .next (answered t 0x16 g .ok (flagByte (!s.tables.activePage1) :: frameParams f))) ∧
  (∀ (f g : Frame) (s t : State), exec (.loadLimits f) s = .next t → t.link.response.result = .ok →
    passes t 0x16 g = true → ∀ x y, frameParams g = [4, x, y] →
    exec (.readTable g) t = .next (answered t 0x16 g .ok (frameParams f))) ∧
  (∀ (g : Frame) (s : State), passes s 0x16 g = true → ∀ x y, frameParams g = [5, x, y] →
    exec (.readTable g) s =
      .next (answered s 0x16 g .ok [flagByte s.tables.activePage1, flagByte s.tables.swapPending])) ∧
  (∀ (g : Frame) (s : State), passes s 0x16 g = true → ∀ k x y, frameParams g = [k, x, y] →
    (5 < k.toNat ∨ (k = 1 ∧ (x = 0 ∨ 8 < x.toNat)) ∨ (k = 2 ∧ 3 < x.toNat) ∨ (k = 3 ∧ (15 < x.toNat ∨ 1 < y.toNat))) →
    exec (.readTable g) s = .next (answered s 0x16 g .badParam []))

/-- Every step keeps every stored record within its ranges and no output shared by two enabled cylinders (R25, R27, R28,
R32, R35, R36, R40). -/
def Obligations.StepKeepsTheTablesInRange : Prop :=
  ∀ s s' : State, tablesInRange s.tables → outputsUnique s.tables → step s = .next s' →
    tablesInRange s'.tables ∧ outputsUnique s'.tables

/-- Every step keeps the rule of the pending swap: it waits only while ARMED or DRAINING in FULL_SYNC (R38, R39). -/
def Obligations.StepKeepsThePendingSwap : Prop :=
  ∀ s s' : State, swapAgrees s → step s = .next s' → swapAgrees s'

/-! ### The Demand Stage -/

/-- DEMAND stages, for each cylinder it names, the last entry that names it, clamped, and leaves the active demands alone;
one entry that is not admitted refuses the whole frame (R53 to R55). What the receive buffer and the byte count hold after
the transaction is the model's choice (log entry 30). -/
def Obligations.DemandIsWholeOrNothing : Prop :=
  ∀ (es : List DemandEntry) (f : Frame) (s : State), passes s 0x20 f = true → 1 ≤ es.length → es.length ≤ 8 →
    (∀ e ∈ es, e.carried = true) → frameParams f = es.flatMap DemandEntry.bytes →
    ((∀ e ∈ es, e.admitted s) → ∃ t, exec (.demand f) s = .next t ∧
      t = { answered s 0x20 f
              (if ∃ e ∈ es, 10000 < e.mainUs ∨ e.advance < -120 ∨ 120 < e.advance then .okClamped else .ok) [] with
            demand := t.demand } ∧
      ∀ c : Cyl,
        ((∀ e ∈ es, e.cyl ≠ c.val + 1) → t.demandOf c = s.demandOf c) ∧
        (∀ before e after, es = before ++ e :: after → e.cyl = c.val + 1 → (∀ e' ∈ after, e'.cyl ≠ c.val + 1) →
          ∃ d : Demand, t.demandOf c = { s.demandOf c with staged := some d } ∧ d.pattern.val = e.pattern ∧
            d.mainUs = min 10000 e.mainUs ∧ d.advance = max (-120) (min 120 e.advance))) ∧
    ((∃ e ∈ es, ¬e.admitted s) → exec (.demand f) s = .next (answered s 0x20 f .badParam []))

/-- ARM and DISARM (R46, R47, R48): from SAFE, ARM starts firing with the demands of every cylinder cleared but the staged
ones, the first-pulse flags of the enabled ones set and the silence timer running; from DRAINING it only returns to ARMED.
DISARM drains, or is SAFE at once when nothing is queued or on. What the receive buffer and the byte count hold after the
transaction is the model's choice (log entry 30). -/
def Obligations.ArmAndDisarm : Prop :=
  (∀ (f : Frame) (s : State), passes s 0x21 f = true → frameParams f = [] →
    (s.firing = .armed ∨ s.tables.wheel.loaded = false ∨ (∀ c, (s.cylOf c).enabled = false) ∨ s.service.isSome = true →
      exec (.arm f) s = .next (answered s 0x21 f .wrongState [])) ∧
    (s.tables.wheel.loaded = true → (∃ c, (s.cylOf c).enabled = true) → s.service = none →
      (s.firing = .draining → exec (.arm f) s = .next { answered s 0x21 f .ok [] with firing := .armed }) ∧
      (s.firing = .safe → ∃ t, exec (.arm f) s = .next t ∧
        t = { answered s 0x21 f .ok [] with
          firing := .armed, demand := t.demand, sup := t.sup
          link := { (answered s 0x21 f .ok []).link with silence := some s.timebase } } ∧
        ∀ c, t.demandOf c = { staged := (s.demandOf c).staged, active := none, staleCount := 0, starved := false } ∧
          t.supOf c = { s.supOf c with firstPulse := (s.cylOf c).enabled || (s.supOf c).firstPulse }))) ∧
  (∀ (f : Frame) (s : State), passes s 0x22 f = true → frameParams f = [] →
    (s.firing ≠ .armed → exec (.disarm f) s = .next (answered s 0x22 f .wrongState [])) ∧
    (s.firing = .armed → (∃ k, (s.schedOf k).queue ≠ [] ∨ (s.schedOf k).active.isSome = true) →
      exec (.disarm f) s = .next { answered s 0x22 f .ok [] with firing := .draining }) ∧
    (s.firing = .armed → (∀ k, (s.schedOf k).queue = [] ∧ (s.schedOf k).active = none) →
      exec (.disarm f) s = .next { answered s 0x22 f .ok [] with
        firing := .safe
        tables := if s.tables.swapPending then
            { s.tables with activePage1 := !s.tables.activePage1, swapPending := false } else s.tables
        link := { (answered s 0x22 f .ok []).link with silence := none } }))

/-- STOP, and the expiry of the silence timer with its event, make firing SAFE and empty both banks in every state, take a
pending swap, stop the timer and keep every demand (R49, R50, R108, R174). Every shot and every pulse gets CANCELLED_STOP in
its plan, each bank that had a pulse is in GAP from this instant, or IDLE with a bank gap of 0, its Drive Stage has quenched
and its reservoir has the recuperation (R96, R105, R112, R118, R138, R156). The phase entry time of the Drive Stage stays
(log entry 9). What the receive buffer and the byte count hold after the transaction is the model's choice (log
entry 30). -/
def Obligations.StopEmptiesTheBanks : Prop :=
  ∀ (i : Instr) (s s₀ : State),
    ((∃ f, i = .stop f ∧ passes s 0x23 f = true ∧ frameParams f = [] ∧ s₀ = answered s 0x23 f .ok []) ∨
     (i = .linkSilence ∧ s₀ = s.raise .linkSilence ∧
      ∃ n, s.link.silence = some n ∧ n + 10000 * s.tables.limits.linkSilence ≤ s.timebase)) →
    ∃ t, exec i s = .next t ∧
      t = { s₀ with
        firing := .safe, sched := t.sched, drive := t.drive, level := t.level, sup := t.sup, service := t.service
        link := { s₀.link with silence := none }
        tables := if s.tables.swapPending then
            { s.tables with activePage1 := !s.tables.activePage1, swapPending := false } else s.tables } ∧
      (∀ k, (t.schedOf k).queue = [] ∧ (t.schedOf k).active = none ∧ (t.schedOf k).tracks = [] ∧
        (t.schedOf k).placed = (s.schedOf k).placed ∧ (t.schedOf k).started = (s.schedOf k).started ∧
        (t.schedOf k).shed = (s.schedOf k).shed ∧
        (t.schedOf k).cancelled = (s.schedOf k).cancelled + BitVec.ofNat 32 (s.schedOf k).queue.length) ∧
      ((∀ k, ((s.schedOf k).queue.map Shot.tag).Nodup) → banksCancelled s t .cancelledStop)

/-- Every step keeps what SAFE and DRAINING promise: DRAINING ends with the last shot and the last pulse (R48), and in SAFE
a bank holds nothing but a service chain (R45). -/
def Obligations.StepKeepsTheFiringState : Prop :=
  ∀ s s' : State, drainAgrees s ∧ safeAgrees s → step s = .next s' → drainAgrees s' ∧ safeAgrees s'

/-! ### Freezes and plans -/

/-- A tooth that leaves the clock in FULL_SYNC while ARMED freezes exactly the enabled cylinders whose freeze angle lies in
its interval: the staged demand becomes active, without one the active demand grows stale and is dropped past the hold
limit, and the freeze count rises by one; other cylinders keep their demands and counts. A tooth while SAFE or DRAINING, and a
tooth that leaves the clock elsewhere, freezes nothing: no demand and no count changes and no shot is placed (R56, R57, R59
to R61). -/
def Obligations.FreezeResolvesTheDemand : Prop :=
  ∀ (synthetic : Bool) (tie : TieOrder) (s : State), toothReady synthetic s →
    ∃ t, exec (toothCommand synthetic tie) s = .next t ∧
    (s.firing ≠ .armed ∨ t.clock.sync ≠ .fullSync →
      (∀ c, t.demandOf c = s.demandOf c ∧ (t.supOf c).freezes = (s.supOf c).freezes) ∧
      ∀ k, (t.schedOf k).placed = (s.schedOf k).placed ∧ (t.schedOf k).nextTag = (s.schedOf k).nextTag) ∧
    (s.firing = .armed → t.clock.sync = .fullSync → ∀ c,
      let frozen := (s.cylOf c).enabled = true ∧
        fwd (toothAngle s.tables.wheel t.clock) (s.cylOf c).freezeAngle < s.tables.wheel.spanAt t.clock.index
      let old := s.demandOf c
      let n := min 15 (old.staleCount + 1)
      (frozen → (t.supOf c).freezes = (s.supOf c).freezes + 1 ∧
        (∀ d, old.staged = some d → t.demandOf c =
          { staged := none, active := some { demand := d, stale := false }, staleCount := 0, starved := false }) ∧
        (∀ a, old.staged = none → old.active = some a → n ≤ s.tables.limits.staleHold → t.demandOf c =
          { staged := none, active := some { a with stale := true }, staleCount := n, starved := false }) ∧
        (old.staged = none → old.active = none ∨ s.tables.limits.staleHold < n → t.demandOf c =
          { staged := none, active := none, staleCount := n, starved := true }) ∧
        ((t.demandOf c).starved = true → old.starved = false → t.events.latched.getLsbD Event.stale.bit = true)) ∧
      (¬frozen → t.demandOf c = old ∧ (t.supOf c).freezes = (s.supOf c).freezes))

/-- The duration, the start and the window fit of a planned shot. A source of 0 makes no shot; below the minimum on-time
only a MAIN shot is made, raised; the entry's maximum clamps (R68, R69). A start before the window opens is moved to it,
one at or past its close makes no shot, and a window of span 0 takes none (R72). A duration that would pass the close is
cut to the longest that does not, and a shot left shorter than the minimum is not made (R73). A freeze makes its plan of
exactly the created shots, in entry and repeat order, each with its entry's class and break condition and PLANNED (R77):
none where the cylinder is cut or locked, no demand applies or overspeed stands (R65), none of an entry the supply band
omits (R67), each chained one on the last one created, with its gap and provisional angle (R74 to R76). Where the queue
has room, each enters at its place, takes the next tag and is counted (R78, R79), a window track opens (R94; that it
replaces a track an earlier plan left is log entry 31) and the plan stays open; without a shot the plan is published
empty, with the summary of its case (R65, R153 to R155). A tooth that ends in FULL_SYNC while ARMED makes these freezes
one after another, each complete before the next, for exactly the enabled cylinders whose freeze angle its interval holds,
by forward distance and for equal angles by number (R56 to R58). What it does before them and after them places no shot,
and is nothing before and the timing of both banks after where the banks are quiet (R89, R90; that what fell due before
goes first is log entry 6). -/
def Obligations.PlannerFitsTheWindow : Prop :=
  (∀ (e : PatternEntry) (minOn mainUs : Nat),
    let d := match e.duration with
      | .fixed us => us
      | .fraction fr => mainUs * fr / 256
    (d = 0 → entryDuration e minOn mainUs = none) ∧
    (0 < d → d < minOn → e.cls ≠ .main → entryDuration e minOn mainUs = none) ∧
    (0 < d → d < minOn → e.cls = .main → entryDuration e minOn mainUs =
      some (min minOn e.maxUs, { raisedMin := true, clampedMax := decide (e.maxUs < minOn) })) ∧
    (0 < d → minOn ≤ d → entryDuration e minOn mainUs =
      some (min d e.maxUs, { clampedMax := decide (e.maxUs < d) }))) ∧
  (∀ (r : CylRecord) (pos : Int),
    (0 < r.span → pos < -(r.windowOpen : Int) → windowPosition r pos = some (0, true)) ∧
    (-(r.windowOpen : Int) ≤ pos → pos < r.windowClose →
      ∃ w, windowPosition r pos = some (w, false) ∧ (w : Int) = pos + r.windowOpen ∧ w < r.span) ∧
    ((r.windowClose : Int) ≤ pos → windowPosition r pos = none) ∧ (r.span = 0 → windowPosition r pos = none)) ∧
  (∀ (r : CylRecord) (t : ToothReport) (minOn w ticks : Nat), 0 < t.tpred → 0 < t.pitch → w < r.span →
    (w + t.extent ticks ≤ r.span → windowFit r minOn t w ticks = some (ticks, false)) ∧
    (r.span < w + t.extent ticks →
      (∀ d, windowFit r minOn t w ticks = some d →
        d.2 = true ∧ d.1 < ticks ∧ 10 * minOn ≤ d.1 ∧ w + t.extent d.1 ≤ r.span ∧ r.span < w + t.extent (d.1 + 1)) ∧
      (windowFit r minOn t w ticks = none → r.span < w + t.extent (10 * minOn)))) ∧
  (∀ (r : ToothReport) (s : State) (c : Cyl),
    let t := freeze r s c
    let k := s.bankOf c
    let q := s.schedOf k
    let x := s.supOf c
    let demand := (t.demandOf c).active
    let shots := freezeShots r s c demand
    let code := if (t.demandOf c).starved = true then .stale else x.code
    let empty : CondCode := if x.locked then .locked else if x.cut then .cut else if demand = none then .stale
      else if s.clock.overspeed then .overspeed else .none
    q.queue.length + shots.length ≤ 16 →
    t = { s with
      demand := s.demand.set c (t.demandOf c)
      events := if (t.demandOf c).starved = true ∧ (s.demandOf c).starved = false then (s.raise .stale).events
                else s.events
      sched := s.sched.set k { q with
        queue := shots.foldl (fun l y => insertShot r.base y l) q.queue
        placed := q.placed + BitVec.ofNat 32 shots.length, nextTag := q.nextTag + BitVec.ofNat 8 shots.length
        tracks := if shots = [] then q.tracks else q.tracks.filter (fun y => y.cyl != c) ++
          [{ cyl := c, openAngle := (s.cylOf c).openAngle, closeAngle := (s.cylOf c).closeAngle, state := .tracking }] }
      sup := s.sup.set c (if shots = [] then
          { x with
            freezes := x.freezes + 1, plan := none, code := if empty = .none then code else empty
            report := some { kind := .angle, freezes := x.freezes + 1, demand := demand, overspeed := s.clock.overspeed,
                             summary := empty, serviceCount := 0, entries := [] } }
        else
          { x with
            freezes := x.freezes + 1, code := code
            plan := some { kind := .angle, freezes := x.freezes + 1, demand := demand, overspeed := s.clock.overspeed,
                           serviceCount := 0, emptySummary := empty, making := false
                           places := shots.map placeOf } }) }) ∧
  (∀ (synthetic : Bool) (tie : TieOrder) (s : State), toothReady synthetic s → s.firing = .armed →
    ∃ t, exec (toothCommand synthetic tie) s = .next t ∧ (t.clock.sync = .fullSync →
      let i := intervalOf synthetic s t.clock
      ∃ cs u, freezeOrdered i s cs ∧ nothingPlaced s u ∧ u.clock = t.clock ∧ u.firing = .armed ∧ u.supply = s.supply ∧
        u.tables = markerTables s t.clock ∧
        let v := cs.foldl (freeze (reportOf synthetic s t.clock)) u
        nothingPlaced v t ∧
        ((∀ k, quietBank i s k [] ∧ quietBank i v k []) → u = toothBegun s t.clock ∧
          t = { v with sched := ⟨i.schedMet v .bankA, i.schedMet v .bankB⟩ })))

/-- A new shot enters a queue behind the queued shots that stand before it, which are those of a smaller key or of an
equal key and no lower rank, and before the others; the queued shots keep their order, and an ordered queue stays ordered
(R79, R89). The key of a shot is 0 once it is reached, and else its forward distance from the present tooth's angle to its
order angle. The victim of a full queue is of the lowest rank among the shots that are not DEFERRED and not in the new
shot's own chain, of the greatest key among those, and the later of two that are equal in both; there is none only where
the queue holds no such shot (R81). A shot's own chain is its predecessor, that shot's predecessor, and so on to the first
of the chain. That a TIMED shot which already waits through a gap is a candidate is the model's reading (log entry 15,
DEDUCED and unsafe): R81 lists PLANNED and TIMED and excludes only DEFERRED, but says beside it that a shot already
waiting for its bank is not displaced. -/
def Obligations.QueueOrderAndVictim : Prop :=
  (∀ (angle : Nat) (x : Shot) (q : List Shot),
    (∃ before after, q = before ++ after ∧ insertShot angle x q = before ++ x :: after ∧
      (∀ y ∈ before, y.standsBefore x angle = true) ∧ (∀ y ∈ after.head?, y.standsBefore x angle = false) ∧
      (q.Pairwise (fun a b => a.standsBefore b angle = true) → ∀ y ∈ after, y.standsBefore x angle = false)) ∧
    (insertShot angle x q).Perm (x :: q) ∧
    (q.Pairwise (fun a b => a.standsBefore b angle = true) →
      (insertShot angle x q).Pairwise (fun a b => a.standsBefore b angle = true))) ∧
  (∀ (angle : Nat) (x y : Shot), x.standsBefore y angle = true ↔
    x.key angle < y.key angle ∨ (x.key angle = y.key angle ∧ y.cls.rank ≤ x.cls.rank)) ∧
  (∀ (angle : Nat) (x : Shot), x.key angle = if x.reached then 0 else (x.order + (11520 - angle % 11520)) % 11520) ∧
  (∀ (q : List Shot) (x y : Shot), y ∈ q → (y.tag ∈ chainBack q.length q x.anchor ↔ BackChain q x.anchor y.tag)) ∧
  (∀ (angle : Nat) (q : List Shot) (x : Shot), victim angle q x = none ↔
    ∀ y ∈ q, y.state = .deferred ∨ y.tag ∈ chainBack q.length q x.anchor) ∧
  (∀ (angle : Nat) (q : List Shot) (x v : Shot), victim angle q x = some v →
    v ∈ q ∧ v.state ≠ .deferred ∧ v.tag ∉ chainBack q.length q x.anchor ∧
    (∀ y ∈ q, y.state ≠ .deferred → y.tag ∉ chainBack q.length q x.anchor →
      v.cls.rank < y.cls.rank ∨ (v.cls.rank = y.cls.rank ∧ y.key angle ≤ v.key angle)) ∧
    ∃ before after, q = before ++ v :: after ∧
      ∀ y ∈ after, y.state ≠ .deferred → y.tag ∉ chainBack q.length q x.anchor →
        v.cls.rank < y.cls.rank ∨ (v.cls.rank = y.cls.rank ∧ y.key angle < v.key angle))

/-- A created shot takes its place in the plan, is counted as placed and uses up a tag. It enters a queue of fewer than 16
at its order position. From a full queue it evicts a victim of a lower rank: the victim goes as SHED_QUEUE_FULL and the
shots chained on it as SHED_CHAIN, each counted as shed and told to the plan of its cylinder, and the newcomer enters. With
no such victim it is counted as shed itself and told SHED_QUEUE_FULL (R78 to R83, R93, R112, R113). The eviction is shown
away from DRAINING, since the Planner places shots only while ARMED (R57). -/
def Obligations.PlacementOnABank : Prop :=
  ∀ (k : Bank) (s : State) (angle : Nat) (x : Shot),
    let q := s.schedOf k
    let t := (placeShot k s angle x).1
    let counted : Sched := { q with placed := q.placed + 1, nextTag := q.nextTag + 1 }
    (t.schedOf k).placed = q.placed + 1 ∧ (t.schedOf k).nextTag = q.nextTag + 1 ∧
    (t.schedOf k).started = q.started ∧ (t.schedOf k).active = q.active ∧ (t.schedOf k).cond = q.cond ∧
    (q.queue.length < 16 → (placeShot k s angle x).2 = true ∧
      t = { withPlace s x with sched := s.sched.set k { counted with queue := insertShot angle x q.queue } }) ∧
    (16 ≤ q.queue.length → ∀ v, victim angle q.queue x = some v → v.cls.rank < x.cls.rank →
      (placeShot k s angle x).2 = true ∧ x ∈ (t.schedOf k).queue ∧ (t.schedOf k).queue.length ≤ q.queue.length ∧
      t.events.latched.getLsbD Event.shed.bit = true ∧
      (q.queue.countP (fun y => y.tag == v.tag) = 1 → x.tag ≠ v.tag → ∀ y ∈ (t.schedOf k).queue, y.tag ≠ v.tag) ∧
      (q.queue.filter (fun y => y.tag == v.tag) = [v] → chainNamed q.queue v.tag v.entry .shedQueueFull →
        s.firing ≠ .draining → ∃ cs, chainIs q.queue v.tag v.entry .shedQueueFull cs ∧
        t = { withPlace s x with
          sched := s.sched.set k { counted with
            queue := insertShot angle x (withoutShots q.queue ((v, .shedQueueFull) :: cs))
            shed := q.shed + BitVec.ofNat 32 (1 + cs.length) }
          events := (s.raise .shed).events, sup := t.sup, service := t.service } ∧
        outcomesTold (withPlace s x) t (chainOutcomes ((v, .shedQueueFull) :: cs)))) ∧
    (16 ≤ q.queue.length → (∀ v, victim angle q.queue x = some v → x.cls.rank ≤ v.cls.rank) →
      (placeShot k s angle x).2 = false ∧ t.events.latched.getLsbD Event.shed.bit = true ∧
      t = { withPlace s x with
        sched := s.sched.set k { counted with shed := q.shed + 1 }
        events := (s.raise .shed).events, sup := t.sup, service := t.service } ∧
      outcomesTold (withPlace s x) t (chainOutcomes [(x, .shedQueueFull)]))

/-! ### The Angle Clock -/

/-- Crank edges that are no teeth. A falling edge, and any edge while the wheel is not loaded, change nothing (R2); an edge
within 200 ticks of the one before only raises NOISE (R3); in a sync state an edge earlier than half the prediction only
raises NOISE (R8), and the late original of a synthetic tooth is absorbed in silence (R14). -/
def Obligations.EdgesThatAreNoTeeth : Prop :=
  ∀ (tie : TieOrder) (s : State),
    exec (.crankEdge .falling tie) s = .next s ∧
    (s.tables.wheel.loaded = false → exec (.crankEdge .rising tie) s = .next s) ∧
    (s.tables.wheel.loaded = true → ∀ n, s.clock.lastCrank = some n → s.timebase < n + 200 → n ≤ s.timebase →
      exec (.crankEdge .rising tie) s =
        .next { s.raise .noise with clock := { s.clock with lastCrank := some s.timebase } }) ∧
    (crankTaken s → s.clock.sync = .crankSync ∨ s.clock.sync = .fullSync → ∀ n, s.clock.lastTooth = some n →
      (s.clock.absorb = true → s.timebase - n < 3 * s.clock.tpred / 4 → exec (.crankEdge .rising tie) s =
        .next { s with clock := { s.clock with lastCrank := some s.timebase, synth := 0, absorb := false } }) ∧
      (¬(s.clock.absorb = true ∧ s.timebase - n < 3 * s.clock.tpred / 4) → 2 * (s.timebase - n) < s.clock.tpred →
        exec (.crankEdge .rising tie) s = .next { s.raise .noise with
          clock := { s.clock with lastCrank := some s.timebase, absorb := false } }))

/-- The first taken edge after a standstill leaves STALLED for SEEKING, with the tooth's time kept, the stall timer started
and the edge echoed (R6, R22). It ends a running service chain: that cylinder's service shots and its pulse go with
CANCELLED_SYNC in its plan, which completes the chain, and with a bank gap of 0 the gap of that end is over at once (R96,
R105, R111 to R113, R118, R138, R156, R161, R162). The phase entry time of the Drive Stage stays (log entry 9). -/
def Obligations.EdgeLeavesStalled : Prop :=
  ∀ (tie : TieOrder) (s : State), crankTaken s → s.clock.sync = .stalled →
    ∃ t, exec (.crankEdge .rising tie) s = .next t ∧
      t.clock = { s.clock with
        sync := .seeking, lastTooth := some s.timebase, stallFrom := some s.timebase, lastCrank := some s.timebase
        techo := some (s.timebase + 200), speed := 0
        overspeed := if 100 < s.tables.limits.maxSpeed then false else s.clock.overspeed } ∧
      (s.service = none → t = { s with clock := t.clock }) ∧
      (∀ c, s.service = some c → ((s.schedOf (s.bankOf c)).queue.map Shot.tag).Nodup →
        let k := s.bankOf c
        let q := s.schedOf k
        let mine := q.queue.filter fun y => y.cyl == c && y.flags.service
        let ended := q.active.filter fun p => p.cyl == c
        let off := pulseOff { s with clock := t.clock } k ended
        (∀ x ∈ (t.schedOf k).queue, ¬(x.cyl = c ∧ x.flags.service = true)) ∧
        (s.tables.limits.bankGapUs ≠ 0 → ∀ p ∈ (t.schedOf k).active, p.cyl ≠ c) ∧
        (drainAgrees s → endPassed s k → ∃ u, gapSettled k u t ∧
          u = drainSettled { off with
            sched := off.sched.set k { off.schedOf k with
              queue := q.queue.filter (fun y => !(y.cyl == c && y.flags.service))
              cancelled := q.cancelled + BitVec.ofNat 32 mine.length }
            sup := u.sup, service := u.service } ∧
          outcomesTold (pulseCounted s ended) u
            (chainOutcomes (allWith .cancelledSync mine) ++ pulseOutcome s ended .cancelledSync none)))

/-- An edge taken in SEEKING enters the history. An interval of at least m + 1/2 pitches of the last one is a gap
candidate, worth one pitch when divided by m + 1; a second candidate after exactly N − m − 1 normal teeth confirms the gap:
CRANK_SYNC begins at tooth index 0 with its deadline, speed and overspeed (R4, R7, R13, R19, R20). -/
def Obligations.SeekingLooksForTheGap : Prop :=
  ∀ (tie : TieOrder) (s : State) (n : Nat), crankTaken s → s.clock.sync = .seeking →
    let w := s.tables.wheel
    let now := s.timebase
    let dt := now - n
    let candidate := s.clock.t1 ≠ 0 ∧ (2 * w.m + 1) * s.clock.t1 ≤ 2 * dt
    let calm := if 100 < s.tables.limits.maxSpeed then false else s.clock.overspeed
    let taken (t1 : Nat) : AngleClock := { s.clock with
      lastCrank := some now, lastTooth := some now, stallFrom := some now, techo := some (now + 200), t1 := t1
      t2 := s.clock.t1, tpred := predict t1 s.clock.t1, speed := 0, overspeed := calm }
    (s.clock.lastTooth = none → exec (.crankEdge .rising tie) s = .next { s with clock := { s.clock with
      lastCrank := some now, lastTooth := some now, stallFrom := some now, techo := some (now + 200), speed := 0
      overspeed := calm } }) ∧
    (s.clock.lastTooth = some n → ¬candidate → exec (.crankEdge .rising tie) s =
      .next { s with clock := { taken dt with gapSearch := s.clock.gapSearch.map fun c => min 72 (c + 1) } }) ∧
    (s.clock.lastTooth = some n → candidate → s.clock.gapSearch ≠ some (w.n - w.m - 1) →
      exec (.crankEdge .rising tie) s =
        .next { s with clock := { taken (dt / (w.m + 1)) with gapSearch := some 0 } }) ∧
    (s.clock.lastTooth = some n → candidate → s.clock.gapSearch = some (w.n - w.m - 1) → 0 < w.n - w.m - 1 →
      let t1 := dt / (w.m + 1)
      let speed := min 8191 (600000000 / (t1 * w.n))
      let flag := if s.tables.limits.maxSpeed < speed then true
                  else if speed < s.tables.limits.maxSpeed - 100 then false else s.clock.overspeed
      exec (.crankEdge .rising tie) s = .next { s with
        clock := { taken t1 with
          sync := .crankSync, index := 0, rev1 := false, camCount := 0, synth := 0, absorb := false, gapSearch := none
          deadline := some (now + 3 * predict t1 s.clock.t1 / 2), speed := speed, overspeed := flag }
        events := if flag && !s.clock.overspeed then (s.raise .overspeed).events else s.events })

/-- An accepted tooth of a sync state, real or synthetic, whose revolution check keeps the state: the position, the
history and prediction, the deadline, the echo and marker pulses, the speed and the overspeed flag (R4, R9, R13, R19, R20,
R22, R23). In CRANK_SYNC nothing else changes. In FULL_SYNC the tooth's interval meets both banks: a shot whose order
angle it holds is marked reached, a PLANNED ANGLE shot of them is TIMED at the predicted passage of its start and not
before its window open (R89, R90); a track whose close angle it holds is CLOSING from the predicted passage on, and its
pulse takes that instant (R94). Where nothing is left over from the interval before, nothing is due at once and no
cylinder freezes, that is all, but for a pending swap taken at the marker (R39). A shot left TIMED falls due now: alone on
an IDLE bank, with its window open and the boost there, it opens now (R91, R104). Whatever else meets at the tooth, no
shot stays TIMED for an earlier interval, or for an instant that has come where no cylinder freezes (R90, R91); no track
stays CLOSING for one; and a cylinder whose track was CLOSING, and that does not freeze at this tooth, has no shot, no
track and no angle pulse left on the bank (R94, R95). That last holds where no cylinder of the bank freezes, or where the
tables lie in their ranges and no tag given out at this tooth names a queued shot: tags come back after 256 shots (R78),
so the other case is of states that no run reaches. -/
def Obligations.AcceptedTooth : Prop :=
  (∀ (synthetic : Bool) (tie : TieOrder) (s : State), toothReady synthetic s → s.clock.lastTooth.isSome = true →
    let w := s.tables.wheel
    let now := s.timebase
    let full := s.clock.sync == .fullSync
    let index := if s.clock.index = w.n - w.m - 1 then 0 else s.clock.index + 1
    let rev1 := if s.clock.index = w.n - w.m - 1 then full && !s.clock.rev1 else s.clock.rev1
    let t1 := toothInterval synthetic s
    let tpred := predict t1 s.clock.t1
    let speed := min 8191 (600000000 / (t1 * w.n))
    let flag := if s.tables.limits.maxSpeed < speed then true
                else if speed < s.tables.limits.maxSpeed - 100 then false else s.clock.overspeed
    (index = 0 → (full = false → s.clock.camCount ≠ 1) ∧ (full = true → s.clock.camCount = if rev1 then 0 else 1)) →
    ∃ t, exec (toothCommand synthetic tie) s = .next t ∧
      t.clock = { s.clock with
        lastCrank := if synthetic then s.clock.lastCrank else some now
        lastTooth := some (toothTime synthetic s), t1 := t1, t2 := s.clock.t1, tpred := tpred, index := index
        rev1 := rev1, camCount := if index = 0 then 0 else s.clock.camCount
        synth := if synthetic then s.clock.synth + 1 else 0, absorb := synthetic
        stallFrom := if synthetic then s.clock.stallFrom else some now
        deadline := some (toothTime synthetic s +
          (if index = w.n - w.m - 1 then (2 * w.m + 3) * tpred / 2 else 3 * tpred / 2))
        techo := some (now + 200)
        cmark := if full && index == 0 && !rev1 then some (now + 200) else s.clock.cmark
        speed := speed, overspeed := flag } ∧
      (full = false → t = { s with
        clock := t.clock
        events := if flag && !s.clock.overspeed then (s.raise .overspeed).events else s.events }) ∧
      (full = true →
        let i := intervalOf synthetic s t.clock
        let u := bothMet i s t.clock (if flag && !s.clock.overspeed then (s.raise .overspeed).events else s.events)
        ((∀ c, ¬freezeTooth i s c) → (∀ k, quietBank i s k []) → t = u) ∧
        (∀ (k : Bank) (x : Shot), (∀ c, ¬freezeTooth i s c) → quietBank i s k [x] →
          (∀ j, j ≠ k → quietBank i s j []) → (s.schedOf k).queue.filter (fun y => y.tag == x.tag) = [x] →
          (s.schedOf k).cond = .idle → (s.schedOf k).active = none → inWindow u k x →
          (x.lowBoost = true → s.tables.limits.lowWater ≤ s.levelOf k) →
          (s.profileOf x.cyl).boostCost ≤ s.levelOf k →
          t = opened { u with level := s.level.set k (s.levelOf k - (s.profileOf x.cyl).boostCost) } k x false) ∧
        (∀ k, ((s.schedOf k).queue.map Shot.tag).Nodup →
          (∀ x ∈ (t.schedOf k).queue,
            (i.holds x.order → x.reached = true ∧ (x.isAngle = true → x.state ≠ .planned)) ∧
            (timedAhead x = true → i.holds x.order ∧
              x.due = some (i.startInstant (s.cylOf x.cyl).openAngle x.order) ∧
              ((∀ c, ¬freezeTooth i s c) → ∀ n, x.due = some n → now < n))) ∧
          (∀ y ∈ (t.schedOf k).tracks, (i.holds y.closeAngle → y.state ≠ .tracking) ∧
            ∀ n, y.state = .closing n → i.holds y.closeAngle ∧ n = i.passing y.closeAngle ∧ now < n) ∧
          (∀ y ∈ (s.schedOf k).tracks, ∀ n, y.state = .closing n → ¬freezeTooth i s y.cyl →
            (∀ c, freezeTooth i s c → s.bankOf c ≠ k) ∨ (tablesInRange s.tables ∧ tagsFree s t k) →
            (∀ x ∈ (t.schedOf k).queue, x.cyl ≠ y.cyl) ∧ (∀ z ∈ (t.schedOf k).tracks, z.cyl ≠ y.cyl) ∧
            ∀ p ∈ (t.schedOf k).active, p.cyl = y.cyl → p.flags.service = true)))) ∧
  (∀ t1 t2 : Nat, 0 < t1 → predict t1 0 = t1 ∧
    (0 < t2 → t2 ≤ t1 → predict t1 t2 = max (3 * t1 / 4) (min (5 * t1 / 4) (t1 + (t1 - t2) / 2))) ∧
    (t1 < t2 → predict t1 t2 = max (3 * t1 / 4) (min (5 * t1 / 4) (t1 - (t2 - t1) / 2))))

/-- What the cam count decides at the tooth of index 0. One cam edge in a revolution of CRANK_SYNC brings FULL_SYNC at
revolution 0, with SYNC_UP and the marker; in FULL_SYNC a count other than 1 before revolution 0 or 0 before revolution 1
falls back to CRANK_SYNC with CAM_FAULT and SYNC_DOWN (R11, R12, R23). The tooth is otherwise an accepted tooth like any
other: it brings the position, the history and the prediction, the deadline, the echo, the speed and the overspeed flag,
whose rise raises OVERSPEED (R4, R9, R13, R19, R20, R22). Either change of state leaves the absorb window closed, at a
synthetic tooth too (R14). -/
def Obligations.CamCountDecides : Prop :=
  ∀ (synthetic : Bool) (tie : TieOrder) (s : State), toothReady synthetic s → atGap s →
    0 < s.tables.wheel.n - s.tables.wheel.m - 1 →
    let t1 := toothInterval synthetic s
    let tpred := predict t1 s.clock.t1
    let speed := min 8191 (600000000 / (t1 * s.tables.wheel.n))
    let flag := if s.tables.limits.maxSpeed < speed then true
                else if speed < s.tables.limits.maxSpeed - 100 then false else s.clock.overspeed
    let passed (sync : Sync) (cmark : Option Nat) : AngleClock := { s.clock with
      sync := sync, index := 0, rev1 := false, camCount := 0, absorb := false
      synth := if synthetic then s.clock.synth + 1 else 0
      lastCrank := if synthetic then s.clock.lastCrank else some s.timebase
      stallFrom := if synthetic then s.clock.stallFrom else some s.timebase
      lastTooth := some (toothTime synthetic s), t1 := t1, t2 := s.clock.t1, tpred := tpred
      deadline := some (toothTime synthetic s + 3 * tpred / 2), techo := some (s.timebase + 200), cmark := cmark
      speed := speed, overspeed := flag }
    let told (t : State) := flag = true → s.clock.overspeed = false → t.events.latched.getLsbD Event.overspeed.bit = true
    (s.clock.sync = .crankSync → s.clock.camCount = 1 → ∃ t, exec (toothCommand synthetic tie) s = .next t ∧
      t.clock = passed .fullSync (some (s.timebase + 200)) ∧ told t ∧
      t.events.latched.getLsbD Event.syncUp.bit = true ∧ t.cmark = true) ∧
    (s.clock.sync = .fullSync → s.clock.camCount ≠ (if s.clock.rev1 then 1 else 0) →
      ∃ t, exec (toothCommand synthetic tie) s = .next t ∧ t.clock = passed .crankSync s.clock.cmark ∧ told t ∧
      t.events.latched.getLsbD Event.camFault.bit = true ∧ t.events.latched.getLsbD Event.syncDown.bit = true)

/-- Crank sync is lost to SEEKING by a deadline after two synthetic teeth, and by an edge that comes too soon for the gap
where the gap is due; that edge starts the search anew as an ordinary tooth (R8, R15), and no gap candidate itself (read as
log entry 17 says). A deadline that is not yet due changes nothing (the model's choice, log entry 4). -/
def Obligations.CrankSyncIsLost : Prop :=
  (∀ (tie : TieOrder) (s : State) (d : Nat), s.clock.sync = .crankSync ∨ s.clock.sync = .fullSync →
    s.clock.deadline = some d → d ≤ s.timebase → 2 ≤ s.clock.synth →
    ∃ t, exec (.deadlineExpiry tie) s = .next t ∧
      t.clock = { s.clock with
        sync := .seeking, rev1 := false, gapSearch := none, camCount := 0, synth := 0, absorb := false
        deadline := none, speed := 0
        overspeed := if 100 < s.tables.limits.maxSpeed then false else s.clock.overspeed } ∧
      (s.clock.sync = .crankSync → t = { s with clock := t.clock })) ∧
  (∀ (tie : TieOrder) (s : State) (n : Nat), crankTaken s → s.clock.sync = .crankSync ∨ s.clock.sync = .fullSync →
    s.clock.lastTooth = some n → ¬(s.clock.absorb = true ∧ s.timebase - n < 3 * s.clock.tpred / 4) →
    s.clock.tpred ≤ 2 * (s.timebase - n) → atGap s →
    2 * (s.timebase - n) < (2 * s.tables.wheel.m + 1) * s.clock.tpred →
    ∃ t, exec (.crankEdge .rising tie) s = .next t ∧
      t.clock = { s.clock with
        sync := .seeking, rev1 := false, gapSearch := none, camCount := 0, synth := 0, absorb := false
        deadline := none, speed := 0, lastCrank := some s.timebase, lastTooth := some s.timebase
        stallFrom := some s.timebase, t1 := s.timebase - n, t2 := s.clock.t1
        tpred := predict (s.timebase - n) s.clock.t1, techo := some (s.timebase + 200)
        overspeed := if 100 < s.tables.limits.maxSpeed then false else s.clock.overspeed } ∧
      (s.clock.sync = .crankSync → t = { s with clock := t.clock })) ∧
  (∀ (tie : TieOrder) (s : State) (d : Nat), s.clock.deadline = some d → s.timebase < d →
    exec (.deadlineExpiry tie) s = .next s)

/-- 250 ms without a taken edge stall the clock: the event, the history forgotten, the angle held at its last reading and
the speed 0 (R16, R19, R21). Before that the event changes nothing (the model's choice, log entry 4). -/
def Obligations.StallHoldsTheAngle : Prop :=
  ∀ (s : State) (n : Nat), s.clock.stallFrom = some n →
    (n + 2500000 ≤ s.timebase → ∃ t, exec .stall s = .next t ∧
      t.clock = { s.clock with
        sync := .stalled, lastTooth := none, t1 := 0, t2 := 0, tpred := 0, rev1 := false, gapSearch := none
        camCount := 0, synth := 0, absorb := false, deadline := none, stallFrom := none, held := s.angleReading
        speed := 0, overspeed := if 100 < s.tables.limits.maxSpeed then false else s.clock.overspeed } ∧
      t.angleReading = s.angleReading ∧ t.events.latched.getLsbD Event.stall.bit = true ∧
      (s.clock.sync ≠ .fullSync → t = { s.raise .stall with clock := t.clock })) ∧
    (s.timebase < n + 2500000 → exec .stall s = .next s)

/-- A cam edge of the loaded polarity counts once in a sync state, up to 3, and changes nothing but its filter elsewhere; one
within 200 ticks of the one before only raises NOISE; the other polarity, and any edge while the wheel is not loaded, change
nothing (R2, R3, R10). That a rejected edge restarts the filter too is log entry 22, and that the edge before keeps its
place when a load has changed the polarity is the model's choice (log entry 27). -/
def Obligations.CamEdgesAreCounted : Prop :=
  ∀ (tr : Transition) (s : State),
    (s.tables.wheel.loaded = false ∨ tr ≠ s.tables.wheel.polarity → exec (.camEdge tr) s = .next s) ∧
    (s.tables.wheel.loaded = true → tr = s.tables.wheel.polarity →
      (∀ n, s.clock.lastCam = some n → n ≤ s.timebase → s.timebase < n + 200 → exec (.camEdge tr) s =
        .next { s.raise .noise with clock := { s.clock with lastCam := some s.timebase } }) ∧
      ((∀ n, s.clock.lastCam = some n → n + 200 ≤ s.timebase) →
        (s.clock.sync = .crankSync ∨ s.clock.sync = .fullSync → exec (.camEdge tr) s = .next { s with
          clock := { s.clock with lastCam := some s.timebase, camCount := min 3 (s.clock.camCount + 1) } }) ∧
        (s.clock.sync = .stalled ∨ s.clock.sync = .seeking → exec (.camEdge tr) s = .next { s with
          clock := { s.clock with lastCam := some s.timebase } })))

/-- Whatever command takes the clock out of FULL_SYNC, short of a reset, empties both banks, takes a pending swap and
raises SYNC_DOWN (R12, R39, R107). Every shot and every pulse gets CANCELLED_SYNC in its plan, the shots are counted as
cancelled, each bank that had a pulse is in GAP from this instant, or IDLE with a bank gap of 0, its Drive Stage has
quenched and its reservoir has the recuperation (R96, R105, R112, R113, R118, R138, R156). The phase entry time of the
Drive Stage stays (log entry 9). -/
def Obligations.LeavingFullSyncEmptiesTheBanks : Prop :=
  ∀ (i : Instr) (s t : State), i ≠ .powerOnReset → (∀ f, i ≠ .reset f) → s.clock.sync = .fullSync →
    exec i s = .next t → t.clock.sync ≠ .fullSync →
    (∀ k, (t.schedOf k).queue = [] ∧ (t.schedOf k).active = none ∧ (t.schedOf k).tracks = []) ∧
    t.tables.swapPending = false ∧ t.events.latched.getLsbD Event.syncDown.bit = true ∧
    ((∀ k, ((s.schedOf k).queue.map Shot.tag).Nodup) → banksCancelled s t .cancelledSync)

/-- Every step keeps the Angle Clock in agreement with its synchronisation state (sections 1.3 to 1.7). In the sync states T1
and Tpred are above 0 and the deadline is the one R13 gives; everywhere the prediction is the one R4 gives of T1 and T2, T1
is at most 2,500,000 and Tpred below 3,125,001, and the stall timer has not run past its 250 ms (R4, R13, R16). -/
def Obligations.StepKeepsTheClock : Prop :=
  ∀ s s' : State, clockAgrees s.tables.wheel s.timebase s.clock → step s = .next s' →
    clockAgrees s'.tables.wheel s'.timebase s'.clock

/-! ### The Bank Schedulers -/

/-- A shot that falls due (TIMED_INSTANT for a shot placed by angle, CHAIN_SHOT_DUE for a chained one) on an IDLE bank
opens at once where the window, the break condition and the boost admit it: it leaves the queue as the active pulse, is
counted as started, and its bank's Drive Stage starts with the profile copied. With the boost it pays its cost; a MAIN
shot without it opens degraded and pays nothing (R91, R92, R97, R102 to R104, R133, R146). -/
def Obligations.DueShotOpensOnAnIdleBank : Prop :=
  ∀ (k : Bank) (s : State) (x : Shot), fallsDue s x → onlyDue s k x → (s.schedOf k).cond = .idle →
    (s.schedOf k).active = none → inWindow s k x →
    (x.lowBoost = true → s.tables.limits.lowWater ≤ s.levelOf k) →
    ((s.profileOf x.cyl).boostCost ≤ s.levelOf k → exec (dueCommand k x) s = .next { opened s k x false with
      level := s.level.set k (s.levelOf k - (s.profileOf x.cyl).boostCost) }) ∧
    (s.levelOf k < (s.profileOf x.cyl).boostCost → x.cls = .main →
      exec (dueCommand k x) s = .next (opened s k x true))

/-- A shot that falls due on an IDLE bank and may not open is removed at once, counted as shed: SHED_WINDOW past its window,
else BROKEN below the low-water level when marked for it, else SHED_BOOST without the boost unless it is a MAIN shot (R102,
R103, R112). The shots whose chain leads back to it go with it: BROKEN for the later repeats of the entry of a BROKEN one,
SHED_CHAIN for every other (R93). Each outcome reaches the plan of its cylinder, and a bank left empty while DRAINING may
end the draining (R48). Nothing else of the bank changes. -/
def Obligations.DueShotIsShedAtItsStart : Prop :=
  ∀ (k : Bank) (s : State) (x : Shot) (o : ShotOutcome), fallsDue s x → onlyDue s k x → (s.schedOf k).cond = .idle →
    (s.schedOf k).active = none → chainNamed (s.schedOf k).queue x.tag x.entry o →
    ((o = .shedWindow ∧ ¬inWindow s k x) ∨
     (o = .broken ∧ inWindow s k x ∧ x.lowBoost = true ∧ s.levelOf k < s.tables.limits.lowWater) ∨
     (o = .shedBoost ∧ inWindow s k x ∧ (x.lowBoost = true → s.tables.limits.lowWater ≤ s.levelOf k) ∧
      s.levelOf k < (s.profileOf x.cyl).boostCost ∧ x.cls ≠ .main)) →
    ∃ t cs, exec (dueCommand k x) s = .next t ∧ chainIs (s.schedOf k).queue x.tag x.entry o cs ∧
      t = drainSettled { s.raise .shed with
        sched := s.sched.set k { s.schedOf k with
          queue := withoutShots (s.schedOf k).queue ((x, o) :: cs)
          shed := (s.schedOf k).shed + BitVec.ofNat 32 (1 + cs.length) }
        sup := t.sup, service := t.service } ∧
      outcomesTold s t (chainOutcomes ((x, o) :: cs))

/-- A shot that falls due on a bank that is not IDLE. A chained shot of an angle plan past its window is shed at once with
SHED_WINDOW, and its chain with it (R92, R93); an ANGLE shot is not judged by its window here. Any other waits in GAP.
Against an active pulse it preempts a pulse of lower rank when it is MAIN or PILOT: the pulse ends FIRED_PREEMPTED, marked
PREEMPTED, the shots chained on it are shed as SHED_CHAIN, the outcomes reach the plans, and the shot waits through the
gap, whose end comes at once with a bank gap of 0. Otherwise it is DEFERRED until its class's limit, and with a limit of 0
it is shed (R93, R96 to R99, R105, R112, R118, R138, R156). The due instant that is recorded is the present one, also
where a tooth brought the shot forward (log entry 13), and a limit already past sheds at once (log entry 14). The phase
entry time of the Drive Stage stays (log entry 9). -/
def Obligations.DueShotOnABusyBank : Prop :=
  (∀ (k : Bank) (s : State) (x : Shot), fallsDue s x → onlyDue s k x → x.isAngle = false → ¬inWindow s k x →
    (s.schedOf k).cond ≠ .idle → chainNamed (s.schedOf k).queue x.tag x.entry .shedWindow →
    ∃ t, exec (dueCommand k x) s = .next t ∧ shedNow s k x .shedWindow t) ∧
  ∀ (k : Bank) (s : State) (x : Shot), fallsDue s x → onlyDue s k x → (x.isAngle = false → inWindow s k x) →
    let q := s.schedOf k
    let limit := 10 * s.tables.limits.deferUs x.cls
    let waits : Shot := { x with state := .timed, due := some s.timebase, waiting := true }
    let waiting := q.queue.map fun y => if y.tag = x.tag then waits else y
    (q.cond = .gap → q.active = none → exec (dueCommand k x) s = .next { s with
      sched := s.sched.set k { q with queue := waiting } }) ∧
    (q.cond = .active → ∀ p, q.active = some p → p.cls.rank < x.cls.rank → x.cls = .main ∨ x.cls = .pilot →
      chainNamed q.queue p.tag 0 .firedPreempted → (∀ o, ¬ChainFate q.queue p.tag 0 .firedPreempted x o) →
      ∃ t u cs, exec (dueCommand k x) s = .next t ∧ gapSettled k u t ∧
        chainIs q.queue p.tag 0 .firedPreempted cs ∧
        u = { pulseOff s k (some p) with
          sched := s.sched.set k { q with
            active := none, cond := .gap, lastEnd := some s.timebase, queue := withoutShots waiting cs
            shed := q.shed + BitVec.ofNat 32 cs.length }
          events := if cs = [] then s.events else (s.raise .shed).events, sup := u.sup, service := u.service } ∧
        outcomesTold (endCounted s p.cyl) u (pulseOutcome s (some p) .firedPreempted none ++ chainOutcomes cs)) ∧
    (q.cond = .active → ∀ p, q.active = some p → ¬(p.cls.rank < x.cls.rank ∧ (x.cls = .main ∨ x.cls = .pilot)) →
      let marked : State := { s with sup := match (s.supOf x.cyl).plan with
        | none => s.sup
        | some m => s.sup.set x.cyl
            { s.supOf x.cyl with plan := some { m with places := markPlaces x.tag m.places } } }
      (0 < limit → exec (dueCommand k x) s = .next { marked with
        sched := s.sched.set k { q with queue := q.queue.map fun y =>
          if y.tag = x.tag then { waits with state := .deferred, deadline := some (s.timebase + limit) } else y } }) ∧
      (limit = 0 → chainNamed q.queue x.tag x.entry .shedConflict → ∃ t cs, exec (dueCommand k x) s = .next t ∧
        chainIs q.queue x.tag x.entry .shedConflict cs ∧
        t = { s with
          sched := s.sched.set k { q with
            queue := withoutShots q.queue ((x, .shedConflict) :: cs)
            shed := q.shed + BitVec.ofNat 32 (1 + cs.length) }
          events := (s.raise .shed).events, sup := t.sup, service := t.service } ∧
        outcomesTold marked t (chainOutcomes ((x, .shedConflict) :: cs))))

/-- At the gap's end the bank is IDLE and its Drive Stage OFF, and the arbiter acts: after it the bank has a pulse on or no
shot waits, and a single waiting shot that may open opens, degraded for a MAIN shot without the boost (R96, R100, R138).
Where the tags name the shots, however many wait: the arbiter takes the one of the highest rank, of these the earliest due,
of these the first in the queue; a start that the window, the break condition or the boost refuses sheds its shot with its
chain, and the arbiter goes on to the next; once a pulse has opened, every other waiting shot that is not DEFERRED yet is
DEFERRED until its own due instant plus its class's limit, with its place marked, or shed with SHED_CONFLICT where that
instant has come (R99, R100 to R104, R152). That it has come also at the present instant is log entry 14. Before the gap's
end the event changes nothing (the model's choice, log entry 4). The phase entry time of the Drive Stage stays (log entry
9). -/
def Obligations.GapEndActsTheArbiter : Prop :=
  ∀ (k : Bank) (s : State) (n : Nat), (s.schedOf k).cond = .gap → (s.schedOf k).lastEnd = some n →
    (s.timebase < n + 10 * s.tables.limits.bankGapUs → exec (.gapEnd k) s = .next s) ∧
    (n + 10 * s.tables.limits.bankGapUs ≤ s.timebase →
      let idle := gapPast s k
      (chainsNamed (s.schedOf k).queue → ∃ t, exec (.gapEnd k) s = .next t ∧ Arbitrated k idle t) ∧
      ((∀ y ∈ (s.schedOf k).queue, y.waiting = false) → exec (.gapEnd k) s = .next idle) ∧
      (∃ t, exec (.gapEnd k) s = .next t ∧
        ((t.schedOf k).cond = .active ∨
         ((t.schedOf k).cond = .idle ∧ ∀ y ∈ (t.schedOf k).queue, y.waiting = false))) ∧
      (∀ x, x.waiting = true → (s.schedOf k).queue.filter (fun y => y.tag == x.tag || y.waiting) = [x] →
        inWindow s k x → (x.lowBoost = true → s.tables.limits.lowWater ≤ s.levelOf k) →
        ((s.profileOf x.cyl).boostCost ≤ s.levelOf k →
          exec (.gapEnd k) s = .next { opened idle k x false with
            level := s.level.set k (s.levelOf k - (s.profileOf x.cyl).boostCost) }) ∧
        (s.levelOf k < (s.profileOf x.cyl).boostCost → x.cls = .main →
          exec (.gapEnd k) s = .next (opened idle k x true))))

/-- The arbiter chooses, among the waiting shots, one of the highest rank; of equal rank the earliest due; of equal due
instants the first in queue order (R100). -/
def Obligations.ArbiterChoice : Prop :=
  ∀ q : List Shot,
    (chooseWaiting q = none ↔ ∀ y ∈ q, y.waiting = false) ∧
    (∀ x, chooseWaiting q = some x → ∃ before after, q = before ++ x :: after ∧ x.waiting = true ∧
      (∀ y ∈ after, y.waiting = true →
        y.cls.rank < x.cls.rank ∨ (y.cls.rank = x.cls.rank ∧ x.due.getD 0 ≤ y.due.getD 0)) ∧
      (∀ y ∈ before, y.waiting = true →
        y.cls.rank < x.cls.rank ∨ (y.cls.rank = x.cls.rank ∧ x.due.getD 0 < y.due.getD 0)))

/-- A DEFERRED shot still queued at its deadline is shed with SHED_CONFLICT (R99), and the shots whose chain leads back to it
with SHED_CHAIN (R93); the outcomes reach the plans (R112), and a bank left empty while DRAINING may end the draining (R48).
Before the deadline nothing changes (the model's choice, log entry 4). -/
def Obligations.DeferDeadlineSheds : Prop :=
  ∀ (k : Bank) (s : State) (x : Shot) (d : Nat), x.state = .deferred → x.deadline = some d →
    (s.schedOf k).queue.filter (fun y => y.tag == x.tag) = [x] →
    (s.timebase < d → exec (.deferDeadline k x.tag) s = .next s) ∧
    (d ≤ s.timebase → chainNamed (s.schedOf k).queue x.tag x.entry .shedConflict →
      ∃ t cs, exec (.deferDeadline k x.tag) s = .next t ∧
        chainIs (s.schedOf k).queue x.tag x.entry .shedConflict cs ∧
        t = drainSettled { s.raise .shed with
          sched := s.sched.set k { s.schedOf k with
            queue := withoutShots (s.schedOf k).queue ((x, .shedConflict) :: cs)
            shed := (s.schedOf k).shed + BitVec.ofNat 32 (1 + cs.length) }
          sup := t.sup, service := t.service } ∧
        outcomesTold s t (chainOutcomes ((x, .shedConflict) :: cs)))

/-- A pulse ends at its scheduled end FIRED, or FIRED_DEGRADED: the bank enters GAP, or with a bank gap of 0 is over it at
once, the Drive Stage QUENCH, the reservoir takes the recuperation up to its capacity, the cylinder's fault count and
first-pulse flag clear, the successors become TIMED for the end plus their gap, the place of the pulse gets its outcome
with its start angle and on-time, and a bank left empty while DRAINING may end the draining (R48, R92, R96, R105, R118,
R138, R156). A pulse whose end has not come goes on (the model's choice, log entry 4). The phase entry time of the Drive
Stage stays (log entry 9). -/
def Obligations.ScheduledEnd : Prop :=
  ∀ (k : Bank) (s : State) (p : Pulse), (s.schedOf k).active = some p →
    (s.timebase < p.schedEnd → exec (.scheduledEnd k) s = .next s) ∧
    (p.schedEnd ≤ s.timebase →
      let q := s.schedOf k
      let o : PlaceOutcome :=
        { outcome := if p.flags.degraded then .firedDegraded else .fired, fault := none, startAngle := p.startAngle
          onTime := (s.timebase - p.startTime) / 10, flags := p.flags }
      let cleared : CylSup := { s.supOf p.cyl with faults := 0, firstPulse := false }
      ∃ t u, exec (.scheduledEnd k) s = .next t ∧ gapSettled k u t ∧
        u = drainSettled { s with
          sup := u.sup, service := u.service
          sched := s.sched.set k { q with
            active := none, cond := .gap, lastEnd := some s.timebase
            queue := q.queue.map fun y =>
              if y.follows p.tag then { y with state := .timed, due := some (s.timebase + y.gapTicks) } else y }
          drive := s.drive.set k { s.driveOf k with phase := .quench, output := none, gate := false, boostSw := false }
          level := s.level.set k
            (min (s.tables.limits.capacity.get k) (s.levelOf k + (s.driveOf k).profile.recup)) } ∧
        outcomeWritten { s with sup := s.sup.set p.cyl cleared } u p.cyl p.tag o)

/-- At a window close every queued shot of the cylinder is shed, SHED_CHAIN where it follows the ended pulse or a shot
swept with it and else SHED_WINDOW; its pulse, if it came from its angle plan, ends FIRED_CUT_WINDOW; its track is gone,
the outcomes reach its plan, and a bank left empty while DRAINING may end the draining (R48, R94, R95, R105, R112, R113,
R118, R138, R156). With a bank gap of 0 the gap of that end is over at once (R96). The shots and tracks of other cylinders
stay. A close that has not come changes nothing (the model's choice, log entry 4). The phase entry time of the Drive Stage
stays (log entry 9). -/
def Obligations.WindowCloseSweepsTheCylinder : Prop :=
  ∀ (k : Bank) (c : Cyl) (s : State) (u : Track) (i : Nat),
    (s.schedOf k).tracks.find? (fun v => v.cyl == c) = some u → u.state = .closing i →
    (s.timebase < i → exec (.windowClose k c) s = .next s) ∧
    (i ≤ s.timebase → ((s.schedOf k).queue.map Shot.tag).Nodup → drainAgrees s → endPassed s k →
      let q := s.schedOf k
      let mine := q.queue.filter fun y => y.cyl == c
      let cut := q.active.filter fun p => p.cyl == c && !p.flags.service
      let gone := (cut.map Pulse.tag).toList ++ mine.map Shot.tag
      let swept := mine.map fun y =>
        (y, if gone.any (fun g => y.follows g) then ShotOutcome.shedChain else ShotOutcome.shedWindow)
      let off := pulseOff s k cut
      ∃ t v, exec (.windowClose k c) s = .next t ∧ gapSettled k v t ∧
        v = drainSettled { off with
          sched := off.sched.set k { off.schedOf k with
            queue := q.queue.filter (fun y => y.cyl != c), tracks := q.tracks.filter (fun u => u.cyl != c)
            shed := q.shed + BitVec.ofNat 32 mine.length }
          events := if mine = [] then s.events else (s.raise .shed).events, sup := v.sup, service := v.service } ∧
        outcomesTold (pulseCounted s cut) v (pulseOutcome s cut .firedCutWindow none ++ chainOutcomes swept))

/-- On each bank the placed, started, shed and cancelled counters always agree with the length of the queue, modulo 2³²
(R113), and every step keeps it. -/
def Obligations.StepKeepsTheCounters : Prop :=
  ∀ s s' : State, (∀ k, countersAgree (s.schedOf k)) → step s = .next s' → ∀ k, countersAgree (s'.schedOf k)

/-- The bank condition, the active pulse, the phase, the gate and the boost switch of a bank agree, and the level of a
reservoir stays within its capacity (R96, R114, R131, R138); every step keeps it. Every shot and the pulse of a bank
belong to a cylinder of the bank, and the Drive Stage drives the output of the pulse's cylinder (R104, R131): every step
keeps that which changes no cylinder record, or after which the banks hold nothing (a LOAD_CYL is taken only in SAFE
without a chain, R29). Where the first agreement holds, a boost line is high exactly in BOOST, and a gate line exactly
while a bank with a pulse on drives that output with its gate state on; where the second holds as well, that output is the
one of the pulse's cylinder, and at most one gate line of a bank is high (R131). -/
def Obligations.StepKeepsTheBanks : Prop :=
  (∀ s s' : State, ((∀ k, bankAgrees (s.schedOf k) (s.driveOf k) = true) ∧ levelsAgree s) → step s = .next s' →
    (∀ k, bankAgrees (s'.schedOf k) (s'.driveOf k) = true) ∧ levelsAgree s') ∧
  (∀ s s' : State, outputsAgree s → step s = .next s' →
    s'.tables.cyl = s.tables.cyl ∨ (∀ k, (s'.schedOf k).queue = [] ∧ (s'.schedOf k).active = none) → outputsAgree s') ∧
  (∀ s : State, (∀ k, bankAgrees (s.schedOf k) (s.driveOf k) = true) →
    (∀ k, s.boostLine k = true ↔ (s.driveOf k).phase = .boost) ∧
    (∀ out, s.gateLine out = true ↔
      ∃ k p, (s.schedOf k).active = some p ∧ (s.driveOf k).output = some out ∧ (s.driveOf k).gate = true) ∧
    (outputsAgree s →
      (∀ out, s.gateLine out = true ↔
        ∃ k p, (s.schedOf k).active = some p ∧ (s.cylOf p.cyl).output = out ∧ (s.driveOf k).gate = true) ∧
      ∀ out out', (out.val < 4 ↔ out'.val < 4) → s.gateLine out = true → s.gateLine out' = true → out = out'))

/-- With the tables in range, every queued shot lasts 100 to 10,000 µs and no pulse is scheduled for longer (R35, R70, R73,
R159); every step keeps it. -/
def Obligations.StepKeepsTheDurations : Prop :=
  ∀ s s' : State, tablesInRange s.tables → (∀ k, durationsAgree (s.schedOf k)) → step s = .next s' →
    ∀ k, durationsAgree (s'.schedOf k)

/-! ### Reservoirs and supply -/

/-- At a recharge step each reservoir gains the rate its converter mode, the supply band and its own level give, up to its
capacity, and the next step is 1,000 ticks on (R115, R116). A supply sample joins the window of eight, the oldest leaving a
full one; with eight in it the band falls at once to the class of the average and rises only past a threshold and 12 counts
more; a change raises SUPPLY_BAND (R123 to R126, R128). An event that is not due changes nothing (the model's choice, log
entry 4). -/
def Obligations.RechargeAndSupply : Prop :=
  (∀ s : State, s.nextRecharge ≤ s.timebase →
    let l := s.tables.limits
    let rate (k : Bank) : Nat :=
      if l.converter.get k = .off ∨ s.supply.band = .under then 0
      else if s.supply.band = .crank then l.rateNormal / 2
      else if s.supply.band = .normal ∧ l.converter.get k = .auto ∧ s.levelOf k < l.lowWater then l.rateFast
      else l.rateNormal
    exec .rechargeStep s = .next { s with
      level := ⟨min l.capacity.a (s.level.a + rate .bankA), min l.capacity.b (s.level.b + rate .bankB)⟩
      nextRecharge := s.nextRecharge + 1000 }) ∧
  (∀ s : State, s.timebase < s.nextRecharge → exec .rechargeStep s = .next s) ∧
  (∀ (x : BitVec 10) (s : State), s.timebase < s.supply.nextSample → exec (.supplySample x) s = .next s) ∧
  (∀ (x : BitVec 10) (s : State), s.supply.nextSample ≤ s.timebase →
    let l := s.tables.limits
    let win := if s.supply.window.length < 8 then s.supply.window ++ [x.toNat] else s.supply.window.tail ++ [x.toNat]
    let avg := win.sum / 8
    let cls : Band := if l.lowThr ≤ avg then .normal else if l.crankThr ≤ avg then .low
                      else if l.underThr ≤ avg then .crank else .under
    ∃ band, exec (.supplySample x) s = .next { s with
        supply := { window := win, band := band, nextSample := s.supply.nextSample + 10000 }
        events := if band = s.supply.band then s.events else (s.raise .supplyBand).events } ∧
      (win.length < 8 → band = s.supply.band) ∧
      (8 ≤ win.length → s.supply.band.code ≤ cls.code → band = cls) ∧
      (8 ≤ win.length → cls.code < s.supply.band.code →
        (l.lowThr + 12 ≤ avg → band = .normal) ∧
        (avg < l.lowThr + 12 → l.crankThr + 12 ≤ avg → 1 < s.supply.band.code → band = .low) ∧
        (avg < l.lowThr + 12 → avg < l.crankThr + 12 → l.underThr + 12 ≤ avg → s.supply.band = .under → band = .crank) ∧
        (avg < l.lowThr + 12 → (l.crankThr + 12 ≤ avg → s.supply.band.code ≤ 1) →
          (l.underThr + 12 ≤ avg → s.supply.band ≠ .under) → band = s.supply.band)))

/-! ### Drive Stages and the trace -/

/-- A sample that shows no fault. BOOST ends at the peak or at the boost maximum; PEAK gives way to HOLD after the peak hold
time, at once when that is 0; the gate goes off at the top of the band of PEAK or HOLD and on again 10 counts below it; a
boost maximum reached below the peak marks the pulse SLOW_RISE (R132, R134 to R137, R142). A sample that is not due changes
nothing (the model's choice, log entry 4). -/
def Obligations.DriveSampleMovesThePhase : Prop :=
  ∀ (k : Bank) (x : Byte) (s : State) (p : Pulse), (s.schedOf k).active = some p →
    let d := s.driveOf k
    let v := (s.senseValue k x).toNat
    let n := d.samples + 1
    let chop (top : Nat) : Bool := if top ≤ v then false else if v + 10 ≤ top then true else d.gate
    let phase : Phase :=
      if d.phase = .boost ∧ (d.profile.peak ≤ v ∨ n = d.profile.boostMax) then
        (if d.profile.peakHold = 0 then .hold else .peak)
      else if d.phase = .peak ∧ d.entryTime + 10 * d.profile.peakHold ≤ s.timebase then .hold
      else d.phase
    (s.timebase < d.startTime + 10 * n → exec (.driveSample k x) s = .next s) ∧
    (d.startTime + 10 * n ≤ s.timebase → d.phase = .boost ∨ d.phase = .peak ∨ d.phase = .hold →
      v ≤ d.profile.short →
      ¬(n = d.profile.boostMax ∧ (d.phase = .boost ∨ d.degraded = true) ∧ v < d.profile.openDetect) →
      exec (.driveSample k x) s = .next { s with
        sense := s.sense.set k (some (s.timebase, s.senseValue k x))
        sched := if n = d.profile.boostMax ∧ d.phase = .boost ∧ v < d.profile.peak then
            s.sched.set k { s.schedOf k with active := some { p with flags := { p.flags with slowRise := true } } }
          else s.sched
        drive := s.drive.set k { d with
          samples := n, phase := phase, entryTime := if phase = d.phase then d.entryTime else s.timebase
          boostSw := if d.phase = .boost ∧ phase ≠ .boost then false else d.boostSw
          gate := if phase = .peak then chop d.profile.peak else if phase = .hold then chop d.profile.hold
                  else d.gate } })

/-- A sample that shows a fault: a current above the short limit at any sample, or one below the open limit at the boost
maximum. The pulse ends FAULTED with its kind and raises INJ_FAULT; the cylinder's shots go as CANCELLED_FAULT and its
track on the bank is gone; the outcomes reach its plan; its fault count rises to at most 7 and its first-pulse flag clears;
a fault of the first pulse, or the count at the lockout limit, locks the cylinder with LOCKOUT. With a bank gap of 0 the
gap is over at once, and a bank left empty while DRAINING may end the draining (R48, R96, R105, R106, R110, R112, R113,
R118, R140, R141, R143, R155 to R157). The phase entry time of the Drive Stage stays (log entry 9). -/
def Obligations.FaultEndsThePulse : Prop :=
  ∀ (k : Bank) (x : Byte) (s : State) (p : Pulse) (kind : FaultKind), (s.schedOf k).active = some p →
    let d := s.driveOf k
    let q := s.schedOf k
    let v := (s.senseValue k x).toNat
    let n := d.samples + 1
    d.startTime + 10 * n ≤ s.timebase → (q.queue.map Shot.tag).Nodup →
    ((kind = .short ∧ d.profile.short < v) ∨
     (kind = .openLoad ∧ v ≤ d.profile.short ∧ n = d.profile.boostMax ∧ (d.phase = .boost ∨ d.degraded = true) ∧
      v < d.profile.openDetect)) →
    let old := s.supOf p.cyl
    let faults := min 7 (old.faults + 1)
    let locks := !old.locked && (old.firstPulse || decide (s.tables.limits.lockout ≤ faults))
    let mine := q.queue.filter fun y => y.cyl == p.cyl
    let os := pulseOutcome s (some p) .faulted (some kind) ++ chainOutcomes (allWith .cancelledFault mine)
    ∃ t u, exec (.driveSample k x) s = .next t ∧ gapSettled k u t ∧
      u = drainSettled { s with
        sched := s.sched.set k { q with
          active := none, cond := .gap, lastEnd := some s.timebase
          queue := q.queue.filter fun y => y.cyl != p.cyl
          tracks := q.tracks.filter fun u => u.cyl != p.cyl
          cancelled := q.cancelled + BitVec.ofNat 32 mine.length }
        sense := s.sense.set k (some (s.timebase, s.senseValue k x))
        drive := s.drive.set k { stageEnded d with samples := n }
        level := s.level.set k (recuperated s k)
        events := if locks then ((s.raise .injFault).raise .lockout).events else (s.raise .injFault).events
        sup := s.sup.set p.cyl { old.told (outcomesOf os p.cyl) with
          faults := faults, firstPulse := false, locked := old.locked || locks
          code := if locks then (if old.firstPulse then .firstPulseFault else .locked)
                  else if kind = .short then .short else .openLoad }
        service := if old.serviceDone (outcomesOf os p.cyl) = true then none else s.service }

/-- The trace. TRACE_ARM with no cylinder makes it IDLE, with one it arms a trace that is IDLE or DONE, and clears it; a
sample of the capture is stored in order, and the 64th makes it DONE with TRACE_DONE; TRACE_READ of a DONE trace returns up
to 16 samples and moves the pointer past them (R145 to R147). A sample that is not due, or without a capture, changes
nothing (the model's choice, log entry 4). What the receive buffer and the byte count hold after the transaction is the
model's choice (log entry 30). -/
def Obligations.TraceArmsStoresAndReads : Prop :=
  (∀ (f : Frame) (s : State) (c n : Byte), passes s 0x38 f = true → frameParams f = [c, n] →
    (c = 0 → exec (.traceArm f) s = .next { answered s 0x38 f .ok [] with
      trace := { state := .idle, cyl := 0, interval := s.trace.interval, bank := none, start := none
                 buffer := List.replicate 64 0, stored := 0, readPtr := 0 } }) ∧
    (c ≠ 0 → s.trace.state = .armed ∨ s.trace.state = .capturing →
      exec (.traceArm f) s = .next (answered s 0x38 f .wrongState [])) ∧
    (c ≠ 0 → s.trace.state = .idle ∨ s.trace.state = .done →
      (c.toNat ≤ 8 ∧ 1 ≤ n.toNat ∧ n.toNat ≤ 16 → exec (.traceArm f) s = .next { answered s 0x38 f .ok [] with
        trace := { state := .armed, cyl := c.toNat, interval := n.toNat, bank := none, start := none
                   buffer := List.replicate 64 0, stored := 0, readPtr := 0 } }) ∧
      (¬(c.toNat ≤ 8 ∧ 1 ≤ n.toNat ∧ n.toNat ≤ 16) →
        exec (.traceArm f) s = .next (answered s 0x38 f .badParam [])))) ∧
  (∀ (x : Byte) (s : State) (k : Bank) (t₀ : Nat),
    (s.trace.state ≠ .capturing → exec (.traceSample x) s = .next s) ∧
    (s.trace.state = .capturing → s.trace.bank = some k → s.trace.start = some t₀ →
      (s.timebase < t₀ + 10 * s.trace.interval * (s.trace.stored + 1) → exec (.traceSample x) s = .next s) ∧
      (t₀ + 10 * s.trace.interval * (s.trace.stored + 1) ≤ s.timebase → exec (.traceSample x) s = .next { s with
        sense := s.sense.set k (some (s.timebase, s.senseValue k x))
        trace := { s.trace with
          buffer := s.trace.buffer.set s.trace.stored (s.senseValue k x), stored := s.trace.stored + 1
          state := if s.trace.stored = 63 then .done else .capturing }
        events := if s.trace.stored = 63 then (s.raise .traceDone).events else s.events }))) ∧
  (∀ (f : Frame) (s : State), passes s 0x39 f = true → frameParams f = [] →
    (s.trace.state ≠ .done → exec (.traceRead f) s = .next (answered s 0x39 f .wrongState [])) ∧
    (s.trace.state = .done → s.trace.buffer.length = 64 → s.trace.readPtr ≤ 64 →
      let n := min 16 (64 - s.trace.readPtr)
      ∃ ds, exec (.traceRead f) s = .next { answered s 0x39 f .ok ds with
          trace := { s.trace with readPtr := s.trace.readPtr + n } } ∧
        ds.length = 14 + n ∧ fieldAt ds 0 1 = s.trace.cyl % 256 ∧ fieldAt ds 1 1 = s.trace.interval % 256 ∧
        fieldAt ds 2 1 = (if s.trace.bank = some .bankB then 1 else 0) ∧
        fieldAt ds 3 8 = s.trace.start.getD 0 % 2 ^ 64 ∧ fieldAt ds 11 1 = s.trace.readPtr ∧ fieldAt ds 12 1 = n ∧
        fieldAt ds 13 1 = s.trace.stored % 256 ∧
        ∀ i, i < n → ds[14 + i]? = s.trace.buffer[s.trace.readPtr + i]?))

/-! ### The Cylinder Supervisor -/

/-- CUT returns the flag as it was. TEST leaves it, CLEAR and a TOGGLE of a set flag clear it, SET leaves a set one. A flag
that passes to set takes the cylinder's shots and its pulse from its bank, each with the outcome CANCELLED_CUT in its plan,
and its track, and then sets the code CUT; with a bank gap of 0 the gap of the pulse's end is over at once, and a bank left
empty while DRAINING may end the draining (R48, R96, R105, R109, R112, R113, R150, R151). A cylinder number or an operation
out of range is refused. The phase entry time of the Drive Stage stays (log entry 9). What the receive buffer and the byte
count hold after the transaction is the model's choice (log entry 30). -/
def Obligations.CutMovesTheFlag : Prop :=
  ∀ (c : Cyl) (f : Frame) (s : State), passes s 0x30 f = true →
    let old := (s.supOf c).cut
    let k := s.bankOf c
    let q := s.schedOf k
    let ds : List Byte := [if old then 1 else 0]
    let mine := q.queue.filter fun y => y.cyl == c
    let keeps : State := { answered s 0x30 f .ok ds with sup := s.sup.set c { s.supOf c with cut := old } }
    let clears : State := { answered s 0x30 f .ok ds with sup := s.sup.set c { s.supOf c with cut := false } }
    (frameParams f = [byte (c.val + 1), 0] → exec (.cutTest f) s = .next keeps) ∧
    (frameParams f = [byte (c.val + 1), 2] → exec (.cutClear f) s = .next clears) ∧
    (old = true → frameParams f = [byte (c.val + 1), 3] → exec (.cutToggle f) s = .next clears) ∧
    (old = true → frameParams f = [byte (c.val + 1), 1] → exec (.cutSet f) s = .next keeps) ∧
    (old = false → (q.queue.map Shot.tag).Nodup → drainAgrees s → endPassed s k → ∀ i : Instr,
      (i = .cutSet f ∧ frameParams f = [byte (c.val + 1), 1]) ∨ (i = .cutToggle f ∧ frameParams f = [byte (c.val + 1), 3]) →
      let set : State := { received s 0x30 f with sup := s.sup.set c { s.supOf c with cut := true } }
      let ended := q.active.filter fun p => p.cyl == c
      let off := pulseOff set k ended
      ∃ t u v, exec i s = .next t ∧ gapSettled k u v ∧
        t = { v with
          sup := v.sup.set c { v.supOf c with code := .cut }
          link := { v.link with response := { code := 0x30, result := .ok, data := ds } } } ∧
        u = drainSettled { off with
          sched := off.sched.set k { off.schedOf k with
            queue := q.queue.filter (fun y => y.cyl != c), tracks := q.tracks.filter (fun u => u.cyl != c)
            cancelled := q.cancelled + BitVec.ofNat 32 mine.length }
          sup := u.sup, service := u.service } ∧
        outcomesTold (pulseCounted set ended) u
          (chainOutcomes (allWith .cancelledCut mine) ++ pulseOutcome s ended .cancelledCut none)) ∧
    (∀ (a o : Byte), frameParams f = [a, o] → a = 0 ∨ 8 < a.toNat ∨ 3 < o.toNat →
      ∀ i ∈ [Instr.cutTest f, .cutSet f, .cutClear f, .cutToggle f],
        exec i s = .next (answered s 0x30 f .badParam []))

/-- CLEAR_FAULT frees a cylinder and sets its first-pulse flag in every state (R158). SERVICE is refused BUSY while a
chain runs, out of STALLED and SAFE, for a parameter out of range, and for a cylinder that is disabled, cut or locked, in
that order; else it queues a chain of MAIN shots, the first due 10,000 ticks on and each next one the gap after the one
before, and opens a service plan with a place for each (R159, R160). Each shot has the record R160 gives: class MAIN,
on_us as its duration, no break condition, the flag SERVICE and no other, PLANNED; its place has the same class and flags,
and no outcome yet (R152, R160). The order angle 0 and the numbers 0 in the queue, that the position in the chain stands
as the place's entry, and that the first shot carries its due instant from the start are the model's (log entry 16). What
the receive buffer and the byte count hold after the transaction is the model's choice (log entry 30). -/
def Obligations.ClearFaultAndService : Prop :=
  (∀ (a : Byte) (f : Frame) (s : State), passes s 0x31 f = true → frameParams f = [a] →
    (∀ c : Cyl, a = byte (c.val + 1) → exec (.clearFault f) s = .next { answered s 0x31 f .ok [] with
      sup := s.sup.set c { s.supOf c with locked := false, faults := 0, firstPulse := true, code := .none } }) ∧
    (a = 0 ∨ 8 < a.toNat → exec (.clearFault f) s = .next (answered s 0x31 f .badParam []))) ∧
  (∀ (f : Frame) (s : State), passes s 0x32 f = true → (frameParams f).length = 6 →
    let cyl := fieldAt (frameParams f) 0 1
    let onUs := fieldAt (frameParams f) 1 2
    let count := fieldAt (frameParams f) 3 1
    let gapUs := fieldAt (frameParams f) 4 2
    let ok := 100 ≤ onUs ∧ onUs ≤ 10000 ∧ 1 ≤ count ∧ count ≤ 16 ∧ 1000 ≤ gapUs ∧ gapUs ≤ 60000 ∧ 1 ≤ cyl ∧ cyl ≤ 8
    (s.service.isSome = true → exec (.service f) s = .next (answered s 0x32 f .busy [])) ∧
    (s.service = none → s.clock.sync ≠ .stalled ∨ s.firing ≠ .safe →
      exec (.service f) s = .next (answered s 0x32 f .wrongState [])) ∧
    (s.service = none → s.clock.sync = .stalled → s.firing = .safe →
      (¬ok → exec (.service f) s = .next (answered s 0x32 f .badParam [])) ∧
      (ok → ∀ c : Cyl, cyl = c.val + 1 →
        ((s.cylOf c).enabled = false ∨ (s.supOf c).cut = true ∨ (s.supOf c).locked = true →
          exec (.service f) s = .next (answered s 0x32 f .wrongState [])) ∧
        ((s.cylOf c).enabled = true → (s.supOf c).cut = false → (s.supOf c).locked = false →
          let k := s.bankOf c
          let q := s.schedOf k
          let tag (i : Nat) : Byte := q.nextTag + BitVec.ofNat 8 i
          let gap := 10 * max gapUs (s.profileOf c).minSep
          ∃ shots plan, exec (.service f) s = .next { answered s 0x32 f .ok [] with
              service := some c, sup := s.sup.set c { s.supOf c with plan := some plan }
              sched := s.sched.set k { q with
                queue := q.queue ++ shots, placed := q.placed + BitVec.ofNat 32 count
                nextTag := q.nextTag + BitVec.ofNat 8 count } } ∧
            shots.length = count ∧ plan.places.length = count ∧
            plan = { kind := .service, freezes := (s.supOf c).freezes, demand := none, overspeed := false
                     serviceCount := count, emptySummary := .none, making := false, places := plan.places } ∧
            ∀ i, i < count →
              shots[i]? = some {
                tag := tag i, cyl := c, cls := .main, anchor := .chain (if i = 0 then none else some (tag (i - 1))) gap
                ticks := 10 * onUs, lowBoost := false, flags := { service := true }, state := .planned
                entry := 0, rep := 0, order := 0, reached := false, waiting := false, deadline := none
                due := if i = 0 then some (s.timebase + 10000) else none } ∧
              plan.places[i]? = some {
                tag := tag i, entry := i + 1, rep := 0, cls := .main, flags := { service := true }, outcome := none }))))

/-! ### Reads and events -/

/-- The reads of the clock, the time, the status and the counters change nothing and return each field at its offset (R1,
R113, R182, R183, R186). The angle that is read, and that window tests and start angles take, is the held angle in
STALLED, 0 in SEEKING, and in the sync states the angle of the last tooth and the counts predicted since, fewer than its
span, within the revolution in CRANK_SYNC and the cycle in FULL_SYNC (R9, R18, R21, R25). What the receive buffer and the
byte count hold after the transaction is the model's choice (log entry 30). -/
def Obligations.StatusReads : Prop :=
  (∀ s : State, (s.clock.sync = .stalled → s.angleReading = s.clock.held) ∧
    (s.clock.sync = .seeking → s.angleReading = 0) ∧
    (∀ t0, s.clock.lastTooth = some t0 → 0 < s.clock.tpred →
      let w := s.tables.wheel
      let pitch := 5760 / w.n
      let span := (if s.clock.index = w.n - w.m - 1 then w.m + 1 else 1) * pitch
      let past := min (span - 1) ((s.timebase - t0) * pitch / s.clock.tpred)
      (s.clock.sync = .crankSync → s.angleReading = (w.refAngle + s.clock.index * pitch + past) % 5760) ∧
      (s.clock.sync = .fullSync → s.angleReading =
        (w.refAngle + s.clock.index * pitch + (if s.clock.rev1 then 5760 else 0) + past) % 11520))) ∧
  ∀ (f : Frame) (s : State), frameParams f = [] →
    (passes s 0x40 f = true → ∃ ds, exec (.readAngle f) s = .next (answered s 0x40 f .ok ds) ∧ ds.length = 11 ∧
      fieldAt ds 0 1 = s.clock.sync.code ∧ fieldAt ds 1 2 = s.angleReading % 65536 ∧
      fieldAt ds 3 1 = (if s.clock.sync = .crankSync ∨ s.clock.sync = .fullSync then s.clock.index % 256 else 0) ∧
      fieldAt ds 4 1 = (if s.clock.sync = .fullSync ∧ s.clock.rev1 = true then 1 else 0) ∧
      fieldAt ds 5 1 = s.clock.synth % 256 ∧ fieldAt ds 6 3 = s.clock.tpred % 2 ^ 24 ∧
      fieldAt ds 9 2 = s.clock.speed % 65536) ∧
    (passes s 0x41 f = true → ∃ ds, exec (.readTime f) s = .next (answered s 0x41 f .ok ds) ∧ ds.length = 8 ∧
      fieldAt ds 0 8 = s.timebase % 2 ^ 64) ∧
    (passes s 0x42 f = true → ∃ ds, exec (.readStatus f) s = .next (answered s 0x42 f .ok ds) ∧ ds.length = 27 ∧
      fieldAt ds 0 1 = s.firing.code ∧ fieldAt ds 1 1 = s.clock.sync.code ∧ fieldAt ds 2 2 = s.clock.speed % 65536 ∧
      fieldAt ds 4 1 = (if s.clock.overspeed then 1 else 0) + (if s.tables.wheel.loaded then 2 else 0) +
        (if s.tables.activePage1 then 4 else 0) + (if s.tables.swapPending then 8 else 0) ∧
      fieldAt ds 5 1 = s.supply.band.code ∧
      fieldAt ds 6 2 = (if s.supply.window.length < 8 then 0 else s.supply.window.sum / 8 % 65536) ∧
      fieldAt ds 8 1 = (match s.service with
        | some c => c.val + 1
        | none => 0) ∧
      fieldAt ds 9 1 = s.trace.state.code ∧ fieldAt ds 10 1 = s.trace.cyl % 256 ∧
      fieldAt ds 11 2 = s.events.latched.toNat ∧ fieldAt ds 13 2 = s.events.mask.toNat ∧
      ∀ k, let off := if k = .bankA then 15 else 21
        fieldAt ds off 1 = (s.schedOf k).cond.code ∧ fieldAt ds (off + 1) 1 = (s.driveOf k).phase.code ∧
        fieldAt ds (off + 2) 1 = (s.schedOf k).queue.length % 256 ∧ fieldAt ds (off + 3) 2 = s.levelOf k % 65536 ∧
        fieldAt ds (off + 5) 1 = (match (s.schedOf k).active with
          | some p => p.cyl.val + 1
          | none => 0)) ∧
    (passes s 0x46 f = true → ∃ ds, exec (.readCounters f) s = .next (answered s 0x46 f .ok ds) ∧ ds.length = 32 ∧
      ∀ k, let off := if k = .bankA then 0 else 16
        fieldAt ds off 4 = (s.schedOf k).placed.toNat ∧ fieldAt ds (off + 4) 4 = (s.schedOf k).started.toNat ∧
        fieldAt ds (off + 8) 4 = (s.schedOf k).shed.toNat ∧ fieldAt ds (off + 12) 4 = (s.schedOf k).cancelled.toNat)

/-- The reads of a cylinder, of its report and of a bank's queue change nothing and return each field at its offset, and a
number out of range is refused (R149, R164, R184, R185). The report of a complete plan has its kind, its freeze count, its
demand, its flag and its count; the entries are its places in order, for a service chain the last eight of them, each with
the flags of the place and of its outcome; the summary is SERVICE_DONE for a service chain, that of the empty plan for an
angle plan without entries, and else the code of highest severity that an entry gives (R153, R154). Which flags the header
of READ_QUEUE shows is read as log entry 20 says. What the receive buffer and the byte count hold after the transaction is
the model's choice (log entry 30). -/
def Obligations.RecordReads : Prop :=
  (∀ p : Plan, p.complete = true →
    let r := p.report
    let first := if p.kind = .service then p.places.length - 8 else 0
    r = { r with kind := p.kind, freezes := p.freezes, demand := p.demand, overspeed := p.overspeed
                 serviceCount := p.serviceCount } ∧
    r.summary = p.summary ∧ r.entries.length = p.places.length - first ∧
    (∀ (i : Nat) (y : Place) (o : PlaceOutcome), p.places[first + i]? = some y → y.outcome = some o →
      r.entries[i]? = some { entry := y.entry, rep := y.rep, cls := y.cls, outcome := o.outcome, fault := o.fault
                             startAngle := o.startAngle, onTime := o.onTime
                             flags := {
                               raisedMin := y.flags.raisedMin || o.flags.raisedMin
                               clampedMax := y.flags.clampedMax || o.flags.clampedMax
                               startMoved := y.flags.startMoved || o.flags.startMoved
                               windowFit := y.flags.windowFit || o.flags.windowFit
                               service := y.flags.service || o.flags.service
                               preempted := y.flags.preempted || o.flags.preempted
                               degraded := y.flags.degraded || o.flags.degraded
                               slowRise := y.flags.slowRise || o.flags.slowRise
                               deferred := y.flags.deferred || o.flags.deferred } }) ∧
    (p.kind = .service → r.summary = .serviceDone) ∧
    (p.kind = .angle → r.entries = [] → r.summary = p.emptySummary) ∧
    (p.kind = .angle → r.entries ≠ [] → (∃ e ∈ r.entries, codeGiven e = r.summary) ∧
      ∀ e ∈ r.entries, severity (codeGiven e) ≤ severity r.summary)) ∧
  (∀ (a : Byte) (f : Frame) (s : State), passes s 0x43 f = true → frameParams f = [a] →
    (a = 0 ∨ 8 < a.toNat → exec (.readCyl f) s = .next (answered s 0x43 f .badParam [])) ∧
    (∀ c : Cyl, a = byte (c.val + 1) → ∃ ds, exec (.readCyl f) s = .next (answered s 0x43 f .ok ds) ∧ ds.length = 27 ∧
      fieldAt ds 0 1 = (if (s.cylOf c).enabled then 1 else 0) ∧ fieldAt ds 1 1 = (s.cylOf c).output.val + 1 ∧
      fieldAt ds 2 1 = (if (s.cylOf c).output.val < 4 then 0 else 1) ∧
      fieldAt ds 3 1 = (if (s.cylOf c).enabled = false then 0 else if (s.supOf c).locked then 1
        else if (s.supOf c).cut then 2 else if s.service = some c then 3 else 4) ∧
      fieldAt ds 4 1 = (if fieldAt ds 3 1 ≠ 4 then 0
        else if ∃ p, (s.schedOf (s.bankOf c)).active = some p ∧ p.cyl = c then 3
        else if ∃ x ∈ (s.schedOf (s.bankOf c)).queue, x.cyl = c then 2
        else if s.firing = .armed then 1 else 0) ∧
      fieldAt ds 5 1 = (if (s.demandOf c).staged.isSome then 1 else 0) ∧
      (ds.drop 6).take 4 = demandField (s.demandOf c).staged ∧
      fieldAt ds 10 1 = (if (s.demandOf c).active.isSome then 1 else 0) ∧
      (ds.drop 11).take 4 = demandField ((s.demandOf c).active.map ActiveDemand.demand) ∧
      fieldAt ds 15 1 = (if ((s.demandOf c).active.map ActiveDemand.stale).getD false then 1 else 0) ∧
      fieldAt ds 16 1 = (s.demandOf c).staleCount % 256 ∧ fieldAt ds 17 1 = (if (s.demandOf c).starved then 1 else 0) ∧
      fieldAt ds 18 1 = (if (s.supOf c).cut then 1 else 0) + (if (s.supOf c).locked then 2 else 0) +
        (if (s.supOf c).firstPulse then 4 else 0) ∧
      fieldAt ds 19 1 = (s.supOf c).faults % 256 ∧ fieldAt ds 20 1 = (s.supOf c).code.code ∧
      fieldAt ds 21 2 = (s.supOf c).freezes.toNat ∧
      (∀ r, (s.supOf c).report = some r → fieldAt ds 23 1 = r.kind.code ∧ fieldAt ds 24 2 = r.freezes.toNat) ∧
      ((s.supOf c).report = none → fieldAt ds 23 1 = 0 ∧ fieldAt ds 24 2 = 0) ∧
      fieldAt ds 26 1 = (match (s.supOf c).plan with
        | none => 0
        | some m => (m.places.filter fun y => y.outcome.isNone).length % 256))) ∧
  (∀ (a : Byte) (f : Frame) (s : State), passes s 0x44 f = true → frameParams f = [a] →
    (a = 0 ∨ 8 < a.toNat → exec (.readReport f) s = .next (answered s 0x44 f .badParam [])) ∧
    (∀ c : Cyl, a = byte (c.val + 1) → (s.supOf c).report = none →
      exec (.readReport f) s = .next (answered s 0x44 f .ok [0])) ∧
    (∀ (c : Cyl) (r : Report), a = byte (c.val + 1) → (s.supOf c).report = some r →
      ∃ ds, exec (.readReport f) s = .next (answered s 0x44 f .ok ds) ∧ ds.length = 13 + 11 * r.entries.length ∧
        fieldAt ds 0 1 = r.kind.code ∧ fieldAt ds 1 2 = r.freezes.toNat ∧
        fieldAt ds 3 1 = (if r.demand.isSome then 1 else 0) ∧
        (ds.drop 4).take 4 = demandField (r.demand.map ActiveDemand.demand) ∧
        fieldAt ds 8 1 = (if (r.demand.map ActiveDemand.stale).getD false then 1 else 0) ∧ fieldAt ds 9 1 = (if r.overspeed then 1 else 0) ∧
        fieldAt ds 10 1 = r.summary.code ∧ fieldAt ds 11 1 = r.serviceCount % 256 ∧
        fieldAt ds 12 1 = r.entries.length % 256 ∧
        ∀ (i : Nat) (e : ReportEntry), r.entries[i]? = some e →
          fieldAt ds (13 + 11 * i) 1 = e.entry % 256 ∧ fieldAt ds (14 + 11 * i) 1 = e.rep % 256 ∧
          fieldAt ds (15 + 11 * i) 1 = e.cls.rank ∧ fieldAt ds (16 + 11 * i) 1 = e.outcome.code ∧
          fieldAt ds (17 + 11 * i) 1 = (match e.fault with
            | some kind => kind.code
            | none => 0) ∧
          fieldAt ds (18 + 11 * i) 2 = e.flags.toNat ∧ fieldAt ds (20 + 11 * i) 2 = e.startAngle % 65536 ∧
          fieldAt ds (22 + 11 * i) 2 = e.onTime % 65536)) ∧
  (∀ (a n : Byte) (f : Frame) (s : State), passes s 0x45 f = true → frameParams f = [a, n] →
    (1 < a.toNat ∨ 15 < n.toNat → exec (.readQueue f) s = .next (answered s 0x45 f .badParam [])) ∧
    (∀ k : Bank, a = (if k = .bankA then 0 else 1) → n.toNat ≤ 15 →
      let xs := ((s.schedOf k).queue.drop n.toNat).take 8
      ∃ ds, exec (.readQueue f) s = .next (answered s 0x45 f .ok ds) ∧ ds.length = 16 + 27 * xs.length ∧
        fieldAt ds 0 1 = (s.schedOf k).cond.code ∧ fieldAt ds 1 1 = (s.schedOf k).queue.length % 256 ∧
        fieldAt ds 2 1 = (s.schedOf k).nextTag.toNat ∧
        fieldAt ds 3 1 = (if (s.schedOf k).active.isSome then 1 else 0) ∧
        ((s.schedOf k).active = none → (ds.drop 4).take 11 = List.replicate 11 0) ∧
        (∀ p, (s.schedOf k).active = some p → fieldAt ds 4 1 = p.tag.toNat ∧ fieldAt ds 5 1 = p.cyl.val + 1 ∧
          fieldAt ds 6 1 = p.cls.rank ∧
          fieldAt ds 7 2 = (if p.flags.service then 16 else 0) + (if p.flags.preempted then 32 else 0) +
            (if p.flags.degraded then 64 else 0) + (if p.flags.slowRise then 128 else 0) ∧
          fieldAt ds 9 2 = p.startAngle % 65536 ∧ fieldAt ds 11 4 = p.schedEnd % 2 ^ 32) ∧
        fieldAt ds 15 1 = xs.length ∧
        ∀ (i : Nat) (x : Shot), xs[i]? = some x →
          fieldAt ds (16 + 27 * i) 1 = x.tag.toNat ∧ fieldAt ds (17 + 27 * i) 1 = x.cyl.val + 1 ∧
          fieldAt ds (18 + 27 * i) 1 = x.entry % 256 ∧ fieldAt ds (19 + 27 * i) 1 = x.rep % 256 ∧
          fieldAt ds (20 + 27 * i) 1 = x.cls.rank ∧
          fieldAt ds (21 + 27 * i) 1 = (if x.isAngle then 0 else 1) + (if x.lowBoost then 2 else 0) +
            4 * x.state.code + (if x.reached then 16 else 0) + (if x.hasPred then 32 else 0) ∧
          (∀ angle, x.anchor = .angle angle →
            fieldAt ds (22 + 27 * i) 2 = angle % 65536 ∧ fieldAt ds (24 + 27 * i) 4 = 0) ∧
          (∀ pred gap, x.anchor = .chain (some pred) gap →
            fieldAt ds (22 + 27 * i) 2 = pred.toNat ∧ fieldAt ds (24 + 27 * i) 4 = gap % 2 ^ 32) ∧
          (∀ gap, x.anchor = .chain none gap →
            fieldAt ds (22 + 27 * i) 2 = 0 ∧ fieldAt ds (24 + 27 * i) 4 = gap % 2 ^ 32) ∧
          fieldAt ds (28 + 27 * i) 2 = x.order % 65536 ∧ fieldAt ds (30 + 27 * i) 4 = x.ticks % 2 ^ 32 ∧
          fieldAt ds (34 + 27 * i) 1 = x.flags.toNat % 256 ∧ fieldAt ds (35 + 27 * i) 4 = x.due.getD 0 % 2 ^ 32 ∧
          fieldAt ds (39 + 27 * i) 4 = if x.state = .deferred then x.deadline.getD 0 % 2 ^ 32 else 0))

/-- READ_EVENTS returns the latched kinds and clears exactly them; SET_MASK replaces the mask and refuses a bit it does not
have; INT is high while a latched kind is unmasked, and no other command but a reset clears a latch (R178 to R181). What the
receive buffer and the byte count hold after the transaction is the model's choice (log entry 30). -/
def Obligations.EventsLatchUntilRead : Prop :=
  (∀ (f : Frame) (s : State), passes s 0x47 f = true → frameParams f = [] →
    ∃ ds, exec (.readEvents f) s =
        .next { answered s 0x47 f .ok ds with events := { s.events with latched := 0 } } ∧
      ds.length = 2 ∧ fieldAt ds 0 2 = s.events.latched.toNat) ∧
  (∀ (f : Frame) (s : State), passes s 0x48 f = true → (frameParams f).length = 2 →
    let m := fieldAt (frameParams f) 0 2
    (m < 8192 → exec (.setMask f) s =
      .next { answered s 0x48 f .ok [] with events := { s.events with mask := BitVec.ofNat 13 m } }) ∧
    (8192 ≤ m → exec (.setMask f) s = .next (answered s 0x48 f .badParam []))) ∧
  (∀ s : State, s.intLine = true ↔ ∃ i, s.events.latched.getLsbD i = true ∧ s.events.mask.getLsbD i = true) ∧
  (∀ (i : Instr) (s t : State), i ≠ .powerOnReset → (∀ f, i ≠ .reset f) → (∀ f, i ≠ .readEvents f) →
    exec i s = .next t → ∀ b, s.events.latched.getLsbD b = true → t.events.latched.getLsbD b = true)
end

