-- ==== Sys2Proof/Laws/State.lean ====
section
/-! SUPPORT. Every field after every update of the state, and reading one bank, cylinder or profile after a write. -/

namespace Sys2Proof.Laws

open Sys2Proof.Machine

/-! ### Selection -/

@[simp] theorem banks_get_set_same {α : Type} (x : Banks α) (k : Bank) (v : α) : (x.set k v).get k = v := by
  cases k <;> rfl

theorem banks_get_set {α : Type} (x : Banks α) (j k : Bank) (v : α) :
    (x.set j v).get k = if k = j then v else x.get k := by
  cases j <;> cases k <;> rfl

@[simp] theorem banks_set_get {α : Type} (x : Banks α) (k : Bank) : x.set k (x.get k) = x := by
  cases k <;> rfl

@[simp] theorem banks_set_set {α : Type} (x : Banks α) (k : Bank) (v w : α) : (x.set k v).set k w = x.set k w := by
  cases k <;> rfl

theorem cyls_get_set {α : Type} (x : Cyls α) (c d : Cyl) (v : α) :
    (x.set d v).get c = if c = d then v else x.get c := by
  fin_cases d <;> fin_cases c <;> rfl

@[simp] theorem cyls_get_set_same {α : Type} (x : Cyls α) (c : Cyl) (v : α) : (x.set c v).get c = v := by
  rw [cyls_get_set]; simp

@[simp] theorem cyls_set_get {α : Type} (x : Cyls α) (c : Cyl) : x.set c (x.get c) = x := by
  fin_cases c <;> rfl

@[simp] theorem cyls_set_set {α : Type} (x : Cyls α) (c : Cyl) (v w : α) : (x.set c v).set c w = x.set c w := by
  fin_cases c <;> rfl

theorem profiles_get_set {α : Type} (x : Profiles α) (i j : Fin 4) (v : α) :
    (x.set j v).get i = if i = j then v else x.get i := by
  fin_cases j <;> fin_cases i <;> rfl

theorem cyls_get_all {α : Type} (x : α) (c : Cyl) : (Cyls.all x).get c = x := by fin_cases c <;> rfl

theorem banks_get_both {α : Type} (x : α) (k : Bank) : (Banks.both x).get k = x := by cases k <;> rfl

/-! ### setClock -/

@[simp] theorem setClock_timebase (s : State) (x : AngleClock) : (s.setClock x).timebase = s.timebase := rfl
@[simp] theorem setClock_clock (s : State) (x : AngleClock) : (s.setClock x).clock = x := rfl
@[simp] theorem setClock_tables (s : State) (x : AngleClock) : (s.setClock x).tables = s.tables := rfl
@[simp] theorem setClock_firing (s : State) (x : AngleClock) : (s.setClock x).firing = s.firing := rfl
@[simp] theorem setClock_demand (s : State) (x : AngleClock) : (s.setClock x).demand = s.demand := rfl
@[simp] theorem setClock_sched (s : State) (x : AngleClock) : (s.setClock x).sched = s.sched := rfl
@[simp] theorem setClock_level (s : State) (x : AngleClock) : (s.setClock x).level = s.level := rfl
@[simp] theorem setClock_nextRecharge (s : State) (x : AngleClock) : (s.setClock x).nextRecharge = s.nextRecharge := rfl
@[simp] theorem setClock_drive (s : State) (x : AngleClock) : (s.setClock x).drive = s.drive := rfl
@[simp] theorem setClock_sense (s : State) (x : AngleClock) : (s.setClock x).sense = s.sense := rfl
@[simp] theorem setClock_trace (s : State) (x : AngleClock) : (s.setClock x).trace = s.trace := rfl
@[simp] theorem setClock_supply (s : State) (x : AngleClock) : (s.setClock x).supply = s.supply := rfl
@[simp] theorem setClock_sup (s : State) (x : AngleClock) : (s.setClock x).sup = s.sup := rfl
@[simp] theorem setClock_service (s : State) (x : AngleClock) : (s.setClock x).service = s.service := rfl
@[simp] theorem setClock_events (s : State) (x : AngleClock) : (s.setClock x).events = s.events := rfl
@[simp] theorem setClock_link (s : State) (x : AngleClock) : (s.setClock x).link = s.link := rfl
@[simp] theorem setClock_pending (s : State) (x : AngleClock) : (s.setClock x).pending = s.pending := rfl
@[simp] theorem setClock_schedOf (s : State) (x : AngleClock) (k : Bank) : (s.setClock x).schedOf k = s.schedOf k := rfl
@[simp] theorem setClock_driveOf (s : State) (x : AngleClock) (k : Bank) : (s.setClock x).driveOf k = s.driveOf k := rfl
@[simp] theorem setClock_levelOf (s : State) (x : AngleClock) (k : Bank) : (s.setClock x).levelOf k = s.levelOf k := rfl
@[simp] theorem setClock_supOf (s : State) (x : AngleClock) (c : Cyl) : (s.setClock x).supOf c = s.supOf c := rfl
@[simp] theorem setClock_demandOf (s : State) (x : AngleClock) (c : Cyl) : (s.setClock x).demandOf c = s.demandOf c := rfl
@[simp] theorem setClock_cylOf (s : State) (x : AngleClock) (c : Cyl) : (s.setClock x).cylOf c = s.cylOf c := rfl

/-! ### setTables -/

@[simp] theorem setTables_timebase (s : State) (x : TableStore) : (s.setTables x).timebase = s.timebase := rfl
@[simp] theorem setTables_clock (s : State) (x : TableStore) : (s.setTables x).clock = s.clock := rfl
@[simp] theorem setTables_tables (s : State) (x : TableStore) : (s.setTables x).tables = x := rfl
@[simp] theorem setTables_firing (s : State) (x : TableStore) : (s.setTables x).firing = s.firing := rfl
@[simp] theorem setTables_demand (s : State) (x : TableStore) : (s.setTables x).demand = s.demand := rfl
@[simp] theorem setTables_sched (s : State) (x : TableStore) : (s.setTables x).sched = s.sched := rfl
@[simp] theorem setTables_level (s : State) (x : TableStore) : (s.setTables x).level = s.level := rfl
@[simp] theorem setTables_nextRecharge (s : State) (x : TableStore) : (s.setTables x).nextRecharge = s.nextRecharge := rfl
@[simp] theorem setTables_drive (s : State) (x : TableStore) : (s.setTables x).drive = s.drive := rfl
@[simp] theorem setTables_sense (s : State) (x : TableStore) : (s.setTables x).sense = s.sense := rfl
@[simp] theorem setTables_trace (s : State) (x : TableStore) : (s.setTables x).trace = s.trace := rfl
@[simp] theorem setTables_supply (s : State) (x : TableStore) : (s.setTables x).supply = s.supply := rfl
@[simp] theorem setTables_sup (s : State) (x : TableStore) : (s.setTables x).sup = s.sup := rfl
@[simp] theorem setTables_service (s : State) (x : TableStore) : (s.setTables x).service = s.service := rfl
@[simp] theorem setTables_events (s : State) (x : TableStore) : (s.setTables x).events = s.events := rfl
@[simp] theorem setTables_link (s : State) (x : TableStore) : (s.setTables x).link = s.link := rfl
@[simp] theorem setTables_pending (s : State) (x : TableStore) : (s.setTables x).pending = s.pending := rfl
@[simp] theorem setTables_schedOf (s : State) (x : TableStore) (k : Bank) : (s.setTables x).schedOf k = s.schedOf k := rfl
@[simp] theorem setTables_driveOf (s : State) (x : TableStore) (k : Bank) : (s.setTables x).driveOf k = s.driveOf k := rfl
@[simp] theorem setTables_levelOf (s : State) (x : TableStore) (k : Bank) : (s.setTables x).levelOf k = s.levelOf k := rfl
@[simp] theorem setTables_supOf (s : State) (x : TableStore) (c : Cyl) : (s.setTables x).supOf c = s.supOf c := rfl
@[simp] theorem setTables_demandOf (s : State) (x : TableStore) (c : Cyl) : (s.setTables x).demandOf c = s.demandOf c := rfl
@[simp] theorem setTables_cylOf (s : State) (x : TableStore) (c : Cyl) : (s.setTables x).cylOf c = x.cyl.get c := rfl

/-! ### setTrace -/

@[simp] theorem setTrace_timebase (s : State) (x : TraceCapture) : (s.setTrace x).timebase = s.timebase := rfl
@[simp] theorem setTrace_clock (s : State) (x : TraceCapture) : (s.setTrace x).clock = s.clock := rfl
@[simp] theorem setTrace_tables (s : State) (x : TraceCapture) : (s.setTrace x).tables = s.tables := rfl
@[simp] theorem setTrace_firing (s : State) (x : TraceCapture) : (s.setTrace x).firing = s.firing := rfl
@[simp] theorem setTrace_demand (s : State) (x : TraceCapture) : (s.setTrace x).demand = s.demand := rfl
@[simp] theorem setTrace_sched (s : State) (x : TraceCapture) : (s.setTrace x).sched = s.sched := rfl
@[simp] theorem setTrace_level (s : State) (x : TraceCapture) : (s.setTrace x).level = s.level := rfl
@[simp] theorem setTrace_nextRecharge (s : State) (x : TraceCapture) : (s.setTrace x).nextRecharge = s.nextRecharge := rfl
@[simp] theorem setTrace_drive (s : State) (x : TraceCapture) : (s.setTrace x).drive = s.drive := rfl
@[simp] theorem setTrace_sense (s : State) (x : TraceCapture) : (s.setTrace x).sense = s.sense := rfl
@[simp] theorem setTrace_trace (s : State) (x : TraceCapture) : (s.setTrace x).trace = x := rfl
@[simp] theorem setTrace_supply (s : State) (x : TraceCapture) : (s.setTrace x).supply = s.supply := rfl
@[simp] theorem setTrace_sup (s : State) (x : TraceCapture) : (s.setTrace x).sup = s.sup := rfl
@[simp] theorem setTrace_service (s : State) (x : TraceCapture) : (s.setTrace x).service = s.service := rfl
@[simp] theorem setTrace_events (s : State) (x : TraceCapture) : (s.setTrace x).events = s.events := rfl
@[simp] theorem setTrace_link (s : State) (x : TraceCapture) : (s.setTrace x).link = s.link := rfl
@[simp] theorem setTrace_pending (s : State) (x : TraceCapture) : (s.setTrace x).pending = s.pending := rfl
@[simp] theorem setTrace_schedOf (s : State) (x : TraceCapture) (k : Bank) : (s.setTrace x).schedOf k = s.schedOf k := rfl
@[simp] theorem setTrace_driveOf (s : State) (x : TraceCapture) (k : Bank) : (s.setTrace x).driveOf k = s.driveOf k := rfl
@[simp] theorem setTrace_levelOf (s : State) (x : TraceCapture) (k : Bank) : (s.setTrace x).levelOf k = s.levelOf k := rfl
@[simp] theorem setTrace_supOf (s : State) (x : TraceCapture) (c : Cyl) : (s.setTrace x).supOf c = s.supOf c := rfl
@[simp] theorem setTrace_demandOf (s : State) (x : TraceCapture) (c : Cyl) : (s.setTrace x).demandOf c = s.demandOf c := rfl
@[simp] theorem setTrace_cylOf (s : State) (x : TraceCapture) (c : Cyl) : (s.setTrace x).cylOf c = s.cylOf c := rfl

/-! ### setLink -/

@[simp] theorem setLink_timebase (s : State) (x : LinkIface) : (s.setLink x).timebase = s.timebase := rfl
@[simp] theorem setLink_clock (s : State) (x : LinkIface) : (s.setLink x).clock = s.clock := rfl
@[simp] theorem setLink_tables (s : State) (x : LinkIface) : (s.setLink x).tables = s.tables := rfl
@[simp] theorem setLink_firing (s : State) (x : LinkIface) : (s.setLink x).firing = s.firing := rfl
@[simp] theorem setLink_demand (s : State) (x : LinkIface) : (s.setLink x).demand = s.demand := rfl
@[simp] theorem setLink_sched (s : State) (x : LinkIface) : (s.setLink x).sched = s.sched := rfl
@[simp] theorem setLink_level (s : State) (x : LinkIface) : (s.setLink x).level = s.level := rfl
@[simp] theorem setLink_nextRecharge (s : State) (x : LinkIface) : (s.setLink x).nextRecharge = s.nextRecharge := rfl
@[simp] theorem setLink_drive (s : State) (x : LinkIface) : (s.setLink x).drive = s.drive := rfl
@[simp] theorem setLink_sense (s : State) (x : LinkIface) : (s.setLink x).sense = s.sense := rfl
@[simp] theorem setLink_trace (s : State) (x : LinkIface) : (s.setLink x).trace = s.trace := rfl
@[simp] theorem setLink_supply (s : State) (x : LinkIface) : (s.setLink x).supply = s.supply := rfl
@[simp] theorem setLink_sup (s : State) (x : LinkIface) : (s.setLink x).sup = s.sup := rfl
@[simp] theorem setLink_service (s : State) (x : LinkIface) : (s.setLink x).service = s.service := rfl
@[simp] theorem setLink_events (s : State) (x : LinkIface) : (s.setLink x).events = s.events := rfl
@[simp] theorem setLink_link (s : State) (x : LinkIface) : (s.setLink x).link = x := rfl
@[simp] theorem setLink_pending (s : State) (x : LinkIface) : (s.setLink x).pending = s.pending := rfl
@[simp] theorem setLink_schedOf (s : State) (x : LinkIface) (k : Bank) : (s.setLink x).schedOf k = s.schedOf k := rfl
@[simp] theorem setLink_driveOf (s : State) (x : LinkIface) (k : Bank) : (s.setLink x).driveOf k = s.driveOf k := rfl
@[simp] theorem setLink_levelOf (s : State) (x : LinkIface) (k : Bank) : (s.setLink x).levelOf k = s.levelOf k := rfl
@[simp] theorem setLink_supOf (s : State) (x : LinkIface) (c : Cyl) : (s.setLink x).supOf c = s.supOf c := rfl
@[simp] theorem setLink_demandOf (s : State) (x : LinkIface) (c : Cyl) : (s.setLink x).demandOf c = s.demandOf c := rfl
@[simp] theorem setLink_cylOf (s : State) (x : LinkIface) (c : Cyl) : (s.setLink x).cylOf c = s.cylOf c := rfl

/-! ### setEvents -/

@[simp] theorem setEvents_timebase (s : State) (x : EventLatch) : (s.setEvents x).timebase = s.timebase := rfl
@[simp] theorem setEvents_clock (s : State) (x : EventLatch) : (s.setEvents x).clock = s.clock := rfl
@[simp] theorem setEvents_tables (s : State) (x : EventLatch) : (s.setEvents x).tables = s.tables := rfl
@[simp] theorem setEvents_firing (s : State) (x : EventLatch) : (s.setEvents x).firing = s.firing := rfl
@[simp] theorem setEvents_demand (s : State) (x : EventLatch) : (s.setEvents x).demand = s.demand := rfl
@[simp] theorem setEvents_sched (s : State) (x : EventLatch) : (s.setEvents x).sched = s.sched := rfl
@[simp] theorem setEvents_level (s : State) (x : EventLatch) : (s.setEvents x).level = s.level := rfl
@[simp] theorem setEvents_nextRecharge (s : State) (x : EventLatch) : (s.setEvents x).nextRecharge = s.nextRecharge := rfl
@[simp] theorem setEvents_drive (s : State) (x : EventLatch) : (s.setEvents x).drive = s.drive := rfl
@[simp] theorem setEvents_sense (s : State) (x : EventLatch) : (s.setEvents x).sense = s.sense := rfl
@[simp] theorem setEvents_trace (s : State) (x : EventLatch) : (s.setEvents x).trace = s.trace := rfl
@[simp] theorem setEvents_supply (s : State) (x : EventLatch) : (s.setEvents x).supply = s.supply := rfl
@[simp] theorem setEvents_sup (s : State) (x : EventLatch) : (s.setEvents x).sup = s.sup := rfl
@[simp] theorem setEvents_service (s : State) (x : EventLatch) : (s.setEvents x).service = s.service := rfl
@[simp] theorem setEvents_events (s : State) (x : EventLatch) : (s.setEvents x).events = x := rfl
@[simp] theorem setEvents_link (s : State) (x : EventLatch) : (s.setEvents x).link = s.link := rfl
@[simp] theorem setEvents_pending (s : State) (x : EventLatch) : (s.setEvents x).pending = s.pending := rfl
@[simp] theorem setEvents_schedOf (s : State) (x : EventLatch) (k : Bank) : (s.setEvents x).schedOf k = s.schedOf k := rfl
@[simp] theorem setEvents_driveOf (s : State) (x : EventLatch) (k : Bank) : (s.setEvents x).driveOf k = s.driveOf k := rfl
@[simp] theorem setEvents_levelOf (s : State) (x : EventLatch) (k : Bank) : (s.setEvents x).levelOf k = s.levelOf k := rfl
@[simp] theorem setEvents_supOf (s : State) (x : EventLatch) (c : Cyl) : (s.setEvents x).supOf c = s.supOf c := rfl
@[simp] theorem setEvents_demandOf (s : State) (x : EventLatch) (c : Cyl) : (s.setEvents x).demandOf c = s.demandOf c := rfl
@[simp] theorem setEvents_cylOf (s : State) (x : EventLatch) (c : Cyl) : (s.setEvents x).cylOf c = s.cylOf c := rfl

/-! ### setFiring -/

@[simp] theorem setFiring_timebase (s : State) (x : Firing) : (s.setFiring x).timebase = s.timebase := rfl
@[simp] theorem setFiring_clock (s : State) (x : Firing) : (s.setFiring x).clock = s.clock := rfl
@[simp] theorem setFiring_tables (s : State) (x : Firing) : (s.setFiring x).tables = s.tables := rfl
@[simp] theorem setFiring_firing (s : State) (x : Firing) : (s.setFiring x).firing = x := rfl
@[simp] theorem setFiring_demand (s : State) (x : Firing) : (s.setFiring x).demand = s.demand := rfl
@[simp] theorem setFiring_sched (s : State) (x : Firing) : (s.setFiring x).sched = s.sched := rfl
@[simp] theorem setFiring_level (s : State) (x : Firing) : (s.setFiring x).level = s.level := rfl
@[simp] theorem setFiring_nextRecharge (s : State) (x : Firing) : (s.setFiring x).nextRecharge = s.nextRecharge := rfl
@[simp] theorem setFiring_drive (s : State) (x : Firing) : (s.setFiring x).drive = s.drive := rfl
@[simp] theorem setFiring_sense (s : State) (x : Firing) : (s.setFiring x).sense = s.sense := rfl
@[simp] theorem setFiring_trace (s : State) (x : Firing) : (s.setFiring x).trace = s.trace := rfl
@[simp] theorem setFiring_supply (s : State) (x : Firing) : (s.setFiring x).supply = s.supply := rfl
@[simp] theorem setFiring_sup (s : State) (x : Firing) : (s.setFiring x).sup = s.sup := rfl
@[simp] theorem setFiring_service (s : State) (x : Firing) : (s.setFiring x).service = s.service := rfl
@[simp] theorem setFiring_events (s : State) (x : Firing) : (s.setFiring x).events = s.events := rfl
@[simp] theorem setFiring_link (s : State) (x : Firing) : (s.setFiring x).link = s.link := rfl
@[simp] theorem setFiring_pending (s : State) (x : Firing) : (s.setFiring x).pending = s.pending := rfl
@[simp] theorem setFiring_schedOf (s : State) (x : Firing) (k : Bank) : (s.setFiring x).schedOf k = s.schedOf k := rfl
@[simp] theorem setFiring_driveOf (s : State) (x : Firing) (k : Bank) : (s.setFiring x).driveOf k = s.driveOf k := rfl
@[simp] theorem setFiring_levelOf (s : State) (x : Firing) (k : Bank) : (s.setFiring x).levelOf k = s.levelOf k := rfl
@[simp] theorem setFiring_supOf (s : State) (x : Firing) (c : Cyl) : (s.setFiring x).supOf c = s.supOf c := rfl
@[simp] theorem setFiring_demandOf (s : State) (x : Firing) (c : Cyl) : (s.setFiring x).demandOf c = s.demandOf c := rfl
@[simp] theorem setFiring_cylOf (s : State) (x : Firing) (c : Cyl) : (s.setFiring x).cylOf c = s.cylOf c := rfl

/-! ### setSched -/

@[simp] theorem setSched_timebase (s : State) (j : Bank) (x : Sched) : (s.setSched j x).timebase = s.timebase := rfl
@[simp] theorem setSched_clock (s : State) (j : Bank) (x : Sched) : (s.setSched j x).clock = s.clock := rfl
@[simp] theorem setSched_tables (s : State) (j : Bank) (x : Sched) : (s.setSched j x).tables = s.tables := rfl
@[simp] theorem setSched_firing (s : State) (j : Bank) (x : Sched) : (s.setSched j x).firing = s.firing := rfl
@[simp] theorem setSched_demand (s : State) (j : Bank) (x : Sched) : (s.setSched j x).demand = s.demand := rfl
@[simp] theorem setSched_sched (s : State) (j : Bank) (x : Sched) : (s.setSched j x).sched = s.sched.set j x := rfl
@[simp] theorem setSched_level (s : State) (j : Bank) (x : Sched) : (s.setSched j x).level = s.level := rfl
@[simp] theorem setSched_nextRecharge (s : State) (j : Bank) (x : Sched) : (s.setSched j x).nextRecharge = s.nextRecharge := rfl
@[simp] theorem setSched_drive (s : State) (j : Bank) (x : Sched) : (s.setSched j x).drive = s.drive := rfl
@[simp] theorem setSched_sense (s : State) (j : Bank) (x : Sched) : (s.setSched j x).sense = s.sense := rfl
@[simp] theorem setSched_trace (s : State) (j : Bank) (x : Sched) : (s.setSched j x).trace = s.trace := rfl
@[simp] theorem setSched_supply (s : State) (j : Bank) (x : Sched) : (s.setSched j x).supply = s.supply := rfl
@[simp] theorem setSched_sup (s : State) (j : Bank) (x : Sched) : (s.setSched j x).sup = s.sup := rfl
@[simp] theorem setSched_service (s : State) (j : Bank) (x : Sched) : (s.setSched j x).service = s.service := rfl
@[simp] theorem setSched_events (s : State) (j : Bank) (x : Sched) : (s.setSched j x).events = s.events := rfl
@[simp] theorem setSched_link (s : State) (j : Bank) (x : Sched) : (s.setSched j x).link = s.link := rfl
@[simp] theorem setSched_pending (s : State) (j : Bank) (x : Sched) : (s.setSched j x).pending = s.pending := rfl
theorem setSched_schedOf (s : State) (j : Bank) (x : Sched) (k : Bank) : (s.setSched j x).schedOf k = if k = j then x else s.schedOf k :=
  banks_get_set _ _ _ _
@[simp] theorem setSched_schedOf_same (s : State) (j : Bank) (x : Sched) : (s.setSched j x).schedOf j = x := by
  simp [State.setSched, State.schedOf]
@[simp] theorem setSched_driveOf (s : State) (j : Bank) (x : Sched) (k : Bank) : (s.setSched j x).driveOf k = s.driveOf k := rfl
@[simp] theorem setSched_levelOf (s : State) (j : Bank) (x : Sched) (k : Bank) : (s.setSched j x).levelOf k = s.levelOf k := rfl
@[simp] theorem setSched_supOf (s : State) (j : Bank) (x : Sched) (c : Cyl) : (s.setSched j x).supOf c = s.supOf c := rfl
@[simp] theorem setSched_demandOf (s : State) (j : Bank) (x : Sched) (c : Cyl) : (s.setSched j x).demandOf c = s.demandOf c := rfl
@[simp] theorem setSched_cylOf (s : State) (j : Bank) (x : Sched) (c : Cyl) : (s.setSched j x).cylOf c = s.cylOf c := rfl

/-! ### setDrive -/

@[simp] theorem setDrive_timebase (s : State) (j : Bank) (x : DriveStage) : (s.setDrive j x).timebase = s.timebase := rfl
@[simp] theorem setDrive_clock (s : State) (j : Bank) (x : DriveStage) : (s.setDrive j x).clock = s.clock := rfl
@[simp] theorem setDrive_tables (s : State) (j : Bank) (x : DriveStage) : (s.setDrive j x).tables = s.tables := rfl
@[simp] theorem setDrive_firing (s : State) (j : Bank) (x : DriveStage) : (s.setDrive j x).firing = s.firing := rfl
@[simp] theorem setDrive_demand (s : State) (j : Bank) (x : DriveStage) : (s.setDrive j x).demand = s.demand := rfl
@[simp] theorem setDrive_sched (s : State) (j : Bank) (x : DriveStage) : (s.setDrive j x).sched = s.sched := rfl
@[simp] theorem setDrive_level (s : State) (j : Bank) (x : DriveStage) : (s.setDrive j x).level = s.level := rfl
@[simp] theorem setDrive_nextRecharge (s : State) (j : Bank) (x : DriveStage) : (s.setDrive j x).nextRecharge = s.nextRecharge := rfl
@[simp] theorem setDrive_drive (s : State) (j : Bank) (x : DriveStage) : (s.setDrive j x).drive = s.drive.set j x := rfl
@[simp] theorem setDrive_sense (s : State) (j : Bank) (x : DriveStage) : (s.setDrive j x).sense = s.sense := rfl
@[simp] theorem setDrive_trace (s : State) (j : Bank) (x : DriveStage) : (s.setDrive j x).trace = s.trace := rfl
@[simp] theorem setDrive_supply (s : State) (j : Bank) (x : DriveStage) : (s.setDrive j x).supply = s.supply := rfl
@[simp] theorem setDrive_sup (s : State) (j : Bank) (x : DriveStage) : (s.setDrive j x).sup = s.sup := rfl
@[simp] theorem setDrive_service (s : State) (j : Bank) (x : DriveStage) : (s.setDrive j x).service = s.service := rfl
@[simp] theorem setDrive_events (s : State) (j : Bank) (x : DriveStage) : (s.setDrive j x).events = s.events := rfl
@[simp] theorem setDrive_link (s : State) (j : Bank) (x : DriveStage) : (s.setDrive j x).link = s.link := rfl
@[simp] theorem setDrive_pending (s : State) (j : Bank) (x : DriveStage) : (s.setDrive j x).pending = s.pending := rfl
@[simp] theorem setDrive_schedOf (s : State) (j : Bank) (x : DriveStage) (k : Bank) : (s.setDrive j x).schedOf k = s.schedOf k := rfl
theorem setDrive_driveOf (s : State) (j : Bank) (x : DriveStage) (k : Bank) : (s.setDrive j x).driveOf k = if k = j then x else s.driveOf k :=
  banks_get_set _ _ _ _
@[simp] theorem setDrive_driveOf_same (s : State) (j : Bank) (x : DriveStage) : (s.setDrive j x).driveOf j = x := by
  simp [State.setDrive, State.driveOf]
@[simp] theorem setDrive_levelOf (s : State) (j : Bank) (x : DriveStage) (k : Bank) : (s.setDrive j x).levelOf k = s.levelOf k := rfl
@[simp] theorem setDrive_supOf (s : State) (j : Bank) (x : DriveStage) (c : Cyl) : (s.setDrive j x).supOf c = s.supOf c := rfl
@[simp] theorem setDrive_demandOf (s : State) (j : Bank) (x : DriveStage) (c : Cyl) : (s.setDrive j x).demandOf c = s.demandOf c := rfl
@[simp] theorem setDrive_cylOf (s : State) (j : Bank) (x : DriveStage) (c : Cyl) : (s.setDrive j x).cylOf c = s.cylOf c := rfl

/-! ### setLevel -/

@[simp] theorem setLevel_timebase (s : State) (j : Bank) (x : Nat) : (s.setLevel j x).timebase = s.timebase := rfl
@[simp] theorem setLevel_clock (s : State) (j : Bank) (x : Nat) : (s.setLevel j x).clock = s.clock := rfl
@[simp] theorem setLevel_tables (s : State) (j : Bank) (x : Nat) : (s.setLevel j x).tables = s.tables := rfl
@[simp] theorem setLevel_firing (s : State) (j : Bank) (x : Nat) : (s.setLevel j x).firing = s.firing := rfl
@[simp] theorem setLevel_demand (s : State) (j : Bank) (x : Nat) : (s.setLevel j x).demand = s.demand := rfl
@[simp] theorem setLevel_sched (s : State) (j : Bank) (x : Nat) : (s.setLevel j x).sched = s.sched := rfl
@[simp] theorem setLevel_level (s : State) (j : Bank) (x : Nat) : (s.setLevel j x).level = s.level.set j x := rfl
@[simp] theorem setLevel_nextRecharge (s : State) (j : Bank) (x : Nat) : (s.setLevel j x).nextRecharge = s.nextRecharge := rfl
@[simp] theorem setLevel_drive (s : State) (j : Bank) (x : Nat) : (s.setLevel j x).drive = s.drive := rfl
@[simp] theorem setLevel_sense (s : State) (j : Bank) (x : Nat) : (s.setLevel j x).sense = s.sense := rfl
@[simp] theorem setLevel_trace (s : State) (j : Bank) (x : Nat) : (s.setLevel j x).trace = s.trace := rfl
@[simp] theorem setLevel_supply (s : State) (j : Bank) (x : Nat) : (s.setLevel j x).supply = s.supply := rfl
@[simp] theorem setLevel_sup (s : State) (j : Bank) (x : Nat) : (s.setLevel j x).sup = s.sup := rfl
@[simp] theorem setLevel_service (s : State) (j : Bank) (x : Nat) : (s.setLevel j x).service = s.service := rfl
@[simp] theorem setLevel_events (s : State) (j : Bank) (x : Nat) : (s.setLevel j x).events = s.events := rfl
@[simp] theorem setLevel_link (s : State) (j : Bank) (x : Nat) : (s.setLevel j x).link = s.link := rfl
@[simp] theorem setLevel_pending (s : State) (j : Bank) (x : Nat) : (s.setLevel j x).pending = s.pending := rfl
@[simp] theorem setLevel_schedOf (s : State) (j : Bank) (x : Nat) (k : Bank) : (s.setLevel j x).schedOf k = s.schedOf k := rfl
@[simp] theorem setLevel_driveOf (s : State) (j : Bank) (x : Nat) (k : Bank) : (s.setLevel j x).driveOf k = s.driveOf k := rfl
theorem setLevel_levelOf (s : State) (j : Bank) (x : Nat) (k : Bank) : (s.setLevel j x).levelOf k = if k = j then x else s.levelOf k :=
  banks_get_set _ _ _ _
@[simp] theorem setLevel_levelOf_same (s : State) (j : Bank) (x : Nat) : (s.setLevel j x).levelOf j = x := by
  simp [State.setLevel, State.levelOf]
@[simp] theorem setLevel_supOf (s : State) (j : Bank) (x : Nat) (c : Cyl) : (s.setLevel j x).supOf c = s.supOf c := rfl
@[simp] theorem setLevel_demandOf (s : State) (j : Bank) (x : Nat) (c : Cyl) : (s.setLevel j x).demandOf c = s.demandOf c := rfl
@[simp] theorem setLevel_cylOf (s : State) (j : Bank) (x : Nat) (c : Cyl) : (s.setLevel j x).cylOf c = s.cylOf c := rfl

/-! ### setSup -/

@[simp] theorem setSup_timebase (s : State) (d : Cyl) (x : CylSup) : (s.setSup d x).timebase = s.timebase := rfl
@[simp] theorem setSup_clock (s : State) (d : Cyl) (x : CylSup) : (s.setSup d x).clock = s.clock := rfl
@[simp] theorem setSup_tables (s : State) (d : Cyl) (x : CylSup) : (s.setSup d x).tables = s.tables := rfl
@[simp] theorem setSup_firing (s : State) (d : Cyl) (x : CylSup) : (s.setSup d x).firing = s.firing := rfl
@[simp] theorem setSup_demand (s : State) (d : Cyl) (x : CylSup) : (s.setSup d x).demand = s.demand := rfl
@[simp] theorem setSup_sched (s : State) (d : Cyl) (x : CylSup) : (s.setSup d x).sched = s.sched := rfl
@[simp] theorem setSup_level (s : State) (d : Cyl) (x : CylSup) : (s.setSup d x).level = s.level := rfl
@[simp] theorem setSup_nextRecharge (s : State) (d : Cyl) (x : CylSup) : (s.setSup d x).nextRecharge = s.nextRecharge := rfl
@[simp] theorem setSup_drive (s : State) (d : Cyl) (x : CylSup) : (s.setSup d x).drive = s.drive := rfl
@[simp] theorem setSup_sense (s : State) (d : Cyl) (x : CylSup) : (s.setSup d x).sense = s.sense := rfl
@[simp] theorem setSup_trace (s : State) (d : Cyl) (x : CylSup) : (s.setSup d x).trace = s.trace := rfl
@[simp] theorem setSup_supply (s : State) (d : Cyl) (x : CylSup) : (s.setSup d x).supply = s.supply := rfl
@[simp] theorem setSup_sup (s : State) (d : Cyl) (x : CylSup) : (s.setSup d x).sup = s.sup.set d x := rfl
@[simp] theorem setSup_service (s : State) (d : Cyl) (x : CylSup) : (s.setSup d x).service = s.service := rfl
@[simp] theorem setSup_events (s : State) (d : Cyl) (x : CylSup) : (s.setSup d x).events = s.events := rfl
@[simp] theorem setSup_link (s : State) (d : Cyl) (x : CylSup) : (s.setSup d x).link = s.link := rfl
@[simp] theorem setSup_pending (s : State) (d : Cyl) (x : CylSup) : (s.setSup d x).pending = s.pending := rfl
@[simp] theorem setSup_schedOf (s : State) (d : Cyl) (x : CylSup) (k : Bank) : (s.setSup d x).schedOf k = s.schedOf k := rfl
@[simp] theorem setSup_driveOf (s : State) (d : Cyl) (x : CylSup) (k : Bank) : (s.setSup d x).driveOf k = s.driveOf k := rfl
@[simp] theorem setSup_levelOf (s : State) (d : Cyl) (x : CylSup) (k : Bank) : (s.setSup d x).levelOf k = s.levelOf k := rfl
theorem setSup_supOf (s : State) (d : Cyl) (x : CylSup) (c : Cyl) : (s.setSup d x).supOf c = if c = d then x else s.supOf c :=
  cyls_get_set _ _ _ _
@[simp] theorem setSup_supOf_same (s : State) (d : Cyl) (x : CylSup) : (s.setSup d x).supOf d = x := by
  simp [State.setSup, State.supOf]
@[simp] theorem setSup_demandOf (s : State) (d : Cyl) (x : CylSup) (c : Cyl) : (s.setSup d x).demandOf c = s.demandOf c := rfl
@[simp] theorem setSup_cylOf (s : State) (d : Cyl) (x : CylSup) (c : Cyl) : (s.setSup d x).cylOf c = s.cylOf c := rfl

/-! ### setDemand -/

@[simp] theorem setDemand_timebase (s : State) (d : Cyl) (x : CylDemand) : (s.setDemand d x).timebase = s.timebase := rfl
@[simp] theorem setDemand_clock (s : State) (d : Cyl) (x : CylDemand) : (s.setDemand d x).clock = s.clock := rfl
@[simp] theorem setDemand_tables (s : State) (d : Cyl) (x : CylDemand) : (s.setDemand d x).tables = s.tables := rfl
@[simp] theorem setDemand_firing (s : State) (d : Cyl) (x : CylDemand) : (s.setDemand d x).firing = s.firing := rfl
@[simp] theorem setDemand_demand (s : State) (d : Cyl) (x : CylDemand) : (s.setDemand d x).demand = s.demand.set d x := rfl
@[simp] theorem setDemand_sched (s : State) (d : Cyl) (x : CylDemand) : (s.setDemand d x).sched = s.sched := rfl
@[simp] theorem setDemand_level (s : State) (d : Cyl) (x : CylDemand) : (s.setDemand d x).level = s.level := rfl
@[simp] theorem setDemand_nextRecharge (s : State) (d : Cyl) (x : CylDemand) : (s.setDemand d x).nextRecharge = s.nextRecharge := rfl
@[simp] theorem setDemand_drive (s : State) (d : Cyl) (x : CylDemand) : (s.setDemand d x).drive = s.drive := rfl
@[simp] theorem setDemand_sense (s : State) (d : Cyl) (x : CylDemand) : (s.setDemand d x).sense = s.sense := rfl
@[simp] theorem setDemand_trace (s : State) (d : Cyl) (x : CylDemand) : (s.setDemand d x).trace = s.trace := rfl
@[simp] theorem setDemand_supply (s : State) (d : Cyl) (x : CylDemand) : (s.setDemand d x).supply = s.supply := rfl
@[simp] theorem setDemand_sup (s : State) (d : Cyl) (x : CylDemand) : (s.setDemand d x).sup = s.sup := rfl
@[simp] theorem setDemand_service (s : State) (d : Cyl) (x : CylDemand) : (s.setDemand d x).service = s.service := rfl
@[simp] theorem setDemand_events (s : State) (d : Cyl) (x : CylDemand) : (s.setDemand d x).events = s.events := rfl
@[simp] theorem setDemand_link (s : State) (d : Cyl) (x : CylDemand) : (s.setDemand d x).link = s.link := rfl
@[simp] theorem setDemand_pending (s : State) (d : Cyl) (x : CylDemand) : (s.setDemand d x).pending = s.pending := rfl
@[simp] theorem setDemand_schedOf (s : State) (d : Cyl) (x : CylDemand) (k : Bank) : (s.setDemand d x).schedOf k = s.schedOf k := rfl
@[simp] theorem setDemand_driveOf (s : State) (d : Cyl) (x : CylDemand) (k : Bank) : (s.setDemand d x).driveOf k = s.driveOf k := rfl
@[simp] theorem setDemand_levelOf (s : State) (d : Cyl) (x : CylDemand) (k : Bank) : (s.setDemand d x).levelOf k = s.levelOf k := rfl
@[simp] theorem setDemand_supOf (s : State) (d : Cyl) (x : CylDemand) (c : Cyl) : (s.setDemand d x).supOf c = s.supOf c := rfl
theorem setDemand_demandOf (s : State) (d : Cyl) (x : CylDemand) (c : Cyl) : (s.setDemand d x).demandOf c = if c = d then x else s.demandOf c :=
  cyls_get_set _ _ _ _
@[simp] theorem setDemand_demandOf_same (s : State) (d : Cyl) (x : CylDemand) : (s.setDemand d x).demandOf d = x := by
  simp [State.setDemand, State.demandOf]
@[simp] theorem setDemand_cylOf (s : State) (d : Cyl) (x : CylDemand) (c : Cyl) : (s.setDemand d x).cylOf c = s.cylOf c := rfl

/-! ### raise -/

@[simp] theorem raise_timebase (s : State) (e : Event) : (s.raise e).timebase = s.timebase := rfl
@[simp] theorem raise_clock (s : State) (e : Event) : (s.raise e).clock = s.clock := rfl
@[simp] theorem raise_tables (s : State) (e : Event) : (s.raise e).tables = s.tables := rfl
@[simp] theorem raise_firing (s : State) (e : Event) : (s.raise e).firing = s.firing := rfl
@[simp] theorem raise_demand (s : State) (e : Event) : (s.raise e).demand = s.demand := rfl
@[simp] theorem raise_sched (s : State) (e : Event) : (s.raise e).sched = s.sched := rfl
@[simp] theorem raise_level (s : State) (e : Event) : (s.raise e).level = s.level := rfl
@[simp] theorem raise_nextRecharge (s : State) (e : Event) : (s.raise e).nextRecharge = s.nextRecharge := rfl
@[simp] theorem raise_drive (s : State) (e : Event) : (s.raise e).drive = s.drive := rfl
@[simp] theorem raise_sense (s : State) (e : Event) : (s.raise e).sense = s.sense := rfl
@[simp] theorem raise_trace (s : State) (e : Event) : (s.raise e).trace = s.trace := rfl
@[simp] theorem raise_supply (s : State) (e : Event) : (s.raise e).supply = s.supply := rfl
@[simp] theorem raise_sup (s : State) (e : Event) : (s.raise e).sup = s.sup := rfl
@[simp] theorem raise_service (s : State) (e : Event) : (s.raise e).service = s.service := rfl
@[simp] theorem raise_events (s : State) (e : Event) : (s.raise e).events = { s.events with latched := s.events.latched ||| e.mask } := rfl
@[simp] theorem raise_link (s : State) (e : Event) : (s.raise e).link = s.link := rfl
@[simp] theorem raise_pending (s : State) (e : Event) : (s.raise e).pending = s.pending := rfl
@[simp] theorem raise_schedOf (s : State) (e : Event) (k : Bank) : (s.raise e).schedOf k = s.schedOf k := rfl
@[simp] theorem raise_driveOf (s : State) (e : Event) (k : Bank) : (s.raise e).driveOf k = s.driveOf k := rfl
@[simp] theorem raise_levelOf (s : State) (e : Event) (k : Bank) : (s.raise e).levelOf k = s.levelOf k := rfl
@[simp] theorem raise_supOf (s : State) (e : Event) (c : Cyl) : (s.raise e).supOf c = s.supOf c := rfl
@[simp] theorem raise_demandOf (s : State) (e : Event) (c : Cyl) : (s.raise e).demandOf c = s.demandOf c := rfl
@[simp] theorem raise_cylOf (s : State) (e : Event) (c : Cyl) : (s.raise e).cylOf c = s.cylOf c := rfl

/-! ### readSense -/

@[simp] theorem readSense_timebase (s : State) (j : Bank) (x : Byte) : (s.readSense j x).timebase = s.timebase := rfl
@[simp] theorem readSense_clock (s : State) (j : Bank) (x : Byte) : (s.readSense j x).clock = s.clock := rfl
@[simp] theorem readSense_tables (s : State) (j : Bank) (x : Byte) : (s.readSense j x).tables = s.tables := rfl
@[simp] theorem readSense_firing (s : State) (j : Bank) (x : Byte) : (s.readSense j x).firing = s.firing := rfl
@[simp] theorem readSense_demand (s : State) (j : Bank) (x : Byte) : (s.readSense j x).demand = s.demand := rfl
@[simp] theorem readSense_sched (s : State) (j : Bank) (x : Byte) : (s.readSense j x).sched = s.sched := rfl
@[simp] theorem readSense_level (s : State) (j : Bank) (x : Byte) : (s.readSense j x).level = s.level := rfl
@[simp] theorem readSense_nextRecharge (s : State) (j : Bank) (x : Byte) : (s.readSense j x).nextRecharge = s.nextRecharge := rfl
@[simp] theorem readSense_drive (s : State) (j : Bank) (x : Byte) : (s.readSense j x).drive = s.drive := rfl
@[simp] theorem readSense_sense (s : State) (j : Bank) (x : Byte) : (s.readSense j x).sense = s.sense.set j (some (s.timebase, s.senseValue j x)) := rfl
@[simp] theorem readSense_trace (s : State) (j : Bank) (x : Byte) : (s.readSense j x).trace = s.trace := rfl
@[simp] theorem readSense_supply (s : State) (j : Bank) (x : Byte) : (s.readSense j x).supply = s.supply := rfl
@[simp] theorem readSense_sup (s : State) (j : Bank) (x : Byte) : (s.readSense j x).sup = s.sup := rfl
@[simp] theorem readSense_service (s : State) (j : Bank) (x : Byte) : (s.readSense j x).service = s.service := rfl
@[simp] theorem readSense_events (s : State) (j : Bank) (x : Byte) : (s.readSense j x).events = s.events := rfl
@[simp] theorem readSense_link (s : State) (j : Bank) (x : Byte) : (s.readSense j x).link = s.link := rfl
@[simp] theorem readSense_pending (s : State) (j : Bank) (x : Byte) : (s.readSense j x).pending = s.pending := rfl
@[simp] theorem readSense_schedOf (s : State) (j : Bank) (x : Byte) (k : Bank) : (s.readSense j x).schedOf k = s.schedOf k := rfl
@[simp] theorem readSense_driveOf (s : State) (j : Bank) (x : Byte) (k : Bank) : (s.readSense j x).driveOf k = s.driveOf k := rfl
@[simp] theorem readSense_levelOf (s : State) (j : Bank) (x : Byte) (k : Bank) : (s.readSense j x).levelOf k = s.levelOf k := rfl
@[simp] theorem readSense_supOf (s : State) (j : Bank) (x : Byte) (c : Cyl) : (s.readSense j x).supOf c = s.supOf c := rfl
@[simp] theorem readSense_demandOf (s : State) (j : Bank) (x : Byte) (c : Cyl) : (s.readSense j x).demandOf c = s.demandOf c := rfl
@[simp] theorem readSense_cylOf (s : State) (j : Bank) (x : Byte) (c : Cyl) : (s.readSense j x).cylOf c = s.cylOf c := rfl

end Sys2Proof.Laws
end

