-- ==== Sys2Proof/Laws/Rel.lean ====
section
/-! SUPPORT. What the shared operations of the banks, the Planner and the tooth can reach. Each is a chain of a few
kinds of update, so a relation that is reflexive, transitive and closed under those kinds holds between the state
before and the state after: choose the relation, and the frame of every operation follows. -/

namespace Sys2Proof.Laws

open Sys2Proof.Machine

/-- A relation closed under the updates the bank operations are made of. -/
structure BankRel (R : State → State → Prop) : Prop where
  refl    : ∀ s, R s s
  trans   : ∀ {s t u}, R s t → R t u → R s u
  sched   : ∀ s k x, R s (s.setSched k x)
  drive   : ∀ s k x, R s (s.setDrive k x)
  level   : ∀ s k x, R s (s.setLevel k x)
  sup     : ∀ s c x, R s (s.setSup c x)
  event   : ∀ s e, R s (s.raise e)
  safe    : ∀ s, R s (goSafe s)
  swap    : ∀ s, R s s.takePendingSwap
  trace   : ∀ s x, R s (s.setTrace x)
  service : ∀ s : State, R s { s with service := none }

variable {R : State → State → Prop}

theorem foldl_rel {β : Type} (h : BankRel R) (f : State → β → State) (hf : ∀ s b, R s (f s b)) (l : List β)
    (s : State) : R s (l.foldl f s) := by
  induction l generalizing s with
  | nil => exact h.refl s
  | cons b l ih => exact h.trans (hf s b) (ih _)

theorem ite_rel (h : BankRel R) {s t : State} (p : Prop) [Decidable p] (ht : R s t) : R s (if p then t else s) := by
  split
  · exact ht
  · exact h.refl s

/-! ### Plans and reports -/

theorem publish_rel (h : BankRel R) (s : State) (c : Cyl) (p : Plan) : R s (publish s c p) := by
  unfold publish
  cases p.kind
  · exact h.sup _ _ _
  · exact h.trans (h.sup s c _) (h.service _)

theorem publishIfComplete_rel (h : BankRel R) (s : State) (c : Cyl) : R s (publishIfComplete s c) := by
  unfold publishIfComplete
  split
  · exact h.refl s
  · exact ite_rel h _ (publish_rel h s c _)

theorem writeOutcome_rel (h : BankRel R) (s : State) (c : Cyl) (tag : Byte) (o : PlaceOutcome) :
    R s (writeOutcome s c tag o) := by
  unfold writeOutcome
  split
  · exact h.refl s
  · exact h.trans (h.sup s c _) (publishIfComplete_rel h _ c)

theorem markDeferred_rel (h : BankRel R) (s : State) (c : Cyl) (tag : Byte) : R s (markDeferred s c tag) := by
  unfold markDeferred
  split
  · exact h.refl s
  · exact h.sup s c _

theorem drainTest_rel (h : BankRel R) (s : State) : R s (drainTest s) := ite_rel h _ (h.safe s)

/-! ### Removals and ends -/

theorem setQueue_rel (h : BankRel R) (s : State) (k : Bank) (q : List Shot) : R s (setQueue s k q) := h.sched s k _

theorem raiseIfShed_rel (h : BankRel R) (s : State) (o : ShotOutcome) : R s (raiseIfShed s o) :=
  ite_rel h _ (h.event s _)

theorem dropShot_rel (h : BankRel R) (k : Bank) (s : State) (t : Byte × ShotOutcome) : R s (dropShot k s t) := by
  unfold dropShot
  split
  · exact h.refl s
  · exact h.trans (h.sched s k _) (h.trans (raiseIfShed_rel h _ _)
      (h.trans (writeOutcome_rel h _ _ _ _) (drainTest_rel h _)))

theorem dropAll_rel (h : BankRel R) (k : Bank) (s : State) (l : List (Byte × ShotOutcome)) :
    R s (l.foldl (dropShot k) s) := foldl_rel h _ (fun s t => dropShot_rel h k s t) l s

theorem dropWithChain_rel (h : BankRel R) (k : Bank) (s : State) (tag : Byte) (o : ShotOutcome) :
    R s (dropWithChain k s tag o) := by
  unfold dropWithChain
  dsimp only
  split
  · exact h.refl s
  · exact dropAll_rel h k s _

theorem cancelShots_rel (h : BankRel R) (k : Bank) (s : State) (p : Shot → Bool) (o : ShotOutcome) :
    R s (cancelShots k s p o) := dropAll_rel h k s _

theorem discardTrack_rel (h : BankRel R) (s : State) (k : Bank) (c : Cyl) : R s (discardTrack s k c) := h.sched s k _

theorem creditRecup_rel (h : BankRel R) (s : State) (k : Bank) : R s (creditRecup s k) := h.level s k _

theorem countEnd_rel (h : BankRel R) (s : State) (c : Cyl) (o : ShotOutcome) : R s (countEnd s c o) := by
  unfold countEnd
  split
  · exact h.refl s
  · exact h.sup s c _

theorem followEnd_rel (h : BankRel R) (s : State) (k : Bank) (tag : Byte) (o : ShotOutcome) :
    R s (followEnd s k tag o) := by
  unfold followEnd
  split
  · exact h.sched s k _
  · exact ite_rel h _ (dropAll_rel h k s _)

theorem endPulse_rel (h : BankRel R) (k : Bank) (s : State) (o : ShotOutcome) (fault : Option FaultKind) :
    R s (endPulse k s o fault) := by
  unfold endPulse
  split
  · exact h.refl s
  · exact h.trans (creditRecup_rel h s k) (h.trans (h.drive _ k _) (h.trans (h.sched _ k _)
      (h.trans (writeOutcome_rel h _ _ _ _) (h.trans (countEnd_rel h _ _ _)
        (h.trans (followEnd_rel h _ _ _ _) (drainTest_rel h _))))))

/-! ### Starts, deferral, the arbiter -/

theorem traceStart_rel (h : BankRel R) (s : State) (k : Bank) (c : Cyl) : R s (traceStart s k c) :=
  ite_rel h _ (h.trace s _)

theorem openPulse_rel (h : BankRel R) (k : Bank) (s : State) (x : Shot) (d : Bool) : R s (openPulse k s x d) :=
  h.trans (h.sched s k _) (h.trans (h.drive _ k _) (traceStart_rel h _ k _))

theorem attemptStart_rel (h : BankRel R) (k : Bank) (s : State) (x : Shot) : R s (attemptStart k s x).1 := by
  unfold attemptStart
  split
  · exact dropWithChain_rel h k s _ _
  · exact h.trans (h.level s k _) (openPulse_rel h k _ x _)
  · exact openPulse_rel h k s x _

theorem deferShot_rel (h : BankRel R) (k : Bank) (s : State) (tag : Byte) : R s (deferShot k s tag) := by
  unfold deferShot
  split
  · exact h.refl s
  · dsimp only
    split
    · refine h.trans ?_ (dropWithChain_rel h k _ _ _)
      exact h.trans (setQueue_rel h s k _) (markDeferred_rel h _ _ _)
    · exact h.trans (setQueue_rel h s k _) (markDeferred_rel h _ _ _)

theorem deferRest_rel (h : BankRel R) (k : Bank) (s : State) : R s (deferRest k s) :=
  foldl_rel h _ (fun s t => deferShot_rel h k s t) _ s

theorem arbitrate_rel (h : BankRel R) (n : Nat) (k : Bank) (s : State) : R s (arbitrate n k s) := by
  induction n generalizing s with
  | zero => exact h.refl s
  | succ n ih =>
    unfold arbitrate
    split
    · exact h.refl s
    · rename_i x _
      have hx := attemptStart_rel h k s x
      split
      · rename_i s' heq
        rw [heq] at hx
        exact h.trans hx (deferRest_rel h k s')
      · rename_i s' heq
        rw [heq] at hx
        exact h.trans hx (ih s')

theorem runArbiter_rel (h : BankRel R) (k : Bank) (s : State) : R s (runArbiter k s) :=
  ite_rel h _ (arbitrate_rel h _ k s)

theorem endGap_rel (h : BankRel R) (k : Bank) (s : State) : R s (endGap k s) :=
  h.trans (h.sched s k _) (h.trans (h.drive _ k _) (runArbiter_rel h k _))

theorem settleGap_rel (h : BankRel R) (k : Bank) (s : State) : R s (settleGap k s) := ite_rel h _ (endGap_rel h k s)

theorem markWaiting_rel (h : BankRel R) (k : Bank) (s : State) (tag : Byte) : R s (markWaiting k s tag) :=
  setQueue_rel h s k _

theorem takeOneDue_rel (h : BankRel R) (k : Bank) (s : State) (tag : Byte) : R s (takeOneDue k s tag) := by
  unfold takeOneDue
  split
  · exact h.refl s
  · split
    · exact dropWithChain_rel h k s _ _
    · refine h.trans (markWaiting_rel h k s tag) ?_
      dsimp only
      split
      · exact runArbiter_rel h k _
      · split
        · exact h.trans (endPulse_rel h k _ _ _) (settleGap_rel h k _)
        · exact deferShot_rel h k _ tag

theorem takeTogether_rel (h : BankRel R) (k : Bank) (s : State) (tags : List Byte) : R s (takeTogether k s tags) := by
  unfold takeTogether
  dsimp only
  refine h.trans ?_ (runArbiter_rel h k _)
  refine h.trans ?_ (foldl_rel h _ (fun s t => markWaiting_rel h k s t) _ _)
  exact foldl_rel h _ (fun s t => dropWithChain_rel h k s t _) _ s

theorem takeDue_rel (h : BankRel R) (k : Bank) (s : State) (tags : List Byte) : R s (takeDue k s tags) := by
  unfold takeDue
  split
  · exact takeTogether_rel h k s tags
  · exact foldl_rel h _ (fun s t => takeOneDue_rel h k s t) _ s

/-! ### Closes, cancellations, faults -/

theorem closeTrack_rel (h : BankRel R) (k : Bank) (s : State) (c : Cyl) : R s (closeTrack k s c) := by
  unfold closeTrack
  dsimp only
  refine h.trans ?_ (settleGap_rel h k _)
  refine h.trans ?_ (discardTrack_rel h _ k c)
  refine h.trans ?_ (dropAll_rel h k _ _)
  exact ite_rel h _ (endPulse_rel h k s _ _)

theorem cancelBank_rel (h : BankRel R) (k : Bank) (s : State) (o : ShotOutcome) : R s (cancelBank k s o) :=
  h.trans (cancelShots_rel h k s _ o) (h.trans (endPulse_rel h k _ o none)
    (h.trans (h.sched _ k _) (settleGap_rel h k _)))

theorem cancelCylinder_rel (h : BankRel R) (k : Bank) (s : State) (c : Cyl) (o : ShotOutcome) :
    R s (cancelCylinder k s c o) := h.trans (cancelShots_rel h k s _ o) (discardTrack_rel h _ k c)

theorem cutCylinder_rel (h : BankRel R) (k : Bank) (s : State) (c : Cyl) : R s (cutCylinder k s c) := by
  unfold cutCylinder
  dsimp only
  refine h.trans ?_ (settleGap_rel h k _)
  refine h.trans ?_ (discardTrack_rel h _ k c)
  exact h.trans (cancelShots_rel h k s _ _) (ite_rel h _ (endPulse_rel h k _ _ _))

theorem abortChain_rel (h : BankRel R) (k : Bank) (s : State) (c : Cyl) : R s (abortChain k s c) := by
  unfold abortChain
  dsimp only
  refine h.trans ?_ (settleGap_rel h k _)
  exact h.trans (cancelShots_rel h k s _ _) (ite_rel h _ (endPulse_rel h k _ _ _))

theorem lockOut_rel (h : BankRel R) (k : Bank) (s : State) (c : Cyl) : R s (lockOut k s c) :=
  h.trans (h.sup s c _) (h.trans (h.event _ _) (cancelCylinder_rel h k _ c _))

theorem takeFault_rel (h : BankRel R) (k : Bank) (s : State) (c : Cyl) (kind : FaultKind) :
    R s (takeFault k s c kind) := by
  unfold takeFault
  dsimp only
  refine h.trans ?_ (h.sup _ c _)
  exact h.trans (h.sup s c _) (ite_rel h _ (lockOut_rel h k _ c))

theorem injectorFault_rel (h : BankRel R) (k : Bank) (s : State) (kind : FaultKind) : R s (injectorFault k s kind) := by
  unfold injectorFault
  split
  · exact h.refl s
  · exact h.trans (h.event s _) (h.trans (endPulse_rel h k _ _ _) (h.trans (cancelCylinder_rel h k _ _ _)
      (h.trans (takeFault_rel h k _ _ _) (settleGap_rel h k _))))

/-! ### The Planner -/

theorem addPlace_rel (h : BankRel R) (s : State) (x : Shot) : R s (addPlace s x) := by
  unfold addPlace
  split
  · exact h.refl s
  · exact h.sup s _ _

theorem shedAtPlacement_rel (h : BankRel R) (k : Bank) (s : State) (x : Shot) : R s (shedAtPlacement k s x) :=
  h.trans (h.sched s k _) (h.trans (h.event _ _) (writeOutcome_rel h _ _ _ _))

theorem placeShot_rel (h : BankRel R) (k : Bank) (s : State) (a : Nat) (x : Shot) : R s (placeShot k s a x).1 := by
  unfold placeShot
  refine h.trans (addPlace_rel h s x) ?_
  dsimp only
  split
  · exact h.sched _ k _
  · split
    · exact shedAtPlacement_rel h k _ x
    · split
      · exact h.trans (dropWithChain_rel h k _ _ _) (h.sched _ k _)
      · exact shedAtPlacement_rel h k _ x

theorem create_rel (h : BankRel R) (r : PlanRun) (i : PlanInput) (en rep : Nat) (e : PatternEntry) (a : Anchor)
    (w t : Nat) (f : ShotFlags) : R r.state (r.create i en rep e a w t f).state := placeShot_rel h _ _ _ _

theorem createChained_rel (h : BankRel R) {r r' : PlanRun} {i : PlanInput} {en rep : Nat} {e : PatternEntry}
    {g t : Nat} {f : ShotFlags} (hr : r.createChained i en rep e g t f = some r') : R r.state r'.state := by
  unfold PlanRun.createChained at hr
  split at hr
  · cases hr
  · split at hr
    · cases hr
    · cases hr
      exact create_rel h r _ _ _ _ _ _ _ _

theorem repeats_rel (h : BankRel R) (i : PlanInput) (en : Nat) (e : PatternEntry) (t : Nat) (f : ShotFlags)
    (n rep : Nat) (r : PlanRun) : R r.state (PlanRun.repeats i en e t f n rep r).state := by
  induction n generalizing rep r with
  | zero => exact h.refl _
  | succ n ih =>
    unfold PlanRun.repeats
    split
    · exact h.refl _
    · rename_i hr
      exact h.trans (createChained_rel h hr) (ih _ _)

theorem first_rel (h : BankRel R) {r r' : PlanRun} {i : PlanInput} {en : Nat} {e : PatternEntry} {t : Nat}
    {f : ShotFlags} (hr : r.first i en e t f = some r') : R r.state r'.state := by
  unfold PlanRun.first at hr
  split at hr
  · exact createChained_rel h hr
  · split at hr
    · cases hr
    · split at hr
      · cases hr
      · cases hr
        exact create_rel h r _ _ _ _ _ _ _ _

theorem entry_rel (h : BankRel R) (i : PlanInput) (en : Nat) (e : PatternEntry) (r : PlanRun) :
    R r.state (PlanRun.entry i en e r).state := by
  unfold PlanRun.entry
  split
  · exact h.refl _
  · split
    · exact h.refl _
    · split
      · exact h.refl _
      · rename_i hr
        exact h.trans (first_rel h hr) (repeats_rel h _ _ _ _ _ _ _ _)

theorem entries_rel (h : BankRel R) (i : PlanInput) (n : Nat) (es : List PatternEntry) (r : PlanRun) :
    R r.state (PlanRun.entries i n es r).state := by
  induction es generalizing n r with
  | nil => exact h.refl _
  | cons e es ih => exact h.trans (entry_rel h i n e r) (ih _ _)

theorem openTrack_rel (h : BankRel R) (k : Bank) (s : State) (c : Cyl) : R s (openTrack k s c) :=
  h.trans (discardTrack_rel h s k c) (h.sched _ k _)

theorem finishPlan_rel (h : BankRel R) (s : State) (c : Cyl) : R s (finishPlan s c) := by
  unfold finishPlan
  split
  · exact h.refl s
  · exact h.trans (h.sup s c _) (publishIfComplete_rel h _ c)

theorem planShots_rel (h : BankRel R) (s : State) (c : Cyl) (d : Option ActiveDemand) (t : ToothReport) :
    R s (planShots s c d t) := by
  unfold planShots
  split
  · exact finishPlan_rel h s c
  · rename_i d
    have hr := entries_rel h (planInput s c d.demand t) 0 (entriesToPlan s c (some d))
      { state := s, last := none, queued := false }
    dsimp only at hr ⊢
    split
    · exact h.trans hr (h.trans (openTrack_rel h _ _ c) (finishPlan_rel h _ c))
    · exact h.trans hr (finishPlan_rel h _ c)

/-! ### The tooth -/

theorem signalStarved_rel (h : BankRel R) (s : State) (c : Cyl) (was now : Bool) : R s (signalStarved s c was now) := by
  unfold signalStarved
  split
  · dsimp only
    split
    · exact h.sup s c _
    · exact h.trans (h.sup s c _) (h.event _ _)
  · exact h.refl s

theorem freeze_rel (h : BankRel R) (hd : ∀ s c x, R s (s.setDemand c x)) (r : ToothReport) (s : State) (c : Cyl) :
    R s (freeze r s c) :=
  h.trans (hd s c _) (h.trans (signalStarved_rel h _ c _ _) (h.trans (h.sup _ c _) (planShots_rel h _ c _ r)))

theorem freezes_rel (h : BankRel R) (hd : ∀ s c x, R s (s.setDemand c x)) (r : ToothReport) (s : State) :
    R s (freezes r s) := ite_rel h _ (foldl_rel h _ (fun s c => freeze_rel h hd r s c) _ s)

theorem bothBanks_rel (h : BankRel R) {f : Bank → State → State} (hf : ∀ k s, R s (f k s)) (s : State) :
    R s (bothBanks f s) := h.trans (hf .bankA s) (hf .bankB _)

theorem timeShots_rel (h : BankRel R) (r : ToothReport) (k : Bank) (s : State) : R s (timeShots r k s) := h.sched s k _

theorem dueAtTooth_rel (h : BankRel R) (k : Bank) (s : State) : R s (dueAtTooth k s) := by
  unfold dueAtTooth
  split
  · exact foldl_rel h _ (fun s t => markWaiting_rel h k s t) _ s
  · exact takeDue_rel h k s _

theorem duePast_rel (h : BankRel R) (k : Bank) (s : State) : R s (duePast k s) := takeDue_rel h k s _

theorem closeAtTooth_rel (h : BankRel R) (k : Bank) (s : State) : R s (closeAtTooth k s) :=
  foldl_rel h _ (fun s c => closeTrack_rel h k s c) _ s

theorem reachTracks_rel (h : BankRel R) (r : ToothReport) (k : Bank) (s : State) : R s (reachTracks r k s) :=
  h.trans (h.sched s k _) (foldl_rel h _ (fun s c => closeTrack_rel h k s c) _ _)

theorem settleOld_rel (h : BankRel R) (tie : TieOrder) (s : State) : R s (settleOld tie s) := by
  cases tie
  · exact bothBanks_rel h (dueAtTooth_rel h) s
  · exact h.trans (bothBanks_rel h (closeAtTooth_rel h) s) (bothBanks_rel h (dueAtTooth_rel h) _)

theorem settleNew_rel (h : BankRel R) (tie : TieOrder) (r : ToothReport) (s : State) : R s (settleNew tie r s) := by
  unfold settleNew
  dsimp only
  refine h.trans (bothBanks_rel h (timeShots_rel h r) s) ?_
  cases tie
  · exact h.trans (bothBanks_rel h (duePast_rel h) _)
      (h.trans (bothBanks_rel h (closeAtTooth_rel h) _) (bothBanks_rel h (reachTracks_rel h r) _))
  · exact h.trans (bothBanks_rel h (reachTracks_rel h r) _) (bothBanks_rel h (duePast_rel h) _)

theorem endServiceByMotion_rel (h : BankRel R) (s : State) : R s (endServiceByMotion s) := by
  unfold endServiceByMotion
  split
  · exact h.refl s
  · exact abortChain_rel h _ s _

theorem handOn_rel (h : BankRel R) (hd : ∀ s c x, R s (s.setDemand c x)) (tie : TieOrder) (kind : ToothKind)
    (left : Bool) (s : State) : R s (handOn tie kind left s) := by
  unfold handOn
  generalize toothReport s.tables.wheel s.clock kind left = r
  dsimp only
  have h1 : R s (if r.marker = true then s.takePendingSwap else s) := ite_rel h _ (h.swap s)
  generalize (if r.marker = true then s.takePendingSwap else s) = s1 at h1 ⊢
  have h2 : R s (if r.leftStalled = true then endServiceByMotion s1 else s1) :=
    h.trans h1 (ite_rel h _ (endServiceByMotion_rel h s1))
  split
  · refine h.trans ?_ (settleNew_rel h tie _ _)
    refine h.trans ?_ (freezes_rel h hd _ _)
    exact h.trans h2 (settleOld_rel h tie _)
  · exact h2

theorem departFullSync_rel (h : BankRel R) (s : State) : R s (departFullSync s) :=
  h.trans (h.event s _) (h.trans (cancelBank_rel h .bankA _ _) (h.trans (cancelBank_rel h .bankB _ _) (h.swap _)))

end Sys2Proof.Laws
end

