-- ==== Sys2Proof/Laws/Bank.lean ====
section
/-! SUPPORT. What a removal, an outcome and a drain test change, field by field. -/

namespace Sys2Proof.Laws

open Sys2Proof.Machine

/-! ### Outcomes -/

/-- An outcome reaches the Supervisor alone. -/
theorem writeOutcome_eq (s : State) (c : Cyl) (tag : Byte) (o : PlaceOutcome) :
    writeOutcome s c tag o =
      { s with sup := (writeOutcome s c tag o).sup, service := (writeOutcome s c tag o).service } := by
  unfold writeOutcome publishIfComplete
  split
  · rfl
  · split
    · rfl
    · split
      · unfold publish
        dsimp only
        split <;> rfl
      · rfl

@[simp] theorem writeOutcome_sched (s : State) (c : Cyl) (tag : Byte) (o : PlaceOutcome) :
    (writeOutcome s c tag o).sched = s.sched := by rw [writeOutcome_eq]
@[simp] theorem writeOutcome_drive (s : State) (c : Cyl) (tag : Byte) (o : PlaceOutcome) :
    (writeOutcome s c tag o).drive = s.drive := by rw [writeOutcome_eq]
@[simp] theorem writeOutcome_level (s : State) (c : Cyl) (tag : Byte) (o : PlaceOutcome) :
    (writeOutcome s c tag o).level = s.level := by rw [writeOutcome_eq]
@[simp] theorem writeOutcome_clock (s : State) (c : Cyl) (tag : Byte) (o : PlaceOutcome) :
    (writeOutcome s c tag o).clock = s.clock := by rw [writeOutcome_eq]
@[simp] theorem writeOutcome_tables (s : State) (c : Cyl) (tag : Byte) (o : PlaceOutcome) :
    (writeOutcome s c tag o).tables = s.tables := by rw [writeOutcome_eq]
@[simp] theorem writeOutcome_firing (s : State) (c : Cyl) (tag : Byte) (o : PlaceOutcome) :
    (writeOutcome s c tag o).firing = s.firing := by rw [writeOutcome_eq]
@[simp] theorem writeOutcome_events (s : State) (c : Cyl) (tag : Byte) (o : PlaceOutcome) :
    (writeOutcome s c tag o).events = s.events := by rw [writeOutcome_eq]
@[simp] theorem writeOutcome_timebase (s : State) (c : Cyl) (tag : Byte) (o : PlaceOutcome) :
    (writeOutcome s c tag o).timebase = s.timebase := by rw [writeOutcome_eq]

/-! ### The drain test -/

@[simp] theorem takePendingSwap_sched (s : State) : s.takePendingSwap.sched = s.sched := by
  unfold State.takePendingSwap; split <;> rfl
@[simp] theorem takePendingSwap_drive (s : State) : s.takePendingSwap.drive = s.drive := by
  unfold State.takePendingSwap; split <;> rfl
@[simp] theorem takePendingSwap_level (s : State) : s.takePendingSwap.level = s.level := by
  unfold State.takePendingSwap; split <;> rfl
@[simp] theorem takePendingSwap_firing (s : State) : s.takePendingSwap.firing = s.firing := by
  unfold State.takePendingSwap; split <;> rfl
@[simp] theorem takePendingSwap_clock (s : State) : s.takePendingSwap.clock = s.clock := by
  unfold State.takePendingSwap; split <;> rfl
@[simp] theorem takePendingSwap_limits (s : State) : s.takePendingSwap.tables.limits = s.tables.limits := by
  unfold State.takePendingSwap; split <;> rfl
@[simp] theorem takePendingSwap_pending (s : State) : s.takePendingSwap.tables.swapPending = false := by
  unfold State.takePendingSwap
  split
  · rfl
  · rename_i h
    simpa using h

@[simp] theorem goSafe_sched (s : State) : (goSafe s).sched = s.sched := takePendingSwap_sched _
@[simp] theorem goSafe_drive (s : State) : (goSafe s).drive = s.drive := takePendingSwap_drive _
@[simp] theorem goSafe_level (s : State) : (goSafe s).level = s.level := takePendingSwap_level _
@[simp] theorem goSafe_firing (s : State) : (goSafe s).firing = .safe := takePendingSwap_firing _
@[simp] theorem goSafe_clock (s : State) : (goSafe s).clock = s.clock := takePendingSwap_clock _
@[simp] theorem goSafe_limits (s : State) : (goSafe s).tables.limits = s.tables.limits := takePendingSwap_limits _

@[simp] theorem drainTest_sched (s : State) : (drainTest s).sched = s.sched := by
  unfold drainTest; split
  · exact goSafe_sched s
  · rfl
@[simp] theorem drainTest_drive (s : State) : (drainTest s).drive = s.drive := by
  unfold drainTest; split
  · exact goSafe_drive s
  · rfl
@[simp] theorem drainTest_level (s : State) : (drainTest s).level = s.level := by
  unfold drainTest; split
  · exact goSafe_level s
  · rfl
@[simp] theorem drainTest_limits (s : State) : (drainTest s).tables.limits = s.tables.limits := by
  unfold drainTest; split
  · exact goSafe_limits s
  · rfl

/-- Away from DRAINING the drain test does nothing. -/
theorem drainTest_of_ne {s : State} (h : s.firing ≠ .draining) : drainTest s = s := if_neg fun x => h x.1

/-- R48: after the drain test the part is not DRAINING with nothing left. -/
theorem drainTest_drainAgrees (s : State) : (drainTest s).firing = .draining → drained (drainTest s) = false := by
  unfold drainTest
  split
  · intro h; rw [goSafe_firing] at h; cases h
  · rename_i h
    intro hd
    simpa [hd] using h

/-- The firing state after a drain test: as it was, or SAFE out of DRAINING with both banks empty. -/
theorem drainTest_firing (s : State) :
    (drainTest s).firing = s.firing ∨ ((drainTest s).firing = .safe ∧ s.firing = .draining ∧ drained s = true) := by
  unfold drainTest
  split
  · exact .inr ⟨goSafe_firing s, ‹_›⟩
  · exact .inl rfl

/-! ### One removal -/

@[simp] theorem raiseIfShed_sched (s : State) (o : ShotOutcome) : (raiseIfShed s o).sched = s.sched := by
  unfold raiseIfShed; split <;> rfl
@[simp] theorem raiseIfShed_drive (s : State) (o : ShotOutcome) : (raiseIfShed s o).drive = s.drive := by
  unfold raiseIfShed; split <;> rfl
@[simp] theorem raiseIfShed_level (s : State) (o : ShotOutcome) : (raiseIfShed s o).level = s.level := by
  unfold raiseIfShed; split <;> rfl
@[simp] theorem raiseIfShed_firing (s : State) (o : ShotOutcome) : (raiseIfShed s o).firing = s.firing := by
  unfold raiseIfShed; split <;> rfl
@[simp] theorem raiseIfShed_limits (s : State) (o : ShotOutcome) :
    (raiseIfShed s o).tables.limits = s.tables.limits := by unfold raiseIfShed; split <;> rfl

/-- R112, R113: the scheduler after one removal. -/
def droppedFrom (q : Sched) (t : Byte × ShotOutcome) : Sched :=
  match findShot t.1 q.queue with
  | none => q
  | some _ => { q.countRemoval t.2 with queue := eraseShot t.1 q.queue }

theorem dropShot_sched (k : Bank) (s : State) (t : Byte × ShotOutcome) :
    (dropShot k s t).sched = s.sched.set k (droppedFrom (s.schedOf k) t) := by
  unfold dropShot droppedFrom
  cases h : findShot t.1 (s.schedOf k).queue with
  | none => exact (banks_set_get _ _).symm
  | some x =>
    dsimp only
    rw [drainTest_sched, writeOutcome_sched, raiseIfShed_sched]
    rfl

theorem dropShot_drive (k : Bank) (s : State) (t : Byte × ShotOutcome) : (dropShot k s t).drive = s.drive := by
  unfold dropShot
  split
  · rfl
  · dsimp only
    rw [drainTest_drive, writeOutcome_drive, raiseIfShed_drive]
    rfl

theorem dropShot_level (k : Bank) (s : State) (t : Byte × ShotOutcome) : (dropShot k s t).level = s.level := by
  unfold dropShot
  split
  · rfl
  · dsimp only
    rw [drainTest_level, writeOutcome_level, raiseIfShed_level]
    rfl

theorem dropShot_limits (k : Bank) (s : State) (t : Byte × ShotOutcome) :
    (dropShot k s t).tables.limits = s.tables.limits := by
  unfold dropShot
  split
  · rfl
  · dsimp only
    rw [drainTest_limits, writeOutcome_tables, raiseIfShed_limits]
    rfl

theorem dropShot_schedOf (j k : Bank) (s : State) (t : Byte × ShotOutcome) :
    (dropShot k s t).schedOf j = if j = k then droppedFrom (s.schedOf k) t else s.schedOf j := by
  show (dropShot k s t).sched.get j = _
  rw [dropShot_sched, banks_get_set]
  rfl

theorem dropShot_cond (j k : Bank) (s : State) (t : Byte × ShotOutcome) :
    ((dropShot k s t).schedOf j).cond = (s.schedOf j).cond := by
  rw [dropShot_schedOf]
  split
  · subst_vars
    unfold droppedFrom
    split
    · rfl
    · simp only [Sched.countRemoval]
      split <;> rfl
  · rfl

/-- R113: a removal takes one shot and counts one, or finds none. -/
theorem droppedFrom_length (q : Sched) (t : Byte × ShotOutcome) :
    (findShot t.1 q.queue = none ∧ droppedFrom q t = q) ∨
    ((droppedFrom q t).queue.length + 1 = q.queue.length ∧ (droppedFrom q t).placed = q.placed ∧
      (droppedFrom q t).started = q.started ∧
      (droppedFrom q t).shed + (droppedFrom q t).cancelled = q.shed + q.cancelled + 1) := by
  unfold droppedFrom
  split
  · rename_i h
    exact .inl ⟨h, rfl⟩
  · rename_i x h
    right
    have hm := List.mem_of_find?_eq_some h
    have hp := List.find?_some h
    have hl : (eraseShot t.1 q.queue).length = q.queue.length - 1 :=
      List.length_eraseP_of_mem (a := x) hm (by simpa using hp)
    have hpos : 0 < q.queue.length := List.length_pos_of_mem hm
    refine ⟨?_, ?_, ?_, ?_⟩
    · show (eraseShot t.1 q.queue).length + 1 = _
      omega
    · simp only [Sched.countRemoval]; split <;> rfl
    · simp only [Sched.countRemoval]; split <;> rfl
    · simp only [Sched.countRemoval]
      split
      · show q.shed + 1 + q.cancelled = _
        rw [BitVec.add_assoc, BitVec.add_comm 1, ← BitVec.add_assoc]
      · show q.shed + (q.cancelled + 1) = _
        rw [BitVec.add_assoc]

/-- A removal leaves a part of the queue and nothing else of the scheduler but the counters. -/
theorem droppedFrom_sublist (q : Sched) (t : Byte × ShotOutcome) :
    (droppedFrom q t).queue.Sublist q.queue ∧ (droppedFrom q t).active = q.active ∧
    (droppedFrom q t).tracks = q.tracks ∧ (droppedFrom q t).cond = q.cond ∧ (droppedFrom q t).lastEnd = q.lastEnd ∧
    (droppedFrom q t).nextTag = q.nextTag := by
  unfold droppedFrom
  split
  · exact ⟨List.Sublist.refl _, rfl, rfl, rfl, rfl, rfl⟩
  · refine ⟨List.eraseP_sublist, ?_⟩
    simp only [Sched.countRemoval]
    split <;> exact ⟨rfl, rfl, rfl, rfl, rfl⟩

end Sys2Proof.Laws
end

