-- ==== Sys2Proof/Laws/Outcomes.lean ====
section
/-! SUPPORT. Several removals and several outcomes at once: what a list of outcomes leaves at the Supervisor,
what a list of removals leaves of a bank. -/

namespace Sys2Proof.Laws

open Sys2Proof.Machine

/-! ### Outcomes at the Supervisor -/

/-- Outcomes written one after another. -/
def tellAll (s : State) (os : List (Cyl × Byte × PlaceOutcome)) : State :=
  os.foldl (fun s x => writeOutcome s x.1 x.2.1 x.2.2) s

@[simp] theorem tellAll_nil (s : State) : tellAll s [] = s := rfl
@[simp] theorem tellAll_cons (s : State) (x : Cyl × Byte × PlaceOutcome) (os) :
    tellAll s (x :: os) = tellAll (writeOutcome s x.1 x.2.1 x.2.2) os := rfl
theorem tellAll_append (s : State) (xs ys) : tellAll s (xs ++ ys) = tellAll (tellAll s xs) ys := List.foldl_append

theorem fillPlaces_full (tag : Byte) (o : PlaceOutcome) (ps : List Place)
    (h : ps.all (fun x => x.outcome.isSome) = true) : fillPlaces tag o ps = ps := by
  induction ps with
  | nil => rfl
  | cons p ps ih =>
    simp only [List.all_cons, Bool.and_eq_true] at h
    unfold fillPlaces
    rw [ih h.2, if_neg]
    rintro ⟨_, hn⟩
    rw [hn] at h
    exact absurd h.1 (by simp)

theorem filled_complete (p : Plan) (os : List (Byte × PlaceOutcome)) (h : p.complete = true) : p.filled os = p := by
  have hp : p.places.all (fun x => x.outcome.isSome) = true := by
    unfold Plan.complete at h
    exact (Bool.and_eq_true _ _ ▸ h).2
  have : os.foldl (fun ps x => fillPlaces x.1 x.2 ps) p.places = p.places := by
    induction os with
    | nil => rfl
    | cons x os ih => rw [List.foldl_cons, fillPlaces_full _ _ _ hp, ih]
  unfold Plan.filled
  rw [this]

@[simp] theorem filled_nil (p : Plan) : p.filled [] = p := rfl
theorem filled_cons (p : Plan) (x : Byte × PlaceOutcome) (os) : p.filled (x :: os) = (p.filled [x]).filled os := rfl

@[simp] theorem told_nil (x : CylSup) : x.told [] = x := by
  unfold CylSup.told
  split <;> rfl

theorem told_cons (x : CylSup) (a : Byte × PlaceOutcome) (os) : x.told (a :: os) = (x.told [a]).told os := by
  rcases hx : x.plan with _ | p
  · simp only [CylSup.told, hx]
  · by_cases hc : (p.filled [a]).complete = true
    · have h2 : (p.filled (a :: os)) = p.filled [a] := by rw [filled_cons, filled_complete _ _ hc]
      simp [CylSup.told, hx, hc, h2]
    · rcases os with _ | ⟨b, os⟩
      · simp
      · simp only [CylSup.told, hx, List.isEmpty_cons, Bool.false_eq_true, if_false, hc]
        rw [filled_cons]

@[simp] theorem serviceDone_nil (x : CylSup) : x.serviceDone [] = false := by
  unfold CylSup.serviceDone
  split <;> simp

theorem serviceDone_cons (x : CylSup) (a : Byte × PlaceOutcome) (os) :
    x.serviceDone (a :: os) = (x.serviceDone [a] || (x.told [a]).serviceDone os) := by
  rcases hx : x.plan with _ | p
  · simp [CylSup.told, CylSup.serviceDone, hx]
  · have hk : (p.filled [a]).kind = p.kind := rfl
    by_cases hc : (p.filled [a]).complete = true
    · have h2 : (p.filled (a :: os)) = p.filled [a] := by rw [filled_cons, filled_complete _ _ hc]
      simp [CylSup.told, CylSup.serviceDone, hx, hc, h2]
    · rcases os with _ | ⟨b, os⟩
      · simp
      · simp only [CylSup.told, CylSup.serviceDone, hx, List.isEmpty_cons, Bool.false_eq_true, if_false, hc, hk]
        rw [filled_cons]
        simp

/-- An outcome reaches the plan of its cylinder. -/
theorem writeOutcome_told (s : State) (c : Cyl) (tag : Byte) (o : PlaceOutcome) :
    writeOutcome s c tag o = { s with
      sup := s.sup.set c ((s.supOf c).told [(tag, o)])
      service := if (s.supOf c).serviceDone [(tag, o)] = true then none else s.service } := by
  unfold writeOutcome
  rcases hp : (s.supOf c).plan with _ | p
  · have h1 : (s.supOf c).told [(tag, o)] = s.sup.get c := by simp only [CylSup.told, hp]; rfl
    have h2 : (s.supOf c).serviceDone [(tag, o)] = false := by simp only [CylSup.serviceDone, hp]
    rw [h1, h2, cyls_set_get]
    rfl
  · have hset : ((setPlan s c (some (p.filled [(tag, o)]))).supOf c).plan = some (p.filled [(tag, o)]) := by
      show (((s.sup.set c _).get c).plan) = _
      rw [cyls_get_set_same]
    have hpl : ({ p with places := fillPlaces tag o p.places } : Plan) = p.filled [(tag, o)] := rfl
    dsimp only
    rw [hpl]
    unfold publishIfComplete
    rw [hset]
    dsimp only
    have hsup : (setPlan s c (some (p.filled [(tag, o)]))).supOf c =
        { s.supOf c with plan := some (p.filled [(tag, o)]) } := by
      show (s.sup.set c _).get c = _
      rw [cyls_get_set_same]
    by_cases hc : (p.filled [(tag, o)]).complete = true
    · rw [if_pos hc]
      unfold publish
      rw [hsup]
      have hk : (p.filled [(tag, o)]).kind = p.kind := rfl
      have ht : (s.supOf c).told [(tag, o)] = { s.supOf c with
          plan := none, report := some (p.filled [(tag, o)]).report
          code := if (p.filled [(tag, o)]).summary = .none then (s.supOf c).code
                  else (p.filled [(tag, o)]).summary } := by
        simp [CylSup.told, hp, hc]
      have hd : (s.supOf c).serviceDone [(tag, o)] = (p.kind == .service) := by
        simp [CylSup.serviceDone, hp, hc]
      rw [ht, hd, hk]
      simp only [codeAfter]
      cases p.kind <;> simp [State.setSup, setPlan, cyls_set_set]
    · rw [if_neg hc]
      have ht : (s.supOf c).told [(tag, o)] = { s.supOf c with plan := some (p.filled [(tag, o)]) } := by
        simp [CylSup.told, hp, hc]
      have hd : (s.supOf c).serviceDone [(tag, o)] = false := by
        simp [CylSup.serviceDone, hp, hc]
      rw [ht, hd]
      rfl

theorem supOf_writeOutcome (s : State) (c d : Cyl) (tag : Byte) (o : PlaceOutcome) :
    (writeOutcome s c tag o).supOf d = if d = c then (s.supOf c).told [(tag, o)] else s.supOf d := by
  rw [writeOutcome_told]
  exact cyls_get_set _ _ _ _

/-- An outcome reads and changes nothing but the Supervisor. -/
theorem writeOutcome_sup_congr {s t : State} (hs : t.sup = s.sup) (hv : t.service = s.service) (c : Cyl) (tag : Byte)
    (o : PlaceOutcome) :
    writeOutcome t c tag o =
      { t with sup := (writeOutcome s c tag o).sup, service := (writeOutcome s c tag o).service } := by
  have : t.supOf c = s.supOf c := by show t.sup.get c = s.sup.get c; rw [hs]
  rw [writeOutcome_told, writeOutcome_told, this, hs, hv]

theorem tellAll_sup_congr {s t : State} (hs : t.sup = s.sup) (hv : t.service = s.service) (os) :
    tellAll t os = { t with sup := (tellAll s os).sup, service := (tellAll s os).service } := by
  induction os generalizing s t with
  | nil => cases t; cases hs; cases hv; rfl
  | cons x os ih =>
    rw [tellAll_cons, tellAll_cons]
    have h := writeOutcome_sup_congr hs hv x.1 x.2.1 x.2.2
    rw [ih (s := writeOutcome s x.1 x.2.1 x.2.2) (by rw [h]) (by rw [h]), h]

/-- Outcomes written one after another change the Supervisor alone. -/
theorem tellAll_eq (s : State) (os) :
    tellAll s os = { s with sup := (tellAll s os).sup, service := (tellAll s os).service } :=
  tellAll_sup_congr rfl rfl os

@[simp] theorem tellAll_sched (s : State) (os) : (tellAll s os).sched = s.sched := by rw [tellAll_eq]
@[simp] theorem tellAll_firing (s : State) (os) : (tellAll s os).firing = s.firing := by rw [tellAll_eq]
@[simp] theorem tellAll_tables (s : State) (os) : (tellAll s os).tables = s.tables := by rw [tellAll_eq]
@[simp] theorem tellAll_timebase (s : State) (os) : (tellAll s os).timebase = s.timebase := by rw [tellAll_eq]

theorem outcomesOf_cons (x : Cyl × Byte × PlaceOutcome) (os) (c : Cyl) :
    outcomesOf (x :: os) c = if x.1 = c then x.2 :: outcomesOf os c else outcomesOf os c := by
  unfold outcomesOf
  by_cases h : x.1 = c <;> simp [h]

/-- What a list of outcomes does: each cylinder is told those that name it, and a service chain they complete ends. -/
theorem tellAll_told (s : State) (os) : outcomesTold s (tellAll s os) os := by
  induction os generalizing s with
  | nil =>
    refine ⟨fun c => (told_nil _).symm, ?_⟩
    rw [if_neg (by rintro ⟨c, hc⟩; simp [outcomesOf] at hc)]
    rfl
  | cons x os ih =>
    obtain ⟨h1, h2⟩ := ih (writeOutcome s x.1 x.2.1 x.2.2)
    constructor
    · intro c
      rw [tellAll_cons, h1 c, supOf_writeOutcome, outcomesOf_cons]
      by_cases hc : c = x.1
      · subst hc
        rw [if_pos rfl, if_pos rfl]
        exact (told_cons _ _ _).symm
      · rw [if_neg hc, if_neg (Ne.symm hc)]
    · rw [tellAll_cons, h2]
      have hs : (writeOutcome s x.1 x.2.1 x.2.2).service =
          if (s.supOf x.1).serviceDone [(x.2.1, x.2.2)] = true then none else s.service := by rw [writeOutcome_told]
      have key : ∀ c, (s.supOf c).serviceDone (outcomesOf (x :: os) c) = true ↔
          ((c = x.1 ∧ (s.supOf x.1).serviceDone [(x.2.1, x.2.2)] = true) ∨
           ((writeOutcome s x.1 x.2.1 x.2.2).supOf c).serviceDone (outcomesOf os c) = true) := by
        intro c
        rw [supOf_writeOutcome, outcomesOf_cons]
        by_cases hc : c = x.1
        · subst hc
          rw [if_pos rfl, if_pos rfl, serviceDone_cons _ x.2]
          simp
        · rw [if_neg hc, if_neg (Ne.symm hc)]
          simp [hc]
      by_cases ha : (s.supOf x.1).serviceDone [(x.2.1, x.2.2)] = true
      · rw [if_pos (c := ∃ c, (s.supOf c).serviceDone (outcomesOf (x :: os) c) = true)
          ⟨x.1, (key x.1).2 (.inl ⟨rfl, ha⟩)⟩, hs, if_pos ha]
        exact ite_self _
      · rw [hs, if_neg ha]
        have : (∃ c, ((writeOutcome s x.1 x.2.1 x.2.2).supOf c).serviceDone (outcomesOf os c) = true) ↔
            ∃ c, (s.supOf c).serviceDone (outcomesOf (x :: os) c) = true := by
          constructor
          · rintro ⟨c, hc⟩; exact ⟨c, (key c).2 (.inr hc)⟩
          · rintro ⟨c, hc⟩
            rcases (key c).1 hc with ⟨_, h⟩ | h
            · exact absurd h ha
            · exact ⟨c, h⟩
        exact if_congr this rfl rfl

/-! ### Several removals -/

/-- The drain test in the words of the statements. -/
theorem drainTest_settled (s : State) : drainTest s = drainSettled s := by
  unfold drainTest drainSettled drained
  by_cases h : s.firing = .draining ∧ s.sched.a.queue = [] ∧ s.sched.b.queue = [] ∧ s.sched.a.active = none ∧
      s.sched.b.active = none
  · rw [if_pos h, if_pos (by simpa [and_assoc] using h)]
    unfold goSafe State.takePendingSwap
    dsimp only
    have : (s.setFiring .safe).tables = s.tables := rfl
    rw [this]
    by_cases hs : s.tables.swapPending = true
    · rw [if_pos hs, if_pos hs]; rfl
    · rw [if_neg hs, if_neg hs]; rfl
  · rw [if_neg h, if_neg (by simpa [and_assoc] using h)]

/-- A bank with a shot queued is not drained. -/
theorem drained_of_queue {s : State} {k : Bank} (h : (s.schedOf k).queue ≠ []) : drained s = false := by
  unfold drained
  cases k
  · have : s.sched.a.queue ≠ [] := h
    simp [this]
  · have : s.sched.b.queue ≠ [] := h
    simp [this]

theorem drainTest_of_queue {s : State} {k : Bank} (h : (s.schedOf k).queue ≠ []) : drainTest s = s := by
  unfold drainTest
  rw [if_neg]
  rintro ⟨_, hd⟩
  rw [drained_of_queue h] at hd
  cases hd

/-- R112, R113: the scheduler after the removals of a list, each shot with its outcome. -/
def droppedAll (q : Sched) (cs : List (Shot × ShotOutcome)) : Sched :=
  { q with
    queue := q.queue.filter fun y => !cs.any fun z => z.1.tag == y.tag
    shed := q.shed + BitVec.ofNat 32 (cs.countP fun z => z.2.isShed)
    cancelled := q.cancelled + BitVec.ofNat 32 (cs.countP fun z => !z.2.isShed) }

/-- R112: the events after the removals of a list. -/
def eventsAfter (s : State) (cs : List (Shot × ShotOutcome)) : EventLatch :=
  if cs.any fun z => z.2.isShed then (s.raise .shed).events else s.events

theorem eraseShot_named {q : List Shot} {x : Shot} (h : q.filter (fun y => y.tag == x.tag) = [x]) :
    findShot x.tag q = some x ∧ eraseShot x.tag q = q.filter fun y => y.tag != x.tag := by
  unfold findShot eraseShot
  induction q with
  | nil => cases h
  | cons y q ih =>
    rw [List.filter_cons] at h
    by_cases hy : (y.tag == x.tag) = true
    · rw [if_pos hy] at h
      injection h with h1 h2
      subst h1
      have hq : ∀ z ∈ q, ¬(z.tag == y.tag) = true := by
        intro z hz hzt
        have : z ∈ q.filter (fun w => w.tag == y.tag) := List.mem_filter.2 ⟨hz, hzt⟩
        rw [h2] at this
        cases this
      refine ⟨by simp, ?_⟩
      have : (y.tag != y.tag) = false := by simp
      rw [List.eraseP_cons_of_pos (by simp), List.filter_cons, this]
      simp only [Bool.false_eq_true, if_false]
      refine (List.filter_eq_self.2 ?_).symm
      intro z hz
      have := hq z hz
      simpa using this
    · rw [if_neg hy] at h
      obtain ⟨h1, h2⟩ := ih h
      have hy' : (y.tag == x.tag) = false := by simpa using hy
      refine ⟨by rw [List.find?_cons_of_neg (by simpa using hy)]; exact h1, ?_⟩
      rw [List.eraseP_cons_of_neg (by simpa using hy), h2, List.filter_cons]
      have : (y.tag != x.tag) = true := by simp [bne, hy']
      rw [this]
      rfl

/-- One removal of a shot whose tag names it alone. -/
theorem dropShot_named (k : Bank) (s : State) (x : Shot) (o : ShotOutcome)
    (h : (s.schedOf k).queue.filter (fun y => y.tag == x.tag) = [x]) :
    dropShot k s (x.tag, o) = drainTest (writeOutcome { s with
      sched := s.sched.set k (droppedAll (s.schedOf k) [(x, o)]), events := eventsAfter s [(x, o)] }
      x.cyl x.tag (neverOpened o)) := by
  obtain ⟨h1, h2⟩ := eraseShot_named h
  unfold dropShot
  dsimp only
  rw [h1]
  dsimp only
  rw [h2]
  have hf : (s.schedOf k).queue.filter (fun y => y.tag != x.tag) =
      (s.schedOf k).queue.filter fun y => !([(x, o)] : List (Shot × ShotOutcome)).any fun z => z.1.tag == y.tag := by
    apply List.filter_congr
    intro y _
    simp [bne, BEq.comm (a := y.tag)]
  rw [hf]
  congr 2
  unfold raiseIfShed droppedAll eventsAfter Sched.countRemoval
  cases hs : o.isShed <;> simp [hs, State.setSched, State.raise, State.setEvents]

theorem eventsAfter_cons (s s' : State) (z : Shot × ShotOutcome) (cs : List (Shot × ShotOutcome))
    (h : s'.events = eventsAfter s [z]) : eventsAfter s' cs = eventsAfter s (z :: cs) := by
  have hr : ∀ t : State, (t.raise .shed).events = { t.events with latched := t.events.latched ||| Event.shed.mask } :=
    fun _ => rfl
  have h1 : (z :: cs).any (fun z => z.2.isShed) = (z.2.isShed || cs.any fun z => z.2.isShed) := List.any_cons
  unfold eventsAfter at *
  rw [h1]
  rw [hr] at *
  rw [hr]
  generalize cs.any (fun z => z.2.isShed) = b
  have h2 : ([z].any fun z => z.2.isShed) = z.2.isShed := by simp
  rw [h2] at h
  cases hz : z.2.isShed <;> rw [hz] at h <;> cases b <;> simp_all [BitVec.or_assoc]

theorem droppedAll_cons (q : Sched) (z : Shot × ShotOutcome) (cs : List (Shot × ShotOutcome)) :
    droppedAll (droppedAll q [z]) cs = droppedAll q (z :: cs) := by
  unfold droppedAll
  dsimp only
  rw [List.filter_filter]
  have h1 : ∀ p : Shot × ShotOutcome → Bool, (z :: cs).countP p = [z].countP p + cs.countP p := fun p => by
    rw [← List.countP_append]; rfl
  rw [h1, h1, BitVec.ofNat_add, BitVec.ofNat_add, ← BitVec.add_assoc, ← BitVec.add_assoc]
  congr 1
  apply List.filter_congr
  intro y _
  simp only [List.any_cons, List.any_nil, Bool.or_false, Bool.not_or]
  rw [Bool.and_comm]

/-- The removals of a list of queued shots, each named by its tag alone: they are gone, counted and told, and the drain test
is made after the last one. -/
theorem dropAll_eq (k : Bank) (s : State) (cs : List (Shot × ShotOutcome)) (hn : (cs.map fun z => z.1.tag).Nodup)
    (hq : ∀ z ∈ cs, (s.schedOf k).queue.filter (fun y => y.tag == z.1.tag) = [z.1]) :
    (cs.map fun z => (z.1.tag, z.2)).foldl (dropShot k) s =
      if cs = [] then s else drainTest (tellAll { s with
        sched := s.sched.set k (droppedAll (s.schedOf k) cs), events := eventsAfter s cs } (chainOutcomes cs)) := by
  induction cs generalizing s with
  | nil => rfl
  | cons z cs ih =>
    rw [List.map_cons, List.foldl_cons, if_neg (by simp), dropShot_named k s z.1 z.2 (hq z List.mem_cons_self)]
    rw [List.map_cons, List.nodup_cons] at hn
    generalize hs1 : ({ s with
      sched := s.sched.set k (droppedAll (s.schedOf k) [(z.1, z.2)]), events := eventsAfter s [(z.1, z.2)] } : State) = s1
    have hk1 : (s1.schedOf k) = droppedAll (s.schedOf k) [z] := by
      subst hs1; exact banks_get_set_same _ _ _
    have hk2 : ((writeOutcome s1 z.1.cyl z.1.tag (neverOpened z.2)).schedOf k) = droppedAll (s.schedOf k) [z] := by
      show ((writeOutcome s1 z.1.cyl z.1.tag (neverOpened z.2)).sched.get k) = _
      rw [writeOutcome_sched]; exact hk1
    rcases cs with _ | ⟨w, cs⟩
    · subst hs1
      rfl
    · have hq' : ∀ y ∈ w :: cs, (droppedAll (s.schedOf k) [z]).queue.filter (fun x => x.tag == y.1.tag) = [y.1] := by
        intro y hy
        have hne : y.1.tag ≠ z.1.tag := fun he => hn.1 (he ▸ List.mem_map_of_mem (f := fun z => z.1.tag) hy)
        rw [← hq y (List.mem_cons_of_mem _ hy)]
        unfold droppedAll
        dsimp only
        rw [List.filter_filter]
        apply List.filter_congr
        intro x _
        by_cases hx : x.tag = y.1.tag
        · have : z.1.tag ≠ x.tag := by rw [hx]; exact hne.symm
          simp [hx, hne.symm]
        · simp [hx]
      have hne : ((writeOutcome s1 z.1.cyl z.1.tag (neverOpened z.2)).schedOf k).queue ≠ [] := by
        rw [hk2]
        intro h0
        have := hq' w List.mem_cons_self
        rw [h0] at this
        cases this
      rw [drainTest_of_queue hne, ih _ hn.2 (by rw [hk2]; exact hq'), if_neg (by simp)]
      congr 1
      rw [hk2]
      show _ = tellAll _ ((z.1.cyl, z.1.tag, neverOpened z.2) :: chainOutcomes (w :: cs))
      rw [tellAll_cons]
      have he : eventsAfter (writeOutcome s1 z.1.cyl z.1.tag (neverOpened z.2)) (w :: cs) = eventsAfter s (z :: w :: cs) := by
        apply eventsAfter_cons
        rw [writeOutcome_events]
        subst hs1
        rfl
      rw [he, droppedAll_cons]
      have hsup : s1.sup = s.sup := by subst hs1; rfl
      have hsrv : s1.service = s.service := by subst hs1; rfl
      have hsched : (writeOutcome s1 z.1.cyl z.1.tag (neverOpened z.2)).sched = s1.sched := writeOutcome_sched _ _ _ _
      rw [writeOutcome_sup_congr hsup hsrv]
      rw [writeOutcome_sup_congr (s := s)
        (t := { s with sched := s.sched.set k (droppedAll (s.schedOf k) (z :: w :: cs))
                       events := eventsAfter s (z :: w :: cs) }) rfl rfl]
      subst hs1
      simp only [banks_set_set]

end Sys2Proof.Laws
end

