-- ==== Sys2Proof/Laws/Chains.lean ====
section
/-! SUPPORT. Which shots a removal takes along by their chain (R93): what `chainDrops` lists, in the words of the
statements. -/

namespace Sys2Proof.Laws

open Sys2Proof.Machine

/-- The shots of `chainDrops`, with their outcomes. -/
def chainShots : Nat → List Shot → Byte → Nat → ShotOutcome → List (Shot × ShotOutcome)
  | 0, _, _, _, _ => []
  | n + 1, q, tag, entry, o =>
    (q.filter fun x => x.follows tag).flatMap fun x =>
      (x, fateAfter o (x.entry == entry)) :: chainShots n q x.tag x.entry (fateAfter o (x.entry == entry))

theorem chainDrops_eq (n : Nat) (q : List Shot) (tag : Byte) (entry : Nat) (o : ShotOutcome) :
    chainDrops n q tag entry o = (chainShots n q tag entry o).map fun z => (z.1.tag, z.2) := by
  induction n generalizing tag entry o with
  | zero => rfl
  | succ n ih =>
    simp only [chainDrops, chainShots, List.map_flatMap, List.map_cons, ih]
    rfl

/-- A chain of queued shots, each following the one before and the first following the tag. -/
def isPath (q : List Shot) : Byte → List Shot → Prop
  | _, [] => True
  | tag, y :: l => y ∈ q ∧ y.follows tag = true ∧ isPath q y.tag l

/-- The outcome that reaches the end of the chain. -/
def endFate : Nat → ShotOutcome → List Shot → ShotOutcome
  | _, o, [] => o
  | entry, o, y :: l => endFate y.entry (fateAfter o (y.entry == entry)) l

theorem isPath_snoc (q : List Shot) (tag : Byte) (l : List Shot) (y z : Shot) :
    isPath q tag (l ++ [y] ++ [z]) ↔ isPath q tag (l ++ [y]) ∧ z ∈ q ∧ z.follows y.tag = true := by
  induction l generalizing tag with
  | nil => simp [isPath, and_assoc]
  | cons x l ih =>
    have := ih x.tag
    simp only [List.cons_append, isPath, and_assoc] at this ⊢
    rw [this]

theorem endFate_snoc (entry : Nat) (o : ShotOutcome) (l : List Shot) (y z : Shot) :
    endFate entry o (l ++ [y] ++ [z]) = fateAfter (endFate entry o (l ++ [y])) (z.entry == y.entry) := by
  induction l generalizing entry o with
  | nil => rfl
  | cons x l ih => exact ih _ _

theorem isPath_prefix {q : List Shot} {tag : Byte} {l r : List Shot} (h : isPath q tag (l ++ r)) : isPath q tag l := by
  induction l generalizing tag with
  | nil => trivial
  | cons x l ih => exact ⟨h.1, h.2.1, ih h.2.2⟩

theorem chainFate_path {q : List Shot} {tag : Byte} {entry : Nat} {o : ShotOutcome} {y : Shot} {p : ShotOutcome} :
    ChainFate q tag entry o y p ↔ ∃ l, isPath q tag (l ++ [y]) ∧ endFate entry o (l ++ [y]) = p := by
  constructor
  · intro h
    induction h with
    | first hq hf => exact ⟨[], ⟨hq, hf, trivial⟩, rfl⟩
    | next _ hz hf ih =>
      obtain ⟨l, h1, rfl⟩ := ih
      exact ⟨l ++ [_], (isPath_snoc _ _ _ _ _).2 ⟨h1, hz, hf⟩, endFate_snoc _ _ _ _ _⟩
  · rintro ⟨l, h, rfl⟩
    induction l using List.reverseRecOn generalizing y with
    | nil => exact .first h.1 h.2.1
    | append_singleton l w ih =>
      obtain ⟨h1, h2, h3⟩ := (isPath_snoc _ _ _ _ _).1 h
      rw [endFate_snoc]
      exact .next (ih h1) h2 h3

theorem mem_chainShots (n : Nat) (q : List Shot) (tag : Byte) (entry : Nat) (o : ShotOutcome) (y : Shot) (p : ShotOutcome) :
    (y, p) ∈ chainShots n q tag entry o ↔
      ∃ l, l.length < n ∧ isPath q tag (l ++ [y]) ∧ endFate entry o (l ++ [y]) = p := by
  induction n generalizing tag entry o with
  | zero => simp [chainShots]
  | succ n ih =>
    simp only [chainShots, List.mem_flatMap, List.mem_filter, List.mem_cons, ih]
    constructor
    · rintro ⟨x, ⟨hq, hf⟩, h | ⟨l, hl, h1, h2⟩⟩
      · obtain ⟨rfl, rfl⟩ := Prod.mk.inj h
        exact ⟨[], by simp, ⟨hq, hf, trivial⟩, rfl⟩
      · exact ⟨x :: l, by simpa using hl, ⟨hq, hf, h1⟩, h2⟩
    · rintro ⟨l, hl, h1, h2⟩
      cases l with
      | nil => exact ⟨y, ⟨h1.1, h1.2.1⟩, .inl (by rw [← h2]; rfl)⟩
      | cons x l => exact ⟨x, ⟨h1.1, h1.2.1⟩, .inr ⟨l, by simpa using hl, h1.2.2, h2⟩⟩

theorem follows_unique {x : Shot} {s t : Byte} (hs : x.follows s = true) (ht : x.follows t = true) : s = t := by
  unfold Shot.follows at hs ht
  split at hs
  · rename_i u _ hu
    rw [hu] at ht
    simp at hs ht
    rw [← hs, ← ht]
  · cases hs
  · cases hs

section
variable {q : List Shot} {tag : Byte} {entry : Nat} {o : ShotOutcome}

/-- The end of a path is a shot of the chain. -/
theorem named_end (h : chainNamed q tag entry o) {l : List Shot} {y : Shot} (hp : isPath q tag (l ++ [y])) :
    y.tag ≠ tag ∧ q.filter (fun z => z.tag == y.tag) = [y] := h y _ (chainFate_path.2 ⟨l, hp, rfl⟩)

theorem same_end_shot (h : chainNamed q tag entry o) {l m : List Shot} {y z : Shot} (hy : isPath q tag (l ++ [y]))
    (hz : isPath q tag (m ++ [z])) (ht : y.tag = z.tag) : y = z := by
  have a := (named_end h hy).2
  have b := (named_end h hz).2
  rw [ht, b] at a
  exact (List.cons.inj a).1.symm

/-- A shot has one predecessor, so one path leads to it. -/
theorem path_unique (h : chainNamed q tag entry o) {l m : List Shot} {y : Shot} (hl : isPath q tag (l ++ [y]))
    (hm : isPath q tag (m ++ [y])) : l = m := by
  induction l using List.reverseRecOn generalizing m y with
  | nil =>
    rcases List.eq_nil_or_concat m with rfl | ⟨m, w, rfl⟩
    · rfl
    · simp only [List.concat_eq_append] at hm
      obtain ⟨h1, _, h3⟩ := (isPath_snoc _ _ _ _ _).1 hm
      exact absurd (follows_unique h3 hl.2.1) (named_end h h1).1
  | append_singleton l w ih =>
    obtain ⟨h1, _, h3⟩ := (isPath_snoc _ _ _ _ _).1 hl
    rcases List.eq_nil_or_concat m with rfl | ⟨m, v, rfl⟩
    · exact absurd (follows_unique h3 hm.2.1) (named_end h h1).1
    · simp only [List.concat_eq_append] at hm ⊢
      obtain ⟨g1, _, g3⟩ := (isPath_snoc _ _ _ _ _).1 hm
      obtain rfl := same_end_shot h h1 g1 (follows_unique h3 g3)
      rw [ih h1 g1]

theorem path_nodup (h : chainNamed q tag entry o) {l : List Shot} (hl : isPath q tag l) : l.Nodup := by
  induction l using List.reverseRecOn with
  | nil => exact List.nodup_nil
  | append_singleton l y ih =>
    refine List.nodup_append.2 ⟨ih (isPath_prefix hl), List.nodup_singleton y, ?_⟩
    rintro a ha b hb rfl
    obtain rfl := List.mem_singleton.1 hb
    obtain ⟨l1, l2, rfl⟩ := List.append_of_mem ha
    have h1 : isPath q tag (l1 ++ [a]) := isPath_prefix (r := l2 ++ [a]) (by simpa using hl)
    have := congrArg List.length (path_unique h h1 hl)
    simp at this

theorem path_subset {l : List Shot} {t : Byte} (hl : isPath q t l) : l ⊆ q := by
  induction l generalizing t with
  | nil => exact List.nil_subset _
  | cons x l ih => exact List.cons_subset.2 ⟨hl.1, ih hl.2.2⟩

/-- R93: under a chain whose tags name their shots, `chainDrops` lists exactly the shots of the chain, each once and with
the outcome it takes. -/
theorem mem_chain (h : chainNamed q tag entry o) (y : Shot) (p : ShotOutcome) :
    (y, p) ∈ chainShots q.length q tag entry o ↔ ChainFate q tag entry o y p := by
  rw [mem_chainShots, chainFate_path]
  constructor
  · rintro ⟨l, _, h1⟩
    exact ⟨l, h1⟩
  · rintro ⟨l, h1, h2⟩
    refine ⟨l, ?_, h1, h2⟩
    have := ((path_nodup h h1).subperm (path_subset h1)).length_le
    simpa using this

/-- Elements that a list names once by their tags have distinct tags. -/
theorem tags_nodup {l : List Shot} (h : ∀ x ∈ l, (l.filter fun z => z.tag == x.tag).length ≤ 1) : (l.map Shot.tag).Nodup := by
  induction l with
  | nil => exact List.nodup_nil
  | cons x l ih =>
    refine List.nodup_cons.2 ⟨?_, ih fun y hy => ?_⟩
    · intro hx
      obtain ⟨y, hy, ht⟩ := List.mem_map.1 hx
      have h1 := h x (by simp)
      have hm : y ∈ l.filter (fun z => z.tag == x.tag) := List.mem_filter.2 ⟨hy, by simp [ht]⟩
      have h2 := List.length_pos_of_mem hm
      rw [List.filter_cons_of_pos (by simp), List.length_cons] at h1
      omega
    · have h1 := h y (by simp [hy])
      rw [List.filter_cons] at h1
      split at h1
      · rw [List.length_cons] at h1
        omega
      · exact h1

theorem chainShots_nodup (h : chainNamed q tag entry o) (n : Nat) (l : List Shot) (t : Byte) (e : Nat) (p : ShotOutcome)
    (hl : ∀ r, isPath q t r → isPath q tag (l ++ r)) : ((chainShots n q t e p).map fun z => z.1.tag).Nodup := by
  induction n generalizing l t e p with
  | zero => exact List.nodup_nil
  | succ n ih =>
    have hnext : ∀ x ∈ q.filter (fun x => x.follows t), ∀ r, isPath q x.tag r → isPath q tag (l ++ [x] ++ r) := by
      intro x hx r hr
      obtain ⟨hq, hf⟩ := List.mem_filter.1 hx
      simpa using hl (x :: r) ⟨hq, hf, hr⟩
    have hpath : ∀ x ∈ q.filter (fun x => x.follows t), ∀ b ∈
        ((x, fateAfter p (x.entry == e)) :: chainShots n q x.tag x.entry (fateAfter p (x.entry == e))).map (fun z => z.1.tag),
        ∃ r y, isPath q tag (l ++ [x] ++ r) ∧ (l ++ [x] ++ r).getLast? = some y ∧ y.tag = b := by
      intro x hx b hb
      simp only [List.map_cons, List.mem_cons, List.mem_map] at hb
      rcases hb with rfl | ⟨⟨y, py⟩, hy, rfl⟩
      · exact ⟨[], x, hnext x hx [] trivial, by simp, rfl⟩
      · obtain ⟨r, _, h1, _⟩ := (mem_chainShots _ _ _ _ _ _ _).1 hy
        exact ⟨r ++ [y], y, hnext x hx _ h1, by rw [← List.append_assoc]; exact List.getLast?_concat, rfl⟩
    simp only [chainShots, List.map_flatMap]
    refine List.nodup_flatMap.2 ⟨?_, ?_⟩
    · intro x hx
      rw [List.map_cons]
      refine List.nodup_cons.2 ⟨?_, ih (l ++ [x]) _ _ _ (hnext x hx)⟩
      intro hm
      obtain ⟨⟨y, py⟩, hy, ht⟩ := List.mem_map.1 hm
      obtain ⟨r, _, h1, _⟩ := (mem_chainShots _ _ _ _ _ _ _).1 hy
      have g1 := hnext x hx [] trivial
      have g2 := hnext x hx _ h1
      simp only [List.append_nil] at g1
      rw [← List.append_assoc] at g2
      obtain rfl := same_end_shot h g2 g1 ht
      have := congrArg List.length (path_unique h g2 g1)
      simp at this
    · have hd : ((q.filter fun x => x.follows t).map Shot.tag).Nodup := by
        refine tags_nodup fun x hx => ?_
        have g1 := hnext x hx [] trivial
        simp only [List.append_nil] at g1
        have g2 := (named_end h g1).2
        have : ((q.filter fun x => x.follows t).filter fun z => z.tag == x.tag).Sublist [x] := by
          rw [← g2]
          exact List.Sublist.filter _ List.filter_sublist
        simpa using this.length_le
      have hp : (q.filter fun x => x.follows t).Pairwise fun a b => a.tag ≠ b.tag := List.pairwise_map.1 hd
      refine (List.Pairwise.and_mem.1 hp).imp ?_
      rintro a c ⟨ha, hc, hne⟩ b hb hb'
      obtain ⟨r, y, g1, g2, g3⟩ := hpath a ha b hb
      obtain ⟨r', y', g1', g2', g3'⟩ := hpath c hc b hb'
      rcases List.eq_nil_or_concat (l ++ [a] ++ r) with h0 | ⟨m, w, hm⟩
      · rw [h0] at g2; cases g2
      rcases List.eq_nil_or_concat (l ++ [c] ++ r') with h0 | ⟨m', w', hm'⟩
      · rw [h0] at g2'; cases g2'
      rw [List.concat_eq_append] at hm hm'
      rw [hm] at g1 g2
      rw [hm'] at g1' g2'
      simp at g2 g2'
      subst g2 g2'
      obtain rfl := same_end_shot h g1 g1' (g3.trans g3'.symm)
      have := path_unique h g1 g1'
      rw [this] at hm
      rw [← hm] at hm'
      simp at hm'
      exact hne (by rw [hm'.1])

/-- R93: what `chainDrops` lists under a chain whose tags name their shots. -/
theorem chainDrops_is (h : chainNamed q tag entry o) :
    ∃ cs, chainIs q tag entry o cs ∧ chainDrops q.length q tag entry o = cs.map (fun z => (z.1.tag, z.2)) ∧
      ∀ z ∈ cs, q.filter (fun y => y.tag == z.1.tag) = [z.1] ∧ z.1.tag ≠ tag :=
  ⟨chainShots q.length q tag entry o,
    ⟨chainShots_nodup h _ [] _ _ _ fun _ hr => hr, mem_chain h⟩, chainDrops_eq _ _ _ _ _,
    fun z hz => (h z.1 z.2 ((mem_chain h z.1 z.2).1 hz)).symm⟩

end

/-- R93, R112: a queued shot removed with its chain: the shots of the chain go with it, each with its outcome. -/
theorem dropWithChain_eq (k : Bank) (s : State) (x : Shot) (o : ShotOutcome)
    (hx : (s.schedOf k).queue.filter (fun y => y.tag == x.tag) = [x])
    (hc : chainNamed (s.schedOf k).queue x.tag x.entry o) :
    ∃ cs, chainIs (s.schedOf k).queue x.tag x.entry o cs ∧
      dropWithChain k s x.tag o = drainTest (tellAll { s with
        sched := s.sched.set k (droppedAll (s.schedOf k) ((x, o) :: cs)), events := eventsAfter s ((x, o) :: cs) }
        (chainOutcomes ((x, o) :: cs))) := by
  obtain ⟨cs, h1, h2, h3⟩ := chainDrops_is hc
  refine ⟨cs, h1, ?_⟩
  unfold dropWithChain
  simp only [(eraseShot_named hx).1, h2]
  refine (dropAll_eq k s ((x, o) :: cs) ?_ ?_).trans (by rw [if_neg (by simp)])
  · refine List.nodup_cons.2 ⟨?_, h1.1⟩
    intro hm
    obtain ⟨z, hz, ht⟩ := List.mem_map.1 hm
    exact (h3 z hz).2 ht
  · intro z hz
    rcases List.mem_cons.1 hz with rfl | hz
    · exact hx
    · exact (h3 z hz).1

/-- The fates of a chain whose head is shed are all counted as shed. -/
theorem chainFate_isShed {q : List Shot} {tag : Byte} {entry : Nat} {o : ShotOutcome} {y : Shot} {p : ShotOutcome}
    (h : ChainFate q tag entry o y p) : p.isShed = true := by
  have key : ∀ (o : ShotOutcome) b, (fateAfter o b).isShed = true := by
    intro o b
    unfold fateAfter
    split <;> rfl
  cases h with
  | first _ _ => exact key _ _
  | next _ _ _ => exact key _ _

/-- R93, R112: a shed shot takes its chain along: what the statements call `shedNow`. -/
theorem dropWithChain_shed (k : Bank) (s : State) (x : Shot) (o : ShotOutcome) (ho : o.isShed = true)
    (hx : (s.schedOf k).queue.filter (fun y => y.tag == x.tag) = [x])
    (hc : chainNamed (s.schedOf k).queue x.tag x.entry o) : shedNow s k x o (dropWithChain k s x.tag o) := by
  obtain ⟨cs, h1, h2⟩ := dropWithChain_eq k s x o hx hc
  have hall : ∀ z ∈ (x, o) :: cs, z.2.isShed = true := by
    intro z hz
    rcases List.mem_cons.1 hz with rfl | hz
    · exact ho
    · exact chainFate_isShed ((h1.2 z.1 z.2).1 hz)
  have hd : droppedAll (s.schedOf k) ((x, o) :: cs) = { s.schedOf k with
      queue := withoutShots (s.schedOf k).queue ((x, o) :: cs)
      shed := (s.schedOf k).shed + BitVec.ofNat 32 (1 + cs.length) } := by
    have a : ((x, o) :: cs).countP (fun z => z.2.isShed) = 1 + cs.length := by
      rw [List.countP_eq_length.2 hall, List.length_cons, Nat.add_comm]
    have b : ((x, o) :: cs).countP (fun z => !z.2.isShed) = 0 := by
      rw [List.countP_eq_zero]
      intro z hz
      simp [hall z hz]
    unfold droppedAll withoutShots
    rw [a, b]
    simp
  have he : eventsAfter s ((x, o) :: cs) = (s.raise .shed).events := by
    unfold eventsAfter
    rw [if_pos]
    rw [List.any_cons, ho]
    rfl
  rw [hd, he] at h2
  generalize hs1 : ({ s with sched := s.sched.set k { s.schedOf k with
      queue := withoutShots (s.schedOf k).queue ((x, o) :: cs)
      shed := (s.schedOf k).shed + BitVec.ofNat 32 (1 + cs.length) }
                             events := (s.raise .shed).events } : State) = s1 at h2
  have told := tellAll_told s1 (chainOutcomes ((x, o) :: cs))
  have e := tellAll_eq s1 (chainOutcomes ((x, o) :: cs))
  have hsup : (drainSettled (tellAll s1 (chainOutcomes ((x, o) :: cs)))).sup = (tellAll s1 (chainOutcomes ((x, o) :: cs))).sup ∧
      (drainSettled (tellAll s1 (chainOutcomes ((x, o) :: cs)))).service = (tellAll s1 (chainOutcomes ((x, o) :: cs))).service := by
    unfold drainSettled
    split <;> exact ⟨rfl, rfl⟩
  rw [drainTest_settled] at h2
  refine ⟨cs, h1, ?_, ?_⟩
  · rw [h2, hsup.1, hsup.2]
    congr 1
    rw [e]
    subst hs1
    rfl
  · rw [h2]
    unfold outcomesTold State.supOf at *
    rw [hsup.1, hsup.2]
    subst hs1
    exact told
end Sys2Proof.Laws
end

