-- ==== Sys2Proof/Laws/Fine.lean ====
section
/-! SUPPORT. The same as Rel, with the updates told apart as finely as an invariant of the banks needs: a relation closed
under each of them, on the banks of a set, holds across every operation of the banks, the Planner and the tooth. -/

namespace Sys2Proof.Laws.Fine

open Sys2Proof.Machine Sys2Proof.Laws

/-- A change of a queued shot that keeps what it is: only its progress (state, reached mark, due instant, waiting mark,
deadline) moves. -/
def Keeps (f : Shot → Shot) : Prop :=
  ∀ x, (f x).tag = x.tag ∧ (f x).cyl = x.cyl ∧ (f x).entry = x.entry ∧ (f x).rep = x.rep ∧ (f x).cls = x.cls ∧
    (f x).anchor = x.anchor ∧ (f x).order = x.order ∧ (f x).ticks = x.ticks ∧ (f x).lowBoost = x.lowBoost ∧
    (f x).flags = x.flags

/-- R96, R138: the gap gives way to an IDLE bank with its Drive Stage OFF; the arbiter has not acted yet. -/
def gapPassed (k : Bank) (s : State) : State :=
  (s.setSched k { s.schedOf k with cond := .idle }).setDrive k
    { (s.setSched k { s.schedOf k with cond := .idle }).driveOf k with phase := .off }

/-- What the Supervisor holds for a cylinder beside its plan, its report, its code and its fault counting stays. -/
def SameMode (x y : CylSup) : Prop := y.cut = x.cut ∧ y.locked = x.locked ∧ y.freezes = x.freezes

/-- A relation closed under the updates the bank operations are made of, on the banks of `K`, with `ok` the shots the
Planner may place, each on the bank of its cylinder. -/
structure OpRel (K : Bank → Prop) (ok : Shot → Prop) (R : State → State → Prop) : Prop where
  refl     : ∀ s, R s s
  trans    : ∀ {s t u}, R s t → R t u → R s u
  sup      : ∀ s c x, SameMode (s.supOf c) x → R s (s.setSup c x)
  service  : ∀ s : State, R s { s with service := none }
  event    : ∀ s e, R s (s.raise e)
  drop     : ∀ s k x, K k → R s (dropShot k s x)
  pulseEnd : ∀ s k o f, K k → R s (endPulse k s o f)
  queue    : ∀ s k f, K k → Keeps f → R s (setQueue s k ((s.schedOf k).queue.map f))
  tracks   : ∀ s k ts, K k → R s (s.setSched k { s.schedOf k with tracks := ts })
  close    : ∀ s k ts (g : Pulse → Option Nat), K k → R s (s.setSched k { s.schedOf k with
    tracks := ts, active := (s.schedOf k).active.map fun p => { p with windowClose := g p } })
  boosted  : ∀ s k x, K k → (s.schedOf k).cond = .idle → x ∈ (s.schedOf k).queue → startTest s k x = .boosted →
    R s (openPulse k (chargeBoost s k x.cyl) x false)
  degraded : ∀ s k x, K k → (s.schedOf k).cond = .idle → x ∈ (s.schedOf k).queue → R s (openPulse k s x true)
  gap      : ∀ s k, K k → (s.schedOf k).cond = .gap → R s (gapPassed k s)
  regap    : ∀ s k, K k → (s.schedOf k).cond = .idle → R s (reenterGap k s)
  enqueue  : ∀ s k a x, K k → ok x → s.bankOf x.cyl = k → R s (enqueue k s a x)
  turned   : ∀ s k x, K k → ok x → R s (s.setSched k { (s.schedOf k).countPlaced with shed := (s.schedOf k).shed + 1 })

/-- A relation closed also under a taken swap and under what a freeze, a lockout and the commands on a cylinder change at
the Supervisor. -/
structure WholeRel (K : Bank → Prop) (ok : Shot → Prop) (R : State → State → Prop) : Prop extends OpRel K ok R where
  swap  : ∀ s, R s s.takePendingSwap
  supAny : ∀ s c x, R s (s.setSup c x)

variable {K : Bank → Prop} {ok : Shot → Prop} {R : State → State → Prop}

theorem foldl_rel {β : Type} (h : OpRel K ok R) (f : State → β → State) (hf : ∀ s b, R s (f s b)) (l : List β)
    (s : State) : R s (l.foldl f s) := by
  induction l generalizing s with
  | nil => exact h.refl s
  | cons b l ih => exact h.trans (hf s b) (ih _)

theorem ite_rel (h : OpRel K ok R) {s t : State} (p : Prop) [Decidable p] (ht : R s t) :
    R s (if p then t else s) := by
  split
  · exact ht
  · exact h.refl s

/-! ### Plans and reports -/

theorem publish_rel (h : OpRel K ok R) (s : State) (c : Cyl) (p : Plan) : R s (publish s c p) := by
  unfold publish
  cases p.kind
  · exact h.sup _ _ _ ⟨rfl, rfl, rfl⟩
  · exact h.trans (h.sup s c _ (by exact ⟨rfl, rfl, rfl⟩)) (h.service _)

theorem publishIfComplete_rel (h : OpRel K ok R) (s : State) (c : Cyl) : R s (publishIfComplete s c) := by
  unfold publishIfComplete
  split
  · exact h.refl s
  · exact ite_rel h _ (publish_rel h s c _)

theorem writeOutcome_rel (h : OpRel K ok R) (s : State) (c : Cyl) (tag : Byte) (o : PlaceOutcome) :
    R s (writeOutcome s c tag o) := by
  unfold writeOutcome
  split
  · exact h.refl s
  · exact h.trans (h.sup s c _ (by exact ⟨rfl, rfl, rfl⟩)) (publishIfComplete_rel h _ c)

theorem markDeferred_rel (h : OpRel K ok R) (s : State) (c : Cyl) (tag : Byte) : R s (markDeferred s c tag) := by
  unfold markDeferred
  split
  · exact h.refl s
  · exact h.sup s c _ (by exact ⟨rfl, rfl, rfl⟩)

/-! ### Removals -/

theorem dropAll_rel (h : OpRel K ok R) (k : Bank) (hk : K k) (s : State) (l : List (Byte × ShotOutcome)) :
    R s (l.foldl (dropShot k) s) := foldl_rel h _ (fun s t => h.drop s k t hk) l s

theorem dropWithChain_rel (h : OpRel K ok R) (k : Bank) (hk : K k) (s : State) (tag : Byte) (o : ShotOutcome) :
    R s (dropWithChain k s tag o) := by
  unfold dropWithChain
  dsimp only
  split
  · exact h.refl s
  · exact dropAll_rel h k hk s _

theorem cancelShots_rel (h : OpRel K ok R) (k : Bank) (hk : K k) (s : State) (p : Shot → Bool) (o : ShotOutcome) :
    R s (cancelShots k s p o) := dropAll_rel h k hk s _

theorem discardTrack_rel (h : OpRel K ok R) (s : State) (k : Bank) (hk : K k) (c : Cyl) : R s (discardTrack s k c) :=
  h.tracks s k _ hk

theorem updateShot_keeps {f : Shot → Shot} (hf : Keeps f) (tag : Byte) :
    Keeps (fun x => if x.tag = tag then f x else x) := by
  intro x
  dsimp only
  split
  · exact hf x
  · exact ⟨rfl, rfl, rfl, rfl, rfl, rfl, rfl, rfl, rfl, rfl⟩

/-! ### Starts, deferral, the arbiter -/

theorem dropAll_cond (k : Bank) (s : State) (l : List (Byte × ShotOutcome)) :
    ((l.foldl (dropShot k) s).schedOf k).cond = (s.schedOf k).cond := by
  induction l generalizing s with
  | nil => rfl
  | cons t l ih => exact (ih _).trans (dropShot_cond k k s t)

theorem dropWithChain_cond (k : Bank) (s : State) (tag : Byte) (o : ShotOutcome) :
    ((dropWithChain k s tag o).schedOf k).cond = (s.schedOf k).cond := by
  unfold dropWithChain
  dsimp only
  split
  · rfl
  · exact dropAll_cond k s _

theorem attemptStart_rel (h : OpRel K ok R) (k : Bank) (hk : K k) (s : State) (x : Shot)
    (hc : (s.schedOf k).cond = .idle) (hx : x ∈ (s.schedOf k).queue) : R s (attemptStart k s x).1 := by
  unfold attemptStart
  split
  · exact dropWithChain_rel h k hk s _ _
  · rename_i ht
    exact h.boosted s k x hk hc hx ht
  · exact h.degraded s k x hk hc hx

/-- A start that did not open left the bank as it was but for removals. -/
theorem attemptStart_cond (k : Bank) (s : State) (x : Shot) (hf : (attemptStart k s x).2 = false) :
    ((attemptStart k s x).1.schedOf k).cond = (s.schedOf k).cond := by
  unfold attemptStart at hf ⊢
  split at hf
  · exact dropWithChain_cond k s _ _
  · cases hf
  · cases hf

theorem deferShot_rel (h : OpRel K ok R) (k : Bank) (hk : K k) (s : State) (tag : Byte) : R s (deferShot k s tag) := by
  unfold deferShot
  split
  · exact h.refl s
  · dsimp only
    have h1 : ∀ d : Nat, R s (setQueue s k (updateShot tag
        (fun y => { y with state := .deferred, deadline := some d }) (s.schedOf k).queue)) := fun d =>
      have hf : Keeps fun y => { y with state := .deferred, deadline := some d } := fun _ =>
        ⟨rfl, rfl, rfl, rfl, rfl, rfl, rfl, rfl, rfl, rfl⟩
      h.queue s k _ hk (updateShot_keeps hf tag)
    split
    · refine h.trans ?_ (dropWithChain_rel h k hk _ _ _)
      exact h.trans (h1 _) (markDeferred_rel h _ _ _)
    · exact h.trans (h1 _) (markDeferred_rel h _ _ _)

theorem deferRest_rel (h : OpRel K ok R) (k : Bank) (hk : K k) (s : State) : R s (deferRest k s) :=
  foldl_rel h _ (fun s t => deferShot_rel h k hk s t) _ s

theorem bestWaiting_mem (q : List Shot) (x : Shot) (h : bestWaiting q = some x) : x ∈ q := by
  induction q generalizing x with
  | nil => cases h
  | cons y q ih =>
    unfold bestWaiting at h
    split at h
    · cases h; exact List.mem_cons_self
    · rename_i z hz
      split at h
      · cases h; exact List.mem_cons_of_mem _ (ih _ hz)
      · cases h; exact List.mem_cons_self

theorem chooseWaiting_mem {q : List Shot} {x : Shot} (h : chooseWaiting q = some x) : x ∈ q ∧ x.waiting = true := by
  have := bestWaiting_mem _ _ h
  simpa using this

theorem arbitrate_rel (h : OpRel K ok R) (n : Nat) (k : Bank) (hk : K k) (s : State)
    (hc : (s.schedOf k).cond = .idle) : R s (arbitrate n k s) := by
  induction n generalizing s with
  | zero => exact h.refl s
  | succ n ih =>
    unfold arbitrate
    split
    · exact h.refl s
    · rename_i x hx
      have hr := attemptStart_rel h k hk s x hc (chooseWaiting_mem hx).1
      have hd := attemptStart_cond k s x
      split
      · rename_i s' heq
        rw [heq] at hr
        exact h.trans hr (deferRest_rel h k hk s')
      · rename_i s' heq
        rw [heq] at hr hd
        exact h.trans hr (ih s' ((hd rfl).trans hc))

theorem runArbiter_rel (h : OpRel K ok R) (k : Bank) (hk : K k) (s : State) : R s (runArbiter k s) := by
  unfold runArbiter
  split
  · exact arbitrate_rel h _ k hk s ‹_›
  · exact h.refl s

theorem endGap_rel (h : OpRel K ok R) (k : Bank) (hk : K k) (s : State) (hc : (s.schedOf k).cond = .gap) :
    R s (endGap k s) := h.trans (h.gap s k hk hc) (runArbiter_rel h k hk _)

theorem settleGap_rel (h : OpRel K ok R) (k : Bank) (hk : K k) (s : State) : R s (settleGap k s) := by
  unfold settleGap
  split
  · rename_i hc
    exact endGap_rel h k hk s hc.1
  · exact h.refl s

theorem moveGap_rel (h : OpRel K ok R) (k : Bank) (hk : K k) (s : State) : R s (moveGap k s) := by
  unfold moveGap
  split
  · split
    · exact endGap_rel h k hk s ‹_›
    · exact h.refl s
  · split
    · exact h.refl s
    · exact h.regap s k hk ‹_›
  · exact h.refl s

theorem markWaiting_rel (h : OpRel K ok R) (k : Bank) (hk : K k) (s : State) (tag : Byte) : R s (markWaiting k s tag) :=
  have hf : Keeps fun y => { y with state := .timed, due := some s.timebase, waiting := true } := fun _ =>
    ⟨rfl, rfl, rfl, rfl, rfl, rfl, rfl, rfl, rfl, rfl⟩
  h.queue s k _ hk (updateShot_keeps hf tag)

theorem takeOneDue_rel (h : OpRel K ok R) (k : Bank) (hk : K k) (s : State) (tag : Byte) : R s (takeOneDue k s tag) := by
  unfold takeOneDue
  split
  · exact h.refl s
  · split
    · exact dropWithChain_rel h k hk s _ _
    · refine h.trans (markWaiting_rel h k hk s tag) ?_
      dsimp only
      split
      · exact runArbiter_rel h k hk _
      · split
        · exact h.trans (h.pulseEnd _ k _ _ hk) (settleGap_rel h k hk _)
        · exact deferShot_rel h k hk _ tag

theorem takeTogether_rel (h : OpRel K ok R) (k : Bank) (hk : K k) (s : State) (tags : List Byte) :
    R s (takeTogether k s tags) := by
  unfold takeTogether
  dsimp only
  refine h.trans ?_ (runArbiter_rel h k hk _)
  refine h.trans ?_ (foldl_rel h _ (fun s t => markWaiting_rel h k hk s t) _ _)
  exact foldl_rel h _ (fun s t => dropWithChain_rel h k hk s t _) _ s

theorem takeDue_rel (h : OpRel K ok R) (k : Bank) (hk : K k) (s : State) (tags : List Byte) : R s (takeDue k s tags) := by
  unfold takeDue
  split
  · exact takeTogether_rel h k hk s tags
  · exact foldl_rel h _ (fun s t => takeOneDue_rel h k hk s t) _ s

/-! ### Closes, cancellations, faults -/

theorem closeTrack_rel (h : OpRel K ok R) (k : Bank) (hk : K k) (s : State) (c : Cyl) : R s (closeTrack k s c) := by
  unfold closeTrack
  dsimp only
  refine h.trans ?_ (settleGap_rel h k hk _)
  refine h.trans ?_ (discardTrack_rel h _ k hk c)
  refine h.trans ?_ (dropAll_rel h k hk _ _)
  exact ite_rel h _ (h.pulseEnd s k _ _ hk)

theorem cancelBank_rel (h : OpRel K ok R) (k : Bank) (hk : K k) (s : State) (o : ShotOutcome) : R s (cancelBank k s o) :=
  h.trans (cancelShots_rel h k hk s _ o) (h.trans (h.pulseEnd _ k o none hk)
    (h.trans (h.tracks _ k _ hk) (settleGap_rel h k hk _)))

theorem cancelCylinder_rel (h : OpRel K ok R) (k : Bank) (hk : K k) (s : State) (c : Cyl) (o : ShotOutcome) :
    R s (cancelCylinder k s c o) := h.trans (cancelShots_rel h k hk s _ o) (discardTrack_rel h _ k hk c)

theorem cutCylinder_rel (h : OpRel K ok R) (k : Bank) (hk : K k) (s : State) (c : Cyl) : R s (cutCylinder k s c) := by
  unfold cutCylinder
  dsimp only
  refine h.trans ?_ (settleGap_rel h k hk _)
  refine h.trans ?_ (discardTrack_rel h _ k hk c)
  exact h.trans (cancelShots_rel h k hk s _ _) (ite_rel h _ (h.pulseEnd _ k _ _ hk))

theorem abortChain_rel (h : OpRel K ok R) (k : Bank) (hk : K k) (s : State) (c : Cyl) : R s (abortChain k s c) := by
  unfold abortChain
  dsimp only
  refine h.trans ?_ (settleGap_rel h k hk _)
  exact h.trans (cancelShots_rel h k hk s _ _) (ite_rel h _ (h.pulseEnd _ k _ _ hk))

theorem lockOut_rel (h : WholeRel K ok R) (k : Bank) (hk : K k) (s : State) (c : Cyl) : R s (lockOut k s c) :=
  h.trans (h.supAny s c _) (h.trans (h.event _ _) (cancelCylinder_rel h.toOpRel k hk _ c _))

theorem takeFault_rel (h : WholeRel K ok R) (k : Bank) (hk : K k) (s : State) (c : Cyl) (kind : FaultKind) :
    R s (takeFault k s c kind) := by
  unfold takeFault
  dsimp only
  refine h.trans ?_ (h.supAny _ c _)
  exact h.trans (h.supAny s c _) (ite_rel h.toOpRel _ (lockOut_rel h k hk _ c))

theorem injectorFault_rel (h : WholeRel K ok R) (k : Bank) (hk : K k) (s : State) (kind : FaultKind) :
    R s (injectorFault k s kind) := by
  unfold injectorFault
  split
  · exact h.refl s
  · exact h.trans (h.event s _) (h.trans (h.pulseEnd _ k _ _ hk) (h.trans (cancelCylinder_rel h.toOpRel k hk _ _ _)
      (h.trans (takeFault_rel h k hk _ _ _) (settleGap_rel h.toOpRel k hk _))))

/-! ### The Planner -/

theorem addPlace_rel (h : OpRel K ok R) (s : State) (x : Shot) : R s (addPlace s x) := by
  unfold addPlace
  split
  · exact h.refl s
  · exact h.sup s _ _ (by exact ⟨rfl, rfl, rfl⟩)

theorem shedAtPlacement_rel (h : OpRel K ok R) (k : Bank) (hk : K k) (s : State) (x : Shot) (hx : ok x) :
    R s (shedAtPlacement k s x) :=
  h.trans (h.turned s k x hk hx) (h.trans (h.event _ _) (writeOutcome_rel h _ _ _ _))

/-- No operation of the banks or the Planner changes a cylinder record. -/
theorem cylRecords_rel : BankRel fun s t => t.tables.cyl = s.tables.cyl where
  refl _ := rfl
  trans h1 h2 := h2.trans h1
  sched _ _ _ := rfl
  drive _ _ _ := rfl
  level _ _ _ := rfl
  sup _ _ _ := rfl
  event _ _ := rfl
  safe s := by simp only [goSafe, State.takePendingSwap]; split <;> rfl
  swap s := by simp only [State.takePendingSwap]; split <;> rfl
  trace _ _ := rfl
  service _ := rfl

theorem bankOf_congr {s t : State} (h : t.tables.cyl = s.tables.cyl) (c : Cyl) : t.bankOf c = s.bankOf c := by
  simp only [State.bankOf, State.cylOf, h]

theorem placeShot_rel (h : OpRel K ok R) (k : Bank) (hk : K k) (s : State) (a : Nat) (x : Shot) (hx : ok x)
    (hb : s.bankOf x.cyl = k) : R s (placeShot k s a x).1 := by
  have h1 := (bankOf_congr (Laws.addPlace_rel cylRecords_rel s x) x.cyl).trans hb
  unfold placeShot
  refine h.trans (addPlace_rel h s x) ?_
  dsimp only
  split
  · exact h.enqueue _ k _ _ hk hx h1
  · split
    · exact shedAtPlacement_rel h k hk _ x hx
    · split
      · exact h.trans (dropWithChain_rel h k hk _ _ _) (h.enqueue _ k _ _ hk hx
          ((bankOf_congr (Laws.dropWithChain_rel cylRecords_rel k _ _ _) x.cyl).trans h1))
      · exact shedAtPlacement_rel h k hk _ x hx

/-- The shots the Planner can make of an entry: their duration comes from R68 and R69, and may have been fitted by R73. -/
def Planned (i : PlanInput) (e : PatternEntry) (ticks : Nat) : Prop :=
  ∃ d fl, entryDuration e i.profile.minOn i.demand.mainUs = some (d, fl) ∧
    (ticks = 10 * d ∨ ∃ pos wpos moved fit, windowPosition i.record pos = some (wpos, moved) ∧
      windowFit i.record i.profile.minOn i.tooth wpos (10 * d) = some (ticks, fit))

/-- Every shot the Planner can make of an entry is one it may place. -/
def Admits (ok : Shot → Prop) (i : PlanInput) (e : PatternEntry) : Prop :=
  ∀ ticks tag en rep a o f, Planned i e ticks → ok (i.shot tag en rep e a o ticks f)

theorem keeps_record {s t : State} {c : Cyl} {r : CylRecord} (h : t.tables.cyl = s.tables.cyl) (hs : s.cylOf c = r) :
    t.cylOf c = r := by
  simpa only [State.cylOf, h] using hs

theorem create_rel (h : OpRel K ok R) (r : PlanRun) (i : PlanInput) (hk : K i.record.bank) (en rep : Nat)
    (e : PatternEntry) (a : Anchor) (w t : Nat) (f : ShotFlags) (ha : Admits ok i e) (ht : Planned i e t)
    (hb : r.state.cylOf i.cyl = i.record) : R r.state (r.create i en rep e a w t f).state :=
  placeShot_rel h _ hk _ _ _ (ha _ _ _ _ _ _ _ ht) (congrArg CylRecord.bank hb)

theorem createChained_rel (h : OpRel K ok R) {r r' : PlanRun} {i : PlanInput} (hk : K i.record.bank) {en rep : Nat}
    {e : PatternEntry} {g t : Nat} {f : ShotFlags} (ha : Admits ok i e) (ht : Planned i e t)
    (hb : r.state.cylOf i.cyl = i.record) (hr : r.createChained i en rep e g t f = some r') : R r.state r'.state := by
  unfold PlanRun.createChained at hr
  split at hr
  · cases hr
  · split at hr
    · cases hr
    · cases hr
      exact create_rel h r _ hk _ _ _ _ _ _ _ ha ht hb

theorem repeats_rel (h : OpRel K ok R) (i : PlanInput) (hk : K i.record.bank) (en : Nat) (e : PatternEntry) (t : Nat)
    (f : ShotFlags) (ha : Admits ok i e) (ht : Planned i e t) (n rep : Nat) (r : PlanRun)
    (hb : r.state.cylOf i.cyl = i.record) : R r.state (PlanRun.repeats i en e t f n rep r).state := by
  induction n generalizing rep r with
  | zero => exact h.refl _
  | succ n ih =>
    unfold PlanRun.repeats
    split
    · exact h.refl _
    · rename_i hr
      exact h.trans (createChained_rel h hk ha ht hb hr) (ih _ _ (keeps_record (Laws.createChained_rel cylRecords_rel hr) hb))

theorem first_rel (h : OpRel K ok R) {r r' : PlanRun} {i : PlanInput} (hk : K i.record.bank) {en : Nat}
    {e : PatternEntry} {d : Nat} {f fl : ShotFlags} (ha : Admits ok i e)
    (hd : entryDuration e i.profile.minOn i.demand.mainUs = some (d, fl))
    (hb : r.state.cylOf i.cyl = i.record) (hr : r.first i en e (10 * d) f = some r') : R r.state r'.state := by
  unfold PlanRun.first at hr
  split at hr
  · exact createChained_rel h hk ha ⟨d, fl, hd, .inl rfl⟩ hb hr
  · split at hr
    · cases hr
    · rename_i hw
      split at hr
      · cases hr
      · rename_i hf
        cases hr
        exact create_rel h r _ hk _ _ _ _ _ _ _ ha ⟨d, fl, hd, .inr ⟨_, _, _, _, hw, hf⟩⟩ hb

theorem entry_rel (h : OpRel K ok R) (i : PlanInput) (hk : K i.record.bank) (en : Nat) (e : PatternEntry)
    (ha : Admits ok i e) (r : PlanRun) (hb : r.state.cylOf i.cyl = i.record) : R r.state (PlanRun.entry i en e r).state := by
  unfold PlanRun.entry
  split
  · exact h.refl _
  · split
    · exact h.refl _
    · rename_i hd
      split
      · exact h.refl _
      · rename_i hr
        exact h.trans (first_rel h hk ha hd hb hr) (repeats_rel h _ hk _ _ _ _ ha ⟨_, _, hd, .inl rfl⟩ _ _ _
          (keeps_record (Laws.first_rel cylRecords_rel hr) hb))

theorem entries_rel (h : OpRel K ok R) (i : PlanInput) (hk : K i.record.bank) (n : Nat) (es : List PatternEntry)
    (ha : ∀ e ∈ es, Admits ok i e) (r : PlanRun) (hb : r.state.cylOf i.cyl = i.record) : R r.state (PlanRun.entries i n es r).state := by
  induction es generalizing n r with
  | nil => exact h.refl _
  | cons e es ih =>
    exact h.trans (entry_rel h i hk n e (ha e List.mem_cons_self) r hb)
      (ih _ (fun e' he => ha e' (List.mem_cons_of_mem _ he)) _
        (keeps_record (Laws.entry_rel cylRecords_rel i n e r) hb))

theorem openTrack_rel (h : OpRel K ok R) (k : Bank) (hk : K k) (s : State) (c : Cyl) : R s (openTrack k s c) :=
  h.trans (discardTrack_rel h s k hk c) (h.tracks _ k _ hk)

theorem finishPlan_rel (h : OpRel K ok R) (s : State) (c : Cyl) : R s (finishPlan s c) := by
  unfold finishPlan
  split
  · exact h.refl s
  · exact h.trans (h.sup s c _ (by exact ⟨rfl, rfl, rfl⟩)) (publishIfComplete_rel h _ c)

theorem planShots_rel (h : OpRel K ok R) (hk : ∀ k, K k) (s : State) (c : Cyl) (d : Option ActiveDemand)
    (t : ToothReport) (ha : ∀ a, d = some a → ∀ e ∈ entriesToPlan s c d, Admits ok (planInput s c a.demand t) e) :
    R s (planShots s c d t) := by
  unfold planShots
  split
  · exact finishPlan_rel h s c
  · rename_i d
    have hr := entries_rel h (planInput s c d.demand t) (hk _) 0 (entriesToPlan s c (some d)) (ha d rfl)
      { state := s, last := none, queued := false } rfl
    dsimp only at hr ⊢
    split
    · exact h.trans hr (h.trans (openTrack_rel h _ (hk _) _ c) (finishPlan_rel h _ c))
    · exact h.trans hr (finishPlan_rel h _ c)

/-! ### The tooth -/

theorem signalStarved_rel (h : OpRel K ok R) (s : State) (c : Cyl) (was now : Bool) :
    R s (signalStarved s c was now) := by
  unfold signalStarved
  split
  · dsimp only
    split
    · exact h.sup s c _ (by exact ⟨rfl, rfl, rfl⟩)
    · exact h.trans (h.sup s c _ (by exact ⟨rfl, rfl, rfl⟩)) (h.event _ _)
  · exact h.refl s

theorem bothBanks_rel (h : OpRel K ok R) {f : Bank → State → State} (hf : ∀ k s, R s (f k s)) (s : State) :
    R s (bothBanks f s) := h.trans (hf .bankA s) (hf .bankB _)

theorem reachShot_keeps (s : State) (r : ToothReport) : Keeps (reachShot s r) := by
  intro x
  unfold reachShot
  split
  · split <;> exact ⟨rfl, rfl, rfl, rfl, rfl, rfl, rfl, rfl, rfl, rfl⟩
  · exact ⟨rfl, rfl, rfl, rfl, rfl, rfl, rfl, rfl, rfl, rfl⟩

theorem timeShots_rel (h : OpRel K ok R) (r : ToothReport) (k : Bank) (hk : K k) (s : State) : R s (timeShots r k s) :=
  h.queue s k _ hk (reachShot_keeps s r)

theorem dueAtTooth_rel (h : OpRel K ok R) (k : Bank) (hk : K k) (s : State) : R s (dueAtTooth k s) := by
  unfold dueAtTooth
  split
  · exact foldl_rel h _ (fun s t => markWaiting_rel h k hk s t) _ s
  · exact takeDue_rel h k hk s _

theorem duePast_rel (h : OpRel K ok R) (k : Bank) (hk : K k) (s : State) : R s (duePast k s) := takeDue_rel h k hk s _

theorem closeAtTooth_rel (h : OpRel K ok R) (k : Bank) (hk : K k) (s : State) : R s (closeAtTooth k s) :=
  foldl_rel h _ (fun s c => closeTrack_rel h k hk s c) _ s

theorem takeClose_eq (p : Pulse) (ts : List Track) : p.takeClose ts = { p with windowClose := (p.takeClose ts).windowClose } := by
  unfold Pulse.takeClose
  split
  · rfl
  · split <;> rfl

theorem reachTracks_rel (h : OpRel K ok R) (r : ToothReport) (k : Bank) (hk : K k) (s : State) : R s (reachTracks r k s) := by
  unfold reachTracks
  dsimp only
  have h1 := h.close s k ((s.schedOf k).tracks.map (Track.reach r))
    (fun p => (p.takeClose ((s.schedOf k).tracks.map (Track.reach r))).windowClose) hk
  have he : ((s.schedOf k).active.map fun p => p.takeClose ((s.schedOf k).tracks.map (Track.reach r))) =
      (s.schedOf k).active.map fun p =>
        { p with windowClose := (p.takeClose ((s.schedOf k).tracks.map (Track.reach r))).windowClose } := by
    congr 1; funext p; exact takeClose_eq p _
  rw [← he] at h1
  exact h.trans h1 (foldl_rel h _ (fun s c => closeTrack_rel h k hk s c) _ _)

theorem settleOld_rel (h : OpRel K ok R) (hk : ∀ k, K k) (tie : TieOrder) (s : State) : R s (settleOld tie s) := by
  cases tie
  · exact bothBanks_rel h (fun k => dueAtTooth_rel h k (hk k)) s
  · exact h.trans (bothBanks_rel h (fun k => closeAtTooth_rel h k (hk k)) s)
      (bothBanks_rel h (fun k => dueAtTooth_rel h k (hk k)) _)

theorem settleNew_rel (h : OpRel K ok R) (hk : ∀ k, K k) (tie : TieOrder) (r : ToothReport) (s : State) :
    R s (settleNew tie r s) := by
  unfold settleNew
  dsimp only
  refine h.trans (bothBanks_rel h (fun k => timeShots_rel h r k (hk k)) s) ?_
  cases tie
  · exact h.trans (bothBanks_rel h (fun k => duePast_rel h k (hk k)) _)
      (h.trans (bothBanks_rel h (fun k => closeAtTooth_rel h k (hk k)) _)
        (bothBanks_rel h (fun k => reachTracks_rel h r k (hk k)) _))
  · exact h.trans (bothBanks_rel h (fun k => reachTracks_rel h r k (hk k)) _)
      (bothBanks_rel h (fun k => duePast_rel h k (hk k)) _)

theorem endServiceByMotion_rel (h : OpRel K ok R) (hk : ∀ k, K k) (s : State) : R s (endServiceByMotion s) := by
  unfold endServiceByMotion
  split
  · exact h.refl s
  · exact abortChain_rel h _ (hk _) s _

/-- What a freeze needs beyond the relation: a demand may change, and in every state of `G`, which the relation keeps, the
Planner makes only shots it may place. -/
structure PlanRel (ok : Shot → Prop) (R : State → State → Prop) (G : State → Prop) : Prop where
  demand : ∀ s c x, R s (s.setDemand c x)
  keep   : ∀ s t, R s t → G s → G t
  plan   : ∀ s c a t, G s → ∀ e ∈ entriesToPlan s c (some a), Admits ok (planInput s c a.demand t) e

theorem openPlan_rel (h : WholeRel K ok R) (s : State) (c : Cyl) (d : Option ActiveDemand) : R s (openPlan s c d) :=
  h.supAny s c _

theorem freeze_rel (h : WholeRel K ok R) {G : State → Prop} (hp : PlanRel ok R G) (hk : ∀ k, K k) (r : ToothReport)
    (s : State) (c : Cyl) (hg : G s) : R s (freeze r s c) := by
  have h1 := h.trans (hp.demand s c ((s.demandOf c).resolved s.tables.limits.staleHold))
    (signalStarved_rel h.toOpRel _ c (s.demandOf c).starved ((s.demandOf c).resolved s.tables.limits.staleHold).starved)
  have h2 := h.trans h1 (openPlan_rel h _ c ((s.demandOf c).resolved s.tables.limits.staleHold).active)
  refine h.trans h2 (planShots_rel h.toOpRel hk _ c _ r ?_)
  intro a ha e he
  refine hp.plan _ c a r (hp.keep _ _ h2 hg) e ?_
  rw [← ha]
  exact he

theorem freezes_rel (h : WholeRel K ok R) {G : State → Prop} (hp : PlanRel ok R G) (hk : ∀ k, K k) (r : ToothReport)
    (s : State) (hg : G s) : R s (freezes r s) := by
  unfold freezes
  split
  · have : ∀ (l : List Cyl) (s : State), G s → R s (l.foldl (freeze r) s) := by
      intro l
      induction l with
      | nil => exact fun s _ => h.refl s
      | cons c l ih =>
        intro s hg
        have h1 := freeze_rel h hp hk r s c hg
        exact h.trans h1 (ih _ (hp.keep _ _ h1 hg))
    exact this _ s hg
  · exact h.refl s

theorem handOn_rel (h : WholeRel K ok R) {G : State → Prop} (hp : PlanRel ok R G) (hk : ∀ k, K k) (tie : TieOrder)
    (kind : ToothKind) (left : Bool) (s : State) (hg : G s) : R s (handOn tie kind left s) := by
  unfold handOn
  generalize toothReport s.tables.wheel s.clock kind left = r
  dsimp only
  have h1 : R s (if r.marker = true then s.takePendingSwap else s) := ite_rel h.toOpRel _ (h.swap s)
  generalize (if r.marker = true then s.takePendingSwap else s) = s1 at h1 ⊢
  have h2 : R s (if r.leftStalled = true then endServiceByMotion s1 else s1) :=
    h.trans h1 (ite_rel h.toOpRel _ (endServiceByMotion_rel h.toOpRel hk s1))
  split
  · have h3 := h.trans h2 (settleOld_rel h.toOpRel hk tie _)
    exact h.trans h3 (h.trans (freezes_rel h hp hk _ _ (hp.keep _ _ h3 hg)) (settleNew_rel h.toOpRel hk tie _ _))
  · exact h2

theorem departFullSync_rel (h : WholeRel K ok R) (hk : ∀ k, K k) (s : State) : R s (departFullSync s) :=
  h.trans (h.event s _) (h.trans (cancelBank_rel h.toOpRel .bankA (hk _) _ _)
    (h.trans (cancelBank_rel h.toOpRel .bankB (hk _) _ _) (h.swap _)))

end Sys2Proof.Laws.Fine
end

