-- ==== Sys2Proof/Laws/Link.lean ====
section
/-! SUPPORT. What a frame does at the Link Interface: one lemma for each way a transaction can go. -/

namespace Sys2Proof.Laws

open Sys2Proof Sys2Proof.Machine

theorem frameParams_length {f : Frame} (h : frameComplete f = true) : (frameParams f).length = f.len.toNat := by
  simp only [frameComplete, decide_eq_true_eq] at h
  simp only [frameParams, List.length_take]
  omega

/-- A response to a frame that has been received is all the frame's own effect. -/
theorem respond_received (s : State) (code : Byte) (f : Frame) (r : Result) (data : List Byte) :
    respond (received s code f) code r data = answered s code f r data := rfl

theorem received_eq (s : State) (code : Byte) (f : Frame) :
    received s code f = { s with link := (received s code f).link } := rfl

/-- A frame that passes, of an admitted length, reaches its owner, and the owner's answer is the response. -/
theorem takeFrame_of_passes {s : State} {code : Byte} {f : Frame} {admits : List Byte → Bool}
    (owner : State → List Byte → Reply) (h : passes s code f = true) (hl : (frameParams f).length ≤ 60)
    (ha : admits (frameParams f) = true) :
    takeFrame s code f admits owner =
      respond (owner (received s code f) (frameParams f)).state code
        (owner (received s code f) (frameParams f)).result (owner (received s code f) (frameParams f)).data := by
  simp only [passes, Bool.and_eq_true, Option.isNone_iff_eq_none] at h
  obtain ⟨⟨hc, hk⟩, hb⟩ := h
  rw [frameParams_length hc] at hl
  have hb' : (restartSilence (clockTransaction s (frameBytes code f) f.odd)).link.busyUntil.isSome = false := by
    show s.link.busyUntil.isSome = false
    rw [hb]; rfl
  have hn : ¬(60 < f.len.toNat ∨ admits (frameParams f) = false) := by
    rw [ha]; simp; omega
  simp only [takeFrame, hc, hk, if_true, dispatchFrame, if_neg hn, hb', received]
  rfl

/-- A complete frame with a bad CRC. -/
theorem takeFrame_of_badCrc {s : State} {code : Byte} {f : Frame} (admits : List Byte → Bool)
    (owner : State → List Byte → Reply) (hc : frameComplete f = true) (hk : frameChecks code f = false) :
    takeFrame s code f admits owner = respond (clockTransaction s (frameBytes code f) f.odd) code .badCrc [] := by
  simp [takeFrame, hc, hk]

/-- A frame of a length its command does not admit. -/
theorem takeFrame_of_badLength {s : State} {code : Byte} {f : Frame} {admits : List Byte → Bool}
    (owner : State → List Byte → Reply) (hc : frameComplete f = true) (hk : frameChecks code f = true)
    (ha : admits (frameParams f) = false) :
    takeFrame s code f admits owner = answered s code f .badLength [] := by
  simp only [takeFrame, hc, hk, if_true, dispatchFrame, ha, or_true]
  rfl

/-- A frame that meets the busy period. -/
theorem takeFrame_of_busy {s : State} {code : Byte} {f : Frame} {admits : List Byte → Bool}
    (owner : State → List Byte → Reply) (hc : frameComplete f = true) (hk : frameChecks code f = true)
    (hl : (frameParams f).length ≤ 60) (ha : admits (frameParams f) = true) (hb : s.link.busyUntil.isSome = true) :
    takeFrame s code f admits owner = answered s code f .busy [] := by
  rw [frameParams_length hc] at hl
  have hb' : (restartSilence (clockTransaction s (frameBytes code f) f.odd)).link.busyUntil.isSome = true := hb
  have hn : ¬(60 < f.len.toNat ∨ admits (frameParams f) = false) := by
    rw [ha]; simp; omega
  simp only [takeFrame, hc, hk, if_true, dispatchFrame, if_neg hn, hb']
  rfl

/-- Everything a frame of a known command can do: it breaks, it is refused by one of the four checks, or its owner
answers. -/
theorem takeFrame_cases (s : State) (code : Byte) (f : Frame) (admits : List Byte → Bool)
    (owner : State → List Byte → Reply) :
    takeFrame s code f admits owner = breakTransaction s (frameBytes code f) f.odd ∨
    takeFrame s code f admits owner = respond (clockTransaction s (frameBytes code f) f.odd) code .badCrc [] ∨
    takeFrame s code f admits owner = answered s code f .badLength [] ∨
    takeFrame s code f admits owner = answered s code f .busy [] ∨
    takeFrame s code f admits owner =
      respond (owner (received s code f) (frameParams f)).state code
        (owner (received s code f) (frameParams f)).result (owner (received s code f) (frameParams f)).data := by
  unfold takeFrame
  split
  · dsimp only
    split
    · unfold dispatchFrame
      split
      · exact .inr (.inr (.inl rfl))
      · split
        · exact .inr (.inr (.inr (.inl rfl)))
        · exact .inr (.inr (.inr (.inr rfl)))
    · exact .inr (.inl rfl)
  · exact .inl rfl

end Sys2Proof.Laws
end

