-- ==== Sys2Proof/Laws/Exec.lean ====
section
/-! SUPPORT. What a whole command, and a whole step, can reach: a relation closed under the updates of the banks (Fine) and
under the few updates the commands add holds between the state before and the state after. An invariant is the relation
"if it held before, it holds after". -/

namespace Sys2Proof.Laws.Fine

open Sys2Proof Sys2Proof.Machine Sys2Proof.Laws

/-- What a command may do to the tables beside LOAD_LIMITS and LOAD_WHEEL. -/
inductive TablesStep : TableStore → TableStore → Prop
  | cyl (t : TableStore) {ps c r} (h : parseCyl ps = some (c, r))
      (hu : r.enabled = true → ∀ d, d ≠ c → (t.cyl.get d).enabled = true → (t.cyl.get d).output ≠ r.output) :
      TablesStep t { t with cyl := t.cyl.set c r }
  | profile (t : TableStore) {ps i p} (h : parseProfile ps = some (i, p)) :
      TablesStep t { t with profile := t.profile.set i p }
  | pattern (t : TableStore) {ps i es} (hl : admitsPattern ps = true) (h : parsePattern ps = some (i, es)) (b : Bool) :
      TablesStep t (t.setPattern b i es)
  | swapped (t : TableStore) : TablesStep t t.swapPages

/-- No command but LOAD_CYL changes a cylinder record short of a reset. -/
def KeepsRecords (t t' : TableStore) : Prop := t'.cyl = t.cyl

/-- A relation closed under every update a command is made of. `G` is what the relation keeps and the Planner needs; `C` says
that it holds across the load of a cylinder record too. -/
structure ExecRel (C : Prop) (ok : Shot → Prop) (G : State → Prop) (R : State → State → Prop) : Prop
    extends WholeRel (fun _ => True) ok R, PlanRel ok R G where
  link     : ∀ s x, R s (s.setLink x)
  trace    : ∀ s x, R s (s.setTrace x)
  events   : ∀ s x, (∀ b, s.events.latched.getLsbD b = true → x.latched.getLsbD b = true) → R s (s.setEvents x)
  read     : ∀ s : State, R s (s.setEvents { s.events with latched := 0 })
  sense    : ∀ (s : State) x, R s { s with sense := x }
  supply   : ∀ (s : State) x, R s { s with supply := x }
  queueing : ∀ (s : State) x, R s { s with pending := x }
  ticking  : ∀ s, dueEvent s = none → R s (tick s)
  recharge : ∀ s, R s (rechargeBoth s)
  counted  : ∀ s k, (s.schedOf k).active.isSome = true → R s (s.setDrive k (s.driveOf k).counted)
  moved    : ∀ s k x, (s.schedOf k).active.isSome = true →
    R s (s.setDrive k (((s.driveOf k).movePhase s.timebase x).moveGate x))
  slow     : ∀ s k, R s (markSlow k s)
  load     : ∀ s x, TablesStep s.tables x → C ∨ KeepsRecords s.tables x → R s (s.setTables x)
  pend     : ∀ s : State, s.firing ≠ .safe → s.clock.sync = .fullSync →
    R s (s.setTables { s.tables with swapPending := true })
  limits   : ∀ s ps, R s (clampLevels (s.setTables { s.tables with limits := clampLimits (rawLimits ps) }))
  stop     : ∀ s, R s (stopFiring s)
  drain    : ∀ s : State, s.firing = .armed → R s (drainTest (s.setFiring .draining))
  rearm    : ∀ s : State, s.firing = .draining → R s (s.setFiring .armed)
  arm      : ∀ s, s.firing = .safe → R s (armFromSafe s)
  service' : ∀ s c ps, s.firing = .safe → serviceParams ps = some c →
    R s (startService s c (u16 ps 1) (u8 ps 3) (u16 ps 4))
  resets   : ∀ (s : State) l, R s { State.reset with pending := s.pending, link := l }
  overspeed : ∀ (s : State) b, R s (s.setClock { s.clock with overspeed := b })
  crank    : ∀ s tr tie, G s → R s (crankTransition tr tie s)
  cam      : ∀ s tr, R s (camTransition tr s)
  deadline : ∀ s tie, G s → dueDeadline s = true → R s (expireDeadline tie s)
  stalled  : ∀ s, dueStall s = true → R s (stallClock s)
  reload   : ∀ s ps w, parseWheel ps = some w → R s (reloadClock (s.setTables { s.tables with wheel := w }))
  techo    : ∀ s, R s (endTecho s)
  cmark    : ∀ s, R s (endCmark s)

variable {C : Prop} {ok : Shot → Prop} {G : State → Prop} {R : State → State → Prop}

theorem whenDue_rel (h : ExecRel C ok G R) (s : State) (due : Bool) (f : State → State) (hf : due = true → R s (f s)) :
    R s (whenDue due f s) := by
  unfold whenDue
  split
  · exact hf ‹_›
  · exact h.refl s

/-! ### Frames -/

theorem takeFrame_rel (h : ExecRel C ok G R) (s : State) (code : Byte) (f : Frame) (admits : List Byte → Bool)
    (owner : State → List Byte → Reply)
    (ho : ∀ s, admits (frameParams f) = true → R s (owner s (frameParams f)).state) :
    R s (takeFrame s code f admits owner) := by
  unfold takeFrame
  split
  · dsimp only
    split
    · unfold dispatchFrame
      split
      · exact h.trans (h.link s _) (h.trans (h.link _ _) (h.link _ _))
      · rename_i ha
        split
        · exact h.trans (h.link s _) (h.trans (h.link _ _) (h.link _ _))
        · have ha' : admits (frameParams f) = true := by
            cases hx : admits (frameParams f)
            · exact absurd (Or.inr hx) ha
            · rfl
          exact h.trans (h.link s _) (h.trans (h.link _ _) (h.trans (ho _ ha') (h.link _ _)))
    · exact h.trans (h.link s _) (h.link _ _)
  · exact h.trans (h.link s _) (h.link _ _)

theorem takeUnknown_rel (h : ExecRel C ok G R) (s : State) (code : Byte) (f : Frame) : R s (takeUnknown s code f) := by
  unfold takeUnknown
  split
  · dsimp only
    split
    · exact h.trans (h.link s _) (h.trans (h.link _ _) (h.link _ _))
    · exact h.trans (h.link s _) (h.link _ _)
  · exact h.trans (h.link s _) (h.link _ _)

/-! ### Samples -/

theorem judgeSample_rel (h : ExecRel C ok G R) (k : Bank) (s : State) (x : Nat)
    (ha : (s.schedOf k).active.isSome = true) : R s (judgeSample k s x) := by
  unfold judgeSample
  dsimp only
  split
  · exact injectorFault_rel h.toWholeRel k trivial s _
  · split
    · exact injectorFault_rel h.toWholeRel k trivial s _
    · split
      · have ha' : ((markSlow k s).schedOf k).active.isSome = true := by
          simpa [markSlow] using ha
        exact h.trans (h.slow s k) (by simpa [markSlow] using h.moved (markSlow k s) k x ha')
      · exact h.moved s k x ha

theorem takeDriveSample_rel (h : ExecRel C ok G R) (k : Bank) (s : State) (x : Byte)
    (ha : (s.schedOf k).active.isSome = true) : R s (takeDriveSample k s x) := by
  unfold takeDriveSample
  dsimp only
  refine h.trans ?_ (judgeSample_rel h k _ _ ?_)
  · exact h.trans (h.sense s _) (h.counted (s.readSense k x) k ha)
  · exact ha

theorem takeTraceSample_rel (h : ExecRel C ok G R) (k : Bank) (s : State) (x : Byte) : R s (takeTraceSample k s x) := by
  unfold takeTraceSample
  dsimp only
  split
  · exact h.trans (h.sense s _) (h.trans (h.trace _ _) (h.event _ _))
  · exact h.trans (h.sense s _) (h.trace _ _)

theorem takeSupply_rel (h : ExecRel C ok G R) (s : State) (x : Nat) : R s (takeSupply s x) := by
  unfold takeSupply
  dsimp only
  split
  · exact h.supply s _
  · exact h.trans (h.supply s _) (h.event _ _)

/-! ### Owners -/

theorem judgeOverspeed_rel (h : ExecRel C ok G R) (s : State) : R s (judgeOverspeed s) := by
  unfold judgeOverspeed
  dsimp only
  split
  · exact h.trans (h.overspeed s _) (h.event _ _)
  · exact h.overspeed s _

theorem applyLimits_rel (h : ExecRel C ok G R) (s : State) (ps : List Byte) :
    R s (applyLimits s (clampLimits (rawLimits ps))) := by
  unfold applyLimits
  dsimp only
  have h1 := h.limits s ps
  generalize clampLevels (s.setTables { s.tables with limits := clampLimits (rawLimits ps) }) = s1 at h1 ⊢
  have h2 : R s (if (clampLimits (rawLimits ps)).maxSpeed = s.tables.limits.maxSpeed then s1 else judgeOverspeed s1) := by
    split
    · exact h1
    · exact h.trans h1 (judgeOverspeed_rel h s1)
  split
  · exact h2
  · exact h.trans h2 (h.trans (moveGap_rel h.toOpRel .bankA trivial _) (moveGap_rel h.toOpRel .bankB trivial _))

theorem cutBy_rel (h : ExecRel C ok G R) (s : State) (c : Cyl) (op : CutOp) : R s (cutBy s c op) := by
  unfold cutBy
  dsimp only
  split
  · exact h.trans (h.supAny s c _) (h.trans (cutCylinder_rel h.toOpRel _ trivial _ c) (h.supAny _ c _))
  · exact h.supAny s c _

theorem stage_rel (h : ExecRel C ok G R) (xs : List (Cyl × Demand)) (s : State) : R s (xs.foldl stageOne s) :=
  foldl_rel h.toOpRel _ (fun s _ => h.demand s _ _) xs s

theorem ownDemand_rel (h : ExecRel C ok G R) (s : State) (ps : List Byte) : R s (ownDemand s ps).state := by
  unfold ownDemand
  split
  · exact h.refl s
  · exact stage_rel h _ s

theorem ownArm_rel (h : ExecRel C ok G R) (s : State) (ps : List Byte) : R s (ownArm s ps).state := by
  unfold ownArm
  split
  · rename_i ha
    show R s (if s.firing = .safe then armFromSafe s else s.setFiring .armed)
    split
    · exact h.arm s ‹_›
    · refine h.rearm s ?_
      simp only [armAdmitted, Bool.and_eq_true, bne_iff_ne] at ha
      cases hf : s.firing <;> simp_all
  · exact h.refl s

theorem ownDisarm_rel (h : ExecRel C ok G R) (s : State) (ps : List Byte) : R s (ownDisarm s ps).state := by
  unfold ownDisarm
  split
  · exact h.drain s ‹_›
  · exact h.refl s

theorem ownCut_rel (h : ExecRel C ok G R) (s : State) (ps : List Byte) : R s (ownCut s ps).state := by
  unfold ownCut
  split
  · exact cutBy_rel h s _ _
  · exact h.refl s
  · exact h.refl s

theorem ownClearFault_rel (h : ExecRel C ok G R) (s : State) (ps : List Byte) : R s (ownClearFault s ps).state := by
  unfold ownClearFault
  split
  · exact h.supAny s _ _
  · exact h.refl s

theorem ownService_rel (h : ExecRel C ok G R) (s : State) (ps : List Byte) : R s (ownService s ps).state := by
  unfold ownService
  split
  · exact h.refl s
  · split
    · exact h.refl s
    · rename_i hc
      split
      · exact h.refl s
      · rename_i hp
        split
        · exact h.service' s _ ps (by by_contra hf; exact hc (.inr hf)) hp
        · exact h.refl s

theorem ownLoadWheel_rel (h : ExecRel C ok G R) (s : State) (ps : List Byte) : R s (ownLoadWheel s ps).state := by
  unfold ownLoadWheel
  split
  · exact h.refl s
  · split
    · exact h.refl s
    · exact h.reload s ps _ ‹_›

theorem ownLoadCyl_rel (h : ExecRel C ok G R) (hC : C) (s : State) (ps : List Byte) : R s (ownLoadCyl s ps).state := by
  unfold ownLoadCyl
  split
  · exact h.refl s
  · split
    · exact h.refl s
    · split
      · exact h.refl s
      · rename_i c r hp
        split
        · exact h.refl s
        · rename_i hu
          have h1 : R s (s.setTables { s.tables with cyl := s.tables.cyl.set c r }) := by
            refine h.load s _ (.cyl _ hp ?_) (.inl hC)
            intro he d hd hen ho
            apply hu
            simp only [he, Bool.true_and, outputTaken, List.any_eq_true]
            refine ⟨d, by fin_cases d <;> decide, ?_⟩
            simp only [Bool.and_eq_true, bne_iff_ne, beq_iff_eq]
            exact ⟨⟨hd, hen⟩, ho⟩
          show R s (storeCyl s c r)
          unfold storeCyl
          dsimp only
          split
          · exact h1
          · exact h.trans h1 (h.demand _ _ _)

theorem ownLoadProfile_rel (h : ExecRel C ok G R) (s : State) (ps : List Byte) : R s (ownLoadProfile s ps).state := by
  unfold ownLoadProfile
  split
  · exact h.refl s
  · split
    · exact h.refl s
    · split
      · exact h.refl s
      · exact h.load s _ (.profile _ ‹_›) (.inr rfl)

theorem ownLoadPattern_rel (h : ExecRel C ok G R) (s : State) (ps : List Byte) (ha : admitsPattern ps = true) :
    R s (ownLoadPattern s ps).state := by
  unfold ownLoadPattern
  split
  · exact h.refl s
  · split
    · exact h.refl s
    · exact h.load s _ (.pattern _ ha ‹_› _) (.inr (by unfold KeepsRecords TableStore.setPattern; split <;> rfl))

theorem ownSwap_rel (h : ExecRel C ok G R) (s : State) (ps : List Byte) : R s (ownSwap s ps).state := by
  unfold ownSwap
  split
  · exact h.refl s
  · split
    · rename_i hc
      exact h.pend s hc.1 hc.2
    · exact h.load s _ (.swapped _) (.inr rfl)

theorem ownReadTable_rel (h : ExecRel C ok G R) (s : State) (ps : List Byte) : R s (ownReadTable s ps).state := by
  unfold ownReadTable
  split <;> exact h.refl s

theorem ownTraceArm_rel (h : ExecRel C ok G R) (s : State) (ps : List Byte) : R s (ownTraceArm s ps).state := by
  unfold ownTraceArm
  dsimp only
  split
  · exact h.trace s _
  · split
    · exact h.refl s
    · split
      · exact h.trace s _
      · exact h.refl s

theorem ownTraceRead_rel (h : ExecRel C ok G R) (s : State) (ps : List Byte) : R s (ownTraceRead s ps).state := by
  unfold ownTraceRead
  split
  · exact h.trace s _
  · exact h.refl s

theorem ownSetMask_rel (h : ExecRel C ok G R) (s : State) (ps : List Byte) : R s (ownSetMask s ps).state := by
  unfold ownSetMask
  split
  · exact h.events s _ (fun _ hb => hb)
  · exact h.refl s

theorem ownReadCyl_rel (h : ExecRel C ok G R) (s : State) (ps : List Byte) : R s (ownReadCyl s ps).state := by
  unfold ownReadCyl
  split <;> exact h.refl s

theorem ownReadReport_rel (h : ExecRel C ok G R) (s : State) (ps : List Byte) : R s (ownReadReport s ps).state := by
  unfold ownReadReport
  split <;> exact h.refl s

theorem ownReadQueue_rel (h : ExecRel C ok G R) (s : State) (ps : List Byte) : R s (ownReadQueue s ps).state := by
  unfold ownReadQueue
  split
  · split <;> exact h.refl s
  · exact h.refl s

theorem ownStop_rel (h : ExecRel C ok G R) (s : State) (ps : List Byte) : R s (ownStop s ps).state := by
  unfold ownStop took
  dsimp only
  exact h.stop s

theorem ownReset_rel (h : ExecRel C ok G R) (s : State) (ps : List Byte) : R s (ownReset s ps).state := by
  unfold ownReset softReset
  exact h.resets s _

theorem ownReadEvents_rel (h : ExecRel C ok G R) (s : State) (ps : List Byte) : R s (ownReadEvents s ps).state := by
  unfold ownReadEvents answer
  exact h.read s

theorem ownLoadLimits_rel (h : ExecRel C ok G R) (s : State) (ps : List Byte) : R s (ownLoadLimits s ps).state := by
  unfold ownLoadLimits
  exact applyLimits_rel h s ps

/-! ### Commands and steps -/

theorem endOnSchedule_rel (h : ExecRel C ok G R) (k : Bank) (s : State) : R s (endOnSchedule k s) := by
  unfold endOnSchedule
  split
  · exact h.refl s
  · exact h.trans (h.pulseEnd s k _ _ trivial) (settleGap_rel h.toOpRel k trivial _)

theorem dueGapEnd_cond {s : State} {k : Bank} (h : dueGapEnd s k = true) : (s.schedOf k).cond = .gap := by
  simp only [dueGapEnd, Bool.and_eq_true, beq_iff_eq] at h
  exact h.1

theorem dueDriveSample_active {s : State} {k : Bank} (h : dueDriveSample s k = true) :
    (s.schedOf k).active.isSome = true := by
  simp only [dueDriveSample, Bool.and_eq_true] at h
  exact h.1

/-- The relation holds across every command; across LOAD_CYL, where it holds across the load of a cylinder record. -/
theorem exec_rel (h : ExecRel C ok G R) {i : Instr} {s t : State} (hi : C ∨ ∀ f, i ≠ .loadCyl f) (hg : G s) (he : exec i s = .next t) : R s t := by
  have key : ∀ {x : State}, R s x → Host.Outcome.next x = (Host.Outcome.next t : Host.Outcome State Fault Refusal) →
      R s t := fun hr hx => by cases hx; exact hr
  cases i with
  | powerOnReset => exact key (h.resets s _) he
  | busyPeriodEnd => exact key (whenDue_rel h s _ _ (fun _ => h.link s _)) he
  | crankEdge tr tie => exact key (h.crank s tr tie hg) he
  | camEdge tr => exact key (h.cam s tr) he
  | deadlineExpiry tie => exact key (whenDue_rel h s _ _ (fun hd => h.deadline s tie hg hd)) he
  | stall => exact key (whenDue_rel h s _ _ (fun hd => h.stalled s hd)) he
  | techoPulseEnd => exact key (whenDue_rel h s _ _ (fun _ => h.techo s)) he
  | cmarkPulseEnd => exact key (whenDue_rel h s _ _ (fun _ => h.cmark s)) he
  | timedInstant k tag =>
    exact key (whenDue_rel h s _ (fun s => takeDue k s [tag]) (fun _ => takeDue_rel h.toOpRel k trivial s _)) he
  | chainShotDue k tag =>
    exact key (whenDue_rel h s _ (fun s => takeDue k s [tag]) (fun _ => takeDue_rel h.toOpRel k trivial s _)) he
  | gapEnd k => exact key (whenDue_rel h s _ _ (fun hd => endGap_rel h.toOpRel k trivial s (dueGapEnd_cond hd))) he
  | deferDeadline k tag => exact key (whenDue_rel h s _ (fun s => dropWithChain k s tag .shedConflict)
      (fun _ => dropWithChain_rel h.toOpRel k trivial s _ _)) he
  | scheduledEnd k => exact key (whenDue_rel h s _ _ (fun _ => endOnSchedule_rel h k s)) he
  | windowClose k c =>
    exact key (whenDue_rel h s _ (fun s => closeTrack k s c) (fun _ => closeTrack_rel h.toOpRel k trivial s c)) he
  | driveSample k x => exact key (whenDue_rel h s _ (fun s => takeDriveSample k s x)
      (fun hd => takeDriveSample_rel h k s x (dueDriveSample_active hd))) he
  | traceSample x =>
    change execTraceSample x s = _ at he
    unfold execTraceSample at he
    split at he
    · exact key (takeTraceSample_rel h _ s x) he
    · exact key (h.refl s) he
  | rechargeStep => exact key (whenDue_rel h s _ _ (fun _ => h.recharge s)) he
  | supplySample x =>
    exact key (whenDue_rel h s _ (fun s => takeSupply s x.toNat) (fun _ => takeSupply_rel h s _)) he
  | linkSilence => exact key (whenDue_rel h s _ _ (fun _ => h.trans (h.event s _) (h.stop _))) he
  | brokenTransaction bytes odd => exact key (h.trans (h.link s _) (h.link _ _)) he
  | unknown code f => exact key (takeUnknown_rel h s code f) he
  | nop f => exact key (takeFrame_rel h s _ _ _ _ (fun s _ => h.refl s)) he
  | reset f => exact key (takeFrame_rel h s _ _ _ _ (fun s _ => ownReset_rel h s _)) he
  | readId f => exact key (takeFrame_rel h s _ _ _ _ (fun s _ => h.refl s)) he
  | loadWheel f => exact key (takeFrame_rel h s _ _ _ _ (fun s _ => ownLoadWheel_rel h s _)) he
  | loadCyl f => exact key (takeFrame_rel h s _ _ _ _ (fun s _ => ownLoadCyl_rel h (hi.resolve_right fun hn => hn f rfl) s _)) he
  | loadProfile f => exact key (takeFrame_rel h s _ _ _ _ (fun s _ => ownLoadProfile_rel h s _)) he
  | loadPattern f => exact key (takeFrame_rel h s _ _ _ _ (fun s ha => ownLoadPattern_rel h s _ ha)) he
  | swap f => exact key (takeFrame_rel h s _ _ _ _ (fun s _ => ownSwap_rel h s _)) he
  | loadLimits f => exact key (takeFrame_rel h s _ _ _ _ (fun s _ => ownLoadLimits_rel h s _)) he
  | readTable f => exact key (takeFrame_rel h s _ _ _ _ (fun s _ => ownReadTable_rel h s _)) he
  | demand f => exact key (takeFrame_rel h s _ _ _ _ (fun s _ => ownDemand_rel h s _)) he
  | arm f => exact key (takeFrame_rel h s _ _ _ _ (fun s _ => ownArm_rel h s _)) he
  | disarm f => exact key (takeFrame_rel h s _ _ _ _ (fun s _ => ownDisarm_rel h s _)) he
  | stop f => exact key (takeFrame_rel h s _ _ _ _ (fun s _ => ownStop_rel h s _)) he
  | cutSet f => exact key (takeFrame_rel h s _ _ _ _ (fun s _ => ownCut_rel h s _)) he
  | cutClear f => exact key (takeFrame_rel h s _ _ _ _ (fun s _ => ownCut_rel h s _)) he
  | cutToggle f => exact key (takeFrame_rel h s _ _ _ _ (fun s _ => ownCut_rel h s _)) he
  | cutTest f => exact key (takeFrame_rel h s _ _ _ _ (fun s _ => ownCut_rel h s _)) he
  | clearFault f => exact key (takeFrame_rel h s _ _ _ _ (fun s _ => ownClearFault_rel h s _)) he
  | service f => exact key (takeFrame_rel h s _ _ _ _ (fun s _ => ownService_rel h s _)) he
  | traceArm f => exact key (takeFrame_rel h s _ _ _ _ (fun s _ => ownTraceArm_rel h s _)) he
  | traceRead f => exact key (takeFrame_rel h s _ _ _ _ (fun s _ => ownTraceRead_rel h s _)) he
  | readAngle f => exact key (takeFrame_rel h s _ _ _ _ (fun s _ => h.refl s)) he
  | readTime f => exact key (takeFrame_rel h s _ _ _ _ (fun s _ => h.refl s)) he
  | readStatus f => exact key (takeFrame_rel h s _ _ _ _ (fun s _ => h.refl s)) he
  | readCyl f => exact key (takeFrame_rel h s _ _ _ _ (fun s _ => ownReadCyl_rel h s _)) he
  | readReport f => exact key (takeFrame_rel h s _ _ _ _ (fun s _ => ownReadReport_rel h s _)) he
  | readQueue f => exact key (takeFrame_rel h s _ _ _ _ (fun s _ => ownReadQueue_rel h s _)) he
  | readCounters f => exact key (takeFrame_rel h s _ _ _ _ (fun s _ => h.refl s)) he
  | readEvents f => exact key (takeFrame_rel h s _ _ _ _ (fun s _ => ownReadEvents_rel h s _)) he
  | setMask f => exact key (takeFrame_rel h s _ _ _ _ (fun s _ => ownSetMask_rel h s _)) he

/-- The relation holds across every edge at the link's pins. -/
theorem takeEdge_rel (h : ExecRel C ok G R) (hC : C) {e : LinkEdge} {s t : State} (hg : G s) (he : takeEdge e s = .next t) : R s t := by
  cases e with
  | selectFall => cases he; exact h.link s _
  | clockRise ldi => cases he; exact h.link s _
  | clockFall => cases he; exact h.link s _
  | selectRise =>
    unfold takeEdge at he
    dsimp only at he
    split at he
    · exact exec_rel h (.inl hC) hg he
    · cases he; exact h.link s _
    · cases he; exact h.refl s

/-- The relation holds across every step. -/
theorem step_rel (h : ExecRel C ok G R) (hC : C) {s t : State} (hg : G s) (he : step s = .next t) : R s t := by
  unfold step at he
  split at he
  · have h1 := h.queueing s ‹_›
    exact h.trans h1 (exec_rel h (.inl hC) (h.keep _ _ h1 hg) he)
  · split at he
    · have h1 := h.link s { s.link with edges := ‹_› }
      exact h.trans h1 (takeEdge_rel h hC (h.keep _ _ h1 hg) he)
    · unfold idleStep at he
      split at he
      · exact exec_rel h (.inl hC) hg he
      · rename_i hn
        split at he
        · cases he; exact h.refl s
        · cases he; exact h.ticking s hn

end Sys2Proof.Laws.Fine
end

