-- ==== Sys2Proof/Laws/Motion.lean ====
section
/-! SUPPORT. A relation that does not look at the Angle Clock holds across everything the clock does: what an edge, a
deadline, a stall or a new wheel changes elsewhere is bank work alone. -/

namespace Sys2Proof.Laws.Fine

open Sys2Proof Sys2Proof.Machine Sys2Proof.Laws

variable {K : Bank → Prop} {ok : Shot → Prop} {G : State → Prop} {R : State → State → Prop}

theorem signalVerdict_rel (h : WholeRel K ok R) (hk : ∀ k, K k) (v : CamVerdict) (s : State) : R s (signalVerdict v s) := by
  cases v
  · exact h.refl s
  · exact h.event s _
  · exact h.trans (h.event s _) (departFullSync_rel h hk _)

section

variable (h : WholeRel K ok R) (hc : ∀ s x, R s (s.setClock x))

include h hc

theorem setSpeed_rel (s : State) : R s (setSpeed s) := by
  unfold setSpeed judgeOverspeed
  dsimp only
  split
  · exact h.trans (hc s _) (h.trans (hc _ _) (h.event _ _))
  · exact h.trans (hc s _) (hc _ _)

theorem changeSync_rel (hk : ∀ k, K k) (s : State) (k : AngleClock) : R s (changeSync s k) := by
  unfold changeSync
  dsimp only
  refine h.trans ?_ (setSpeed_rel h hc _)
  split
  · exact h.trans (hc s k) (departFullSync_rel h hk _)
  · exact hc s k

theorem loseSync_rel (hk : ∀ k, K k) (s : State) : R s (loseSync s) := changeSync_rel h hc hk s _

theorem stallClock_rel (hk : ∀ k, K k) (s : State) : R s (stallClock s) :=
  h.trans (h.event s _) (changeSync_rel h hc hk _ _)

theorem reloadClock_rel (hk : ∀ k, K k) (s : State) : R s (reloadClock s) := by
  unfold reloadClock
  split
  · exact h.refl s
  · exact changeSync_rel h hc hk s _

theorem clockTooth_rel (hk : ∀ k, K k) (s : State) (syn : Bool) (t t1 : Nat) : R s (clockTooth s syn t t1) := by
  unfold clockTooth
  dsimp only
  refine h.trans ?_ (setSpeed_rel h hc _)
  exact h.trans (hc s _) (signalVerdict_rel h hk _ _)

theorem seekTooth_rel (s : State) (may : Bool) : R s (seekTooth s may) := h.trans (hc s _) (setSpeed_rel h hc _)

theorem leaveStalled_rel (s : State) : R s (leaveStalled s) := h.trans (hc s _) (setSpeed_rel h hc _)

theorem camTransition_rel (tr : Transition) (s : State) : R s (camTransition tr s) := by
  unfold camTransition
  split
  · dsimp only
    split
    · exact h.trans (hc s _) (h.event _ _)
    · exact h.trans (hc s _) (hc _ _)
  · exact h.refl s

variable (hp : PlanRel ok R G)

include hp

theorem judgedEdge_rel (hk : ∀ k, K k) (tie : TieOrder) (s : State) (hg : G s) : R s (judgedEdge tie s) := by
  unfold judgedEdge
  dsimp only
  split
  · exact h.event s _
  · have h1 := h.trans (loseSync_rel h hc hk s) (seekTooth_rel h hc _ false)
    exact h.trans h1 (handOn_rel h hp hk tie _ false _ (hp.keep _ _ h1 hg))
  · have h1 := clockTooth_rel h hc hk s false s.timebase
      ((s.timebase - s.clock.lastTooth.getD s.timebase) / s.tables.wheel.pitches s.clock.index)
    exact h.trans h1 (handOn_rel h hp hk tie _ false _ (hp.keep _ _ h1 hg))

theorem syncEdge_rel (hk : ∀ k, K k) (tie : TieOrder) (s : State) (hg : G s) : R s (syncEdge tie s) := by
  unfold syncEdge
  split
  · exact hc s _
  · exact h.trans (hc s _) (judgedEdge_rel h hc hp hk tie _ (hp.keep _ _ (hc s _) hg))

theorem crankTransition_rel (hk : ∀ k, K k) (tr : Transition) (tie : TieOrder) (s : State) (hg : G s) :
    R s (crankTransition tr tie s) := by
  unfold crankTransition
  split
  · unfold risingEdge
    dsimp only
    have h1 : R s (s.setClock { s.clock with lastCrank := some s.timebase }) := hc s _
    have hg1 := hp.keep _ _ h1 hg
    split
    · exact h.trans h1 (h.event _ _)
    · refine h.trans h1 ?_
      split
      · have h2 := leaveStalled_rel h hc (s.setClock { s.clock with lastCrank := some s.timebase })
        exact h.trans h2 (handOn_rel h hp hk tie _ true _ (hp.keep _ _ h2 hg1))
      · have h2 := seekTooth_rel h hc (s.setClock { s.clock with lastCrank := some s.timebase }) true
        exact h.trans h2 (handOn_rel h hp hk tie _ false _ (hp.keep _ _ h2 hg1))
      · exact syncEdge_rel h hc hp hk tie _ hg1
      · exact syncEdge_rel h hc hp hk tie _ hg1
  · exact h.refl s

theorem expireDeadline_rel (hk : ∀ k, K k) (tie : TieOrder) (s : State) (hg : G s) : R s (expireDeadline tie s) := by
  unfold expireDeadline
  split
  · have h1 := clockTooth_rel h hc hk s true (s.clock.syntheticTime s.tables.wheel) s.clock.tpred
    exact h.trans h1 (handOn_rel h hp hk tie _ false _ (hp.keep _ _ h1 hg))
  · exact loseSync_rel h hc hk s

end

end Sys2Proof.Laws.Fine
end

