-- ==== Sys2Proof/Laws/Pins.lean ====
section
/-! SUPPORT. The edges of a transaction, one at a time, and the command they make: what the pins hold in the middle of it,
and that its end is the whole transaction's effect. -/

namespace Sys2Proof.Laws

open Sys2Proof Sys2Proof.Machine

/-! ### The response, bit by bit -/

theorem clockedOut_length (r : Response) (n : Nat) : (r.clockedOut n).length = n := by
  simp [Response.clockedOut]

theorem clockedOut_succ (r : Response) (n : Nat) : r.clockedOut (n + 1) = r.clockedOut n ++ [r.bit n] := by
  apply List.ext_getElem
  · simp [clockedOut_length]
  · intro i hi _
    rw [clockedOut_length] at hi
    simp only [Response.clockedOut, Response.bit, List.getElem_append, List.getElem_take, List.length_take,
      List.length_append, List.length_replicate, List.getElem_replicate, List.getElem_singleton, List.getD_eq_getElem?_getD]
    by_cases h : i < (bitsOfBytes r.bytes).length
    · by_cases hn : i < n
      · simp [h, hn]
      · have : i = n := by omega
        subst this
        simp [h]
    · by_cases hn : i < n
      · simp [h, hn]
      · have : i = n := by omega
        subst this
        simp [h]

/-! ### The received bytes -/

@[simp] theorem holding_response (l : LinkIface) (bs : List Byte) : (l.holding bs).response = l.response := rfl
@[simp] theorem holding_busyUntil (l : LinkIface) (bs : List Byte) : (l.holding bs).busyUntil = l.busyUntil := rfl
@[simp] theorem holding_silence (l : LinkIface) (bs : List Byte) : (l.holding bs).silence = l.silence := rfl
@[simp] theorem holding_ldo (l : LinkIface) (bs : List Byte) : (l.holding bs).ldo = l.ldo := rfl
@[simp] theorem holding_select (l : LinkIface) (bs : List Byte) : (l.holding bs).select = l.select := rfl
@[simp] theorem holding_edges (l : LinkIface) (bs : List Byte) : (l.holding bs).edges = l.edges := rfl

/-! ### In the middle of a transaction -/

/-- The link after the first bits of a transaction: each has been followed by the fall of LCLK. -/
def inTransaction (l : LinkIface) (bits : List Bool) : LinkIface :=
  { l.holding (bytesOfBits bits).1 with
    ldo := l.response.clockedOut bits.length, select := .transaction bits bits.length }

theorem selectFall_released {l : LinkIface} (h : l.select = .released) : l.selectFall = inTransaction l [] := by
  simp only [LinkIface.selectFall, h]
  rfl

/-- One more bit in and one more bit out. -/
theorem clock_inTransaction (l : LinkIface) (bits : List Bool) (b : Bool) :
    ((inTransaction l bits).clockRise b).clockFall = inTransaction l (bits ++ [b]) := by
  simp only [LinkIface.clockRise, LinkIface.clockFall, inTransaction, LinkIface.holding, List.length_append,
    List.length_singleton, clockedOut_succ]

theorem inTransaction_ldoPin (l : LinkIface) (bits : List Bool) :
    (inTransaction l bits).ldoPin = some (l.response.bit bits.length) := rfl

theorem bytesOfBits_length : ∀ bits : List Bool,
    (bytesOfBits bits).1.length = bits.length / 8 ∧ (bytesOfBits bits).2.length = bits.length % 8
  | a :: b :: c :: d :: e :: f :: g :: h :: rest => by
    have ih := bytesOfBits_length rest
    simp only [bytesOfBits, List.length_cons]
    omega
  | [] => by simp [bytesOfBits]
  | [_] => by simp [bytesOfBits]
  | [_, _] => by simp [bytesOfBits]
  | [_, _, _] => by simp [bytesOfBits]
  | [_, _, _, _] => by simp [bytesOfBits]
  | [_, _, _, _, _] => by simp [bytesOfBits]
  | [_, _, _, _, _, _] => by simp [bytesOfBits]
  | [_, _, _, _, _, _, _] => by simp [bytesOfBits]

/-- What a whole transaction makes of the link does not ask what the pins held before it. -/
theorem clocked_inTransaction (l : LinkIface) (bits : List Bool) (bytes : List Byte) (odd : List Bool) :
    (inTransaction l bits).clocked bytes odd = l.clocked bytes odd := rfl

/-! ### The frame at the end of it -/

theorem takeFrame_inTransaction (s : State) (bits : List Bool) (code : Byte) (f : Frame) (admits : List Byte → Bool)
    (owner : State → List Byte → Reply) :
    takeFrame (s.setLink (inTransaction s.link bits)) code f admits owner = takeFrame s code f admits owner := rfl

theorem takeUnknown_inTransaction (s : State) (bits : List Bool) (code : Byte) (f : Frame) :
    takeUnknown (s.setLink (inTransaction s.link bits)) code f = takeUnknown s code f := rfl

theorem breakTransaction_inTransaction (s : State) (bits : List Bool) (bytes : List Byte) (odd : List Bool) :
    breakTransaction (s.setLink (inTransaction s.link bits)) bytes odd = breakTransaction s bytes odd := rfl

/-- A command that comes over the link acts alike, whether its transaction has been followed at the pins or not. -/
theorem exec_inTransaction (s : State) (bits : List Bool) {i : Instr} (h : (encodeTransaction i).isSome = true) :
    exec i (s.setLink (inTransaction s.link bits)) = exec i s := by
  cases i <;> first
    | exact congrArg Host.Outcome.next (takeFrame_inTransaction s bits _ _ _ _)
    | exact congrArg Host.Outcome.next (takeUnknown_inTransaction s bits _ _)
    | exact congrArg Host.Outcome.next (breakTransaction_inTransaction s bits _ _)
    | exact absurd h (by simp [encodeTransaction, linkParts])

/-! ### Steps -/

/-- With no command waiting a step takes the next edge. -/
theorem step_edge {s : State} {e : LinkEdge} {rest : List LinkEdge} (hp : s.pending = []) (he : s.link.edges = e :: rest) :
    step s = takeEdge e (s.setLink { s.link with edges := rest }) := by
  unfold step
  rw [hp]
  dsimp only
  rw [he]

/-- The two steps of one bit: the rise and the fall of LCLK in a transaction. -/
theorem step_bit {s : State} (bits : List Bool) (b : Bool) (rest : List LinkEdge) (hp : s.pending = []) :
    ∃ t, step (s.setLink { inTransaction s.link bits with edges := .clockRise b :: .clockFall :: rest }) = .next t ∧
      step t = .next (s.setLink { inTransaction s.link (bits ++ [b]) with edges := rest }) := by
  refine ⟨s.setLink { (inTransaction s.link bits).clockRise b with edges := .clockFall :: rest }, ?_, ?_⟩
  · exact step_edge (s := s.setLink { inTransaction s.link bits with edges := .clockRise b :: .clockFall :: rest }) hp rfl
  · rw [← clock_inTransaction]
    exact step_edge (s := s.setLink { (inTransaction s.link bits).clockRise b with edges := .clockFall :: rest }) hp rfl

/-- A run goes on from where its first steps end. -/
theorem run_add (M : Host.Core) (m n : Nat) (s t : M.State) (h : M.run m s = .next t) : M.run (m + n) s = M.run n t := by
  induction m generalizing s with
  | zero => cases h; simp
  | succ m ih =>
    rw [Nat.add_right_comm]
    simp only [Host.Core.run] at h ⊢
    cases hs : M.step s with
    | next u => simp only [hs] at h ⊢; exact ih u h
    | fault x => simp [hs] at h
    | refused x => simp [hs] at h

end Sys2Proof.Laws
end

