-- ==== Sys2Proof/Tests/Slice0.lean ====
section
/-! SUPPORT. The model's own tests: the checks of well-formedness, transactions written out bit by bit, one step with the
values of the manual's worked examples, and for each statement with hypotheses a state that meets them. -/

namespace Sys2Proof.Tests

open Sys2Proof Sys2Proof.Machine

-- The tests are checked one after another: side by side they ask for more memory than a check allows.
set_option Elab.async false

/-! ### Helpers -/

/-- The state a command leads to. -/
def after (i : Instr) (s : State) : State :=
  match exec i s with
  | .next t => t
  | .fault _ => s
  | .refused _ => s

/-- The part after a reset with the busy period over. -/
def ready : State := { State.reset with link := { LinkIface.reset with busyUntil := none }, timebase := 1000000 }

/-- A 60-2 wheel. -/
def wheel60 : WheelRecord := { n := 60, m := 2, refAngle := 0, polarity := .rising, loaded := true }

/-- The record of cylinder 3 of the inline six (section 2.9). -/
def record3 : CylRecord :=
  { enabled := true, tdc := 3840, output := 2, profile := 0, windowOpen := 800, windowClose := 1600, freezeLead := 480 }

/-- Pattern 5 of the inline six (section 2.9). -/
def pattern5 : List PatternEntry :=
  [{ cls := .pilot, anchor := .angle (-400) true, duration := .fixed 250, maxUs := 400, repeats := 2, repeatGapUs := 300
     lowBoost := false },
   { cls := .main, anchor := .angle (-64) true, duration := .fraction 256, maxUs := 3000, repeats := 1
     repeatGapUs := 100, lowBoost := false },
   { cls := .after, anchor := .chain 400, duration := .fraction 32, maxUs := 300, repeats := 1, repeatGapUs := 100
     lowBoost := false },
   { cls := .late, anchor := .angle 1440 false, duration := .fixed 2500, maxUs := 3000, repeats := 2
     repeatGapUs := 800, lowBoost := true }]

/-- The tables with the wheel, cylinder 3 and pattern 5 on page 0. -/
def tables : TableStore :=
  { TableStore.reset with
    wheel := wheel60, cyl := TableStore.reset.cyl.set 2 record3, page0 := emptyPage.set 5 pattern5 }

/-- Those tables, the clock still STALLED and SAFE. -/
def still : State := { ready with tables := tables }

/-- The clock of the worked example of section 1.13 just before index 39. -/
def clock13 : AngleClock :=
  { AngleClock.reset with
    sync := .fullSync, lastTooth := some 994440, t1 := 5600, t2 := 5600, tpred := 5600, index := 38
    deadline := some 1002840, stallFrom := some 994440, speed := 1785, lastCrank := some 994440 }

/-- FULL_SYNC at index 38, an edge arriving at 1,000,000. -/
def turning : State := { still with clock := clock13 }

/-- The same in CRANK_SYNC. -/
def cranking : State := { still with clock := { clock13 with sync := .crankSync } }

/-- The same in SEEKING. -/
def seeking : State :=
  { still with clock := { clock13 with sync := .seeking, deadline := none, index := 0, speed := 0 } }

/-- A queued MAIN shot of cylinder 3, TIMED for now. -/
def shot : Shot :=
  { tag := 43, cyl := 2, entry := 1, rep := 0, cls := .main, anchor := .angle 3768, order := 3768, ticks := 12000
    lowBoost := false, flags := {}, state := .timed, reached := true, due := some 1000000, waiting := false
    deadline := none }

/-- A pulse of cylinder 3 that began 200 µs ago. -/
def pulse : Pulse :=
  { tag := 41, cyl := 2, cls := .pilot, startTime := 998000, startAngle := 3432, schedEnd := 1000000, windowClose := none
    flags := {} }

/-- The Drive Stage of that pulse. -/
def stage : DriveStage :=
  { phase := .boost, output := some 2, degraded := false, profile := ProfileRecord.default.copy, startTime := 998000
    samples := 199, gate := true, boostSw := true, entryTime := 998000 }

/-- The queue of a bank with the shot in it. -/
def queued : Sched := { Sched.reset with queue := [shot], placed := 1 }

/-- FULL_SYNC, ARMED, the shot due on an IDLE bank A with 2600 units of boost. -/
def due : State := { turning with firing := .armed, sched := ⟨queued, Sched.reset⟩, level := ⟨2600, 0⟩ }

/-- The pulse on bank A, with a shot chained on it. -/
def firing : State :=
  { turning with
    firing := .armed
    sched := ⟨{ Sched.reset with
        queue := [{ shot with tag := 42, cls := .pilot, anchor := .chain (some 41) 3000, state := .planned, due := none }]
        placed := 2, started := 1, active := some pulse, cond := .active }, Sched.reset⟩
    drive := ⟨stage, DriveStage.reset⟩, level := ⟨2200, 0⟩ }

/-- A frame that passes the checks. -/
def frame (code : Byte) (params : List Byte) : Frame := makeFrame code params

/-! ### Well-formedness: one ill-formed command for each check -/

theorem test_wf_incomplete : (Instr.nop { len := 1, rest := [0] }).wf = false := by decide
theorem test_wf_odd : (Instr.nop { len := 0, rest := [0x0D], odd := List.replicate 8 true }).wf = false := by decide
theorem test_wf_unknown : (Instr.unknown 0x48 (frame 0x48 [0, 0])).wf = false := by decide +kernel
theorem test_wf_broken : (Instr.brokenTransaction [1, 0, 0x0D] []).wf = false := by decide
theorem test_wf_broken_odd : (Instr.brokenTransaction [1] (List.replicate 8 false)).wf = false := by decide
theorem test_wf_cut_set : (Instr.cutSet (frame 0x30 [1, 2])).wf = false := by decide +kernel
theorem test_wf_cut_clear : (Instr.cutClear (frame 0x30 [1, 1])).wf = false := by decide +kernel
theorem test_wf_cut_toggle : (Instr.cutToggle (frame 0x30 [1, 0])).wf = false := by decide +kernel
theorem test_wf_cut_test : (Instr.cutTest (frame 0x30 [1, 3])).wf = false := by decide +kernel
theorem test_wf_nop : (Instr.nop { len := 0, rest := [0x0D], odd := [true] }).wf = true := by decide

/-! ### Transactions, bit by bit -/

/-- NOP is sent as 0x01, 0x00, 0x0D (section 9.2). -/
theorem test_decode_nop :
    decodeTransaction
      [false, false, false, false, false, false, false, true,
       false, false, false, false, false, false, false, false,
       false, false, false, false, true, true, false, true] = .nop { len := 0, rest := [0x0D] } := by decide +kernel

/-- CUT of cylinder 1 with SET: 0x30, 0x02, 0x01, 0x01 and a CRC byte, three bits of a further byte left over. -/
theorem test_decode_cut :
    decodeTransaction
      ([false, false, true, true, false, false, false, false,
        false, false, false, false, false, false, true, false,
        false, false, false, false, false, false, false, true,
        false, false, false, false, false, false, false, true,
        true, false, true, false, true, false, true, false] ++ [true, true, false]) =
      .cutSet { len := 2, rest := [1, 1, 0xAA], odd := [true, true, false] } := by decide +kernel

/-- A transaction that ends before its CRC byte is broken. -/
theorem test_decode_broken :
    decodeTransaction
      [false, false, false, false, false, false, false, true,
       false, false, false, false, false, false, false, false, true] = .brokenTransaction [1, 0] [true] := by
  decide +kernel

/-- The first transaction after a power-on reset brings the POWER_ON response out, 0x00 and then the result code 0x20, most
significant bit first: the eleventh rising edge, the third of the second byte, samples the 1 (R165, R169, section 9.3). -/
theorem test_ldo_bits :
    (after (.brokenTransaction [0x01] [false, true, false]) State.reset).link.ldo = List.replicate 10 false ++ [true] := by
  decide +kernel

/-- The fall of LSEL brings the response's first bit out; LDO is not driven before it (R165). -/
theorem test_pin_fall :
    State.reset.link.ldoPin = none ∧ State.reset.link.selectFall.ldoPin = some false := by decide +kernel

/-- The bit changes at the falling edge of LCLK, not at the rising one: the tenth bit of POWER_ON is 0, the eleventh 1. -/
theorem test_pin_clock :
    let l : LinkIface := { State.reset.link with select := .transaction (List.replicate 9 false) 9 }
    (l.clockRise true).ldoPin = some false ∧ (l.clockRise true).clockFall.ldoPin = some true := by decide +kernel

/-- A transaction that a power-on reset meets is not seen: its rise takes no frame (R165). -/
theorem test_pin_reset :
    let s := after .powerOnReset { ready with link := ready.link.selectFall.clockRise true }
    (s.link.clockRise true).count = 0 ∧ takeEdge .selectRise s = .next State.reset := by
  refine ⟨by decide +kernel, rfl⟩

/-- The rise of LSEL takes the frame: a single bit is a broken transaction. -/
theorem test_pin_rise :
    takeEdge .selectRise { ready with link := (ready.link.selectFall.clockRise true).clockFall } =
      exec (.brokenTransaction [] [true]) ready := rfl

/-- A code that names no command. -/
theorem test_decode_unknown : decodeBytes [0x49, 0, 7] [] = .unknown 0x49 { len := 0, rest := [7] } := by decide
theorem test_decode_reset : decodeBytes [0x02, 0, 7] [] = .reset { len := 0, rest := [7] } := by decide
theorem test_decode_load_wheel : decodeBytes [0x10, 1, 60, 7] [] = .loadWheel { len := 1, rest := [60, 7] } := by decide
theorem test_decode_arm : decodeBytes [0x21, 0, 7] [] = .arm { len := 0, rest := [7] } := by decide
theorem test_decode_clear_fault : decodeBytes [0x31, 1, 3, 7] [] = .clearFault { len := 1, rest := [3, 7] } := by decide
theorem test_decode_trace_read : decodeBytes [0x39, 0, 7] [] = .traceRead { len := 0, rest := [7] } := by decide
theorem test_decode_read_counters : decodeBytes [0x46, 0, 7] [] = .readCounters { len := 0, rest := [7] } := by decide
theorem test_decode_set_mask : decodeBytes [0x48, 2, 1, 0, 7] [] = .setMask { len := 2, rest := [1, 0, 7] } := by decide

/-! ### Worked examples of the manual -/

/-- Section 9.2. -/
theorem test_crc_nop : crc8 [0x01, 0x00] = 0x0D := by decide +kernel
/-- Section 9.2: 0x0C in the last place fails. -/
theorem test_crc_bad : (after (.nop { len := 0, rest := [0x0C] }) ready).link.response.result = .badCrc := by
  decide +kernel
/-- Section 1.13: the prediction at index 39. -/
theorem test_predict_13 : predict 5560 5600 = 5540 := by decide
/-- Section 1.13: the prediction at index 41. -/
theorem test_predict_41 : predict 5560 5540 = 5570 := by decide
/-- Section 1.13: index 39 accepted at 1,000,000. -/
theorem test_tooth_13 :
    (after (.crankEdge .rising .dueFirst) turning).clock =
      { clock13 with
        lastTooth := some 1000000, t1 := 5560, t2 := 5600, tpred := 5540, index := 39, deadline := some 1008310
        stallFrom := some 1000000, speed := 1798, lastCrank := some 1000000, techo := some 1000200 } := by
  decide +kernel
/-- Section 1.13: the synthetic tooth of index 40 at 1,008,310. -/
theorem test_synthetic_13 :
    (after (.deadlineExpiry .dueFirst)
        { after (.crankEdge .rising .dueFirst) turning with timebase := 1008310 }).clock =
      { clock13 with
        lastTooth := some 1005540, t1 := 5540, t2 := 5560, tpred := 5530, index := 40, synth := 1, absorb := true
        deadline := some 1013835, stallFrom := some 1000000, speed := 1805, lastCrank := some 1000000
        techo := some 1008510 } := by decide +kernel
/-- Section 1.13: the angle read at 1,003,000. -/
theorem test_angle_13 :
    ({ after (.crankEdge .rising .dueFirst) turning with timebase := 1003000 } : State).angleReading = 3795 := by
  decide +kernel
/-- Section 4.9: the timed instant of the start 3768 at the tooth of 3744. -/
theorem test_timed_49 :
    timedInstant { kind := .real, sync := .fullSync, t0 := 1000000, angle := some 3744, span := 96, tpred := 5540, pitch := 96
                   marker := false, leftStalled := false } 3040 3768 = 1001385 := by decide
/-- Section 4.9: the plan of cylinder 3, tags, order angles and durations. -/
theorem test_plan_49 :
    ((planShots (openPlan { due with sched := ⟨{ Sched.reset with nextTag := 41 }, Sched.reset⟩ } 2
        (some { demand := { pattern := 5, mainUs := 1200, advance := 2 }, stale := false })) 2
        (some { demand := { pattern := 5, mainUs := 1200, advance := 2 }, stale := false })
        { kind := .real, sync := .fullSync, t0 := 928000, angle := some 2496, span := 96, tpred := 5540, pitch := 96
          marker := false, leftStalled := false }).sched.a.queue.map fun x => (x.tag, x.order, x.ticks)) =
      [(41, 3432, 2500), (42, 3528, 2500), (43, 3768, 12000), (44, 4046, 1500), (45, 5280, 9233), (46, 5440, 25000)] := by
  decide +kernel
/-- Section 4.9: the main opens with the boost: 2600 − 400. -/
theorem test_open_49 : (after (.timedInstant .bankA 43) due).levelOf .bankA = 2200 := by decide +kernel
/-- Section 11.5: the frame of two entries stages both and says that one was clamped. -/
theorem test_demand_115 :
    (after (.demand (frame 0x20 [3, 5, 0xB0, 4, 2]))
      still).demandOf 2 = { CylDemand.reset with staged := some { pattern := 5, mainUs := 1200, advance := 2 } } := by
  decide +kernel
/-- R91, R95, R101: at one tooth a LATE shot left TIMED, another cylinder's that meets the close of its window, and a MAIN
shot whose start is the tooth's own angle. With dues taken first they are judged together: MAIN opens, LATE is deferred, and
the close then sweeps the third shot. -/
theorem test_dues_before_close :
    (fun q : Sched => (q.active.map Pulse.tag, q.queue.map fun x => (x.tag, x.state)))
      (after (.crankEdge .rising .dueFirst) { turning with
        level := ⟨2600, 0⟩
        sched := ⟨{ Sched.reset with
          queue :=
            [{ shot with tag := 42, cls := .late, order := 3700, due := some 1000001 },
             { shot with tag := 41, cyl := 7, cls := .late, order := 3701, due := some 1000001 },
             { shot with order := 3744, anchor := .angle 3744, state := .planned, reached := false, due := none }]
          tracks := [{ cyl := 7, openAngle := 2000, closeAngle := 3740, state := .closing 1000002 }] },
          Sched.reset⟩ }).sched.a = (some 43, [(42, .deferred)]) := by decide +kernel
/-- R18: after sync was lost at the last tooth before the gap, a tooth of SEEKING is reported without an angle and with a
span of one pitch. -/
theorem test_report_seeking :
    (fun r : ToothReport => (r.angle, r.span))
      (toothReport wheel60 { seeking.clock with index := 57 } .real false) = (none, 96) := by decide
/-- R14: a synthetic tooth that brings FULL_SYNC leaves no absorb window. -/
theorem test_absorb_closed :
    (fun k : AngleClock => (k.sync, k.absorb)) (after (.deadlineExpiry .dueFirst) { still with
        timebase := 1008440
        clock := { clock13 with sync := .crankSync, index := 57, camCount := 1, deadline := some 1008440 } }).clock =
      (.fullSync, false) := by decide +kernel
/-- R115: rate 6 into both reservoirs in the band NORMAL. -/
theorem test_recharge : (after .rechargeStep due).level = ⟨2606, 6⟩ := by decide +kernel


/-! ### For each statement with hypotheses, a state that meets them -/

/-- A statement about both banks, from one about each. -/
theorem both_banks {P : Bank → Prop} (a : P .bankA) (b : P .bankB) : ∀ k, P k := by
  intro k
  cases k
  · exact a
  · exact b

/-- The frame of a code and parameters passes and carries the parameters. -/
abbrev Carried (s : State) (code : Byte) (ps : List Byte) : Prop :=
  passes s code (frame code ps) = true ∧ frameParams (frame code ps) = ps

theorem witness_StepRunsFrontCommand :
    ({ ready with pending := [.stall, .rechargeStep] } : State).pending = .stall :: [.rechargeStep] := rfl

/-- The edges of a transaction that carries these bits wait. -/
def selecting (bits : List Bool) : State := { ready with link := { ready.link with edges := transactionEdges bits } }

theorem witness_StepRunsFrontCommand_edge :
    (selecting [true]).pending = [] ∧
    (selecting [true]).link.edges = .selectFall :: [.clockRise true, .clockFall, .selectRise] := by decide
theorem witness_EveryTransactionIsACommand :
    (selecting [true]).pending = [] ∧ (selecting [true]).link.select = .released ∧
    (selecting [true]).link.edges = transactionEdges [true] := by decide
theorem witness_PowerOnReset_selected :
    (after .powerOnReset { ready with link := ready.link.selectFall }).link.select ≠ .released := by decide +kernel

theorem witness_IdleStep_event :
    ({ ready with timebase := 1000 } : State).pending = [] ∧ ({ ready with timebase := 1000 } : State).link.edges = [] ∧
    dueEvent { ready with timebase := 1000 } = some .rechargeStep := by decide +kernel
theorem witness_IdleStep_waits :
    ({ ready with timebase := 10000, nextRecharge := 11000 } : State).pending = [] ∧
    ({ ready with timebase := 10000, nextRecharge := 11000 } : State).link.edges = [] ∧
    dueEvent { ready with timebase := 10000, nextRecharge := 11000 } = none ∧
    sampleAwaited { ready with timebase := 10000, nextRecharge := 11000 } = true := by decide +kernel
theorem witness_IdleStep_ticks :
    State.reset.pending = [] ∧ State.reset.link.edges = [] ∧ dueEvent State.reset = none ∧ sampleAwaited State.reset = false := by decide +kernel

theorem witness_SoftReset : Carried turning 0x02 [] := by decide +kernel

theorem witness_TransactionRoundTrip :
    (Instr.setMask (frame 0x48 [0xFF, 0x1F])).wf = true ∧
    (encodeTransaction (.setMask (frame 0x48 [0xFF, 0x1F]))).isSome = true := by decide +kernel
theorem witness_TransactionRoundTrip_broken :
    (Instr.brokenTransaction [0x01, 0x00] [true]).wf = true ∧
    (encodeTransaction (.brokenTransaction [0x01, 0x00] [true])).isSome = true := by decide +kernel

theorem witness_CrcDetectsAChangedByte_complete : frameComplete { len := 0, rest := [0x0D] } = true := by decide
theorem witness_CrcDetectsAChangedByte_bytes : (0x00 : Byte) ≠ 0x80 := by decide
theorem witness_CrcDetectsAChangedByte_params : (List.replicate 255 (0 : Byte)).length ≤ 255 := by rw [List.length_replicate]
theorem witness_CrcDetectsAChangedByte_bad :
    frameComplete { len := 0, rest := [0x0D] } = true ∧ frameChecks 0x01 { len := 0, rest := [0x0D] } = true ∧
    (0x0C : Byte) ≠ frameCrc { len := 0, rest := [0x0D] } := by decide +kernel

theorem witness_BrokenTransaction :
    frameOf (.nop { len := 1, rest := [0x0D] }) = some (0x01, { len := 1, rest := [0x0D] }) ∧
    frameComplete { len := 1, rest := [0x0D] } = false := by decide

theorem witness_FrameChecksInOrder_crc :
    (Instr.nop { len := 0, rest := [0x0C] }).wf = true ∧ frameChecks 0x01 { len := 0, rest := [0x0C] } = false := by
  decide +kernel
theorem witness_FrameChecksInOrder_unknown :
    (Instr.unknown 0x49 (frame 0x49 [])).wf = true ∧ frameChecks 0x49 (frame 0x49 []) = true ∧
    (commandOf 0x49).isNone = true := by decide +kernel
theorem witness_FrameChecksInOrder_length :
    (Instr.setMask (frame 0x48 [1])).wf = true ∧ frameChecks 0x48 (frame 0x48 [1]) = true ∧
    (commandOf 0x48).isSome = true ∧ lengthAdmitted 0x48 (frameParams (frame 0x48 [1])) = false := by decide +kernel
theorem witness_FrameChecksInOrder_busy :
    (Instr.setMask (frame 0x48 [1, 0])).wf = true ∧ frameChecks 0x48 (frame 0x48 [1, 0]) = true ∧
    (commandOf 0x48).isSome = true ∧ lengthAdmitted 0x48 (frameParams (frame 0x48 [1, 0])) = true ∧
    State.reset.link.busyUntil.isSome = true := by decide +kernel

theorem witness_RefusedFrameHasNoEffect :
    ∃ t, exec (.disarm (frame 0x22 [])) ready = .next t ∧ t.link.response.result.isRefusal = true :=
  ⟨_, rfl, by decide +kernel⟩

theorem witness_BusyAndPulseEnds_busy :
    ({ State.reset with timebase := 20000 } : State).link.busyUntil = some 20000 ∧
    ({ State.reset with timebase := 20000 } : State).timebase = 20000 := by decide
theorem witness_BusyAndPulseEnds_busy_early :
    State.reset.link.busyUntil = some 20000 ∧ State.reset.timebase < 20000 := by decide
theorem witness_BusyAndPulseEnds_techo :
    ({ turning with clock := { clock13 with techo := some 1000000 } } : State).clock.techo = some 1000000 ∧
    turning.timebase = 1000000 := by decide
theorem witness_BusyAndPulseEnds_techo_early :
    ({ turning with clock := { clock13 with techo := some 1000001 } } : State).clock.techo = some 1000001 ∧
    turning.timebase < 1000001 := by decide
theorem witness_BusyAndPulseEnds_cmark :
    ({ turning with clock := { clock13 with cmark := some 1000000 } } : State).clock.cmark = some 1000000 ∧
    turning.timebase = 1000000 := by decide
theorem witness_BusyAndPulseEnds_cmark_early :
    ({ turning with clock := { clock13 with cmark := some 1000001 } } : State).clock.cmark = some 1000001 ∧
    turning.timebase < 1000001 := by decide

theorem witness_NopAndReadId : Carried ready 0x01 [] ∧ Carried ready 0x03 [] := by decide +kernel

/-! #### Tables -/

theorem witness_LoadReplacesTheRecord_wheel :
    wheel60.inRange = true ∧ wheel60.loaded = true ∧ ready.firing = .safe ∧ ready.clock.sync = .stalled ∧
    Carried ready 0x10 (wheelBytes wheel60) := by decide +kernel
theorem witness_LoadReplacesTheRecord_cyl :
    record3.inRange = true ∧ ready.firing = .safe ∧ ready.service = none ∧
    (record3.enabled = true → ∀ d, d ≠ 2 → (ready.cylOf d).enabled = true → (ready.cylOf d).output ≠ record3.output) ∧
    Carried ready 0x11 (cylBytes 2 record3) := by decide +kernel
theorem witness_LoadReplacesTheRecord_profile :
    ProfileRecord.default.inRange = true ∧ ready.firing = .safe ∧ ready.service = none ∧
    Carried ready 0x12 (profileBytes 3 .default) := by decide +kernel
theorem witness_LoadReplacesTheRecord_pattern :
    patternInRange pattern5 = true ∧ ready.tables.swapPending = false ∧ ready.tables.page0.length = 16 ∧
    ready.tables.page1.length = 16 ∧ Carried ready 0x13 (patternBytes 15 pattern5) := by decide +kernel

theorem witness_LoadWheelRestartsTheClock :
    wheel60.inRange = true ∧ wheel60.loaded = true ∧ turning.firing = .safe ∧ turning.clock.sync ≠ .stalled ∧
    Carried turning 0x10 (wheelBytes wheel60) := by decide +kernel
theorem witness_LoadWheelRestartsTheClock_cranking :
    cranking.firing = .safe ∧ cranking.clock.sync ≠ .stalled ∧ cranking.clock.sync ≠ .fullSync ∧
    Carried cranking 0x10 (wheelBytes wheel60) := by decide +kernel

theorem witness_LoadsAreRefused_wheel_state :
    Carried due 0x10 [60, 2, 0, 0, 0] ∧ ([60, 2, 0, 0, 0] : List Byte).length = 5 ∧ due.firing ≠ .safe := by
  decide +kernel
theorem witness_LoadsAreRefused_wheel_param :
    Carried ready 0x10 [61, 2, 0, 0, 0] ∧ ready.firing = .safe ∧
    ∀ w : WheelRecord, w.inRange = true → frameParams (frame 0x10 [61, 2, 0, 0, 0]) ≠ wheelBytes w := by
  refine ⟨by decide +kernel, rfl, ?_⟩
  intro w hw h
  have hn : w.n = 24 ∨ w.n = 36 ∨ w.n = 60 ∨ w.n = 72 := by
    simp [WheelRecord.inRange] at hw
    tauto
  have h0 : (61 : Byte) = byte w.n := by
    have := congrArg (fun l : List Byte => l.headD 0) h
    simpa [wheelBytes, frame, makeFrame, frameParams, byte] using this
  rcases hn with h1 | h1 | h1 | h1 <;> rw [h1] at h0 <;> revert h0 <;> decide
theorem witness_LoadsAreRefused_cyl_service :
    Carried { still with service := some 2 } 0x11 (cylBytes 2 record3) ∧
    ({ still with service := some 2 } : State).service.isSome = true := by decide +kernel
theorem witness_LoadsAreRefused_cyl_state :
    Carried due 0x11 (cylBytes 2 record3) ∧ due.service = none ∧ due.firing ≠ .safe := by decide +kernel
theorem witness_LoadsAreRefused_cyl_param :
    Carried ready 0x11 [9, 0, 0, 0, 1, 0, 0, 0, 0, 0, 160, 0] ∧ ready.service = none ∧ ready.firing = .safe ∧
    ∀ c (r : CylRecord), r.inRange = true →
      frameParams (frame 0x11 [9, 0, 0, 0, 1, 0, 0, 0, 0, 0, 160, 0]) ≠ cylBytes c r := by
  refine ⟨by decide +kernel, rfl, rfl, ?_⟩
  intro c r _ h
  have h0 : (9 : Byte) = byte (cylNumber c) := by
    have := congrArg (fun l : List Byte => l.headD 0) h
    simpa [cylBytes, frame, makeFrame, frameParams, byte] using this
  clear h
  revert h0 c
  decide
theorem witness_LoadsAreRefused_cyl_output :
    Carried still 0x11 (cylBytes 0 { record3 with tdc := 0 }) ∧ still.service = none ∧ still.firing = .safe ∧
    ({ record3 with tdc := 0 } : CylRecord).inRange = true ∧ record3.enabled = true ∧ (2 : Cyl) ≠ 0 ∧
    (still.cylOf 2).enabled = true ∧ (still.cylOf 2).output = record3.output := by decide +kernel
theorem witness_LoadsAreRefused_profile_service :
    Carried { still with service := some 2 } 0x12 (profileBytes 0 .default) ∧
    ({ still with service := some 2 } : State).service.isSome = true := by decide +kernel
theorem witness_LoadsAreRefused_profile_state :
    Carried due 0x12 (profileBytes 0 .default) ∧ due.service = none ∧ due.firing ≠ .safe := by decide +kernel
theorem witness_LoadsAreRefused_profile_param :
    Carried ready 0x12 (4 :: (profileBytes 0 .default).tail) ∧ ready.service = none ∧ ready.firing = .safe ∧
    ∀ i (p : ProfileRecord), p.inRange = true →
      frameParams (frame 0x12 (4 :: (profileBytes 0 .default).tail)) ≠ profileBytes i p := by
  refine ⟨by decide +kernel, rfl, rfl, ?_⟩
  intro i p _ h
  have h0 : (4 : Byte) = byte i.val := by
    have := congrArg (fun l : List Byte => l.headD 0) h
    simpa [profileBytes, frame, makeFrame, frameParams, byte, leBytes] using this
  clear h
  revert h0 i
  decide
theorem witness_LoadsAreRefused_pattern_swap :
    Carried { turning with tables := { tables with swapPending := true } } 0x13 (patternBytes 5 pattern5) ∧
    pattern5.length ≤ 6 ∧ pattern5.all PatternEntry.inRange = true := by decide +kernel
theorem witness_LoadsAreRefused_pattern_fields :
    let swapping : State := { turning with tables := { tables with swapPending := true } }
    (∀ ps ∈ ([[16, 0], 5 :: 1 :: entryBytes { pattern5[1] with maxUs := 99 }] : List (List Byte)),
      Carried ready 0x13 ps ∧ Carried swapping 0x13 ps ∧ lengthAdmitted 0x13 ps = true) ∧
    15 < fieldAt [16, 0] 0 1 ∧ swapping.tables.swapPending = true ∧ ready.tables.swapPending = false := by decide +kernel
theorem witness_LoadsAreRefused_pattern_taken :
    Carried ready 0x13 [15, 0] ∧ lengthAdmitted 0x13 [15, 0] = true ∧ fieldAt [15, 0] 0 1 = 15 ∧
    fieldAt [15, 0] 1 1 = 0 := by decide +kernel
theorem witness_LoadsAreRefused_pattern_chain :
    Carried ready 0x13 (patternBytes 5 pattern5.reverse.tail) ∧ pattern5.reverse.tail.length ≤ 6 ∧
    pattern5.reverse.tail.all PatternEntry.inRange = true ∧ ready.tables.swapPending = false ∧
    patternAdmitted pattern5.reverse.tail = false := by decide +kernel

/-- The default limits with another bank gap. -/
def limits51 : Limits := { Limits.default with bankGapUs := 51 }

/-- A bank in GAP since the instant before. -/
def gapping : State := { still with sched := ⟨{ Sched.reset with cond := .gap, lastEnd := some 999999 }, Sched.reset⟩ }

theorem witness_LoadLimits :
    Carried still 0x15 (limitsBytes .default) ∧ (limitsBytes Limits.default).length = 31 := by decide +kernel
theorem witness_LoadLimits_same_gap :
    ∃ t, exec (.loadLimits (frame 0x15 (limitsBytes .default))) still = .next t ∧
      t.tables.limits.bankGapUs = still.tables.limits.bankGapUs := ⟨_, rfl, by decide +kernel⟩
theorem witness_LoadLimits_new_gap :
    Carried gapping 0x15 (limitsBytes limits51) ∧ (limitsBytes limits51).length = 31 ∧
    limits51.bankGapUs ≠ gapping.tables.limits.bankGapUs ∧ (gapping.schedOf .bankA).cond = .gap ∧
    (gapping.schedOf .bankA).lastEnd = some 999999 ∧
    (gapping.schedOf .bankA).queue.all (fun x => !x.waiting) = true := by decide +kernel

theorem witness_LoadLimits_idle :
    let s : State := { still with sched := ⟨{ Sched.reset with lastEnd := some 999491 }, { Sched.reset with lastEnd := some 999490 }⟩ }
    Carried s 0x15 (limitsBytes limits51) ∧ limits51.bankGapUs ≠ s.tables.limits.bankGapUs ∧
    (∀ k, (s.schedOf k).cond = .idle) ∧ s.timebase < 999491 + 10 * limits51.bankGapUs ∧
    ¬s.timebase < 999490 + 10 * limits51.bankGapUs := ⟨by decide +kernel, by decide, both_banks rfl rfl, by decide⟩
theorem witness_LoadLimits_active : (firing.schedOf .bankA).cond = .active := rfl

theorem witness_Swap_refused :
    Carried { turning with tables := { tables with swapPending := true } } 0x14 [] := by decide +kernel
theorem witness_Swap_waits :
    Carried due 0x14 [] ∧ due.tables.swapPending = false ∧ due.firing ≠ .safe ∧ due.clock.sync = .fullSync := by
  decide +kernel
theorem witness_Swap_at_once :
    Carried turning 0x14 [] ∧ turning.tables.swapPending = false ∧ turning.firing = .safe := by decide +kernel
theorem witness_Swap_out_of_sync :
    Carried { cranking with firing := .armed } 0x14 [] ∧ cranking.tables.swapPending = false ∧
    cranking.clock.sync ≠ .fullSync := by decide +kernel

/-- A READ_TABLE after a load that was taken. -/
abbrev Loaded (i : Instr) (s : State) (ps : List Byte) : Prop :=
  (after i s).link.response.result = .ok ∧ Carried (after i s) 0x16 ps

theorem witness_ReadTableReturnsTheLoad_wheel :
    exec (.loadWheel (frame 0x10 (wheelBytes wheel60))) ready =
      .next (after (.loadWheel (frame 0x10 (wheelBytes wheel60))) ready) ∧
    Loaded (.loadWheel (frame 0x10 (wheelBytes wheel60))) ready [0, 9, 9] := ⟨rfl, by decide +kernel⟩
theorem witness_ReadTableReturnsTheLoad_cyl :
    exec (.loadCyl (frame 0x11 (cylBytes 7 { record3 with output := 7 }))) ready =
      .next (after (.loadCyl (frame 0x11 (cylBytes 7 { record3 with output := 7 }))) ready) ∧
    Loaded (.loadCyl (frame 0x11 (cylBytes 7 { record3 with output := 7 }))) ready [1, 8, 0] :=
  ⟨rfl, by decide +kernel⟩
theorem witness_ReadTableReturnsTheLoad_profile :
    exec (.loadProfile (frame 0x12 (profileBytes 3 .default))) ready =
      .next (after (.loadProfile (frame 0x12 (profileBytes 3 .default))) ready) ∧
    Loaded (.loadProfile (frame 0x12 (profileBytes 3 .default))) ready [2, 3, 0] := ⟨rfl, by decide +kernel⟩
theorem witness_ReadTableReturnsTheLoad_pattern :
    exec (.loadPattern (frame 0x13 (patternBytes 15 pattern5))) ready =
      .next (after (.loadPattern (frame 0x13 (patternBytes 15 pattern5))) ready) ∧
    Loaded (.loadPattern (frame 0x13 (patternBytes 15 pattern5))) ready [3, 15, 1] ∧
    patternInRange pattern5 = true ∧ ready.tables.page0.length = 16 ∧ ready.tables.page1.length = 16 :=
  ⟨rfl, by decide +kernel⟩
theorem witness_ReadTableReturnsTheLoad_limits :
    exec (.loadLimits (frame 0x15 (limitsBytes limits51))) ready =
      .next (after (.loadLimits (frame 0x15 (limitsBytes limits51))) ready) ∧
    Loaded (.loadLimits (frame 0x15 (limitsBytes limits51))) ready [4, 0, 0] := ⟨rfl, by decide +kernel⟩
theorem witness_ReadTableReturnsTheLoad_pages : Carried ready 0x16 [5, 0, 0] := by decide +kernel
theorem witness_ReadTableReturnsTheLoad_refused :
    Carried ready 0x16 [6, 1, 0] ∧ Carried ready 0x16 [1, 9, 0] ∧ Carried ready 0x16 [2, 4, 0] ∧
    Carried ready 0x16 [3, 0, 2] ∧ 5 < (6 : Byte).toNat ∧ 8 < (9 : Byte).toNat ∧ 3 < (4 : Byte).toNat ∧
    1 < (2 : Byte).toNat := by decide +kernel

theorem witness_StepKeepsTheTablesInRange :
    tablesInRange still.tables ∧ outputsUnique still.tables ∧ ∃ t, step still = .next t := by
  refine ⟨by unfold tablesInRange; decide +kernel, by unfold outputsUnique; decide +kernel, _, rfl⟩
theorem witness_StepKeepsThePendingSwap :
    swapAgrees { due with tables := { tables with swapPending := true } } ∧
    ∃ t, step { due with tables := { tables with swapPending := true } } = .next t := by
  refine ⟨by unfold swapAgrees; decide +kernel, _, rfl⟩

/-! #### Demands and firing -/

/-- The entries of the frame of section 11.5, with the second one's pattern. -/
def entries (p : Nat) : List DemandEntry :=
  [{ cyl := 3, pattern := 5, mainUs := 10001, advance := 2 }, { cyl := 3, pattern := p, mainUs := 10000, advance := -120 }]

theorem witness_DemandIsWholeOrNothing_taken :
    Carried still 0x20 ((entries 15).flatMap DemandEntry.bytes) ∧ 1 ≤ (entries 15).length ∧ (entries 15).length ≤ 8 ∧
    (∀ e ∈ entries 15, e.carried = true) ∧ (∀ e ∈ entries 15, e.admitted still) := by
  refine ⟨by decide +kernel, by decide, by decide, by decide, ?_⟩
  unfold DemandEntry.admitted
  decide +kernel
theorem witness_DemandIsWholeOrNothing_staged :
    (∀ e ∈ entries 15, e.cyl ≠ (0 : Cyl).val + 1) ∧
    (∃ before e after, entries 15 = before ++ e :: after ∧ e.cyl = (2 : Cyl).val + 1 ∧
      ∀ e' ∈ after, e'.cyl ≠ (2 : Cyl).val + 1) :=
  ⟨by decide, [_], _, [], rfl, rfl, by decide⟩
theorem witness_DemandIsWholeOrNothing_refused :
    Carried still 0x20 ((entries 16).flatMap DemandEntry.bytes) ∧ (∀ e ∈ entries 16, e.carried = true) ∧
    (∃ e ∈ entries 16, ¬e.admitted still) := by
  refine ⟨by decide +kernel, by decide, ?_⟩
  unfold DemandEntry.admitted
  decide +kernel

theorem witness_ArmAndDisarm_refused :
    Carried due 0x21 [] ∧ due.firing = .armed ∧ Carried ready 0x21 [] ∧ ready.tables.wheel.loaded = false ∧
    (∀ c, (ready.cylOf c).enabled = false) ∧ Carried { still with service := some 2 } 0x21 [] := by decide +kernel
theorem witness_ArmAndDisarm_draining :
    Carried { firing with firing := .draining } 0x21 [] ∧ firing.tables.wheel.loaded = true ∧
    (∃ c, (firing.cylOf c).enabled = true) ∧ firing.service = none := by decide +kernel
theorem witness_ArmAndDisarm_arm :
    Carried still 0x21 [] ∧ still.tables.wheel.loaded = true ∧ (∃ c, (still.cylOf c).enabled = true) ∧
    still.service = none ∧ still.firing = .safe := by decide +kernel
theorem witness_ArmAndDisarm_not_armed : Carried still 0x22 [] ∧ still.firing ≠ .armed := by decide +kernel
theorem witness_ArmAndDisarm_drains :
    Carried due 0x22 [] ∧ due.firing = .armed ∧ ∃ k, (due.schedOf k).queue ≠ [] ∨ (due.schedOf k).active.isSome = true :=
  ⟨by decide +kernel, rfl, .bankA, by decide⟩
theorem witness_ArmAndDisarm_safe :
    Carried { turning with firing := .armed } 0x22 [] ∧
    ∀ k, (turning.schedOf k).queue = [] ∧ (turning.schedOf k).active = none :=
  ⟨by decide +kernel, both_banks (by decide) (by decide)⟩

theorem witness_StopEmptiesTheBanks_stop : Carried firing 0x23 [] := by decide +kernel
theorem witness_StopEmptiesTheBanks_outcomes : ∀ k, ((firing.schedOf k).queue.map Shot.tag).Nodup :=
  both_banks (by decide) (by decide)
theorem witness_StopEmptiesTheBanks_silence :
    ∃ n, ({ firing with link := { firing.link with silence := some 0 } } : State).link.silence = some n ∧
      n + 10000 * firing.tables.limits.linkSilence ≤ firing.timebase := ⟨0, rfl, by decide⟩

theorem witness_StepKeepsTheFiringState :
    drainAgrees { firing with firing := .draining } ∧ safeAgrees { firing with firing := .draining } ∧
    ∃ t, step { firing with firing := .draining } = .next t :=
  ⟨fun _ => by decide, fun h => (by cases h), _, rfl⟩
/-- A service chain while SAFE. -/
def serving : State :=
  { still with
    service := some 2
    sched := ⟨{ Sched.reset with
      queue := [{ shot with anchor := .chain none 10000, state := .planned, flags := { service := true }
                            due := some 1000000 }]
      placed := 1 }, Sched.reset⟩ }
theorem witness_StepKeepsTheFiringState_safe : drainAgrees serving ∧ safeAgrees serving := by
  refine ⟨fun h => (by cases h), fun _ => both_banks (by decide) (by decide)⟩

/-! #### Freezes and plans -/

/-- The next edge reaches the freeze angle of cylinder 3, 2560: index 27 of revolution 0 at 2592 less a pitch. -/
def freezing : State := { turning with clock := { clock13 with index := 25 }, firing := .armed }

/-- An edge of a sync state, met by concrete numbers. -/
theorem real_of {s : State} (n c : Nat) (h : s.tables.wheel.loaded = true) (hc : s.clock.lastCrank = some c)
    (hn : s.clock.lastTooth = some n) (h1 : c + 200 ≤ s.timebase)
    (h2 : s.clock.sync = .crankSync ∨ s.clock.sync = .fullSync) (h3 : s.clock.absorb = false)
    (h4 : s.clock.tpred ≤ 2 * (s.timebase - n))
    (h5 : s.clock.index = s.tables.wheel.n - s.tables.wheel.m - 1 →
      (2 * s.tables.wheel.m + 1) * s.clock.tpred ≤ 2 * (s.timebase - n)) : realTooth s := by
  refine ⟨⟨h, ?_⟩, h2, n, hn, by simp [h3], h4, h5⟩
  intro m hm
  rw [hc] at hm
  cases hm
  exact h1

theorem witness_toothReady_real : toothReady false turning :=
  real_of 994440 994440 rfl rfl rfl (by decide) (.inr rfl) rfl (by decide) (by decide)
theorem witness_toothReady_synthetic : toothReady true { turning with timebase := 1002840 } :=
  ⟨.inr rfl, by decide, 1002840, rfl, by decide⟩

theorem witness_FreezeResolvesTheDemand :
    toothReady false freezing ∧ freezing.firing = .armed ∧ ∃ t, exec (toothCommand false .dueFirst) freezing = .next t ∧
      t.clock.sync = .fullSync ∧ (freezing.cylOf 2).enabled = true ∧
      fwd (toothAngle freezing.tables.wheel t.clock) (freezing.cylOf 2).freezeAngle <
        freezing.tables.wheel.spanAt t.clock.index :=
  ⟨real_of 994440 994440 rfl rfl rfl (by decide) (.inr rfl) rfl (by decide) (by decide), rfl, _, rfl,
    by decide +kernel⟩
theorem witness_FreezeResolvesTheDemand_others :
    ∃ t, exec (toothCommand false .dueFirst) freezing = .next t ∧ (freezing.cylOf 0).enabled = false := ⟨_, rfl, rfl⟩
theorem witness_FreezeResolvesTheDemand_nothing :
    toothReady false turning ∧ turning.firing ≠ .armed ∧ toothReady false { cranking with firing := .armed } ∧
    ∃ t, exec (toothCommand false .dueFirst) { cranking with firing := .armed } = .next t ∧ t.clock.sync ≠ .fullSync :=
  ⟨witness_toothReady_real, by decide, real_of 994440 994440 rfl rfl rfl (by decide) (.inl rfl) rfl (by decide) (by decide),
    _, rfl, by decide +kernel⟩
/-- A demand staged, one active, and a stale count at the hold limit. -/
theorem witness_FreezeResolvesTheDemand_demands :
    let d : Demand := { pattern := 5, mainUs := 1200, advance := 2 }
    let staged : CylDemand := { CylDemand.reset with staged := some d }
    let held : CylDemand := { CylDemand.reset with active := some { demand := d, stale := false }, staleCount := 2 }
    let past : CylDemand := { held with staleCount := 3 }
    let hold := freezing.tables.limits.staleHold
    staged.staged = some d ∧ held.staged = none ∧ held.active.isSome = true ∧ min 15 (held.staleCount + 1) ≤ hold ∧
    past.staged = none ∧ hold < min 15 (past.staleCount + 1) ∧ CylDemand.reset.staged = none ∧
    CylDemand.reset.active = none := by decide
theorem witness_FreezeResolvesTheDemand_starved :
    ∃ t, exec (toothCommand false .dueFirst) freezing = .next t ∧ (t.demandOf 2).starved = true ∧
      (freezing.demandOf 2).starved = false := ⟨_, rfl, by decide +kernel⟩

theorem witness_PlannerFitsTheWindow_duration :
    let pilot : PatternEntry := { cls := .pilot, anchor := .angle 0 false, duration := .fixed 149, maxUs := 100
                                  repeats := 1, repeatGapUs := 100, lowBoost := false }
    let none' : PatternEntry := { pilot with duration := .fraction 1 }
    let main' : PatternEntry := { pilot with cls := .main }
    let exact' : PatternEntry := { pilot with duration := .fixed 150 }
    sourceUs none' 255 = 0 ∧ (0 < sourceUs pilot 0 ∧ sourceUs pilot 0 < 150 ∧ pilot.cls ≠ .main) ∧
    (0 < sourceUs main' 0 ∧ sourceUs main' 0 < 150 ∧ main'.cls = .main) ∧
    (0 < sourceUs exact' 0 ∧ 150 ≤ sourceUs exact' 0) := by decide
theorem witness_PlannerFitsTheWindow_start :
    ({ record3 with windowOpen := 0, windowClose := 0 } : CylRecord).span = 0 ∧ 0 < record3.span ∧ (-801 : Int) < -(record3.windowOpen : Int) ∧ -(record3.windowOpen : Int) ≤ -800 ∧
    (-800 : Int) < record3.windowClose ∧ (record3.windowClose : Int) ≤ 1600 := by decide
/-- The report of a tooth in the middle of the revolution. -/
def report : ToothReport :=
  { kind := .real, sync := .fullSync, t0 := 1000000, angle := some 3744, span := 96, tpred := 5540, pitch := 96, marker := false
    leftStalled := false }
theorem witness_PlannerFitsTheWindow_fit :
    0 < report.tpred ∧ 0 < report.pitch ∧ 2396 < record3.span ∧ 2396 + report.extent 230 ≤ record3.span ∧
    record3.span < 2396 + report.extent 231 ∧ 2300 < record3.span ∧
    windowFit record3 150 report 2300 12000 = some (5770, true) ∧
    windowFit record3 150 report 2396 12000 = none := by decide

/-- Cylinder 3 with a demand staged, on a bank with no shot. -/
def demanded : State :=
  { turning with demand := turning.demand.set 2 { CylDemand.reset with staged := some { pattern := 5, mainUs := 1200, advance := 2 } } }
theorem witness_PlannerFitsTheWindow_freeze :
    ((freeze report demanded 2).demandOf 2).active.isSome = true ∧
    (freezeShots report demanded 2 ((freeze report demanded 2).demandOf 2).active).map (fun x => (x.tag, x.cls, x.order)) =
      [(0, .pilot, 3432), (1, .pilot, 3528), (2, .main, 3768), (3, .after, 4046), (4, .late, 5280), (5, .late, 5440)] ∧
    (demanded.schedOf (demanded.bankOf 2)).queue.length + 6 ≤ 16 := by decide +kernel
theorem witness_PlannerFitsTheWindow_empty :
    ((freeze report turning 2).demandOf 2).active = none ∧
    freezeShots report turning 2 none = [] ∧ (turning.schedOf (turning.bankOf 2)).queue.length + 0 ≤ 16 := by
  decide +kernel

theorem witness_QueueOrderAndVictim :
    ([{ shot with order := 3700 }, shot] : List Shot).Pairwise (fun a b => a.standsBefore b 3648 = true) ∧
    victim 3648 [shot, { shot with tag := 44, cls := .late }] { shot with tag := 45 } =
      some { shot with tag := 44, cls := .late } ∧
    victim 3648 [{ shot with state := .deferred }, { shot with tag := 44 }] { shot with tag := 45, anchor := .chain (some 44) 0 } =
      none := by decide
theorem witness_QueueOrderAndVictim_chain :
    let q : List Shot := [{ shot with anchor := .chain (some 41) 0 }, { shot with tag := 41 }, { shot with tag := 7 }]
    BackChain q (.chain (some 43) 0) 41 ∧ (∃ y ∈ q, y.tag = 41) ∧ (∃ y ∈ q, y.tag = 7) ∧ ¬BackChain [] (.angle 0) 7 :=
  ⟨.back rfl .pred, by decide, by decide, fun h => nomatch h⟩

/-- A queue of sixteen shots of one class. -/
def full (cls : PulseClass) : List Shot := (List.range 16).map fun i => { shot with tag := BitVec.ofNat 8 i, cls := cls }

theorem witness_PlacementOnABank_room : (due.schedOf .bankA).queue.length < 16 := by decide
theorem witness_PlacementOnABank_evicts :
    16 ≤ (full .late).length ∧ (victim 0 (full .late) shot).isSome = true ∧
    (∀ v ∈ victim 0 (full .late) shot, v.cls.rank < shot.cls.rank ∧
      (full .late).countP (fun y => y.tag == v.tag) = 1 ∧ shot.tag ≠ v.tag) := by decide +kernel
/-- No shot follows the tag, so its chain holds nothing. -/
theorem no_chain {q : List Shot} {tag : Byte} {e : Nat} {o : ShotOutcome} (h : ∀ y ∈ q, y.follows tag = false)
    (y : Shot) (p : ShotOutcome) : ¬ChainFate q tag e o y p := by
  intro c
  induction c with
  | first hq hf => rw [h _ hq] at hf; cases hf
  | next _ _ _ ih => exact ih
/-- The shots that follow the tag have tags of their own, and none follows them. -/
theorem short_chain {q : List Shot} {tag : Byte} {e : Nat} {o : ShotOutcome}
    (h : ∀ y ∈ q, y.follows tag = true → y.tag ≠ tag ∧ q.filter (fun z => z.tag == y.tag) = [y] ∧
      ∀ z ∈ q, z.follows y.tag = false) : chainNamed q tag e o := by
  have key : ∀ y p, ChainFate q tag e o y p → y ∈ q ∧ y.follows tag = true := by
    intro y p c
    induction c with
    | first hq hf => exact ⟨hq, hf⟩
    | next _ hz hf ih => rw [(h _ ih.1 ih.2).2.2 _ hz] at hf; cases hf
  intro y p c
  have a := h y (key y p c).1 (key y p c).2
  exact ⟨a.1, a.2.1⟩

/-- Fifteen LATE shots and an AFTER shot chained on the last of them. -/
def fullChain : List Shot :=
  (List.range 15).map (fun i => { shot with tag := BitVec.ofNat 8 i, cls := .late }) ++
    [{ shot with tag := 15, cls := .after, anchor := .chain (some 14) 1000, state := .planned, due := none }]
theorem witness_PlacementOnABank_chain :
    16 ≤ fullChain.length ∧ (∃ v, victim 3700 fullChain shot = some v ∧ v.tag = 14 ∧ v.cls.rank < shot.cls.rank ∧
      fullChain.filter (fun y => y.tag == v.tag) = [v] ∧ chainNamed fullChain v.tag v.entry .shedQueueFull) ∧
    due.firing ≠ .draining :=
  ⟨by decide, ⟨_, rfl, by decide, by decide, by decide, short_chain (by decide)⟩, by decide⟩
theorem witness_PlacementOnABank_refused :
    16 ≤ (full .main).length ∧ ∀ v ∈ victim 0 (full .main) shot, shot.cls.rank ≤ v.cls.rank := by decide +kernel
/-- No shot of the queue follows another, and their tags differ. -/
theorem single_chains {q : List Shot} (hn : (q.map Shot.tag).Nodup) (h : ∀ x ∈ q, ∀ y ∈ q, y.follows x.tag = false) :
    chainsNamed q := ⟨hn, fun x hx _ y p c => (no_chain (h x hx) y p c).elim⟩

/-! #### The Angle Clock -/

theorem taken_of {s : State} (c : Nat) (h : s.tables.wheel.loaded = true) (hc : s.clock.lastCrank = some c)
    (h1 : c + 200 ≤ s.timebase) : crankTaken s := by
  refine ⟨h, ?_⟩
  intro m hm
  rw [hc] at hm
  cases hm
  exact h1

theorem witness_EdgesThatAreNoTeeth_unloaded : ready.tables.wheel.loaded = false := rfl
theorem witness_EdgesThatAreNoTeeth_filtered :
    ({ turning with timebase := 994639 } : State).tables.wheel.loaded = true ∧
    turning.clock.lastCrank = some 994440 ∧ 994639 < 994440 + 200 ∧ 994440 ≤ 994639 := by decide
theorem witness_EdgesThatAreNoTeeth_absorbed :
    let s : State := { turning with clock := { clock13 with absorb := true, lastTooth := some 995801 } }
    crankTaken s ∧ s.clock.sync = .fullSync ∧ s.clock.lastTooth = some 995801 ∧ s.clock.absorb = true ∧
    s.timebase - 995801 < 3 * s.clock.tpred / 4 := ⟨taken_of 994440 rfl rfl (by decide), by decide⟩
theorem witness_EdgesThatAreNoTeeth_early :
    let s : State := { turning with timebase := 997239 }
    crankTaken s ∧ s.clock.sync = .fullSync ∧ s.clock.lastTooth = some 994440 ∧
    ¬(s.clock.absorb = true ∧ s.timebase - 994440 < 3 * s.clock.tpred / 4) ∧
    2 * (s.timebase - 994440) < s.clock.tpred := ⟨taken_of 994440 rfl rfl (by decide), by decide⟩

theorem witness_EdgeLeavesStalled : crankTaken still ∧ still.clock.sync = .stalled :=
  ⟨⟨rfl, (by intro n h; cases h)⟩, rfl⟩
theorem witness_EdgeLeavesStalled_service :
    crankTaken serving ∧ serving.clock.sync = .stalled ∧ serving.service = some 2 ∧
    ((serving.schedOf (serving.bankOf 2)).queue.map Shot.tag).Nodup ∧ serving.tables.limits.bankGapUs ≠ 0 ∧
    drainAgrees serving ∧ endPassed serving (serving.bankOf 2) :=
  ⟨⟨rfl, (by intro n h; cases h)⟩, by decide, rfl, by decide, by decide, fun h => (by cases h), fun n h => by cases h⟩

theorem witness_SeekingLooksForTheGap_first :
    let s : State := { seeking with clock := { seeking.clock with lastTooth := none, t1 := 0, t2 := 0, tpred := 0 } }
    crankTaken s ∧ s.clock.sync = .seeking ∧ s.clock.lastTooth = none :=
  ⟨taken_of 994440 rfl rfl (by decide), rfl, rfl⟩
theorem witness_SeekingLooksForTheGap_normal :
    crankTaken seeking ∧ seeking.clock.sync = .seeking ∧ seeking.clock.lastTooth = some 994440 ∧
    ¬(seeking.clock.t1 ≠ 0 ∧ (2 * wheel60.m + 1) * seeking.clock.t1 ≤ 2 * (seeking.timebase - 994440)) :=
  ⟨taken_of 994440 rfl rfl (by decide), by decide⟩
theorem witness_SeekingLooksForTheGap_candidate :
    let s : State := { seeking with timebase := 1008440 }
    crankTaken s ∧ s.clock.sync = .seeking ∧ s.clock.lastTooth = some 994440 ∧
    (s.clock.t1 ≠ 0 ∧ (2 * wheel60.m + 1) * s.clock.t1 ≤ 2 * (s.timebase - 994440)) ∧
    s.clock.gapSearch ≠ some (60 - 2 - 1) := ⟨taken_of 994440 rfl rfl (by decide), by decide⟩
theorem witness_SeekingLooksForTheGap_confirmed :
    let s : State := { seeking with timebase := 1008440, clock := { seeking.clock with gapSearch := some 57 } }
    crankTaken s ∧ s.clock.sync = .seeking ∧ s.clock.lastTooth = some 994440 ∧
    (s.clock.t1 ≠ 0 ∧ (2 * wheel60.m + 1) * s.clock.t1 ≤ 2 * (s.timebase - 994440)) ∧
    s.clock.gapSearch = some (s.tables.wheel.n - s.tables.wheel.m - 1) ∧ 0 < s.tables.wheel.n - s.tables.wheel.m - 1 :=
  ⟨taken_of 994440 rfl rfl (by decide), by decide⟩

/-- The last tooth before the gap, the edge after it coming now. -/
def gapTooth (sync : Sync) (rev1 : Bool) (cam : Nat) : State :=
  { still with
    clock := { clock13 with sync := sync, index := 57, rev1 := rev1, camCount := cam, lastTooth := some 983200
                            lastCrank := some 983200 } }

theorem witness_AcceptedTooth_real :
    toothReady false turning ∧ turning.clock.lastTooth.isSome = true ∧
    turning.clock.index ≠ turning.tables.wheel.n - turning.tables.wheel.m - 1 :=
  ⟨witness_toothReady_real, by decide⟩
theorem witness_AcceptedTooth_synthetic :
    toothReady true { turning with timebase := 1002840 } ∧ turning.clock.lastTooth.isSome = true :=
  ⟨witness_toothReady_synthetic, rfl⟩
theorem witness_AcceptedTooth_crank :
    toothReady false cranking ∧ cranking.clock.sync ≠ .fullSync :=
  ⟨real_of 994440 994440 rfl rfl rfl (by decide) (.inl rfl) rfl (by decide) (by decide), by decide⟩
theorem witness_AcceptedTooth_revolution :
    toothReady false (gapTooth .fullSync true 1) ∧ atGap (gapTooth .fullSync true 1) ∧
    toothReady false (gapTooth .fullSync false 0) ∧ toothReady false (gapTooth .crankSync false 2) :=
  ⟨real_of 983200 983200 rfl rfl rfl (by decide) (.inr rfl) rfl (by decide) (by decide), rfl,
    real_of 983200 983200 rfl rfl rfl (by decide) (.inr rfl) rfl (by decide) (by decide),
    real_of 983200 983200 rfl rfl rfl (by decide) (.inl rfl) rfl (by decide) (by decide)⟩
/-- A CLOSING track of the cylinder whose pulse is on and whose shot is queued. -/
def closing : State :=
  { firing with sched := ⟨{ firing.sched.a with
      tracks := [{ cyl := 2, openAngle := 3040, closeAngle := 5440, state := .closing 1000000 }] }, Sched.reset⟩ }

/-- Cylinder 3's plan in the interval of the tooth at 3744: a MAIN shot to be timed and a track. -/
def planned : State :=
  { turning with sched := ⟨{ Sched.reset with
      queue := [{ shot with state := .planned, reached := false, due := none }]
      tracks := [{ cyl := 2, openAngle := 3040, closeAngle := 5440, state := .tracking }] }, Sched.reset⟩ }
/-- What the next edge makes of the clock. -/
abbrev clockNext (s : State) : AngleClock := (after (.crankEdge .rising .dueFirst) s).clock
theorem no_freeze {s : State} (i : Interval) (h : s.firing ≠ .armed) : ∀ c, ¬freezeTooth i s c := fun _ f => h f.1
theorem quiet_of {i : Interval} {s : State} {k : Bank} (h1 : (s.schedOf k).queue.filter timedAhead = [])
    (h2 : ∀ x ∈ (s.schedOf k).queue, x.waiting = false)
    (h3 : ∀ x ∈ (i.schedMet s k).queue, ∀ n ∈ x.due, s.timebase < n)
    (h4 : ∀ y ∈ (s.schedOf k).tracks, y.state = .tracking) (h5 : ∀ y ∈ (i.schedMet s k).tracks, y.state = .tracking) :
    quietBank i s k [] := by
  refine ⟨h1, fun x hx hw => ?_, fun x hx _ _ n hn => h3 x hx n hn, fun y hy n h => ?_, fun y hy n h => ?_⟩
  · rw [h2 x hx] at hw; cases hw
  · rw [h4 y hy] at h; cases h
  · rw [h5 y hy] at h; cases h
theorem witness_AcceptedTooth_quiet :
    toothReady false planned ∧ planned.clock.sync = .fullSync ∧
    (∀ c, ¬freezeTooth (intervalOf false planned (clockNext planned)) planned c) ∧
    ∀ k, quietBank (intervalOf false planned (clockNext planned)) planned k [] := by
  refine ⟨real_of 994440 994440 rfl rfl rfl (by decide) (.inr rfl) rfl (by decide) (by decide), rfl,
    no_freeze _ (by decide), both_banks ?_ ?_⟩ <;> apply quiet_of <;> decide +kernel
/-- A MAIN shot timed by the tooth before for a later instant, on an IDLE bank. -/
def overtaken : State :=
  { turning with sched := ⟨{ Sched.reset with queue := [{ shot with order := 3700, due := some 1000001 }] }, Sched.reset⟩
                 level := ⟨2600, 0⟩ }
theorem witness_AcceptedTooth_opens :
    let x := { shot with order := 3700, due := some 1000001 }
    let i := intervalOf false overtaken (clockNext overtaken)
    toothReady false overtaken ∧ (∀ c, ¬freezeTooth i overtaken c) ∧ quietBank i overtaken .bankA [x] ∧
    (∀ j, j ≠ .bankA → quietBank i overtaken j []) ∧
    (overtaken.schedOf .bankA).queue.filter (fun y => y.tag == x.tag) = [x] ∧ (overtaken.schedOf .bankA).cond = .idle ∧
    (overtaken.schedOf .bankA).active = none ∧
    inWindow (bothMet i overtaken (clockNext overtaken) overtaken.events) .bankA x ∧ x.lowBoost = false ∧
    (overtaken.profileOf x.cyl).boostCost ≤ overtaken.levelOf .bankA := by
  refine ⟨real_of 994440 994440 rfl rfl rfl (by decide) (.inr rfl) rfl (by decide) (by decide),
    no_freeze _ (by decide), ?_, ?_, by decide, rfl, rfl, .inr (by decide +kernel), rfl, by decide⟩
  · refine ⟨by decide +kernel, by decide +kernel, ?_, ?_, ?_⟩
    · intro x hx _ h n _
      have : ∀ x ∈ ((intervalOf false overtaken (clockNext overtaken)).schedMet overtaken .bankA).queue, x.tag = 43 := by
        decide +kernel
      exact absurd (this x hx).symm (h _ (List.mem_singleton.2 rfl))
    · intro y hy; cases hy
    · intro y hy; cases hy
  · intro j hj
    cases j with
    | bankA => exact absurd rfl hj
    | bankB => apply quiet_of <;> decide +kernel
theorem witness_AcceptedTooth_banks :
    toothReady false closing ∧ ((closing.schedOf .bankA).queue.map Shot.tag).Nodup ∧
    (∃ y ∈ (closing.schedOf .bankA).tracks, y.state = .closing 1000000 ∧
      ¬freezeTooth (intervalOf false closing (clockNext closing)) closing y.cyl) := by
  refine ⟨real_of 994440 994440 rfl rfl rfl (by decide) (.inr rfl) rfl (by decide) (by decide), by decide,
    _, List.mem_singleton.2 rfl, rfl, ?_⟩
  unfold freezeTooth Interval.holds
  decide +kernel
theorem witness_AcceptedTooth_alone :
    ∀ c, freezeTooth (intervalOf false closing (clockNext closing)) closing c → closing.bankOf c ≠ .bankA := by
  unfold freezeTooth Interval.holds
  decide +kernel
/-- A CLOSING track and a shot of cylinder 4, at the freeze tooth of cylinder 3, which has a demand and shares the bank. -/
def overlapping : State :=
  { freezing with
    demand := demanded.demand
    sched := ⟨{ Sched.reset with
      queue := [{ shot with tag := 9, cyl := 3 }], nextTag := 3
      tracks := [{ cyl := 3, openAngle := 3040, closeAngle := 5440, state := .closing 1000000 }] }, Sched.reset⟩ }
theorem witness_AcceptedTooth_tags :
    let i := intervalOf false overlapping (clockNext overlapping)
    toothReady false overlapping ∧ ((overlapping.schedOf .bankA).queue.map Shot.tag).Nodup ∧
    (freezeTooth i overlapping 2 ∧ overlapping.bankOf 2 = .bankA) ∧ ¬freezeTooth i overlapping 3 ∧
    tablesInRange overlapping.tables ∧ ∃ t, exec (toothCommand false .dueFirst) overlapping = .next t ∧
      (t.schedOf .bankA).nextTag = 9 ∧ tagsFree overlapping t .bankA := by
  refine ⟨real_of 994440 994440 rfl rfl rfl (by decide) (.inr rfl) rfl (by decide) (by decide), by decide, ?_, ?_, ?_, _, rfl,
    by decide +kernel, ?_⟩
  · unfold freezeTooth Interval.holds; decide +kernel
  · unfold freezeTooth Interval.holds; decide +kernel
  · unfold tablesInRange; decide +kernel
  · unfold tagsFree; decide +kernel
/-- The freeze tooth of cylinder 3 with a demand staged and nothing on the banks. -/
def freezingDemanded : State := { freezing with demand := demanded.demand }
theorem witness_PlannerFitsTheWindow_tooth :
    let s := freezingDemanded
    let k := clockNext s
    let i := intervalOf false s k
    let v := freeze (reportOf false s k) (toothBegun s k) 2
    toothReady false s ∧ s.firing = .armed ∧ k.sync = .fullSync ∧ freezeOrdered i s [2] ∧
    (∀ j, quietBank i s j [] ∧ quietBank i v j []) ∧ (v.schedOf .bankA).queue.length = 6 := by
  refine ⟨real_of 994440 994440 rfl rfl rfl (by decide) (.inr rfl) rfl (by decide) (by decide), rfl, by decide +kernel, ?_,
    both_banks ⟨?_, ?_⟩ ⟨?_, ?_⟩, by decide +kernel⟩
  · unfold freezeOrdered freezeTooth Interval.holds; decide +kernel
  all_goals apply quiet_of <;> decide +kernel
theorem witness_AcceptedTooth_predict : (0 : Nat) < 5560 ∧ 0 < 5600 ∧ 5560 < 5600 ∧ 5560 ≤ 5560 := by decide

theorem witness_CamCountDecides_up :
    toothReady false (gapTooth .crankSync false 1) ∧ atGap (gapTooth .crankSync false 1) ∧
    (gapTooth .crankSync false 1).clock.camCount = 1 :=
  ⟨real_of 983200 983200 rfl rfl rfl (by decide) (.inl rfl) rfl (by decide) (by decide), rfl, rfl⟩
theorem witness_CamCountDecides_fault :
    toothReady false (gapTooth .fullSync false 1) ∧ atGap (gapTooth .fullSync false 1) ∧
    (gapTooth .fullSync false 1).clock.camCount ≠ (if (gapTooth .fullSync false 1).clock.rev1 then 1 else 0) ∧
    toothReady false (gapTooth .fullSync true 0) ∧
    (gapTooth .fullSync true 0).clock.camCount ≠ (if (gapTooth .fullSync true 0).clock.rev1 then 1 else 0) :=
  ⟨real_of 983200 983200 rfl rfl rfl (by decide) (.inr rfl) rfl (by decide) (by decide), rfl, by decide,
    real_of 983200 983200 rfl rfl rfl (by decide) (.inr rfl) rfl (by decide) (by decide), by decide⟩

theorem witness_CamCountDecides_overspeed :
    let s : State := { gapTooth .crankSync false 1 with
      tables := { tables with limits := { Limits.default with maxSpeed := 500 } } }
    toothReady false s ∧ atGap s ∧ 0 < s.tables.wheel.n - s.tables.wheel.m - 1 ∧ s.clock.overspeed = false ∧
    500 < min 8191 (600000000 / (toothInterval false s * s.tables.wheel.n)) :=
  ⟨real_of 983200 983200 rfl rfl rfl (by decide) (.inl rfl) rfl (by decide) (by decide), rfl, by decide, rfl, by decide⟩

theorem witness_CrankSyncIsLost_deadline :
    let s : State := { cranking with clock := { cranking.clock with synth := 2 }, timebase := 1002840 }
    s.clock.sync = .crankSync ∧ s.clock.deadline = some 1002840 ∧ 1002840 ≤ s.timebase ∧ 2 ≤ s.clock.synth := by decide
theorem witness_CrankSyncIsLost_edge :
    let s : State := { gapTooth .crankSync false 0 with timebase := 997199 }
    crankTaken s ∧ s.clock.sync = .crankSync ∧ s.clock.lastTooth = some 983200 ∧
    ¬(s.clock.absorb = true ∧ s.timebase - 983200 < 3 * s.clock.tpred / 4) ∧
    s.clock.tpred ≤ 2 * (s.timebase - 983200) ∧ atGap s ∧
    2 * (s.timebase - 983200) < (2 * s.tables.wheel.m + 1) * s.clock.tpred :=
  ⟨taken_of 983200 rfl rfl (by decide), by unfold atGap; decide⟩
theorem witness_CrankSyncIsLost_early :
    turning.clock.deadline = some 1002840 ∧ ({ turning with timebase := 1002839 } : State).timebase < 1002840 := by
  decide

theorem witness_StallHoldsTheAngle :
    let s : State := { cranking with timebase := 994440 + 2500000 }
    s.clock.stallFrom = some 994440 ∧ 994440 + 2500000 ≤ s.timebase ∧ s.clock.sync ≠ .fullSync := by decide
theorem witness_StallHoldsTheAngle_early :
    turning.clock.stallFrom = some 994440 ∧ turning.timebase < 994440 + 2500000 := by decide

theorem witness_CamEdgesAreCounted_ignored :
    ready.tables.wheel.loaded = false ∧ Transition.falling ≠ turning.tables.wheel.polarity := by decide
theorem witness_CamEdgesAreCounted_filtered :
    let s : State := { turning with clock := { clock13 with lastCam := some 999801 } }
    s.tables.wheel.loaded = true ∧ Transition.rising = s.tables.wheel.polarity ∧ s.clock.lastCam = some 999801 ∧
    999801 ≤ s.timebase ∧ s.timebase < 999801 + 200 := by decide
theorem witness_CamEdgesAreCounted_counted :
    (∀ n, turning.clock.lastCam = some n → n + 200 ≤ turning.timebase) ∧ turning.clock.sync = .fullSync ∧
    (∀ n, seeking.clock.lastCam = some n → n + 200 ≤ seeking.timebase) ∧ seeking.clock.sync = .seeking :=
  ⟨(by intro n h; cases h), rfl, (by intro n h; cases h), rfl⟩

theorem witness_LeavingFullSyncEmptiesTheBanks :
    firing.clock.sync = .fullSync ∧ (∀ k, ((firing.schedOf k).queue.map Shot.tag).Nodup) ∧
    ∃ t, exec .stall { firing with timebase := 994440 + 2500000 } = .next t ∧ t.clock.sync ≠ .fullSync :=
  ⟨rfl, both_banks (by decide) (by decide), _, rfl, by decide +kernel⟩

theorem witness_StepKeepsTheClock :
    clockAgrees turning.tables.wheel turning.timebase turning.clock ∧
    ∃ t, step { turning with pending := [.crankEdge .rising .dueFirst] } = .next t := by
  refine ⟨⟨fun h => (by cases h), fun h => (by cases h), fun _ => ⟨rfl, rfl, rfl, by decide, ?_⟩, fun _ => rfl,
    fun h => (h rfl).elim, by decide, by decide, by decide, by decide, by decide +kernel, ?_⟩, _, rfl⟩
  · exact ⟨by decide, by decide, by decide, by decide, 994440, 994440, rfl, rfl, by decide, by decide⟩
  · unfold historyAgrees
    decide +kernel

/-! #### The Bank Schedulers -/

/-- The due shot with other fields, on a bank with a level. -/
def dueWith (x : Shot) (level : Nat) : State :=
  { due with sched := ⟨{ queued with queue := [x] }, Sched.reset⟩, level := ⟨level, 0⟩ }

theorem due_shot : fallsDue due shot ∧ onlyDue due .bankA shot ∧ inWindow due .bankA shot :=
  ⟨⟨rfl, fun _ => rfl, 1000000, rfl, by decide⟩, by unfold onlyDue; decide, .inr (by decide +kernel)⟩

theorem witness_DueShotOpensOnAnIdleBank_boosted :
    fallsDue due shot ∧ onlyDue due .bankA shot ∧ (due.schedOf .bankA).cond = .idle ∧
    (due.schedOf .bankA).active = none ∧ inWindow due .bankA shot ∧ shot.lowBoost = false ∧
    (due.profileOf shot.cyl).boostCost ≤ due.levelOf .bankA :=
  ⟨due_shot.1, due_shot.2.1, rfl, rfl, due_shot.2.2, rfl, by decide⟩
theorem witness_DueShotOpensOnAnIdleBank_degraded :
    let s := dueWith shot 399
    fallsDue s shot ∧ onlyDue s .bankA shot ∧ (s.schedOf .bankA).cond = .idle ∧ (s.schedOf .bankA).active = none ∧
    inWindow s .bankA shot ∧ s.levelOf .bankA < (s.profileOf shot.cyl).boostCost ∧ shot.cls = .main :=
  ⟨⟨rfl, fun _ => rfl, 1000000, rfl, by decide⟩, by unfold onlyDue; decide, rfl, rfl, .inr (by decide +kernel), by decide⟩
theorem witness_DueShotOpensOnAnIdleBank_marked :
    let x := { shot with lowBoost := true }
    let s := dueWith x 800
    fallsDue s x ∧ onlyDue s .bankA x ∧ inWindow s .bankA x ∧ s.tables.limits.lowWater ≤ s.levelOf .bankA :=
  ⟨⟨rfl, fun _ => rfl, 1000000, rfl, by decide⟩, by unfold onlyDue; decide, .inr (by decide +kernel), by decide⟩

theorem witness_DueShotIsShedAtItsStart_window :
    let s : State := { due with clock := { clock13 with index := 56 } }
    fallsDue s shot ∧ onlyDue s .bankA shot ∧ (s.schedOf .bankA).cond = .idle ∧ (s.schedOf .bankA).active = none ∧
    chainNamed (s.schedOf .bankA).queue shot.tag shot.entry .shedWindow ∧ ¬inWindow s .bankA shot := by
  refine ⟨⟨rfl, fun _ => rfl, 1000000, rfl, by decide⟩, by unfold onlyDue; decide, rfl, rfl, short_chain (by decide), ?_⟩
  unfold inWindow
  decide +kernel
/-- The shot, BROKEN for want of boost, with a later repeat of its entry and a shot of another entry chained behind. -/
def chained : State :=
  { due with
    firing := .draining, level := ⟨799, 0⟩
    sched := ⟨{ queued with queue :=
      [{ shot with lowBoost := true },
       { shot with tag := 44, rep := 1, anchor := .chain (some 43) 1000, state := .planned, due := none },
       { shot with tag := 45, entry := 2, anchor := .chain (some 44) 1000, state := .planned, due := none }] },
      Sched.reset⟩ }
theorem witness_DueShotIsShedAtItsStart_chain :
    let x := { shot with lowBoost := true }
    fallsDue chained x ∧ onlyDue chained .bankA x ∧ (chained.schedOf .bankA).cond = .idle ∧
    (chained.schedOf .bankA).active = none ∧ chainNamed (chained.schedOf .bankA).queue x.tag x.entry .broken ∧
    inWindow chained .bankA x ∧ x.lowBoost = true ∧ chained.levelOf .bankA < chained.tables.limits.lowWater := by
  refine ⟨⟨rfl, fun _ => rfl, 1000000, rfl, by decide⟩, by unfold onlyDue; decide, rfl, rfl, ?_,
    .inr (by decide +kernel), rfl, by decide⟩
  have key : ∀ y p, ChainFate (chained.schedOf .bankA).queue 43 1 .broken y p →
      y ∈ (chained.schedOf .bankA).queue ∧ y.tag ≠ 43 := by
    intro y p c
    have own : ∀ z ∈ (chained.schedOf .bankA).queue, ∀ t, z.follows t = true → z.tag ≠ 43 := by
      intro z hz t ht h
      have : ∀ w ∈ (chained.schedOf .bankA).queue, w.tag = 43 → w.isAngle = true := by decide
      have ha := this z hz h
      unfold Shot.isAngle at ha
      unfold Shot.follows at ht
      cases hq : z.anchor <;> rw [hq] at ha ht <;> simp at ha ht
    cases c with
    | first hq hf => exact ⟨hq, own _ hq _ hf⟩
    | next _ hz hf => exact ⟨hz, own _ hz _ hf⟩
  intro y p c
  refine ⟨(key y p c).2, ?_⟩
  have h := (key y p c).1
  revert h
  generalize y = z
  revert z
  decide
theorem witness_DueShotIsShedAtItsStart_broken :
    let x := { shot with lowBoost := true }
    let s := dueWith x 799
    fallsDue s x ∧ onlyDue s .bankA x ∧ inWindow s .bankA x ∧ x.lowBoost = true ∧
    chainNamed (s.schedOf .bankA).queue x.tag x.entry .broken ∧ s.levelOf .bankA < s.tables.limits.lowWater :=
  ⟨⟨rfl, fun _ => rfl, 1000000, rfl, by decide⟩, by unfold onlyDue; decide, .inr (by decide +kernel), rfl,
    short_chain (by decide), by decide⟩
theorem witness_DueShotIsShedAtItsStart_boost :
    let x := { shot with cls := .pilot }
    let s := dueWith x 399
    fallsDue s x ∧ onlyDue s .bankA x ∧ inWindow s .bankA x ∧ x.lowBoost = false ∧ x.cls ≠ .main ∧
    s.levelOf .bankA < (s.profileOf x.cyl).boostCost ∧ chainNamed (s.schedOf .bankA).queue x.tag x.entry .shedBoost :=
  ⟨⟨rfl, fun _ => rfl, 1000000, rfl, by decide⟩, by unfold onlyDue; decide, .inr (by decide +kernel), rfl, by decide,
    by decide, short_chain (by decide)⟩

theorem witness_DueShotOnABusyBank_gap :
    let s : State := { due with sched := ⟨{ queued with cond := .gap, lastEnd := some 999999 }, Sched.reset⟩ }
    fallsDue s shot ∧ onlyDue s .bankA shot ∧ inWindow s .bankA shot ∧ (s.schedOf .bankA).cond = .gap ∧
    (s.schedOf .bankA).active = none :=
  ⟨⟨rfl, fun _ => rfl, 1000000, rfl, by decide⟩, by unfold onlyDue; decide, .inr (by decide +kernel), by decide⟩
/-- A CHAIN shot and an ANGLE shot past their window, on a bank in GAP. -/
theorem witness_DueShotOnABusyBank_window :
    let x := { shot with anchor := .chain (some 41) 3000 }
    let s : State := { due with
      clock := { clock13 with index := 56 }
      sched := ⟨{ queued with queue := [x], cond := .gap, lastEnd := some 999999 }, Sched.reset⟩ }
    fallsDue s x ∧ onlyDue s .bankA x ∧ x.isAngle = false ∧ ¬inWindow s .bankA x ∧ (s.schedOf .bankA).cond ≠ .idle ∧
    chainNamed (s.schedOf .bankA).queue x.tag x.entry .shedWindow := by
  refine ⟨⟨rfl, fun _ => rfl, 1000000, rfl, by decide⟩, by unfold onlyDue; decide, rfl, ?_, by decide,
    short_chain (by decide)⟩
  unfold inWindow
  decide +kernel
theorem witness_DueShotOnABusyBank_angle :
    let s : State := { due with
      clock := { clock13 with index := 56 }, sched := ⟨{ queued with cond := .gap, lastEnd := some 999999 }, Sched.reset⟩ }
    fallsDue s shot ∧ onlyDue s .bankA shot ∧ (shot.isAngle = false → inWindow s .bankA shot) ∧ ¬inWindow s .bankA shot ∧
    (s.schedOf .bankA).cond = .gap ∧ (s.schedOf .bankA).active = none := by
  refine ⟨⟨rfl, fun _ => rfl, 1000000, rfl, by decide⟩, by unfold onlyDue; decide, fun h => absurd h (by decide), ?_,
    by decide⟩
  unfold inWindow
  decide +kernel
/-- A shot due while a pulse of a class is on. -/
def busyWith (x : Shot) (cls : PulseClass) : State :=
  { firing with sched := ⟨{ queued with queue := [x], cond := .active, active := some { pulse with cls := cls } },
                          Sched.reset⟩ }
theorem witness_DueShotOnABusyBank_preempts :
    let s := busyWith shot .pilot
    fallsDue s shot ∧ onlyDue s .bankA shot ∧ inWindow s .bankA shot ∧ (s.schedOf .bankA).cond = .active ∧
    (s.schedOf .bankA).active = some { pulse with cls := .pilot } ∧
    PulseClass.pilot.rank < shot.cls.rank ∧ shot.cls = .main ∧
    chainNamed (s.schedOf .bankA).queue pulse.tag 0 .firedPreempted ∧
    (∀ o, ¬ChainFate (s.schedOf .bankA).queue pulse.tag 0 .firedPreempted shot o) :=
  ⟨⟨rfl, fun _ => rfl, 1000000, rfl, by decide⟩, by unfold onlyDue; decide, .inr (by decide +kernel), rfl, rfl, by decide,
    rfl, short_chain (by decide), no_chain (by decide) shot⟩
/-- With a bank gap of 0. -/
theorem witness_DueShotOnABusyBank_no_gap :
    let s : State := { busyWith shot .pilot with tables := { tables with limits := { Limits.default with bankGapUs := 0 } } }
    fallsDue s shot ∧ onlyDue s .bankA shot ∧ inWindow s .bankA shot ∧ s.tables.limits.bankGapUs = 0 ∧
    (s.schedOf .bankA).active = some { pulse with cls := .pilot } ∧
    chainNamed (s.schedOf .bankA).queue pulse.tag 0 .firedPreempted :=
  ⟨⟨rfl, fun _ => rfl, 1000000, rfl, by decide⟩, by unfold onlyDue; decide, .inr (by decide +kernel), rfl, rfl,
    short_chain (by decide)⟩
theorem witness_DueShotOnABusyBank_defers :
    let s := busyWith shot .main
    fallsDue s shot ∧ onlyDue s .bankA shot ∧ inWindow s .bankA shot ∧ (s.schedOf .bankA).cond = .active ∧
    (s.schedOf .bankA).active = some { pulse with cls := .main } ∧
    ¬(PulseClass.main.rank < shot.cls.rank ∧ (shot.cls = .main ∨ shot.cls = .pilot)) ∧
    0 < 10 * s.tables.limits.deferUs shot.cls :=
  ⟨⟨rfl, fun _ => rfl, 1000000, rfl, by decide⟩, by unfold onlyDue; decide, .inr (by decide +kernel), by decide⟩
theorem witness_DueShotOnABusyBank_sheds :
    let s : State := { busyWith shot .main with tables := { tables with limits := { Limits.default with deferMain := 0 } } }
    fallsDue s shot ∧ onlyDue s .bankA shot ∧ inWindow s .bankA shot ∧ 10 * s.tables.limits.deferUs shot.cls = 0 ∧
    (s.schedOf .bankA).cond = .active ∧ (s.schedOf .bankA).active = some { pulse with cls := .main } ∧
    chainNamed (s.schedOf .bankA).queue shot.tag shot.entry .shedConflict :=
  ⟨⟨rfl, fun _ => rfl, 1000000, rfl, by decide⟩, by unfold onlyDue; decide, .inr (by decide +kernel), by decide, rfl, rfl,
    short_chain (by decide)⟩

/-- A bank in GAP since an instant, with a waiting shot. -/
def waiting (since : Nat) : State :=
  { due with
    sched := ⟨{ queued with queue := [{ shot with waiting := true }], cond := .gap, lastEnd := some since }, Sched.reset⟩
    drive := ⟨{ DriveStage.reset with phase := .quench }, DriveStage.reset⟩ }

theorem witness_GapEndActsTheArbiter_early :
    (gapping.schedOf .bankA).cond = .gap ∧ (gapping.schedOf .bankA).lastEnd = some 999999 ∧
    gapping.timebase < 999999 + 10 * gapping.tables.limits.bankGapUs := by decide
theorem witness_GapEndActsTheArbiter_idle :
    let s : State := { gapping with timebase := 1000499 }
    (s.schedOf .bankA).cond = .gap ∧ (s.schedOf .bankA).lastEnd = some 999999 ∧
    999999 + 10 * s.tables.limits.bankGapUs ≤ s.timebase ∧ (∀ y ∈ (s.schedOf .bankA).queue, y.waiting = false) := by
  decide
theorem witness_GapEndActsTheArbiter_opens :
    let s := waiting 999500
    let x := { shot with waiting := true }
    (s.schedOf .bankA).cond = .gap ∧ (s.schedOf .bankA).lastEnd = some 999500 ∧
    999500 + 10 * s.tables.limits.bankGapUs ≤ s.timebase ∧ x.waiting = true ∧
    (s.schedOf .bankA).queue.filter (fun y => y.tag == x.tag || y.waiting) = [x] ∧ inWindow s .bankA x ∧
    x.lowBoost = false ∧ (s.profileOf x.cyl).boostCost ≤ s.levelOf .bankA :=
  ⟨rfl, rfl, by decide, rfl, by decide, .inr (by decide +kernel), rfl, by decide⟩
theorem witness_GapEndActsTheArbiter_degraded :
    let s := { waiting 999500 with level := ⟨399, 0⟩ }
    let x := { shot with waiting := true }
    (s.schedOf .bankA).cond = .gap ∧ (s.schedOf .bankA).lastEnd = some 999500 ∧
    999500 + 10 * s.tables.limits.bankGapUs ≤ s.timebase ∧ x.waiting = true ∧
    (s.schedOf .bankA).queue.filter (fun y => y.tag == x.tag || y.waiting) = [x] ∧ inWindow s .bankA x ∧
    x.lowBoost = false ∧ s.levelOf .bankA < (s.profileOf x.cyl).boostCost ∧ x.cls = .main :=
  ⟨rfl, rfl, by decide, rfl, by decide, .inr (by decide +kernel), rfl, by decide⟩
/-- At the end of a gap an AFTER shot due 2 ms ago, a PILOT shot due now and two MAIN shots wait, the earlier one marked. -/
def contended : State :=
  { waiting 999500 with
    sched := ⟨{ queued with
      queue := [{ shot with tag := 44, cls := .after, due := some 980000, waiting := true },
                { shot with tag := 45, cls := .pilot, waiting := true },
                { shot with tag := 46, lowBoost := true, due := some 999000, waiting := true },
                { shot with waiting := true }]
      cond := .gap, lastEnd := some 999500 }, Sched.reset⟩
    level := ⟨799, 0⟩ }
theorem witness_GapEndActsTheArbiter_contended :
    (contended.schedOf .bankA).cond = .gap ∧ (contended.schedOf .bankA).lastEnd = some 999500 ∧
    999500 + 10 * contended.tables.limits.bankGapUs ≤ contended.timebase ∧
    chainsNamed (contended.schedOf .bankA).queue :=
  ⟨rfl, rfl, by decide, single_chains (by decide) (by decide)⟩
/-- The marked MAIN shot is BROKEN, the other one opens, the PILOT shot is DEFERRED and the AFTER shot is shed. -/
theorem test_arbiter_100 :
    let t := after (.gapEnd .bankA) contended
    (t.schedOf .bankA).active.map Pulse.tag = some 43 ∧
    (t.schedOf .bankA).queue.map (fun y => (y.tag, y.state, y.deadline)) = [(45, .deferred, some 1002000)] ∧
    (t.schedOf .bankA).shed = 2 := by decide +kernel
theorem witness_LoadLimits_waiting :
    let s := waiting 999999
    Carried s 0x15 (limitsBytes limits51) ∧ (limitsBytes limits51).length = 31 ∧
    limits51.bankGapUs ≠ s.tables.limits.bankGapUs ∧ (s.schedOf .bankA).cond = .gap ∧
    (∀ k, chainsNamed (s.schedOf k).queue) :=
  ⟨by decide +kernel, by decide +kernel, by decide, rfl,
    both_banks (single_chains (by decide) (by decide)) (single_chains (by decide) (by decide))⟩

theorem witness_ArbiterChoice :
    chooseWaiting [{ shot with waiting := true, cls := .pilot }, { shot with waiting := true, tag := 44 }] =
      some { shot with waiting := true, tag := 44 } ∧
    (∀ y ∈ [shot], y.waiting = false) := by decide

/-- A DEFERRED shot with a deadline on a busy bank. -/
def deferred (deadline : Nat) : Shot :=
  { shot with state := .deferred, waiting := true, due := some 997000, deadline := some deadline }
theorem witness_DeferDeadlineSheds :
    let s := busyWith (deferred 1000000) .main
    (deferred 1000000).state = .deferred ∧ (deferred 1000000).deadline = some 1000000 ∧ 1000000 ≤ s.timebase ∧
    (s.schedOf .bankA).queue.filter (fun y => y.tag == (deferred 1000000).tag) = [deferred 1000000] ∧
    chainNamed (s.schedOf .bankA).queue (deferred 1000000).tag (deferred 1000000).entry .shedConflict :=
  ⟨rfl, rfl, by decide, by decide, short_chain (by decide)⟩
theorem witness_DeferDeadlineSheds_early :
    let s := busyWith (deferred 1000001) .main
    (s.schedOf .bankA).queue.filter (fun y => y.tag == (deferred 1000001).tag) = [deferred 1000001] ∧
    s.timebase < 1000001 := by decide

theorem witness_ScheduledEnd :
    (firing.schedOf .bankA).active = some pulse ∧ pulse.schedEnd ≤ firing.timebase := by decide
theorem witness_ScheduledEnd_early :
    ({ firing with timebase := 999999 } : State).timebase < pulse.schedEnd := by decide

theorem witness_WindowCloseSweepsTheCylinder :
    (closing.schedOf .bankA).tracks.find? (fun v => v.cyl == 2) =
      some { cyl := 2, openAngle := 3040, closeAngle := 5440, state := .closing 1000000 } ∧
    1000000 ≤ closing.timebase ∧ ((closing.schedOf .bankA).queue.map Shot.tag).Nodup ∧ drainAgrees closing ∧
    (∀ n ∈ (closing.schedOf .bankA).lastEnd, n ≤ closing.timebase) ∧ (closing.schedOf .bankA).queue.filter (fun y => y.cyl == 2) ≠ [] ∧
    (closing.schedOf .bankA).active = some pulse ∧ pulse.cyl = 2 ∧ pulse.flags.service = false :=
  ⟨by decide, by decide, by decide, fun h => (by cases h), by decide, by decide, rfl, rfl, rfl⟩
theorem witness_WindowCloseSweepsTheCylinder_early :
    ({ closing with timebase := 999999 } : State).timebase < 1000000 := by decide
theorem witness_WindowCloseSweepsTheCylinder_other :
    let s : State := { closing with sched := ⟨{ closing.sched.a with active := some { pulse with cyl := 3 } }, Sched.reset⟩ }
    (s.schedOf .bankA).active = some { pulse with cyl := 3 } ∧ ({ pulse with cyl := 3 } : Pulse).cyl ≠ 2 := by decide

theorem witness_StepKeepsTheCounters :
    (∀ k, countersAgree (firing.schedOf k)) ∧ ∃ t, step { firing with pending := [.scheduledEnd .bankA] } = .next t := by
  refine ⟨both_banks ?_ ?_, _, rfl⟩ <;> unfold countersAgree <;> decide +kernel
theorem witness_StepKeepsTheBanks :
    (∀ k, bankAgrees (firing.schedOf k) (firing.driveOf k) = true) ∧ levelsAgree firing ∧
    ∃ t, step { firing with pending := [.scheduledEnd .bankA] } = .next t :=
  ⟨both_banks (by decide) (by decide), both_banks (by decide) (by decide), _, rfl⟩
theorem witness_StepKeepsTheBanks_outputs :
    outputsAgree firing ∧ (∃ t, step { firing with pending := [.scheduledEnd .bankA] } = .next t ∧
      t.tables.cyl = firing.tables.cyl) ∧ firing.gateLine 2 = true ∧ (firing.driveOf .bankA).phase = .boost :=
  ⟨both_banks (by decide) (by decide), ⟨_, rfl, by decide +kernel⟩, by decide, rfl⟩
theorem witness_StepKeepsTheBanks_loaded :
    outputsAgree still ∧ ∃ t, step { still with pending := [.loadCyl (frame 0x11 [])] } = .next t ∧
      ∀ k, (t.schedOf k).queue = [] ∧ (t.schedOf k).active = none :=
  ⟨both_banks (by decide) (by decide), _, rfl, both_banks (by decide +kernel) (by decide +kernel)⟩
theorem witness_StepKeepsTheDurations :
    tablesInRange due.tables ∧ (∀ k, durationsAgree (due.schedOf k)) ∧
    ∃ t, step { due with pending := [.timedInstant .bankA 43] } = .next t := by
  refine ⟨by unfold tablesInRange; decide +kernel, both_banks ?_ ?_, _, rfl⟩ <;> unfold durationsAgree <;> decide +kernel

/-! #### Reservoirs, supply, Drive Stages, trace -/

theorem witness_RechargeAndSupply_recharge :
    ({ ready with timebase := 1000 } : State).nextRecharge ≤ ({ ready with timebase := 1000 } : State).timebase := by
  decide
theorem witness_RechargeAndSupply_recharge_early : State.reset.timebase < State.reset.nextRecharge := by decide
theorem witness_RechargeAndSupply_supply_early : State.reset.timebase < State.reset.supply.nextSample := by decide
theorem witness_RechargeAndSupply_filling :
    let s : State := { ready with timebase := 10000 }
    s.supply.nextSample ≤ s.timebase ∧ (s.supply.window ++ [512]).length < 8 := by decide
/-- Seven samples in the window, of one count, and a band in force. -/
def supplied (count : Nat) (band : Band) : State :=
  { ready with supply := { window := List.replicate 7 count, band := band, nextSample := 1000000 } }
theorem witness_RechargeAndSupply_falls :
    let s := supplied 499 .normal
    s.supply.nextSample ≤ s.timebase ∧ 8 ≤ (s.supply.window ++ [499]).length ∧
    (s.supply.window ++ [499]).sum / 8 = 499 ∧ s.supply.band.code ≤ Band.low.code := by decide
theorem witness_RechargeAndSupply_rises :
    let s := supplied 512 .under
    8 ≤ (s.supply.window ++ [512]).length ∧ (s.supply.window ++ [512]).sum / 8 = 512 ∧
    Band.normal.code < s.supply.band.code ∧ s.tables.limits.lowThr + 12 ≤ 512 ∧ 511 < s.tables.limits.lowThr + 12 ∧
    s.tables.limits.crankThr + 12 ≤ 412 ∧ 411 < s.tables.limits.crankThr + 12 ∧ 1 < s.supply.band.code ∧
    s.tables.limits.underThr + 12 ≤ 287 ∧ s.supply.band = .under := by decide
theorem witness_RechargeAndSupply_stays :
    let s := supplied 511 .low
    (s.supply.window ++ [511]).sum / 8 = 511 ∧ Band.normal.code < s.supply.band.code ∧
    511 < s.tables.limits.lowThr + 12 ∧ s.supply.band.code ≤ 1 ∧ s.supply.band ≠ .under := by decide

/-- The pulse on bank A at its next sample, in a phase. -/
def sampling (phase : Phase) (samples : Nat) : State :=
  { firing with drive := ⟨{ stage with phase := phase, samples := samples, startTime := 1000000 - 10 * (samples + 1)
                                       boostSw := phase == .boost, entryTime := 999000 }, DriveStage.reset⟩ }
theorem witness_DriveSampleMovesThePhase :
    (∀ phase ∈ [Phase.boost, .peak, .hold],
      ((sampling phase 249).schedOf .bankA).active = some pulse ∧
      ((sampling phase 249).driveOf .bankA).startTime + 10 * (249 + 1) ≤ (sampling phase 249).timebase ∧
      ((sampling phase 249).driveOf .bankA).phase = phase ∧
      ((sampling phase 249).senseValue .bankA 20).toNat ≤ ((sampling phase 249).driveOf .bankA).profile.short ∧
      ¬((sampling phase 249).senseValue .bankA 20).toNat < ((sampling phase 249).driveOf .bankA).profile.openDetect) := by
  decide
theorem witness_DriveSampleMovesThePhase_early :
    (firing.schedOf .bankA).active = some pulse ∧
    ({ firing with timebase := 999999 } : State).timebase < stage.startTime + 10 * (stage.samples + 1) := by decide

theorem witness_FaultEndsThePulse_short :
    let s := sampling .boost 0
    (s.schedOf .bankA).active = some pulse ∧ (s.driveOf .bankA).startTime + 10 * (0 + 1) ≤ s.timebase ∧
    ((s.schedOf .bankA).queue.map Shot.tag).Nodup ∧
    (s.driveOf .bankA).profile.short < (s.senseValue .bankA 241).toNat := by decide
theorem witness_FaultEndsThePulse_open :
    let s := sampling .boost 249
    (s.schedOf .bankA).active = some pulse ∧ (s.driveOf .bankA).startTime + 10 * (249 + 1) ≤ s.timebase ∧
    ((s.schedOf .bankA).queue.map Shot.tag).Nodup ∧
    249 + 1 = (s.driveOf .bankA).profile.boostMax ∧ (s.driveOf .bankA).phase = .boost ∧
    (s.senseValue .bankA 19).toNat ≤ (s.driveOf .bankA).profile.short ∧
    (s.senseValue .bankA 19).toNat < (s.driveOf .bankA).profile.openDetect := by decide
theorem witness_FaultEndsThePulse_locks :
    let s := sampling .boost 0
    ((s.supOf pulse.cyl).firstPulse ||
      decide (s.tables.limits.lockout ≤ min 7 ((s.supOf pulse.cyl).faults + 1))) = true := by decide

/-- A trace capturing on bank A from an instant. -/
def capturing (stored : Nat) : State :=
  { firing with trace := { TraceCapture.reset with
      state := .capturing, cyl := 3, interval := 1, bank := some .bankA, start := some (1000000 - 10 * (stored + 1))
      stored := stored } }
/-- A full trace. -/
def traced (readPtr : Nat) : State :=
  { still with trace := { TraceCapture.reset with
      state := .done, cyl := 3, interval := 1, bank := some .bankA, start := some 999000, stored := 64
      readPtr := readPtr } }
theorem witness_TraceArmsStoresAndReads_arm :
    Carried still 0x38 [8, 16] ∧ still.trace.state = .idle ∧ (8 : Byte).toNat ≤ 8 ∧ (16 : Byte).toNat ≤ 16 ∧
    Carried still 0x38 [0, 0] ∧ Carried still 0x38 [8, 17] ∧ ¬(17 : Byte).toNat ≤ 16 := by decide +kernel
theorem witness_TraceArmsStoresAndReads_refused :
    Carried (capturing 0) 0x38 [1, 1] ∧ (capturing 0).trace.state = .capturing := by decide +kernel
theorem witness_TraceArmsStoresAndReads_store :
    still.trace.state ≠ .capturing ∧ (capturing 63).trace.state = .capturing ∧
    (capturing 63).trace.bank = some .bankA ∧ (capturing 63).trace.start = some 999360 ∧
    999360 + 10 * (capturing 63).trace.interval * ((capturing 63).trace.stored + 1) ≤ (capturing 63).timebase ∧
    ({ capturing 63 with timebase := 999999 } : State).timebase <
      999360 + 10 * (capturing 63).trace.interval * ((capturing 63).trace.stored + 1) := by decide
theorem witness_TraceArmsStoresAndReads_read :
    Carried still 0x39 [] ∧ still.trace.state ≠ .done ∧ Carried (traced 48) 0x39 [] ∧ (traced 48).trace.state = .done ∧
    (traced 48).trace.buffer.length = 64 ∧ (traced 48).trace.readPtr ≤ 64 ∧ (traced 64).trace.readPtr ≤ 64 := by
  decide +kernel

/-! #### Cylinders, reads, events -/

/-- The pulse's cylinder is cut. -/
def cut : State := { firing with sup := firing.sup.set 2 { CylSup.reset with cut := true } }
theorem witness_CutMovesTheFlag :
    (∀ op ∈ ([0, 1, 2, 3] : List Byte), Carried firing 0x30 [3, op] ∧ Carried cut 0x30 [3, op] ∧
      ([3, op] : List Byte) = [byte ((2 : Cyl).val + 1), op]) ∧
    (firing.supOf 2).cut = false ∧ (cut.supOf 2).cut = true ∧ ((firing.schedOf .bankA).queue.map Shot.tag).Nodup ∧
    firing.bankOf 2 = .bankA ∧ (firing.schedOf .bankA).active = some pulse ∧ pulse.cyl = 2 ∧
    (firing.firing = .draining → drained firing = false) ∧
    (∀ n ∈ (firing.schedOf .bankA).lastEnd, n ≤ firing.timebase) := by decide +kernel
theorem witness_CutMovesTheFlag_refused :
    Carried firing 0x30 [0, 1] ∧ Carried firing 0x30 [9, 1] ∧ Carried firing 0x30 [8, 4] ∧ 8 < (9 : Byte).toNat ∧
    3 < (4 : Byte).toNat := by decide +kernel

theorem witness_ClearFaultAndService_clear :
    Carried still 0x31 [8] ∧ (8 : Byte) = byte ((7 : Cyl).val + 1) ∧ Carried still 0x31 [0] ∧ Carried still 0x31 [9] := by
  decide +kernel
theorem witness_ClearFaultAndService_busy :
    Carried serving 0x32 [3, 100, 0, 1, 0xE8, 3] ∧ serving.service.isSome = true := by decide +kernel
theorem witness_ClearFaultAndService_state :
    Carried turning 0x32 [3, 100, 0, 1, 0xE8, 3] ∧ turning.service = none ∧ turning.clock.sync ≠ .stalled := by
  decide +kernel
theorem witness_ClearFaultAndService_param :
    Carried still 0x32 [3, 99, 0, 1, 0xE8, 3] ∧ still.service = none ∧ still.clock.sync = .stalled ∧
    still.firing = .safe ∧ ¬100 ≤ fieldAt [3, 99, 0, 1, 0xE8, 3] 1 2 := by decide +kernel
theorem witness_ClearFaultAndService_chain :
    Carried still 0x32 [3, 0x10, 0x27, 16, 0x60, 0xEA] ∧ fieldAt [3, 0x10, 0x27, 16, 0x60, 0xEA] 1 2 = 10000 ∧
    fieldAt [3, 0x10, 0x27, 16, 0x60, 0xEA] 3 1 = 16 ∧ fieldAt [3, 0x10, 0x27, 16, 0x60, 0xEA] 4 2 = 60000 ∧
    fieldAt [3, 0x10, 0x27, 16, 0x60, 0xEA] 0 1 = (2 : Cyl).val + 1 ∧ (still.cylOf 2).enabled = true ∧
    (still.supOf 2).cut = false ∧ (still.supOf 2).locked = false := by decide +kernel
theorem witness_ClearFaultAndService_disabled :
    Carried still 0x32 [1, 0x10, 0x27, 16, 0x60, 0xEA] ∧
    fieldAt [1, 0x10, 0x27, 16, 0x60, 0xEA] 0 1 = (0 : Cyl).val + 1 ∧ (still.cylOf 0).enabled = false := by
  decide +kernel

theorem witness_StatusReads :
    Carried firing 0x40 [] ∧ Carried firing 0x41 [] ∧ Carried firing 0x42 [] ∧ Carried firing 0x46 [] := by
  decide +kernel
theorem witness_StatusReads_angle :
    still.clock.sync = .stalled ∧ seeking.clock.sync = .seeking ∧ cranking.clock.sync = .crankSync ∧
    cranking.clock.lastTooth = some 994440 ∧ 0 < cranking.clock.tpred ∧ turning.clock.sync = .fullSync ∧
    turning.clock.lastTooth = some 994440 ∧ 0 < turning.clock.tpred := by decide

/-- A cylinder with a published report and an open plan. -/
def reported : State :=
  { firing with
    demand := firing.demand.set 7
      { staged := some { pattern := 15, mainUs := 10000, advance := -120 }
        active := some { demand := { pattern := 0, mainUs := 1, advance := 120 }, stale := true }
        staleCount := 1, starved := false }
    sup := firing.sup.set 7 { CylSup.reset with
      report := some { kind := .angle, freezes := 1, demand := none, overspeed := false, summary := .firedClean
                       serviceCount := 0
                       entries := [{ entry := 1, rep := 0, cls := .main, outcome := .fired, fault := none, flags := {}
                                     startAngle := 3767, onTime := 1200 }] }
      plan := some { kind := .angle, freezes := 2, demand := none, overspeed := false, serviceCount := 0
                     emptySummary := .none, making := false
                     places := [{ tag := 9, entry := 0, rep := 0, cls := .main, flags := {}, outcome := none }] } } }
theorem witness_RecordReads_cyl :
    Carried reported 0x43 [8] ∧ (8 : Byte) = byte ((7 : Cyl).val + 1) ∧ (reported.demandOf 7).staged.isSome = true ∧
    (reported.demandOf 7).active.isSome = true ∧ (reported.supOf 7).report.isSome = true ∧
    (reported.supOf 7).plan.isSome = true ∧ (reported.supOf 0).report = none ∧
    Carried reported 0x43 [0] ∧ Carried reported 0x43 [9] := by decide +kernel
theorem witness_RecordReads_report :
    Carried reported 0x44 [8] ∧ ((reported.supOf 7).report.map fun r => r.entries.length) = some 1 ∧
    Carried reported 0x44 [1] ∧ (reported.supOf 0).report = none ∧ Carried reported 0x44 [0] ∧
    Carried reported 0x44 [9] := by decide +kernel
/-- A complete plan with places of these outcomes. -/
def donePlan (kind : ReportKind) (outcomes : List ShotOutcome) : Plan :=
  { kind := kind, freezes := 1, demand := none, overspeed := false, serviceCount := 0, emptySummary := .cut, making := false
    places := outcomes.map fun o =>
      { tag := 9, entry := 0, rep := 0, cls := .main, flags := {}
        outcome := some { outcome := o, fault := none, startAngle := 0, onTime := 0, flags := {} } } }
theorem witness_RecordReads_plan :
    (donePlan .angle []).complete = true ∧ (donePlan .angle []).report.entries = [] ∧
    (donePlan .angle [.fired, .shedBoost]).complete = true ∧ (donePlan .angle [.fired, .shedBoost]).report.entries ≠ [] ∧
    (donePlan .service (List.replicate 9 .fired)).complete = true ∧
    (donePlan .service (List.replicate 9 .fired)).places.length - 8 = 1 := by decide
/-- Of FIRED and SHED_BOOST the summary is SHED_BOOST. -/
theorem test_summary_86 : (donePlan .angle [.fired, .shedBoost, .shedWindow]).report.summary = .shedBoost := by decide
theorem witness_RecordReads_queue :
    Carried reported 0x45 [0, 0] ∧ Carried reported 0x45 [1, 15] ∧ (15 : Byte).toNat ≤ 15 ∧ Carried reported 0x45 [2, 0] ∧
    1 < (2 : Byte).toNat ∧ Carried reported 0x45 [0, 16] ∧ 15 < (16 : Byte).toNat ∧
    (reported.schedOf .bankA).active = some pulse ∧
    ((reported.schedOf .bankA).queue.map Shot.anchor) = [.chain (some 41) 3000] ∧
    ((due.schedOf .bankA).queue.map Shot.anchor) = [.angle 3768] := by decide +kernel

theorem witness_EventsLatchUntilRead_read : Carried firing 0x47 [] := by decide +kernel
theorem witness_EventsLatchUntilRead_mask :
    Carried ready 0x48 [0xFF, 0x1F] ∧ fieldAt [0xFF, 0x1F] 0 2 = 8191 ∧ Carried ready 0x48 [0x00, 0x20] ∧
    fieldAt [0x00, 0x20] 0 2 = 8192 := by decide +kernel
theorem witness_EventsLatchUntilRead_kept :
    ∃ t, exec (.disarm (frame 0x22 [])) ({ due.raise .noise with pending := [] }) = .next t ∧
      (due.raise .noise).events.latched.getLsbD Event.noise.bit = true := ⟨_, rfl, by decide⟩

end Sys2Proof.Tests
end

section
/-! SUPPORT. What a tooth does to the demands and to the freeze counts. Two relations say what the bank work around the freezes
leaves alone; one lemma says what a single freeze does to each cylinder; the freezes of a tooth are a fold of these over a
list that holds each frozen cylinder once. -/

namespace Sys2Proof.Proofs.Freeze

open Sys2Proof Sys2Proof.Machine Sys2Proof.Laws Sys2Proof.Laws.Fine

/-! ### Relations that hold across everything a tooth does but its freezes -/

/-- The scheduler has placed no shot and given out no tag. -/
def SameCounts (x y : Sched) : Prop := y.placed = x.placed ∧ y.nextTag = x.nextTag

/-- A relation closed under every update a tooth makes besides its freezes: the counters of placed shots, the demands and
what the Supervisor holds beside plans, reports and codes do not move under these updates. -/
structure QuietRel (R : State → State → Prop) : Prop where
  refl    : ∀ s, R s s
  trans   : ∀ {s t u}, R s t → R t u → R s u
  clock   : ∀ s x, R s (s.setClock x)
  sched   : ∀ s k x, SameCounts (s.schedOf k) x → R s (s.setSched k x)
  drive   : ∀ s k x, R s (s.setDrive k x)
  level   : ∀ s k x, R s (s.setLevel k x)
  sup     : ∀ s c x, SameMode (s.supOf c) x → R s (s.setSup c x)
  event   : ∀ s e, R s (s.raise e)
  drain   : ∀ s, R s (drainTest s)
  swap    : ∀ s, R s s.takePendingSwap
  trace   : ∀ s x, R s (s.setTrace x)
  service : ∀ s : State, R s { s with service := none }

theorem told_sameMode (x : CylSup) (os : List (Byte × PlaceOutcome)) : SameMode x (x.told os) := by
  unfold CylSup.told
  split
  · exact ⟨rfl, rfl, rfl⟩
  · split
    · exact ⟨rfl, rfl, rfl⟩
    · split <;> exact ⟨rfl, rfl, rfl⟩

theorem countRemoval_sameCounts (x : Sched) (o : ShotOutcome) (q : List Shot) :
    SameCounts x { x.countRemoval o with queue := q } := by
  unfold Sched.countRemoval
  split <;> exact ⟨rfl, rfl⟩

namespace QuietRel

variable {R : State → State → Prop}

theorem foldl {β : Type} (h : QuietRel R) (f : State → β → State) (hf : ∀ s b, R s (f s b)) (l : List β) (s : State) :
    R s (l.foldl f s) := by
  induction l generalizing s with
  | nil => exact h.refl s
  | cons b l ih => exact h.trans (hf s b) (ih _)

theorem ite (h : QuietRel R) {s t : State} (p : Prop) [Decidable p] (ht : R s t) : R s (if p then t else s) := by
  split
  · exact ht
  · exact h.refl s

theorem writeOutcome (h : QuietRel R) (s : State) (c : Cyl) (tag : Byte) (o : PlaceOutcome) :
    R s (writeOutcome s c tag o) := by
  rw [writeOutcome_told]
  have hs : R s (s.setSup c ((s.supOf c).told [(tag, o)])) := h.sup s c _ (told_sameMode _ _)
  split
  · exact h.trans hs (h.service _)
  · exact hs

theorem dropShot (h : QuietRel R) (k : Bank) (s : State) (x : Byte × ShotOutcome) : R s (dropShot k s x) := by
  unfold Machine.dropShot
  split
  · exact h.refl s
  · exact h.trans (h.sched s k _ (countRemoval_sameCounts _ _ _)) (h.trans (h.ite _ (h.event _ _))
      (h.trans (h.writeOutcome _ _ _ _) (h.drain _)))

theorem followEnd (h : QuietRel R) (s : State) (k : Bank) (tag : Byte) (o : ShotOutcome) : R s (followEnd s k tag o) := by
  unfold Machine.followEnd
  split
  · exact h.sched s k _ ⟨rfl, rfl⟩
  · exact h.ite _ (h.foldl _ (fun s x => h.dropShot k s x) _ s)

theorem countEnd (h : QuietRel R) (s : State) (c : Cyl) (o : ShotOutcome) : R s (countEnd s c o) := by
  unfold Machine.countEnd
  split
  · exact h.refl s
  · exact h.sup s c _ ⟨rfl, rfl, rfl⟩

theorem endPulse (h : QuietRel R) (k : Bank) (s : State) (o : ShotOutcome) (f : Option FaultKind) :
    R s (endPulse k s o f) := by
  unfold Machine.endPulse
  split
  · exact h.refl s
  · exact h.trans (h.level s k _) (h.trans (h.drive _ k _) (h.trans (h.sched _ k _ (by exact ⟨rfl, rfl⟩))
      (h.trans (h.writeOutcome _ _ _ _) (h.trans (h.countEnd _ _ _) (h.trans (h.followEnd _ _ _ _) (h.drain _))))))

theorem openPulse (h : QuietRel R) (k : Bank) (s : State) (x : Shot) (d : Bool) : R s (openPulse k s x d) :=
  h.trans (h.sched s k _ (by exact ⟨rfl, rfl⟩)) (h.trans (h.drive _ k _) (h.ite _ (h.trace _ _)))

/-- Such a relation holds across the operations of the banks, and across the Planner's where it is closed under the
placement of the shots of `ok`. -/
theorem opRel (h : QuietRel R) {K : Bank → Prop} {ok : Shot → Prop}
    (place : ∀ s k x y, ok y → R s (s.setSched k x)) : OpRel K ok R where
  refl := h.refl
  trans := h.trans
  sup := h.sup
  service := h.service
  event := h.event
  drop s k x _ := h.dropShot k s x
  pulseEnd s k o f _ := h.endPulse k s o f
  queue s k _ _ _ := h.sched s k _ ⟨rfl, rfl⟩
  tracks s k _ _ := h.sched s k _ ⟨rfl, rfl⟩
  close s k _ _ _ := h.sched s k _ ⟨rfl, rfl⟩
  boosted s k x _ _ _ _ := h.trans (h.level s k _) (h.openPulse k _ x false)
  degraded s k x _ _ _ := h.openPulse k s x true
  gap s k _ _ := h.trans (h.sched s k _ (by exact ⟨rfl, rfl⟩)) (h.drive _ k _)
  regap s k _ _ := h.trans (h.sched s k _ (by exact ⟨rfl, rfl⟩)) (h.drive _ k _)
  enqueue s k _ x _ hx _ := place s k _ x hx
  turned s k x _ hx := place s k _ x hx

/-- No shot is placed. -/
theorem opRelNone (h : QuietRel R) : OpRel (fun _ => True) (fun _ => False) R :=
  h.opRel fun _ _ _ _ => False.elim

/-- A relation closed under every update of the banks, and under the clock's, is one of these. -/
theorem ofBankRel (h : BankRel R) (hc : ∀ s x, R s (s.setClock x)) : QuietRel R where
  refl := h.refl
  trans := h.trans
  clock := hc
  sched s k x _ := h.sched s k x
  drive := h.drive
  level := h.level
  sup s c x _ := h.sup s c x
  event := h.event
  drain := drainTest_rel h
  swap := h.swap
  trace := h.trace
  service := h.service

/-! ### The clock's part of a tooth -/

theorem departFullSync (h : QuietRel R) (s : State) : R s (departFullSync s) :=
  h.trans (h.event s _) (h.trans (Fine.cancelBank_rel h.opRelNone .bankA trivial _ _)
    (h.trans (Fine.cancelBank_rel h.opRelNone .bankB trivial _ _) (h.swap _)))

theorem signalVerdict (h : QuietRel R) (v : CamVerdict) (s : State) : R s (signalVerdict v s) := by
  cases v
  · exact h.refl s
  · exact h.event s _
  · exact h.trans (h.event s _) (h.departFullSync _)

theorem setSpeed (h : QuietRel R) (s : State) : R s (setSpeed s) :=
  h.trans (h.clock s _) (h.trans (h.clock _ _) (h.ite _ (h.event _ _)))

theorem clockTooth (h : QuietRel R) (s : State) (syn : Bool) (t t1 : Nat) : R s (clockTooth s syn t t1) :=
  h.trans (h.clock s _) (h.trans (h.signalVerdict _ _) (h.setSpeed _))

end QuietRel

/-! ### What stays -/

/-- The records a freeze reads stay, and no latched event is lost. -/
structure Steady (s t : State) : Prop where
  wheel  : t.tables.wheel = s.tables.wheel
  cyl    : t.tables.cyl = s.tables.cyl
  limits : t.tables.limits = s.tables.limits
  events : ∀ b, s.events.latched.getLsbD b = true → t.events.latched.getLsbD b = true

/-- No cylinder has been frozen: no demand and no freeze count has moved, and ARMED is as it was. -/
structure Unfrozen (s t : State) : Prop where
  demand  : t.demand = s.demand
  freezes : ∀ c, (t.supOf c).freezes = (s.supOf c).freezes
  armed   : t.firing = .armed ↔ s.firing = .armed

/-- No bank has placed a shot. -/
def Unplaced (s t : State) : Prop := ∀ k, SameCounts (s.schedOf k) (t.schedOf k)

theorem takePendingSwap_steady (s : State) : Steady s s.takePendingSwap := by
  unfold State.takePendingSwap
  split <;> exact ⟨rfl, rfl, rfl, fun _ h => h⟩

theorem steady_bank : BankRel Steady where
  refl _ := ⟨rfl, rfl, rfl, fun _ h => h⟩
  trans h1 h2 := ⟨h2.wheel.trans h1.wheel, h2.cyl.trans h1.cyl, h2.limits.trans h1.limits,
    fun b h => h2.events b (h1.events b h)⟩
  sched _ _ _ := ⟨rfl, rfl, rfl, fun _ h => h⟩
  drive _ _ _ := ⟨rfl, rfl, rfl, fun _ h => h⟩
  level _ _ _ := ⟨rfl, rfl, rfl, fun _ h => h⟩
  sup _ _ _ := ⟨rfl, rfl, rfl, fun _ h => h⟩
  event _ _ := ⟨rfl, rfl, rfl, fun _ h => by simp [State.raise, h]⟩
  safe s := by
    obtain ⟨hw, hc, hl, he⟩ := takePendingSwap_steady (s.setFiring .safe)
    exact ⟨hw, hc, hl, he⟩
  swap := takePendingSwap_steady
  trace _ _ := ⟨rfl, rfl, rfl, fun _ h => h⟩
  service _ := ⟨rfl, rfl, rfl, fun _ h => h⟩

theorem steady_quiet : QuietRel Steady := .ofBankRel steady_bank fun _ _ => ⟨rfl, rfl, rfl, fun _ h => h⟩

/-- No operation of the banks or the Planner moves the Angle Clock. -/
theorem clock_bank : BankRel fun s t => t.clock = s.clock where
  refl _ := rfl
  trans h1 h2 := h2.trans h1
  sched _ _ _ := rfl
  drive _ _ _ := rfl
  level _ _ _ := rfl
  sup _ _ _ := rfl
  event _ _ := rfl
  safe := goSafe_clock
  swap := takePendingSwap_clock
  trace _ _ := rfl
  service _ := rfl

theorem supOf_setSup (s : State) (c d : Cyl) (x : CylSup) :
    (s.setSup c x).supOf d = if d = c then x else s.supOf d := cyls_get_set _ _ _ _

theorem schedOf_setSched (s : State) (k j : Bank) (x : Sched) :
    (s.setSched k x).schedOf j = if j = k then x else s.schedOf j := banks_get_set _ _ _ _

theorem demandOf_setDemand (s : State) (c d : Cyl) (x : CylDemand) :
    (s.setDemand c x).demandOf d = if d = c then x else s.demandOf d := cyls_get_set _ _ _ _

theorem Unfrozen.of_fields {s t : State} (hd : t.demand = s.demand) (hs : t.sup = s.sup)
    (hf : t.firing = .armed ↔ s.firing = .armed) : Unfrozen s t :=
  ⟨hd, fun c => by simp only [State.supOf, hs], hf⟩

theorem takePendingSwap_unfrozen (s : State) : Unfrozen s s.takePendingSwap := by
  unfold State.takePendingSwap
  split <;> exact .of_fields rfl rfl .rfl

theorem drainTest_unfrozen (s : State) : Unfrozen s (drainTest s) := by
  unfold drainTest
  split
  · rename_i hd
    obtain ⟨h1, h2, _⟩ := takePendingSwap_unfrozen (s.setFiring .safe)
    exact ⟨h1, h2, by simp [hd.1]⟩
  · exact .of_fields rfl rfl .rfl

theorem unfrozen_quiet : QuietRel Unfrozen where
  refl _ := .of_fields rfl rfl .rfl
  trans h1 h2 := ⟨h2.demand.trans h1.demand, fun c => (h2.freezes c).trans (h1.freezes c), h2.armed.trans h1.armed⟩
  clock _ _ := .of_fields rfl rfl .rfl
  sched _ _ _ _ := .of_fields rfl rfl .rfl
  drive _ _ _ := .of_fields rfl rfl .rfl
  level _ _ _ := .of_fields rfl rfl .rfl
  sup s c x hx := ⟨rfl, fun d => by
    rw [supOf_setSup]
    split
    · subst d; exact hx.2.2
    · rfl, .rfl⟩
  event _ _ := .of_fields rfl rfl .rfl
  drain := drainTest_unfrozen
  swap := takePendingSwap_unfrozen
  trace _ _ := .of_fields rfl rfl .rfl
  service _ := .of_fields rfl rfl .rfl

/-- Placing shots freezes no cylinder either. -/
theorem unfrozen_op : OpRel (fun _ => True) (fun _ => True) Unfrozen :=
  unfrozen_quiet.opRel fun _ _ _ _ _ => .of_fields rfl rfl .rfl

theorem Unplaced.of_sched {s t : State} (h : t.sched = s.sched) : Unplaced s t := fun k => by
  simp only [SameCounts, State.schedOf, h, and_self]

theorem unplaced_quiet : QuietRel Unplaced where
  refl _ := .of_sched rfl
  trans h1 h2 k := ⟨(h2 k).1.trans (h1 k).1, (h2 k).2.trans (h1 k).2⟩
  clock _ _ := .of_sched rfl
  sched s k x hx j := by
    rw [schedOf_setSched]
    split
    · subst j; exact hx
    · exact ⟨rfl, rfl⟩
  drive _ _ _ := .of_sched rfl
  level _ _ _ := .of_sched rfl
  sup _ _ _ _ := .of_sched rfl
  event _ _ := .of_sched rfl
  drain s := .of_sched (drainTest_sched s)
  swap s := .of_sched (takePendingSwap_sched s)
  trace _ _ := .of_sched rfl
  service _ := .of_sched rfl

/-! ### One freeze -/

/-- R59 to R61: the cylinder has been frozen once. -/
structure Frozen (s t : State) (c : Cyl) : Prop where
  freezes : (t.supOf c).freezes = (s.supOf c).freezes + 1
  demand  : t.demandOf c = (s.demandOf c).resolved s.tables.limits.staleHold
  starved : (t.demandOf c).starved = true → (s.demandOf c).starved = false →
    t.events.latched.getLsbD Event.stale.bit = true

/-- The demand and the freeze count of a cylinder have not moved. -/
structure Spared (s t : State) (c : Cyl) : Prop where
  freezes : (t.supOf c).freezes = (s.supOf c).freezes
  demand  : t.demandOf c = s.demandOf c

theorem Unfrozen.spared {s t : State} (h : Unfrozen s t) (c : Cyl) : Spared s t c :=
  ⟨h.freezes c, by simp only [State.demandOf, h.demand]⟩

theorem Spared.trans {s t u : State} {c : Cyl} (h1 : Spared s t c) (h2 : Spared t u c) : Spared s u c :=
  ⟨h2.freezes.trans h1.freezes, h2.demand.trans h1.demand⟩

theorem Frozen.then_spared {s t u : State} {c : Cyl} (h : Frozen s t c) (hs : Steady t u) (hu : Spared t u c) :
    Frozen s u c where
  freezes := hu.freezes.trans h.freezes
  demand := hu.demand.trans h.demand
  starved hn hw := hs.events _ (h.starved (hu.demand ▸ hn) hw)

theorem Frozen.after_spared {s t u : State} {c : Cyl} (hs : Steady s t) (h : Spared s t c) (hu : Frozen t u c) :
    Frozen s u c where
  freezes := by rw [hu.freezes, h.freezes]
  demand := by rw [hu.demand, h.demand, hs.limits]
  starved hn hw := hu.starved hn (by rw [h.demand]; exact hw)

theorem freeze_steady (r : ToothReport) (s : State) (c : Cyl) : Steady s (freeze r s c) :=
  Laws.freeze_rel steady_bank (fun _ _ _ => ⟨rfl, rfl, rfl, fun _ h => h⟩) r s c

theorem signalStarved_unfrozen (s : State) (c : Cyl) (was now : Bool) : Unfrozen s (signalStarved s c was now) :=
  Fine.signalStarved_rel unfrozen_op s c was now

/-- R60: a cylinder that starves and was not starved raises STALE. -/
theorem signalStarved_stale (s : State) (c : Cyl) :
    (signalStarved s c false true).events.latched.getLsbD Event.stale.bit = true := by
  simp [signalStarved, State.raise, Event.mask, Event.bit]

theorem openPlan_freezes (s : State) (c d : Cyl) (a : Option ActiveDemand) :
    ((openPlan s c a).supOf d).freezes = if d = c then (s.supOf c).freezes + 1 else (s.supOf d).freezes := by
  unfold openPlan
  rw [supOf_setSup]
  split <;> rfl

theorem planShots_unfrozen (s : State) (c : Cyl) (a : Option ActiveDemand) (r : ToothReport) :
    Unfrozen s (planShots s c a r) :=
  Fine.planShots_rel unfrozen_op (fun _ => trivial) s c a r fun _ _ _ _ _ _ _ _ _ _ _ _ => trivial

/-- The freeze up to the Planner's work: the demand resolved, starving signalled, and the plan opened. -/
def freezeBegun (s : State) (c : Cyl) : State :=
  let new := (s.demandOf c).resolved s.tables.limits.staleHold
  openPlan (signalStarved (s.setDemand c new) c (s.demandOf c).starved new.starved) c new.active

theorem freeze_eq (r : ToothReport) (s : State) (c : Cyl) :
    freeze r s c = planShots (freezeBegun s c) c ((s.demandOf c).resolved s.tables.limits.staleHold).active r := rfl

theorem freezeBegun_demandOf (s : State) (c d : Cyl) :
    (freezeBegun s c).demandOf d =
      if d = c then (s.demandOf c).resolved s.tables.limits.staleHold else s.demandOf d :=
  ((signalStarved_unfrozen _ _ _ _).spared d).demand.trans (demandOf_setDemand _ _ _ _)

theorem freezeBegun_freezes (s : State) (c d : Cyl) :
    ((freezeBegun s c).supOf d).freezes = if d = c then (s.supOf c).freezes + 1 else (s.supOf d).freezes := by
  unfold freezeBegun
  rw [openPlan_freezes, (signalStarved_unfrozen _ _ _ _).freezes, (signalStarved_unfrozen _ _ _ _).freezes]
  rfl

theorem freezeBegun_frozen (s : State) (c : Cyl) : Frozen s (freezeBegun s c) c where
  freezes := by simp [freezeBegun_freezes]
  demand := by simp [freezeBegun_demandOf]
  starved hn hw := by
    rw [freezeBegun_demandOf, if_pos rfl] at hn
    unfold freezeBegun
    dsimp only
    rw [hn, hw]
    exact signalStarved_stale _ c

theorem freezeBegun_spared (s : State) {c d : Cyl} (h : d ≠ c) : Spared s (freezeBegun s c) d where
  freezes := by simp [freezeBegun_freezes, h]
  demand := by simp [freezeBegun_demandOf, h]

theorem freeze_frozen (r : ToothReport) (s : State) (c : Cyl) : Frozen s (freeze r s c) c :=
  (freezeBegun_frozen s c).then_spared (Laws.planShots_rel steady_bank _ c _ r)
    ((planShots_unfrozen _ c _ r).spared c)

theorem freeze_spared (r : ToothReport) (s : State) {c d : Cyl} (h : d ≠ c) : Spared s (freeze r s c) d :=
  (freezeBegun_spared s h).trans ((planShots_unfrozen _ c _ r).spared d)

/-! ### The freezes of a tooth -/

/-- Freezing a list of different cylinders freezes each of them once and spares the others. -/
theorem foldl_freeze (r : ToothReport) (cs : List Cyl) (hn : cs.Nodup) (s : State) (d : Cyl) :
    (d ∈ cs → Frozen s (cs.foldl (freeze r) s) d) ∧ (d ∉ cs → Spared s (cs.foldl (freeze r) s) d) := by
  induction cs generalizing s with
  | nil => exact ⟨fun h => absurd h (by simp), fun _ => ⟨rfl, rfl⟩⟩
  | cons c cs ih =>
    obtain ⟨hc, hn⟩ := List.nodup_cons.1 hn
    obtain ⟨hin, hout⟩ := ih hn (freeze r s c)
    have hs : Steady (freeze r s c) (cs.foldl (freeze r) (freeze r s c)) :=
      Laws.foldl_rel steady_bank _ (fun s c => freeze_steady r s c) cs _
    constructor
    · intro hd
      by_cases hdc : d = c
      · subst d
        exact (freeze_frozen r s c).then_spared hs (hout hc)
      · exact .after_spared (freeze_steady r s c) (freeze_spared r s hdc) (hin (List.mem_of_ne_of_mem hdc hd))
    · intro hd
      obtain ⟨hdc, hd⟩ := not_or.1 (List.mem_cons.not.1 hd)
      exact (freeze_spared r s hdc).trans (hout hd)

theorem insertFreeze_perm (s : State) (r : ToothReport) (c : Cyl) (l : List Cyl) :
    (insertFreeze s r c l).Perm (c :: l) := by
  induction l with
  | nil => exact .refl _
  | cons d l ih =>
    unfold insertFreeze
    split
    · exact .refl _
    · exact (ih.cons d).trans (.swap c d l)

theorem foldl_insertFreeze_perm (s : State) (r : ToothReport) (cs l : List Cyl) :
    (cs.foldl (fun l c => insertFreeze s r c l) l).Perm (cs ++ l) := by
  induction cs generalizing l with
  | nil => exact .refl _
  | cons c cs ih =>
    calc cs.foldl (fun l c => insertFreeze s r c l) (insertFreeze s r c l)
      _ |>.Perm (cs ++ insertFreeze s r c l) := ih _
      _ |>.Perm (cs ++ c :: l) := (insertFreeze_perm s r c l).append_left cs
      _ |>.Perm (c :: cs ++ l) := List.perm_middle

/-- R58: the freeze order holds the cylinders whose freeze tooth this is, in some order. -/
theorem freezeOrder_perm (s : State) (r : ToothReport) : (freezeOrder s r).Perm (allCyls.filter (freezesAt s r)) := by
  simpa [freezeOrder] using foldl_insertFreeze_perm s r (allCyls.filter (freezesAt s r)) []

theorem freezeOrder_nodup (s : State) (r : ToothReport) : (freezeOrder s r).Nodup :=
  (freezeOrder_perm s r).nodup_iff.2 (List.Nodup.filter _ (by decide))

theorem mem_allCyls (c : Cyl) : c ∈ allCyls := by
  revert c
  decide

theorem mem_freezeOrder (s : State) (r : ToothReport) (c : Cyl) : c ∈ freezeOrder s r ↔ freezesAt s r c = true := by
  rw [(freezeOrder_perm s r).mem_iff, List.mem_filter, and_iff_right (mem_allCyls c)]

/-- R57, R58: the freezes of a tooth while ARMED. -/
theorem freezes_armed (r : ToothReport) {s : State} (h : s.firing = .armed) (c : Cyl) :
    (freezesAt s r c = true → Frozen s (freezes r s) c) ∧ (¬freezesAt s r c = true → Spared s (freezes r s) c) := by
  rw [← mem_freezeOrder]
  unfold freezes
  rw [if_pos h]
  exact foldl_freeze r _ (freezeOrder_nodup s r) s c

theorem freezes_not_armed (r : ToothReport) {s : State} (h : s.firing ≠ .armed) : freezes r s = s := if_neg h

theorem freezes_steady (r : ToothReport) (s : State) : Steady s (freezes r s) :=
  Laws.freezes_rel steady_bank (fun _ _ _ => ⟨rfl, rfl, rfl, fun _ h => h⟩) r s

/-! ### The hand-on -/

/-- R39: the swap a tooth takes at the marker. -/
def swapAtMarker (r : ToothReport) (s : State) : State := if r.marker then s.takePendingSwap else s

theorem QuietRel.swapAtMarker {R : State → State → Prop} (h : QuietRel R) (r : ToothReport) (s : State) :
    R s (swapAtMarker r s) := h.ite _ (h.swap s)

/-- R18: what a tooth of a sync state does in FULL_SYNC. -/
theorem handOn_fullSync (tie : TieOrder) (kind : ToothKind) {s : State} (h : s.clock.sync = .fullSync) :
    handOn tie kind false s =
      let r := toothReport s.tables.wheel s.clock kind false
      settleNew tie r (freezes r (settleOld tie (swapAtMarker r s))) := if_pos h

theorem handOn_not_fullSync (tie : TieOrder) (kind : ToothKind) {s : State} (h : s.clock.sync ≠ .fullSync) :
    handOn tie kind false s = swapAtMarker (toothReport s.tables.wheel s.clock kind false) s := if_neg h

theorem handOn_clock (tie : TieOrder) (kind : ToothKind) (left : Bool) (s : State) :
    (handOn tie kind left s).clock = s.clock :=
  Laws.handOn_rel clock_bank (fun _ _ _ => rfl) tie kind left s

/-- What comes before the freezes of a tooth. -/
theorem QuietRel.beforeFreezes {R : State → State → Prop} (h : QuietRel R) (tie : TieOrder) (r : ToothReport) (s : State) :
    R s (settleOld tie (Freeze.swapAtMarker r s)) :=
  h.trans (h.swapAtMarker r s) (Fine.settleOld_rel h.opRelNone (fun _ => trivial) tie _)

/-- What comes after them. -/
theorem QuietRel.afterFreezes {R : State → State → Prop} (h : QuietRel R) (tie : TieOrder) (r : ToothReport) (s : State) :
    R s (settleNew tie r s) := Fine.settleNew_rel h.opRelNone (fun _ => trivial) tie r s

/-- R57: out of ARMED, and out of FULL_SYNC, the hand-on holds no freeze. -/
theorem QuietRel.handOn {R : State → State → Prop} (h : QuietRel R) (tie : TieOrder) (kind : ToothKind) (s : State)
    (hs : s.firing ≠ .armed ∨ s.clock.sync ≠ .fullSync) : R s (handOn tie kind false s) := by
  by_cases hf : s.clock.sync = .fullSync
  · rw [handOn_fullSync tie kind hf]
    dsimp only
    have ha : s.firing ≠ .armed := hs.resolve_right (not_not.2 hf)
    rw [freezes_not_armed _ (mt (unfrozen_quiet.beforeFreezes tie _ s).armed.1 ha)]
    exact h.trans (h.beforeFreezes tie _ s) (h.afterFreezes tie _ _)
  · rw [handOn_not_fullSync tie kind hf]
    exact h.swapAtMarker _ s

/-- R56: the tooth that hands `k` on in FULL_SYNC, on the wheel `w`, is the freeze tooth of a cylinder of this record. -/
def freezeHere (w : WheelRecord) (k : AngleClock) (x : CylRecord) : Prop :=
  x.enabled = true ∧ fwd (toothAngle w k) x.freezeAngle < w.spanAt k.index

theorem freezesAt_iff {s : State} {w : WheelRecord} {k : AngleClock} (hk : k.sync = .fullSync) (kind : ToothKind)
    (left : Bool) (c : Cyl) :
    freezesAt s (toothReport w k kind left) c = true ↔ freezeHere w k (s.cylOf c) := by
  simp [freezesAt, freezeHere, toothReport, ToothReport.base, reportedAngle, reportedSpan, hk]

/-- R56 to R58: the hand-on in FULL_SYNC while ARMED freezes the cylinders whose freeze tooth it is and spares the others. -/
theorem handOn_freezes (tie : TieOrder) (kind : ToothKind) {s : State} (ha : s.firing = .armed)
    (hf : s.clock.sync = .fullSync) (c : Cyl) :
    (freezeHere s.tables.wheel s.clock (s.cylOf c) → Frozen s (handOn tie kind false s) c) ∧
    (¬freezeHere s.tables.wheel s.clock (s.cylOf c) → Spared s (handOn tie kind false s) c) := by
  rw [handOn_fullSync tie kind hf]
  dsimp only
  generalize hr : toothReport s.tables.wheel s.clock kind false = r
  have hu := unfrozen_quiet.beforeFreezes tie r s
  have hs := steady_quiet.beforeFreezes tie r s
  generalize settleOld tie (swapAtMarker r s) = v at hu hs ⊢
  have hlast : Steady (freezes r v) (settleNew tie r (freezes r v)) := steady_quiet.afterFreezes tie r _
  have hspared := (unfrozen_quiet.afterFreezes tie r (freezes r v)).spared c
  have hiff : freezesAt v r c = true ↔ freezeHere s.tables.wheel s.clock (s.cylOf c) := by
    rw [← hr, freezesAt_iff hf]
    simp only [State.cylOf, hs.cyl]
  obtain ⟨hin, hout⟩ := freezes_armed r (hu.armed.2 ha) c
  rw [hiff] at hin hout
  exact ⟨fun h => ((hin h).then_spared hlast hspared).after_spared hs (hu.spared c),
    fun h => ((hu.spared c).trans (hout h)).trans hspared⟩

/-! ### The tooth's command -/

/-- R3, R14: the clock a tooth meets: an edge has been noted and has closed the absorb window. -/
def metClock (synthetic : Bool) (s : State) : AngleClock :=
  if synthetic then s.clock else { s.clock with lastCrank := some s.timebase, absorb := false }

/-- The kind a tooth is reported with (R18). -/
def toothKind (synthetic : Bool) : ToothKind := if synthetic then .synthetic else .real

/-- R9, R13: the state a tooth hands on. -/
def toothTaken (synthetic : Bool) (s : State) : State :=
  clockTooth (s.setClock (metClock synthetic s)) synthetic (toothTime synthetic s) (toothInterval synthetic s)

theorem QuietRel.toothTaken {R : State → State → Prop} (h : QuietRel R) (synthetic : Bool) (s : State) :
    R s (toothTaken synthetic s) := h.trans (h.clock s _) (h.clockTooth _ _ _ _)

theorem pitches_eq (w : WheelRecord) (i : Nat) : w.pitches i = if i = w.n - w.m - 1 then w.m + 1 else 1 := by
  simp [WheelRecord.pitches, WheelRecord.gapAfter, WheelRecord.lastIndex]

theorem expireDeadline_tooth (tie : TieOrder) {s : State} (h : s.clock.synth < 2) :
    expireDeadline tie s = handOn tie .synthetic false (toothTaken true s) := by
  unfold expireDeadline
  rw [if_pos h]
  simp only [toothTaken, metClock, toothTime, toothInterval, AngleClock.syntheticTime, pitches_eq, if_true]
  rfl

theorem judge_tooth {w : WheelRecord} {k : AngleClock} {dt : Nat} (h1 : k.tpred ≤ 2 * dt)
    (h2 : k.index = w.n - w.m - 1 → (2 * w.m + 1) * k.tpred ≤ 2 * dt) : k.judge w dt = .tooth := by
  unfold AngleClock.judge
  rw [if_neg (by omega), if_neg]
  rintro ⟨hg, hlt⟩
  exact absurd (h2 (by simpa [WheelRecord.gapAfter, WheelRecord.lastIndex] using hg)) (by omega)

theorem judgedEdge_tooth (tie : TieOrder) {s : State} {n : Nat} (hn : s.clock.lastTooth = some n)
    (h1 : s.clock.tpred ≤ 2 * (s.timebase - n))
    (h2 : s.clock.index = s.tables.wheel.n - s.tables.wheel.m - 1 →
      (2 * s.tables.wheel.m + 1) * s.clock.tpred ≤ 2 * (s.timebase - n)) :
    judgedEdge tie s = handOn tie .real false (clockTooth s false s.timebase (toothInterval false s)) := by
  have ht : toothInterval false s = (s.timebase - n) / s.tables.wheel.pitches s.clock.index := by
    rw [pitches_eq]
    simp only [toothInterval, hn, Option.getD_some, Bool.false_eq_true, if_false]
    split
    · rfl
    · exact (Nat.div_one _).symm
  unfold judgedEdge
  simp only [hn, Option.getD_some, judge_tooth h1 h2, ht]

theorem syncEdge_tooth (tie : TieOrder) {s : State} {n : Nat} (hn : s.clock.lastTooth = some n)
    (ha : ¬(s.clock.absorb = true ∧ s.timebase - n < 3 * s.clock.tpred / 4))
    (h1 : s.clock.tpred ≤ 2 * (s.timebase - n))
    (h2 : s.clock.index = s.tables.wheel.n - s.tables.wheel.m - 1 →
      (2 * s.tables.wheel.m + 1) * s.clock.tpred ≤ 2 * (s.timebase - n)) :
    syncEdge tie s = handOn tie .real false
      (clockTooth (s.setClock { s.clock with absorb := false }) false s.timebase (toothInterval false s)) := by
  unfold syncEdge
  rw [if_neg (by simpa [AngleClock.absorbs, hn] using ha)]
  exact judgedEdge_tooth tie (s := s.setClock { s.clock with absorb := false }) hn h1 h2

theorem filtered_of_taken {s : State} (h : crankTaken s) : filtered s.clock.lastCrank s.timebase = false := by
  unfold filtered
  cases hl : s.clock.lastCrank with
  | none => rfl
  | some n =>
    have hlate := h.2 n hl
    exact decide_eq_false (show ¬s.timebase - n < 200 by omega)

theorem risingEdge_sync (tie : TieOrder) {s : State} (hf : filtered s.clock.lastCrank s.timebase = false)
    (hs : s.clock.sync = .crankSync ∨ s.clock.sync = .fullSync) :
    risingEdge tie s = syncEdge tie (s.setClock { s.clock with lastCrank := some s.timebase }) := by
  unfold risingEdge
  rw [hf]
  dsimp only
  rw [if_neg Bool.false_ne_true]
  split
  · rename_i h
    simp [show s.clock.sync = .stalled from h] at hs
  · rename_i h
    simp [show s.clock.sync = .seeking from h] at hs
  · rfl
  · rfl

theorem crankTransition_tooth (tie : TieOrder) {s : State} (h : realTooth s) :
    crankTransition .rising tie s = handOn tie .real false (toothTaken false s) := by
  obtain ⟨hc, hsync, n, hn, ha, h1, h2⟩ := h
  unfold crankTransition
  rw [hc.1, risingEdge_sync tie (filtered_of_taken hc) hsync]
  exact syncEdge_tooth tie (s := s.setClock { s.clock with lastCrank := some s.timebase }) hn ha h1 h2

/-- A tooth of a sync state: the clock takes it and it is handed on. -/
theorem exec_tooth (synthetic : Bool) (tie : TieOrder) {s : State} (h : toothReady synthetic s) :
    exec (toothCommand synthetic tie) s = .next (handOn tie (toothKind synthetic) false (toothTaken synthetic s)) := by
  cases synthetic with
  | false => exact congrArg _ (crankTransition_tooth tie h)
  | true =>
    obtain ⟨_, hn, d, hd, hle⟩ := h
    have hdue : dueDeadline s = true := by simpa [dueDeadline, State.reached, hd] using hle
    show Host.Outcome.next (whenDue (dueDeadline s) (expireDeadline tie) s) =
      .next (handOn tie .synthetic false (toothTaken true s))
    rw [hdue, ← expireDeadline_tooth tie hn]
    rfl

/-! ### What a freeze resolves the demand to -/

theorem resolved_staged {x : CylDemand} {d : Demand} (h : x.staged = some d) (hold : Nat) :
    x.resolved hold =
      { staged := none, active := some { demand := d, stale := false }, staleCount := 0, starved := false } := by
  simp only [CylDemand.resolved, h]

theorem resolved_held {x : CylDemand} {a : ActiveDemand} {hold : Nat} (hs : x.staged = none) (ha : x.active = some a)
    (hn : min 15 (x.staleCount + 1) ≤ hold) :
    x.resolved hold = { staged := none, active := some { a with stale := true }
                        staleCount := min 15 (x.staleCount + 1), starved := false } := by
  simp only [CylDemand.resolved, hs, ha, hn, if_true]

theorem resolved_dropped {x : CylDemand} {hold : Nat} (hs : x.staged = none)
    (h : x.active = none ∨ hold < min 15 (x.staleCount + 1)) :
    x.resolved hold =
      { staged := none, active := none, staleCount := min 15 (x.staleCount + 1), starved := true } := by
  unfold CylDemand.resolved
  rw [hs]
  cases ha : x.active with
  | none => rfl
  | some a =>
    have hn : ¬min 15 (x.staleCount + 1) ≤ hold := Nat.not_le.2 (h.resolve_left (by simp [ha]))
    simp only [hn, if_false]

/-- Settles O27: what a tooth does around its freezes moves no demand, no freeze count and no placement, and the freezes
themselves are those of `handOn_freezes`, each resolving its demand by `CylDemand.resolved`. -/
theorem freezeResolvesTheDemand : Obligations.FreezeResolvesTheDemand := by
  unfold Obligations.FreezeResolvesTheDemand
  intro synthetic tie s hready
  refine ⟨_, exec_tooth synthetic tie hready, ?_⟩
  rw [handOn_clock]
  have hu := unfrozen_quiet.toothTaken synthetic s
  have hp := unplaced_quiet.toothTaken synthetic s
  have hs := steady_quiet.toothTaken synthetic s
  generalize toothTaken synthetic s = u at hu hp hs ⊢
  constructor
  · intro hno
    have hno : u.firing ≠ .armed ∨ u.clock.sync ≠ .fullSync := hno.imp_left (mt hu.armed.1)
    have hu := unfrozen_quiet.trans hu (unfrozen_quiet.handOn tie (toothKind synthetic) u hno)
    have hp := unplaced_quiet.trans hp (unplaced_quiet.handOn tie (toothKind synthetic) u hno)
    exact ⟨fun c => ⟨(hu.spared c).demand, hu.freezes c⟩, hp⟩
  · intro ha hf c
    obtain ⟨hin, hout⟩ := handOn_freezes tie (toothKind synthetic) (hu.armed.2 ha) hf c
    simp only [State.cylOf, hs.wheel, hs.cyl] at hin hout
    refine ⟨fun hc => ?_, fun hc => ?_⟩
    · obtain ⟨hcount, hdemand, hstale⟩ := (hin hc).after_spared hs (hu.spared c)
      exact ⟨hcount, fun d hd => hdemand.trans (resolved_staged hd _),
        fun a hd hold hn => hdemand.trans (resolved_held hd hold hn),
        fun hd hold => hdemand.trans (resolved_dropped hd hold), hstale⟩
    · obtain ⟨hcount, hdemand⟩ := (hu.spared c).trans (hout hc)
      exact ⟨hdemand, hcount⟩

end Sys2Proof.Proofs.Freeze
end

section
/-! SUPPORT. The CRC of R168 as an injection. No step of it loses anything: a shift can be undone, because the bit it shifts
out comes back as the low bit of the result. So a difference in one byte survives the bytes after it. -/

namespace Sys2Proof.Proofs.Crc

open Sys2Proof Sys2Proof.Machine

/-! ### One shift -/

/-- 0x1D is odd, so the bit shifted out decides the low bit of the result. -/
theorem crcShift_lowBit (v : Byte) : (crcShift v).getLsbD 0 = v.msb := by
  unfold crcShift
  split <;> simp [*]

theorem crcShift_injective : Function.Injective crcShift := by
  intro v w h
  have hmsb : v.msb = w.msb := by rw [← crcShift_lowBit, h, crcShift_lowBit]
  have hshift : v <<< 1 = w <<< 1 := by
    unfold crcShift at h
    rw [hmsb] at h
    split at h
    · exact (BitVec.xor_left_inj _).1 h
    · exact h
  refine BitVec.eq_of_getElem_eq fun i hi => ?_
  obtain rfl | hlow : i = 7 ∨ i + 1 < 8 := by omega
  · simpa [BitVec.msb_eq_getLsbD_last] using hmsb
  · simpa [hlow] using congrArg (fun u => u.getLsbD (i + 1)) hshift

theorem crcShift_eq : crcShift = fun v => if v.getLsbD 7 then (v <<< 1) ^^^ 0x1D#8 else v <<< 1 := by
  funext v
  simp only [crcShift, BitVec.msb_eq_getLsbD_last]

/-! ### One byte -/

theorem crcByte_eq (v x : Byte) : crcByte v x = crcShift^[8] (v ^^^ x) := rfl

/-- Two running values do not meet over the same byte. -/
theorem crcByte_injective_value (x : Byte) : Function.Injective fun v => crcByte v x :=
  fun _ _ h => (BitVec.xor_left_inj x).1 (crcShift_injective.iterate 8 h)

/-- Two bytes do not take one running value to the same value. -/
theorem crcByte_injective_byte (v : Byte) : Function.Injective (crcByte v) :=
  fun _ _ h => (BitVec.xor_right_inj v).1 (crcShift_injective.iterate 8 h)

/-! ### A list of bytes -/

theorem foldl_crcByte_injective (bs : List Byte) : Function.Injective fun v => bs.foldl crcByte v := by
  induction bs with
  | nil => exact Function.injective_id
  | cons b bs ih => exact ih.comp (crcByte_injective_value b)

theorem crc8_append (a b : List Byte) : crc8 (a ++ b) = b.foldl crcByte (crc8 a) := List.foldl_append

theorem crc8_snoc (bs : List Byte) (b : Byte) : crc8 (bs ++ [b]) = crcShift^[8] (crc8 bs ^^^ b) := by
  rw [crc8_append]
  exact crcByte_eq _ _

theorem crc8_ne_of_byte_ne (a b : List Byte) {x y : Byte} (h : x ≠ y) : crc8 (a ++ x :: b) ≠ crc8 (a ++ y :: b) := by
  simp only [crc8_append, List.foldl_cons]
  exact fun he => h (crcByte_injective_byte _ (foldl_crcByte_injective b he))

/-! ### The check of a frame -/

theorem frameComplete_iff {f : Frame} : frameComplete f = true ↔ f.len.toNat < f.rest.length := by
  simp only [frameComplete, decide_eq_true_eq]

theorem frameChecks_iff {code : Byte} {f : Frame} :
    frameChecks code f = true ↔ frameCrc f = crc8 (code :: f.len :: frameParams f) := by
  rw [frameChecks, beq_iff_eq, eq_comm]

/-- A complete frame has its CRC byte after its parameters. -/
theorem rest_getElem?_len {f : Frame} (h : frameComplete f = true) : f.rest[f.len.toNat]? = some (frameCrc f) := by
  have hlt := frameComplete_iff.1 h
  simp [frameCrc, hlt]

/-! ### A frame of section 11.1 -/

theorem makeFrame_len_toNat (code : Byte) {params : List Byte} (h : params.length ≤ 255) :
    (makeFrame code params).len.toNat = params.length :=
  Nat.mod_eq_of_lt (by omega)

theorem frameComplete_makeFrame (code : Byte) {params : List Byte} (h : params.length ≤ 255) :
    frameComplete (makeFrame code params) = true := by
  rw [frameComplete_iff, makeFrame_len_toNat code h]
  simp [makeFrame]

theorem frameParams_makeFrame (code : Byte) {params : List Byte} (h : params.length ≤ 255) :
    frameParams (makeFrame code params) = params := by
  rw [frameParams, makeFrame_len_toNat code h]
  simp [makeFrame]

theorem frameChecks_makeFrame (code : Byte) {params : List Byte} (h : params.length ≤ 255) :
    frameChecks code (makeFrame code params) = true := by
  rw [frameChecks_iff, frameParams_makeFrame code h, frameCrc, makeFrame_len_toNat code h]
  simp [makeFrame]

/-! ### A frame with another CRC byte -/

/-- The frame with `c` in the place of its CRC byte. -/
def setCrc (f : Frame) (c : Byte) : Frame := { f with rest := f.rest.set f.len.toNat c }

theorem setCrc_len (f : Frame) (c : Byte) : (setCrc f c).len = f.len := rfl

theorem frameParams_setCrc (f : Frame) (c : Byte) : frameParams (setCrc f c) = frameParams f := by
  simp [frameParams, setCrc, List.take_set_of_le]

theorem frameCrc_setCrc {f : Frame} (h : frameComplete f = true) (c : Byte) : frameCrc (setCrc f c) = c := by
  have hlt := frameComplete_iff.1 h
  simp [frameCrc, setCrc, hlt]

theorem frameChecks_setCrc {code c : Byte} {f : Frame} (h : frameComplete f = true) (hk : frameChecks code f = true)
    (hc : c ≠ frameCrc f) : frameChecks code (setCrc f c) = false := by
  rw [Bool.eq_false_iff, Ne, frameChecks_iff, frameCrc_setCrc h, frameParams_setCrc, setCrc_len,
    ← frameChecks_iff.1 hk]
  exact hc

/-- Settles O9: the CRC is a fold of shifts none of which loses a difference, and a frame's check compares its CRC byte with
that fold. -/
theorem crcDetectsAChangedByte : Obligations.CrcDetectsAChangedByte := by
  unfold Obligations.CrcDetectsAChangedByte
  rw [← crcShift_eq]
  refine ⟨⟨rfl, crc8_snoc⟩, fun code f hf => ?_, fun r => ⟨_, rfl, rfl⟩, fun a b x y h => crc8_ne_of_byte_ne a b h,
    fun code params h => ⟨frameComplete_makeFrame code h, frameChecks_makeFrame code h, frameParams_makeFrame code h⟩,
    fun code c f hf hk hc => frameChecks_setCrc hf hk hc⟩
  rw [frameChecks_iff, rest_getElem?_len hf, Option.some_inj, frameParams]

end Sys2Proof.Proofs.Crc
end

section
/-! SUPPORT. Two ways to say what a step keeps: a relation closed under every update of the banks is one of the finer kinds
of Laws/Fine, and the ways a step can go. -/

namespace Sys2Proof.Proofs.Steps

open Sys2Proof Sys2Proof.Machine Sys2Proof.Laws Sys2Proof.Laws.Fine

variable {R : State → State → Prop}

/-- A relation that does not look at the banks at all is closed under each of their updates. -/
theorem wholeRel_of_bankRel (h : BankRel R) (K : Bank → Prop) (ok : Shot → Prop) : WholeRel K ok R where
  refl := h.refl
  trans := h.trans
  sup s c x _ := h.sup s c x
  service := h.service
  event := h.event
  drop s k x _ := Laws.dropShot_rel h k s x
  pulseEnd s k o f _ := Laws.endPulse_rel h k s o f
  queue s k _ _ _ := h.sched s k _
  tracks s k _ _ := h.sched s k _
  close s k _ _ _ := h.sched s k _
  boosted s k x _ _ _ _ := h.trans (h.level s k _) (Laws.openPulse_rel h k _ x _)
  degraded s k x _ _ _ := Laws.openPulse_rel h k s x _
  gap s k _ _ := h.trans (h.sched s k _) (h.drive _ k _)
  regap s k _ _ := h.trans (h.sched s k _) (h.drive _ k _)
  enqueue s k _ _ _ _ _ := h.sched s k _
  turned s k _ _ _ := h.sched s k _
  swap := h.swap
  supAny := h.sup

/-- A relation that asks nothing of the Planner. -/
theorem planRel_true (hd : ∀ s c x, R s (s.setDemand c x)) : PlanRel (fun _ => True) R (fun _ => True) where
  demand := hd
  keep _ _ _ _ := trivial
  plan _ _ _ _ _ _ _ := fun _ _ _ _ _ _ _ _ => trivial

/-! ### The ways of a step -/

/-- A command on a state whose queues have moved on, or an edge at the pins that makes no command. -/
inductive LinkWay (s t : State) : Prop
  | command (i : Instr) (q : List Instr) (l : LinkIface) (he : exec i { s with pending := q, link := l } = .next t)
  | edge (l : LinkIface) (ht : t = s.setLink l)

/-- What a step is: one of these, or the block's own time. -/
inductive StepWay (s t : State) : Prop
  | link (h : LinkWay s t)
  | tick (hd : dueEvent s = none) (ht : t = tick s)

theorem takeEdge_way {e : LinkEdge} {s t : State} {l : LinkIface} (h : takeEdge e (s.setLink l) = .next t) :
    LinkWay s t := by
  cases e with
  | selectFall => cases h; exact .edge _ rfl
  | clockRise ldi => cases h; exact .edge _ rfl
  | clockFall => cases h; exact .edge _ rfl
  | selectRise =>
    unfold takeEdge at h
    dsimp only at h
    split at h
    · exact .command _ s.pending l h
    · cases h; exact .edge _ rfl
    · cases h; exact .edge _ rfl

theorem step_way {s t : State} (h : step s = .next t) : StepWay s t := by
  unfold step at h
  split at h
  · exact .link (.command _ _ s.link h)
  · split at h
    · exact .link (takeEdge_way h)
    · unfold idleStep at h
      split at h
      · exact .link (.command _ s.pending s.link h)
      · rename_i hd
        split at h
        · cases h; exact .link (.edge s.link rfl)
        · cases h; exact .tick hd rfl

/-! ### Relations that look neither at the clock nor at the firing state -/

/-- A relation closed under every update of the banks, under whatever becomes of the clock, the firing state and the link,
and under what the commands do to the rest. -/
structure BlindRel (C : Prop) (ok : Shot → Prop) (G : State → Prop) (R : State → State → Prop) : Prop
    extends WholeRel (fun _ => True) ok R, PlanRel ok R G where
  clock    : ∀ s x, R s (s.setClock x)
  firing   : ∀ s x, R s (s.setFiring x)
  link     : ∀ s x, R s (s.setLink x)
  trace    : ∀ s x, R s (s.setTrace x)
  events   : ∀ s x, R s (s.setEvents x)
  sense    : ∀ (s : State) x, R s { s with sense := x }
  supply   : ∀ (s : State) x, R s { s with supply := x }
  queueing : ∀ (s : State) x, R s { s with pending := x }
  ticking  : ∀ s, R s (tick s)
  recharge : ∀ s, R s (rechargeBoth s)
  counted  : ∀ s k, (s.schedOf k).active.isSome = true → R s (s.setDrive k (s.driveOf k).counted)
  moved    : ∀ s k x, (s.schedOf k).active.isSome = true →
    R s (s.setDrive k (((s.driveOf k).movePhase s.timebase x).moveGate x))
  slow     : ∀ s k, R s (markSlow k s)
  load     : ∀ s x, TablesStep s.tables x → C ∨ KeepsRecords s.tables x → R s (s.setTables x)
  pend     : ∀ s : State, R s (s.setTables { s.tables with swapPending := true })
  wheel    : ∀ s ps w, parseWheel ps = some w → R s (s.setTables { s.tables with wheel := w })
  limits   : ∀ s ps, R s (clampLevels (s.setTables { s.tables with limits := clampLimits (rawLimits ps) }))
  arm      : ∀ s, R s (armFromSafe s)
  service' : ∀ s c ps, serviceParams ps = some c → R s (startService s c (u16 ps 1) (u8 ps 3) (u16 ps 4))
  resets   : ∀ (s : State) l, R s { State.reset with pending := s.pending, link := l }

theorem BlindRel.goSafe {C : Prop} {ok : Shot → Prop} {G : State → Prop} (h : BlindRel C ok G R) (s : State) :
    R s (goSafe s) := h.trans (h.firing s _) (h.trans (h.swap _) (h.link _ _))

theorem BlindRel.stopFiring {C : Prop} {ok : Shot → Prop} {G : State → Prop} (h : BlindRel C ok G R) (s : State) :
    R s (stopFiring s) :=
  h.trans (h.goSafe s) (h.trans (Fine.cancelBank_rel h.toOpRel .bankA trivial _ _)
    (Fine.cancelBank_rel h.toOpRel .bankB trivial _ _))

/-- Such a relation holds across every command. -/
theorem BlindRel.execRel {C : Prop} {ok : Shot → Prop} {G : State → Prop} (h : BlindRel C ok G R) : ExecRel C ok G R where
  toWholeRel := h.toWholeRel
  toPlanRel := h.toPlanRel
  link := h.link
  trace := h.trace
  events s x _ := h.events s x
  read s := h.events s _
  sense := h.sense
  supply := h.supply
  queueing := h.queueing
  ticking s _ := h.ticking s
  recharge := h.recharge
  counted := h.counted
  moved := h.moved
  slow := h.slow
  load := h.load
  pend s _ _ := h.pend s
  limits := h.limits
  stop := h.stopFiring
  drain s _ := h.trans (h.firing s _) (Fine.ite_rel h.toOpRel _ (h.goSafe _))
  rearm s _ := h.firing s _
  arm s _ := h.arm s
  service' s c ps _ hp := h.service' s c ps hp
  resets := h.resets
  overspeed s _ := h.clock s _
  crank s tr tie hg := Fine.crankTransition_rel h.toWholeRel h.clock h.toPlanRel (fun _ => trivial) tr tie s hg
  cam s tr := Fine.camTransition_rel h.toWholeRel h.clock tr s
  deadline s tie hg _ := Fine.expireDeadline_rel h.toWholeRel h.clock h.toPlanRel (fun _ => trivial) tie s hg
  stalled s _ := Fine.stallClock_rel h.toWholeRel h.clock (fun _ => trivial) s
  reload s ps w hw := h.trans (h.wheel s ps w hw) (Fine.reloadClock_rel h.toWholeRel h.clock (fun _ => trivial) _)
  techo s := h.clock s _
  cmark s := h.clock s _

end Sys2Proof.Proofs.Steps
end

section
/-! SUPPORT. What the checks of a load let into the Table Store, and that every step keeps it in range. -/

namespace Sys2Proof.Proofs.Tables

open Sys2Proof Sys2Proof.Machine Sys2Proof.Laws Sys2Proof.Laws.Fine Sys2Proof.Proofs.Steps

/-! ### What a parsed record is -/

@[simp] theorem within_iff {lo hi n : Nat} : within lo hi n = true ↔ lo ≤ n ∧ n ≤ hi := by simp [within]

theorem parseWheel_inRange {ps : List Byte} {w : WheelRecord} (h : parseWheel ps = some w) : w.inRange = true := by
  unfold parseWheel at h
  dsimp only at h
  split at h
  · rename_i hc
    cases h
    simpa [WheelRecord.inRange, and_assoc] using ⟨hc.1, hc.2.1, hc.2.2.1⟩
  · cases h

theorem parseCyl_inRange {ps : List Byte} {c : Cyl} {r : CylRecord} (h : parseCyl ps = some (c, r)) :
    r.inRange = true := by
  unfold parseCyl at h
  split at h
  · split at h
    · rename_i hc
      cases h
      simpa [CylRecord.inRange, and_assoc] using hc
    · cases h
  · cases h

theorem parseProfile_inRange {ps : List Byte} {i : Fin 4} {p : ProfileRecord} (h : parseProfile ps = some (i, p)) :
    p.inRange = true := by
  unfold parseProfile at h
  dsimp only at h
  split at h
  · split at h
    · cases h; assumption
    · cases h
  · cases h

theorem parseAnchor_inRange {ctl : Nat} {ps : List Byte} {a : EntryAnchor} (h : parseAnchor ctl ps = some a) :
    a.inRange = true := by
  unfold parseAnchor at h
  split at h <;> split at h <;> cases h
  · rename_i hr
    simpa [EntryAnchor.inRange] using hr
  · assumption

theorem parseDuration_inRange {ctl : Nat} {ps : List Byte} {d : DurationSource} (h : parseDuration ctl ps = some d) :
    d.inRange = true := by
  unfold parseDuration at h
  split at h <;> split at h <;> cases h
  · rename_i hr
    simpa [DurationSource.inRange] using hr
  · assumption

theorem u8_lt (ps : List Byte) (i : Nat) : u8 ps i < 256 := (ps.getD i 0).isLt

theorem parseEntry_inRange {ps : List Byte} {e : PatternEntry} (h : parseEntry ps = some e) : e.inRange = true := by
  unfold parseEntry at h
  dsimp only at h
  split at h
  · rename_i ha hd
    split at h
    · rename_i hw
      have hctl := u8_lt ps 0
      cases h
      rw [Bool.and_eq_true] at hw
      have hrep : within 1 4 (u8 ps 0 / 64 + 1) = true := by
        rw [within_iff]
        omega
      simp [PatternEntry.inRange, parseAnchor_inRange ha, parseDuration_inRange hd, hw.1, hw.2, hrep]
    · cases h
  · cases h

theorem parseEntries_spec {n : Nat} {ps : List Byte} {es : List PatternEntry} (h : parseEntries n ps = some es) :
    es.length = n ∧ ∀ e ∈ es, e.inRange = true := by
  induction n generalizing ps es with
  | zero => cases h; simp
  | succ n ih =>
    unfold parseEntries at h
    split at h
    · rename_i he hes
      cases h
      obtain ⟨hl, hr⟩ := ih hes
      exact ⟨by simp [hl], List.forall_mem_cons.2 ⟨parseEntry_inRange he, hr⟩⟩
    · cases h

theorem parsePattern_inRange {ps : List Byte} {i : Fin 16} {es : List PatternEntry} (hl : admitsPattern ps = true)
    (h : parsePattern ps = some (i, es)) : patternInRange es = true := by
  unfold parsePattern at h
  split at h
  · rename_i hes
    obtain ⟨hlen, hr⟩ := parseEntries_spec hes
    split at h
    · rename_i ha
      cases h
      simp only [admitsPattern, Bool.and_eq_true, decide_eq_true_eq] at hl
      simp only [patternInRange, Bool.and_eq_true, decide_eq_true_eq, List.all_eq_true]
      exact ⟨⟨by omega, hr⟩, ha⟩
    · cases h
  · cases h

theorem clampLimits_inRange (l : Limits) : (clampLimits l).inRange = true := by
  unfold Limits.inRange clampLimits
  simp only [Bool.and_eq_true, decide_eq_true_eq, within_iff]
  simp only [clampTo]
  omega

/-! ### Every step keeps the tables in range -/

/-- R25, R27, R28, R32, R35, R36, R40: records in range stay in range, and outputs that no two enabled cylinders share stay
so. -/
structure TablesKept (t t' : TableStore) : Prop where
  range  : tablesInRange t → tablesInRange t'
  unique : outputsUnique t → outputsUnique t'

theorem TablesKept.refl (t : TableStore) : TablesKept t t := ⟨id, id⟩

theorem TablesKept.trans {t u v : TableStore} (h1 : TablesKept t u) (h2 : TablesKept u v) : TablesKept t v :=
  ⟨fun h => h2.range (h1.range h), fun h => h2.unique (h1.unique h)⟩

theorem tablesKept_setCyl (t : TableStore) {c : Cyl} {r : CylRecord} (hr : r.inRange = true)
    (hu : r.enabled = true → ∀ d, d ≠ c → (t.cyl.get d).enabled = true → (t.cyl.get d).output ≠ r.output) :
    TablesKept t { t with cyl := t.cyl.set c r } where
  range := fun ⟨hw, hc, hrest⟩ => ⟨hw, fun d => by
    dsimp only
    rw [cyls_get_set]
    split
    · exact hr
    · exact hc d, hrest⟩
  unique ho d e hde hd he := by
    dsimp only at hd he ⊢
    rw [cyls_get_set] at hd he ⊢
    rw [cyls_get_set]
    by_cases hdc : d = c
    · have hec : e ≠ c := fun h => hde (hdc.trans h.symm)
      rw [if_pos hdc] at hd ⊢
      rw [if_neg hec] at he ⊢
      exact (hu hd e hec he).symm
    · rw [if_neg hdc] at hd ⊢
      by_cases hec : e = c
      · rw [if_pos hec] at he ⊢
        exact hu he d hdc hd
      · rw [if_neg hec] at he ⊢
        exact ho d e hde hd he

theorem tablesKept_setProfile (t : TableStore) {i : Fin 4} {p : ProfileRecord} (hp : p.inRange = true) :
    TablesKept t { t with profile := t.profile.set i p } where
  range := fun ⟨hw, hc, hpr, hrest⟩ => ⟨hw, hc, fun j => by
    dsimp only
    rw [profiles_get_set]
    split
    · exact hp
    · exact hpr j, hrest⟩
  unique := id

theorem patternInRange_set {page : List (List PatternEntry)} {i : Nat} {es : List PatternEntry}
    (hp : ∀ x ∈ page, patternInRange x = true) (he : patternInRange es = true) :
    ∀ x ∈ page.set i es, patternInRange x = true := fun x hx => by
  rcases List.mem_or_eq_of_mem_set hx with hx | rfl
  · exact hp x hx
  · exact he

theorem tablesKept_setPattern (t : TableStore) {es : List PatternEntry} (he : patternInRange es = true) (b : Bool)
    (i : Fin 16) : TablesKept t (t.setPattern b i es) := by
  cases b with
  | false => exact ⟨fun ⟨hw, hc, hpr, h0, h1, hp0, hp1, hl⟩ =>
      ⟨hw, hc, hpr, List.length_set.trans h0, h1, patternInRange_set hp0 he, hp1, hl⟩, id⟩
  | true => exact ⟨fun ⟨hw, hc, hpr, h0, h1, hp0, hp1, hl⟩ =>
      ⟨hw, hc, hpr, h0, List.length_set.trans h1, hp0, patternInRange_set hp1 he, hl⟩, id⟩

theorem tablesKept_step {t t' : TableStore} (hs : TablesStep t t') : TablesKept t t' := by
  cases hs with
  | cyl hp hu => exact tablesKept_setCyl t (parseCyl_inRange hp) hu
  | profile hp => exact tablesKept_setProfile t (parseProfile_inRange hp)
  | pattern hl hp b => exact tablesKept_setPattern t (parsePattern_inRange hl hp) b _
  | swapped => exact ⟨id, id⟩

theorem tablesKept_wheel (t : TableStore) {ps : List Byte} {w : WheelRecord} (h : parseWheel ps = some w) :
    TablesKept t { t with wheel := w } := ⟨fun ⟨_, hrest⟩ => ⟨parseWheel_inRange h, hrest⟩, id⟩

theorem tablesKept_limits (t : TableStore) (l : Limits) : TablesKept t { t with limits := clampLimits l } :=
  ⟨fun ⟨hw, hc, hp, h0, h1, hp0, hp1, _⟩ => ⟨hw, hc, hp, h0, h1, hp0, hp1, clampLimits_inRange l⟩, id⟩

theorem tablesInRange_reset : tablesInRange TableStore.reset := by
  refine ⟨rfl, ?_, ?_, rfl, rfl, ?_, ?_, rfl⟩ <;> decide

theorem outputsUnique_reset : outputsUnique TableStore.reset := by
  unfold outputsUnique
  decide

theorem tablesKept_reset (t : TableStore) : TablesKept t TableStore.reset :=
  ⟨fun _ => tablesInRange_reset, fun _ => outputsUnique_reset⟩

theorem tablesKept_takePendingSwap (s : State) : TablesKept s.tables s.takePendingSwap.tables := by
  unfold State.takePendingSwap
  split
  · exact ⟨id, id⟩
  · exact .refl _

theorem tablesKept_bank : BankRel fun s t => TablesKept s.tables t.tables where
  refl _ := .refl _
  trans h1 h2 := h1.trans h2
  sched _ _ _ := .refl _
  drive _ _ _ := .refl _
  level _ _ _ := .refl _
  sup _ _ _ := .refl _
  event _ _ := .refl _
  safe s := tablesKept_takePendingSwap (s.setFiring .safe)
  swap := tablesKept_takePendingSwap
  trace _ _ := .refl _
  service _ := .refl _

theorem tablesKept_blind :
    BlindRel True (fun _ => True) (fun _ => True) fun s t => TablesKept s.tables t.tables where
  toWholeRel := wholeRel_of_bankRel tablesKept_bank _ _
  toPlanRel := planRel_true fun _ _ _ => .refl _
  clock _ _ := .refl _
  firing _ _ := .refl _
  link _ _ := .refl _
  trace _ _ := .refl _
  events _ _ := .refl _
  sense _ _ := .refl _
  supply _ _ := .refl _
  queueing _ _ := .refl _
  ticking _ := .refl _
  recharge _ := .refl _
  counted _ _ _ := .refl _
  moved _ _ _ _ := .refl _
  slow _ _ := .refl _
  load _ _ hl _ := tablesKept_step hl
  pend _ := ⟨id, id⟩
  wheel s _ _ hw := tablesKept_wheel s.tables hw
  limits s _ := tablesKept_limits s.tables _
  arm _ := .refl _
  service' _ _ _ _ := .refl _
  resets s _ := tablesKept_reset s.tables

/-- Settles O21: a load's checks let only records in range through, and nothing else writes a record. -/
theorem stepKeepsTheTablesInRange : Obligations.StepKeepsTheTablesInRange := by
  unfold Obligations.StepKeepsTheTablesInRange
  intro s t hr hu he
  have hk := step_rel tablesKept_blind.execRel trivial trivial he
  exact ⟨hk.range hr, hk.unique hu⟩

end Sys2Proof.Proofs.Tables
end

section
/-! SUPPORT. The pending swap. Bank work can only take it; the clock leaves FULL_SYNC only through `departFullSync`, which
takes it. -/

namespace Sys2Proof.Proofs.PendingSwap

open Sys2Proof Sys2Proof.Machine Sys2Proof.Laws Sys2Proof.Laws.Fine Sys2Proof.Proofs.Steps

/-! ### No swap comes to wait -/

/-- Where no swap waits, none has come to wait. -/
def StaysTaken (s t : State) : Prop := s.tables.swapPending = false → t.tables.swapPending = false

theorem staysTaken_bank : BankRel StaysTaken where
  refl _ := id
  trans h1 h2 h := h2 (h1 h)
  sched _ _ _ := id
  drive _ _ _ := id
  level _ _ _ := id
  sup _ _ _ := id
  event _ _ := id
  safe s _ := takePendingSwap_pending (s.setFiring .safe)
  swap s _ := takePendingSwap_pending s
  trace _ _ := id
  service _ := id

theorem setSpeed_tables (s : State) : (setSpeed s).tables = s.tables := by
  unfold setSpeed judgeOverspeed
  dsimp only
  split <;> rfl

theorem departFullSync_taken (s : State) : (departFullSync s).tables.swapPending = false := takePendingSwap_pending _

/-! ### The rule of the pending swap -/

theorem swapAgrees_of_taken {s : State} (h : s.tables.swapPending = false) : swapAgrees s :=
  fun hp => absurd (h.symm.trans hp) Bool.false_ne_true

theorem taken_of_not_fullSync {s : State} (h : swapAgrees s) (hs : s.clock.sync ≠ .fullSync) :
    s.tables.swapPending = false := Bool.eq_false_iff.2 fun hp => hs (h hp).2

/-- The rule is kept. -/
def KeepsRule (s t : State) : Prop := swapAgrees s → swapAgrees t

theorem keepsRule_takePendingSwap (s : State) : KeepsRule s s.takePendingSwap :=
  fun _ => swapAgrees_of_taken (takePendingSwap_pending s)

theorem keepsRule_bank : BankRel KeepsRule where
  refl _ := id
  trans h1 h2 h := h2 (h1 h)
  sched _ _ _ := id
  drive _ _ _ := id
  level _ _ _ := id
  sup _ _ _ := id
  event _ _ := id
  safe s _ := swapAgrees_of_taken (takePendingSwap_pending (s.setFiring .safe))
  swap := keepsRule_takePendingSwap
  trace _ _ := id
  service _ := id

/-- A clock that is in FULL_SYNC wherever it was before keeps the rule. -/
theorem keepsRule_setClock {s : State} {k : AngleClock} (h : s.clock.sync = .fullSync → k.sync = .fullSync) :
    KeepsRule s (s.setClock k) := fun hs hp => ⟨(hs hp).1, h (hs hp).2⟩

theorem setSpeed_sync (s : State) : (setSpeed s).clock.sync = s.clock.sync := by
  unfold setSpeed judgeOverspeed
  dsimp only
  split <;> rfl

theorem keepsRule_setSpeed (s : State) : KeepsRule s (setSpeed s) := by
  unfold setSpeed judgeOverspeed
  dsimp only
  split <;> exact id

/-- R39: a change of the synchronisation state leaves no swap waiting. -/
theorem changeSync_taken {s : State} (h : swapAgrees s) (k : AngleClock) :
    (changeSync s k).tables.swapPending = false := by
  unfold changeSync
  dsimp only
  rw [setSpeed_tables]
  split
  · exact departFullSync_taken _
  · exact (taken_of_not_fullSync h ‹_› : s.tables.swapPending = false)

theorem keepsRule_changeSync (s : State) (k : AngleClock) : KeepsRule s (changeSync s k) :=
  fun h => swapAgrees_of_taken (changeSync_taken h k)

/-! ### Teeth -/

theorem handOn_keepsRule (tie : TieOrder) (kind : ToothKind) (left : Bool) (s : State) :
    KeepsRule s (handOn tie kind left s) := Laws.handOn_rel keepsRule_bank (fun _ _ _ => id) tie kind left s

theorem advance_sync (w : WheelRecord) (k : AngleClock) (t t1 : Nat) : (k.advance w t t1).sync = k.sync := by
  unfold AngleClock.advance
  dsimp only
  split <;> rfl

/-- What a tooth makes of the synchronisation state is what its verdict says. -/
theorem settled_sync (w : WheelRecord) (k : AngleClock) (syn : Bool) (now : Nat) :
    (k.settled w syn now).sync = match k.toothVerdict with
      | .keep => k.sync
      | .up => .fullSync
      | .fault => .crankSync := by
  unfold AngleClock.settled AngleClock.toothVerdict
  dsimp only
  by_cases hi : k.index = 0
  · simp only [if_pos hi]
    cases k.camVerdict <;> rfl
  · simp only [if_neg hi]

theorem clockTooth_keepsRule (s : State) (syn : Bool) (t t1 : Nat) : KeepsRule s (clockTooth s syn t t1) := by
  unfold clockTooth
  dsimp only
  refine keepsRule_bank.trans ?_ (keepsRule_setSpeed _)
  have hsync := settled_sync s.tables.wheel (s.clock.advance s.tables.wheel t t1) syn s.timebase
  rw [advance_sync] at hsync
  generalize hv : (s.clock.advance s.tables.wheel t t1).toothVerdict = v at hsync ⊢
  generalize (s.clock.advance s.tables.wheel t t1).settled s.tables.wheel syn s.timebase = k at hsync ⊢
  cases v with
  | keep => exact keepsRule_setClock fun h => hsync.trans h
  | up => exact keepsRule_setClock fun _ => hsync
  | fault => exact fun _ => swapAgrees_of_taken (departFullSync_taken _)

theorem seekTooth_keepsRule {s : State} (h : s.tables.swapPending = false) (may : Bool) : swapAgrees (seekTooth s may) := by
  refine swapAgrees_of_taken ?_
  unfold seekTooth
  rw [setSpeed_tables]
  exact h

theorem judgedEdge_keepsRule (tie : TieOrder) (s : State) : KeepsRule s (judgedEdge tie s) := by
  intro h
  unfold judgedEdge
  dsimp only
  split
  · exact h
  · exact handOn_keepsRule _ _ _ _ (seekTooth_keepsRule (changeSync_taken h _) _)
  · exact handOn_keepsRule _ _ _ _ (clockTooth_keepsRule _ _ _ _ h)

theorem syncEdge_keepsRule (tie : TieOrder) (s : State) : KeepsRule s (syncEdge tie s) := by
  unfold syncEdge
  split
  · exact keepsRule_setClock id
  · exact keepsRule_bank.trans (keepsRule_setClock (k := { s.clock with absorb := false }) id) (judgedEdge_keepsRule tie _)

theorem crankTransition_keepsRule (tr : Transition) (tie : TieOrder) (s : State) :
    KeepsRule s (crankTransition tr tie s) := by
  unfold crankTransition
  split
  · unfold risingEdge
    refine keepsRule_bank.trans (keepsRule_setClock (k := { s.clock with lastCrank := some s.timebase }) id) ?_
    intro h
    dsimp only
    generalize s.setClock { s.clock with lastCrank := some s.timebase } = u at h ⊢
    split
    · exact h
    · split
      · rename_i hs
        refine handOn_keepsRule _ _ _ _ (swapAgrees_of_taken ?_)
        unfold leaveStalled
        rw [setSpeed_tables]
        exact (taken_of_not_fullSync h (by rw [hs]; decide) : u.tables.swapPending = false)
      · rename_i hs
        exact handOn_keepsRule _ _ _ _ (seekTooth_keepsRule (taken_of_not_fullSync h (by rw [hs]; decide)) _)
      · exact syncEdge_keepsRule tie u h
      · exact syncEdge_keepsRule tie u h
  · exact id

theorem expireDeadline_keepsRule (tie : TieOrder) (s : State) : KeepsRule s (expireDeadline tie s) := by
  unfold expireDeadline
  split
  · exact keepsRule_bank.trans (clockTooth_keepsRule _ _ _ _) (handOn_keepsRule _ _ _ _)
  · exact keepsRule_changeSync s _

theorem countCam_sync (k : AngleClock) : k.countCam.sync = k.sync := by
  unfold AngleClock.countCam
  split <;> rfl

theorem camTransition_keepsRule (tr : Transition) (s : State) : KeepsRule s (camTransition tr s) := by
  unfold camTransition
  split
  · dsimp only
    split
    · exact keepsRule_setClock (k := { s.clock with lastCam := some s.timebase }) id
    · exact keepsRule_bank.trans (keepsRule_setClock (k := { s.clock with lastCam := some s.timebase }) id)
        (keepsRule_setClock fun h => (countCam_sync _).trans h)
  · exact id

/-! ### Commands -/

theorem keepsRule_exec : ExecRel True (fun _ => True) (fun _ => True) KeepsRule where
  toWholeRel := wholeRel_of_bankRel keepsRule_bank _ _
  toPlanRel := planRel_true fun _ _ _ => id
  link _ _ := id
  trace _ _ := id
  events _ _ _ := id
  read _ := id
  sense _ _ := id
  supply _ _ := id
  queueing _ _ := id
  ticking _ _ := id
  recharge _ := id
  counted _ _ _ := id
  moved _ _ _ _ := id
  slow _ _ := id
  load s x hl _ h := by
    cases hl with
    | cyl => exact h
    | profile => exact h
    | pattern _ _ b => cases b <;> exact h
    | swapped => exact swapAgrees_of_taken rfl
  pend _ hf hs _ := fun _ => ⟨hf, hs⟩
  limits _ _ := id
  stop s _ := swapAgrees_of_taken (staysTaken_bank.trans
    (Laws.cancelBank_rel staysTaken_bank .bankA (goSafe s) .cancelledStop)
    (Laws.cancelBank_rel staysTaken_bank .bankB _ .cancelledStop) (takePendingSwap_pending (s.setFiring .safe)))
  drain s ha := fun h => Laws.drainTest_rel keepsRule_bank (s.setFiring .draining) fun hp => ⟨Firing.noConfusion, (h hp).2⟩
  rearm s _ := fun h hp => ⟨Firing.noConfusion, (h hp).2⟩
  arm s _ := fun h hp => ⟨Firing.noConfusion, (h hp).2⟩
  service' _ _ _ _ _ := id
  resets _ _ _ := swapAgrees_of_taken rfl
  overspeed _ _ := id
  crank s tr tie _ := crankTransition_keepsRule tr tie s
  cam s tr := camTransition_keepsRule tr s
  deadline s tie _ _ := expireDeadline_keepsRule tie s
  stalled s _ := keepsRule_changeSync (s.raise .stall) _
  reload s _ w _ := by
    unfold reloadClock
    split
    · exact id
    · exact keepsRule_changeSync (s.setTables { s.tables with wheel := w }) _
  techo _ := id
  cmark _ := id

/-- Settles O22: out of FULL_SYNC and out of firing the swap has been taken, on every path of every command. -/
theorem stepKeepsThePendingSwap : Obligations.StepKeepsThePendingSwap := by
  unfold Obligations.StepKeepsThePendingSwap
  intro s t h he
  exact step_rel keepsRule_exec trivial trivial he h

end Sys2Proof.Proofs.PendingSwap
end

section
/-! SUPPORT. An invariant of one bank at a time, its scheduler with its Drive Stage: what it must withstand for every step to
keep it. -/

namespace Sys2Proof.Proofs.Banks

open Sys2Proof Sys2Proof.Machine Sys2Proof.Laws Sys2Proof.Laws.Fine Sys2Proof.Proofs.Steps Sys2Proof.Proofs.Tables

/-- R160: the queue of a bank after a service chain has been placed. -/
def withChain (q : Sched) (c : Cyl) (gap ticks dueAt count : Nat) : Sched :=
  { q with
    queue := q.queue ++ (List.range count).map (serviceShot c q.nextTag gap ticks dueAt)
    placed := q.placed + BitVec.ofNat 32 count
    nextTag := q.nextTag + BitVec.ofNat 8 count }

/-- A property of a bank, under the cylinder records, that every update of a scheduler and its Drive Stage keeps. `C` says
that it does not depend on the records. -/
structure BankInv (C : Prop) (ok : Shot → Prop) (P : Cyls CylRecord → Bank → Sched → DriveStage → Prop) : Prop where
  drop    : ∀ {y k q d}, P y k q d → ∀ t, P y k (droppedFrom q t) d
  ended   : ∀ {y k q d}, P y k q d → ∀ now, q.active.isSome = true → P y k (q.ended now) d.quenched
  queue   : ∀ {y k q d}, P y k q d → ∀ f, Keeps f → P y k { q with queue := q.queue.map f } d
  pulse   : ∀ {y k q d}, P y k q d → ∀ ts (g : Pulse → Option Nat) (fl : Pulse → ShotFlags), P y k { q with
    tracks := ts, active := q.active.map fun p => { p with windowClose := g p, flags := fl p } } d
  opened  : ∀ {y k q d}, P y k q d → q.cond = .idle → ∀ x ∈ q.queue, ∀ now angle close dg p, P y k
    { q with queue := eraseShot x.tag q.queue, started := q.started + 1, active := some (x.pulse now angle close dg)
             cond := .active } (.started (y.get x.cyl) p now dg)
  gap     : ∀ {y k q d}, P y k q d → q.cond = .gap → P y k { q with cond := .idle } { d with phase := .off }
  regap   : ∀ {y k q d}, P y k q d → q.cond = .idle → P y k { q with cond := .gap } { d with phase := .quench }
  enqueue : ∀ {y k q d}, P y k q d → ∀ a x, ok x → (y.get x.cyl).bank = k →
    P y k { q.countPlaced with queue := insertShot a x q.queue } d
  turned  : ∀ {y k q d}, P y k q d → P y k { q.countPlaced with shed := q.shed + 1 } d
  counted : ∀ {y k q d}, P y k q d → P y k q d.counted
  moved   : ∀ {y k q d}, P y k q d → q.active.isSome = true → ∀ now x, P y k q ((d.movePhase now x).moveGate x)
  service : ∀ {y k q d}, P y k q d → ∀ c ps gap dueAt, serviceParams ps = some c → (y.get c).bank = k →
    P y k (withChain q c gap (10 * u16 ps 1) dueAt (u8 ps 3)) d
  records : C → ∀ {y y' k q d}, P y k q d → P y' k q d
  reset   : ∀ k, P TableStore.reset.cyl k .reset .reset

/-- The property holds of both banks. -/
def OnBanks (P : Cyls CylRecord → Bank → Sched → DriveStage → Prop) (s : State) : Prop :=
  ∀ k, P s.tables.cyl k (s.schedOf k) (s.driveOf k)

/-- The tables stay in range, and the property stays on both banks. -/
structure Kept (P : Cyls CylRecord → Bank → Sched → DriveStage → Prop) (s t : State) : Prop where
  tables : TablesKept s.tables t.tables
  banks  : OnBanks P s → OnBanks P t

variable {C : Prop} {ok : Shot → Prop} {P : Cyls CylRecord → Bank → Sched → DriveStage → Prop}

theorem Kept.refl (s : State) : Kept P s s := ⟨.refl _, id⟩

theorem Kept.trans {s t u : State} (h1 : Kept P s t) (h2 : Kept P t u) : Kept P s u :=
  ⟨h1.tables.trans h2.tables, fun h => h2.banks (h1.banks h)⟩

/-- Nothing the property sees has changed. -/
theorem Kept.of_same {s t : State} (ht : TablesKept s.tables t.tables) (hc : t.tables.cyl = s.tables.cyl)
    (hs : t.sched = s.sched) (hd : t.drive = s.drive) : Kept P s t :=
  ⟨ht, fun h k => by
    show P t.tables.cyl k (t.sched.get k) (t.drive.get k)
    rw [hc, hs, hd]
    exact h k⟩

/-- One bank has changed, to a scheduler and a Drive Stage that meet the property. -/
theorem Kept.of_bank {s t : State} {k : Bank} {q : Sched} {d : DriveStage} (ht : t.tables = s.tables)
    (hs : t.sched = s.sched.set k q) (hd : t.drive = s.drive.set k d)
    (h : OnBanks P s → P s.tables.cyl k q d) : Kept P s t :=
  ⟨ht ▸ .refl _, fun hP j => by
    show P t.tables.cyl j (t.sched.get j) (t.drive.get j)
    rw [ht, hs, hd, banks_get_set, banks_get_set]
    split
    · subst j; exact h hP
    · exact hP j⟩

theorem Kept.of_sched {s : State} {k : Bank} {q : Sched} (h : OnBanks P s → P s.tables.cyl k q (s.driveOf k)) :
    Kept P s (s.setSched k q) := .of_bank rfl rfl (banks_set_get _ _).symm h

theorem Kept.of_drive {s : State} {k : Bank} {d : DriveStage} (h : OnBanks P s → P s.tables.cyl k (s.schedOf k) d) :
    Kept P s (s.setDrive k d) := .of_bank rfl (banks_set_get _ _).symm rfl h

theorem takePendingSwap_cyl (s : State) : s.takePendingSwap.tables.cyl = s.tables.cyl := by
  unfold State.takePendingSwap
  split <;> rfl

theorem Kept.takePendingSwap (s : State) : Kept P s s.takePendingSwap :=
  .of_same (tablesKept_takePendingSwap s) (takePendingSwap_cyl s) (takePendingSwap_sched s) (takePendingSwap_drive s)

theorem Kept.drainTest (s : State) : Kept P s (drainTest s) := by
  refine .of_same (Laws.drainTest_rel tablesKept_bank s) ?_ (drainTest_sched s) (drainTest_drive s)
  exact Laws.drainTest_rel cylRecords_rel s

theorem Kept.writeOutcome (s : State) (c : Cyl) (tag : Byte) (o : PlaceOutcome) : Kept P s (writeOutcome s c tag o) := by
  refine .of_same ?_ ?_ (writeOutcome_sched _ _ _ _) (writeOutcome_drive _ _ _ _)
  all_goals rw [writeOutcome_tables]
  exact .refl _

theorem Kept.dropShot (h : BankInv C ok P) (s : State) (k : Bank) (x : Byte × ShotOutcome) :
    Kept P s (dropShot k s x) :=
  ⟨Laws.dropShot_rel tablesKept_bank k s x, fun hP j => by
    show P (Machine.dropShot k s x).tables.cyl j ((Machine.dropShot k s x).schedOf j) ((Machine.dropShot k s x).drive.get j)
    rw [Laws.dropShot_rel cylRecords_rel k s x, dropShot_schedOf, dropShot_drive]
    split
    · subst j; exact h.drop (hP k) x
    · exact hP j⟩

theorem Kept.dropAll (h : BankInv C ok P) (s : State) (k : Bank) (l : List (Byte × ShotOutcome)) :
    Kept P s (l.foldl (Machine.dropShot k) s) := by
  induction l generalizing s with
  | nil => exact .refl s
  | cons x l ih => exact (Kept.dropShot h s k x).trans (ih _)

/-- R92: the shots on the end of a pulse are timed, and are the shots they were. -/
theorem timeSuccessors_keeps (tag : Byte) (now : Nat) :
    Keeps fun x => if x.follows tag then { x with state := .timed, due := some (now + x.gapTicks) } else x := by
  intro x
  dsimp only
  split <;> exact ⟨rfl, rfl, rfl, rfl, rfl, rfl, rfl, rfl, rfl, rfl⟩

theorem Kept.followEnd (h : BankInv C ok P) (s : State) (k : Bank) (tag : Byte) (o : ShotOutcome) :
    Kept P s (followEnd s k tag o) := by
  unfold Machine.followEnd
  split
  · exact .of_sched fun hP => h.queue (hP k) _ (timeSuccessors_keeps tag s.timebase)
  · split
    · exact Kept.dropAll h s k _
    · exact .refl s

theorem Kept.countEnd (s : State) (c : Cyl) (o : ShotOutcome) : Kept P s (countEnd s c o) := by
  unfold Machine.countEnd
  split
  · exact .refl s
  · exact .of_same (.refl _) rfl rfl rfl

theorem Kept.endPulse (h : BankInv C ok P) (s : State) (k : Bank) (o : ShotOutcome) (f : Option FaultKind) :
    Kept P s (endPulse k s o f) := by
  unfold Machine.endPulse
  split
  · exact .refl s
  · rename_i p hp
    have hend : Kept P s (((creditRecup s k).setDrive k (s.driveOf k).quenched).setSched k ((s.schedOf k).ended s.timebase)) :=
      .of_bank rfl rfl rfl fun hP => h.ended (hP k) _ (by rw [hp]; rfl)
    refine hend.trans (.trans (.writeOutcome _ p.cyl p.tag (p.result s.timebase o f)) (.trans (.countEnd _ p.cyl o) ?_))
    exact (Kept.followEnd h _ k p.tag o).trans (.drainTest _)

theorem Kept.traceStart (s : State) (k : Bank) (c : Cyl) : Kept P s (traceStart s k c) := by
  unfold Machine.traceStart
  split
  · exact .of_same (.refl _) rfl rfl rfl
  · exact .refl s

theorem Kept.openPulse (h : BankInv C ok P) (s : State) (k : Bank) (x : Shot) (dg : Bool)
    (hc : (s.schedOf k).cond = .idle) (hx : x ∈ (s.schedOf k).queue) : Kept P s (openPulse k s x dg) := by
  unfold Machine.openPulse
  dsimp only
  refine .trans ?_ (.traceStart _ k x.cyl)
  exact .of_bank rfl rfl rfl fun hP => h.opened (hP k) hc x hx _ _ _ _ _

/-- Every operation of the banks and the Planner keeps the property. -/
theorem BankInv.wholeRel (h : BankInv C ok P) : WholeRel (fun _ => True) ok (Kept P) where
  refl := .refl
  trans := .trans
  sup _ _ _ _ := .of_same (.refl _) rfl rfl rfl
  service _ := .of_same (.refl _) rfl rfl rfl
  event _ _ := .of_same (.refl _) rfl rfl rfl
  drop s k x _ := .dropShot h s k x
  pulseEnd s k o f _ := .endPulse h s k o f
  queue _ k f _ hf := .of_sched fun hP => h.queue (hP k) f hf
  tracks s k ts _ := .of_sched fun hP => by
    have := h.pulse (hP k) ts Pulse.windowClose Pulse.flags
    rwa [show (fun p : Pulse => { p with windowClose := p.windowClose, flags := p.flags }) = id from rfl,
      Option.map_id, id_eq] at this
  close _ k ts g _ := .of_sched fun hP => h.pulse (hP k) ts g Pulse.flags
  boosted s k x _ hc hx _ := (Kept.of_same (s := s) (t := chargeBoost s k x.cyl) (.refl _) rfl rfl rfl).trans
    (.openPulse h _ k x false hc hx)
  degraded s k x _ hc hx := .openPulse h s k x true hc hx
  gap _ k _ hc := .of_bank rfl rfl rfl fun hP => h.gap (hP k) hc
  regap _ k _ hc := .of_bank rfl rfl rfl fun hP => h.regap (hP k) hc
  enqueue _ k a x _ hx hb := .of_sched fun hP => h.enqueue (hP k) a x hx hb
  turned _ k _ _ _ := .of_sched fun hP => h.turned (hP k)
  swap := .takePendingSwap
  supAny _ _ _ := .of_same (.refl _) rfl rfl rfl

/-- What `G` needs of the Planner it keeps with the tables. -/
theorem BankInv.blindRel {G : State → Prop} (h : BankInv C ok P) (hkeep : ∀ s t, Kept P s t → G s → G t)
    (hplan : ∀ s c a t, G s → ∀ e ∈ entriesToPlan s c (some a), Admits ok (planInput s c a.demand t) e) :
    BlindRel C ok G (Kept P) where
  toWholeRel := h.wholeRel
  demand _ _ _ := .of_same (.refl _) rfl rfl rfl
  keep := hkeep
  plan := hplan
  clock _ _ := .of_same (.refl _) rfl rfl rfl
  firing _ _ := .of_same (.refl _) rfl rfl rfl
  link _ _ := .of_same (.refl _) rfl rfl rfl
  trace _ _ := .of_same (.refl _) rfl rfl rfl
  events _ _ := .of_same (.refl _) rfl rfl rfl
  sense _ _ := .of_same (.refl _) rfl rfl rfl
  supply _ _ := .of_same (.refl _) rfl rfl rfl
  queueing _ _ := .of_same (.refl _) rfl rfl rfl
  ticking _ := .of_same (.refl _) rfl rfl rfl
  recharge _ := .of_same (.refl _) rfl rfl rfl
  counted _ k _ := .of_drive fun hP => h.counted (hP k)
  moved _ k x ha := .of_drive fun hP => h.moved (hP k) ha _ x
  slow s k := .of_sched fun hP => h.pulse (hP k) (s.schedOf k).tracks Pulse.windowClose
    fun p => { p.flags with slowRise := true }
  load s x hl hC := ⟨tablesKept_step hl, fun hP k => by
    rcases hC with hC | hC
    · exact h.records hC (hP k)
    · show P x.cyl k _ _
      rw [hC]
      exact hP k⟩
  pend _ := .of_same ⟨id, id⟩ rfl rfl rfl
  wheel s _ _ hw := .of_same (tablesKept_wheel s.tables hw) rfl rfl rfl
  limits s _ := .of_same (tablesKept_limits s.tables _) rfl rfl rfl
  arm _ := .of_same (.refl _) rfl rfl rfl
  service' s c ps hp := by
    refine .of_bank (k := s.bankOf c) (q := withChain (s.schedOf (s.bankOf c)) c _ (10 * u16 ps 1) _ (u8 ps 3)) rfl rfl
      (banks_set_get _ _).symm fun hP => h.service (hP _) c ps _ _ hp rfl
  resets s _ := ⟨tablesKept_reset s.tables, fun _ k => by cases k <;> exact h.reset _⟩

/-- Every step keeps a property of the banks that asks nothing of the shots. -/
theorem BankInv.step (h : BankInv True (fun _ => True) P) {s t : State} (he : Machine.step s = .next t) :
    OnBanks P s → OnBanks P t :=
  (step_rel (h.blindRel (G := fun _ => True) (fun _ _ _ _ => trivial)
    (planRel_true (R := Kept P) fun _ _ _ => .of_same (.refl _) rfl rfl rfl).plan).execRel trivial trivial he).banks

end Sys2Proof.Proofs.Banks
end

section
/-! SUPPORT. The four counters of a bank. -/

namespace Sys2Proof.Proofs.Counters

open Sys2Proof Sys2Proof.Machine Sys2Proof.Laws Sys2Proof.Laws.Fine Sys2Proof.Proofs.Steps Sys2Proof.Proofs.Banks

/-- The counters agree exactly where `placed` is the sum of the rest and the length. -/
theorem countersAgree_iff (q : Sched) :
    countersAgree q ↔ q.placed = BitVec.ofNat 32 q.queue.length + q.started + q.shed + q.cancelled := by
  unfold countersAgree
  constructor <;> intro h
  · linear_combination h
  · linear_combination h

theorem counter_succ (n : Nat) : BitVec.ofNat 32 (n + 1) = BitVec.ofNat 32 n + 1 := BitVec.ofNat_add n 1

theorem insertShot_perm (a : Nat) (y : Shot) (l : List Shot) : (insertShot a y l).Perm (y :: l) := by
  induction l with
  | nil => exact .refl _
  | cons x l ih =>
    unfold insertShot
    split
    · exact (ih.cons x).trans (.swap y x l)
    · exact .refl _

/-- The queue is one shorter without a shot of it. -/
theorem eraseShot_length {x : Shot} {l : List Shot} (h : x ∈ l) : (eraseShot x.tag l).length + 1 = l.length := by
  have hl := List.length_eraseP_of_mem (p := fun y : Shot => y.tag == x.tag) h (beq_self_eq_true x.tag)
  have := List.length_pos_of_mem h
  unfold eraseShot
  omega

theorem countersAgree_droppedFrom {q : Sched} (h : countersAgree q) (t : Byte × ShotOutcome) :
    countersAgree (droppedFrom q t) := by
  rcases droppedFrom_length q t with ⟨-, hq⟩ | ⟨hl, hp, hs, hc⟩
  · rwa [hq]
  · rw [countersAgree_iff] at h ⊢
    rw [← hl, counter_succ] at h
    rw [hp, hs, h]
    linear_combination -hc

theorem countersAgree_opened {q : Sched} (h : countersAgree q) {x : Shot} (hx : x ∈ q.queue) (p : Option Pulse)
    (c : BankCond) :
    countersAgree { q with queue := eraseShot x.tag q.queue, started := q.started + 1, active := p, cond := c } := by
  rw [countersAgree_iff] at h ⊢
  rw [← eraseShot_length hx, counter_succ] at h
  rw [h]
  ring

theorem countersAgree_enqueue {q : Sched} (h : countersAgree q) (a : Nat) (x : Shot) :
    countersAgree { q.countPlaced with queue := insertShot a x q.queue } := by
  rw [countersAgree_iff] at h ⊢
  show q.placed + 1 = BitVec.ofNat 32 (insertShot a x q.queue).length + q.started + q.shed + q.cancelled
  rw [(insertShot_perm a x q.queue).length_eq, List.length_cons, counter_succ, h]
  ring

theorem countersAgree_withChain {q : Sched} (h : countersAgree q) (c : Cyl) (gap ticks dueAt count : Nat) :
    countersAgree (withChain q c gap ticks dueAt count) := by
  rw [countersAgree_iff] at h ⊢
  simp only [withChain, List.length_append, List.length_map, List.length_range, BitVec.ofNat_add, h]
  ring

theorem counters_bankInv : BankInv True (fun _ => True) fun _ _ q _ => countersAgree q where
  drop h := countersAgree_droppedFrom h
  ended h _ _ := h
  queue {_ _ q _} h f _ := by simpa only [countersAgree, List.length_map] using h
  pulse h _ _ _ := h
  opened h _ _ hx _ _ _ _ _ := countersAgree_opened h hx _ _
  gap h _ := h
  regap h _ := h
  enqueue h a x _ _ := countersAgree_enqueue h a x
  turned {_ _ q _} h := by
    show q.placed + 1 - q.started - (q.shed + 1) - q.cancelled = BitVec.ofNat 32 q.queue.length
    rw [← h]
    ring
  counted h := h
  moved h _ _ _ := h
  service h c _ _ _ _ _ := countersAgree_withChain h c _ _ _ _
  records _ _ _ _ _ _ h := h
  reset _ := by unfold countersAgree; rfl

/-- Settles O49: every operation on a queue moves one counter by the change of the length. -/
theorem stepKeepsTheCounters : Obligations.StepKeepsTheCounters := by
  unfold Obligations.StepKeepsTheCounters
  intro s t h he
  exact counters_bankInv.step he h

end Sys2Proof.Proofs.Counters
end

section
/-! SUPPORT. How long a planned shot can be: the arithmetic of the window fit, the durations of the Planner and of SERVICE. -/

namespace Sys2Proof.Proofs.Durations

open Sys2Proof Sys2Proof.Machine Sys2Proof.Laws Sys2Proof.Laws.Fine Sys2Proof.Proofs.Steps Sys2Proof.Proofs.Tables
  Sys2Proof.Proofs.Banks Sys2Proof.Proofs.Counters

/-! ### The window fit -/

theorem ceilDiv_le_iff {n d m : Nat} (hd : 0 < d) : ceilDiv n d ≤ m ↔ n ≤ m * d := by
  unfold ceilDiv
  rw [← Nat.lt_add_one_iff, Nat.div_lt_iff_lt_mul hd, Nat.add_mul]
  omega

/-- The crank turns no more than `c` counts in exactly the ticks that R73 fits to them. -/
theorem extent_le_iff {t : ToothReport} {ticks c : Nat} (ht : 0 < t.tpred) (hp : 0 < t.pitch) :
    t.extent ticks ≤ c ↔ ticks ≤ c * t.tpred / t.pitch := by
  unfold ToothReport.extent
  rw [ceilDiv_le_iff ht, Nat.le_div_iff_mul_le hp]

/-- R73: a duration that was cut is no longer than it was. -/
theorem windowFit_le {r : CylRecord} {minOn : Nat} {t : ToothReport} {wpos ticks : Nat} {d : Nat × Bool}
    (h : windowFit r minOn t wpos ticks = some d) : d.1 = ticks ∨ 10 * minOn ≤ d.1 ∧ d.1 ≤ ticks := by
  unfold windowFit at h
  dsimp only at h
  split at h
  · cases h; exact .inl rfl
  · rename_i hlong
    split at h
    · cases h
    · rename_i hmin
      cases h
      refine .inr ⟨by dsimp only; omega, ?_⟩
      dsimp only
      rcases Nat.eq_zero_or_pos t.tpred with h0 | ht
      · simp [h0]
      rcases Nat.eq_zero_or_pos t.pitch with h0 | hp
      · simp [h0]
      rcases Nat.le_total r.span wpos with hw | hw
      · simp [Nat.sub_eq_zero_of_le hw]
      · refine Nat.le_of_not_le fun hle => hlong ?_
        have := (extent_le_iff ht hp).2 hle
        omega

/-! ### Durations -/

/-- R70: 100 to 10,000 µs. -/
def Lasting (x : Shot) : Prop := 1000 ≤ x.ticks ∧ x.ticks ≤ 100000

/-- R68, R69: the limits of an entry in range hold of every duration it gives. -/
theorem entryDuration_bounds {e : PatternEntry} {minOn mainUs : Nat} {d : Nat × ShotFlags} (he : e.inRange = true)
    (hm : 100 ≤ minOn) (h : entryDuration e minOn mainUs = some d) : 100 ≤ d.1 ∧ d.1 ≤ 10000 := by
  simp only [PatternEntry.inRange, Bool.and_eq_true, within_iff] at he
  obtain ⟨⟨⟨-, hmax⟩, -⟩, -⟩ := he
  unfold entryDuration at h
  dsimp only at h
  split at h
  · cases h
  · split at h
    · cases h
    · cases h
      dsimp only
      split <;> omega

theorem profile_minOn {t : TableStore} (h : tablesInRange t) (i : Fin 4) : 100 ≤ (t.profile.get i).minOn := by
  obtain ⟨-, -, hp, -⟩ := h
  have := hp i
  simp only [ProfileRecord.inRange, Bool.and_eq_true, within_iff] at this
  obtain ⟨⟨⟨⟨-, hmin, -⟩, -⟩, -⟩, -⟩ := this
  exact hmin

/-- R35: every entry of a stored pattern is in range. -/
theorem pattern_inRange {t : TableStore} (h : tablesInRange t) (b : Bool) (i : Fin 16) :
    ∀ e ∈ t.pattern b i, e.inRange = true := by
  obtain ⟨-, -, -, -, -, h0, h1, -⟩ := h
  have hpage : ∀ es ∈ t.page b, patternInRange es = true := by
    cases b
    · exact h0
    · exact h1
  intro e he
  unfold TableStore.pattern at he
  by_cases hi : i.val < (t.page b).length
  · rw [List.getD_eq_getElem _ _ hi] at he
    have := hpage _ (List.getElem_mem hi)
    simp only [patternInRange, Bool.and_eq_true, List.all_eq_true] at this
    exact this.1.2 e he
  · rw [List.getD_eq_default _ _ (by omega)] at he
    cases he

/-- R66: the Planner expands entries of a stored pattern alone. -/
theorem entriesToPlan_inRange {s : State} (h : tablesInRange s.tables) (c : Cyl) (a : ActiveDemand) :
    ∀ e ∈ entriesToPlan s c (some a), e.inRange = true := by
  unfold entriesToPlan
  dsimp only
  split
  · simp
  · exact pattern_inRange h _ _

theorem planned_lasting {s : State} (h : tablesInRange s.tables) (c : Cyl) (a : ActiveDemand) (t : ToothReport) :
    ∀ e ∈ entriesToPlan s c (some a), Admits Lasting (planInput s c a.demand t) e := by
  intro e he ticks tag en rep an o f ⟨d, fl, hd, hfit⟩
  have hmin := profile_minOn h (s.cylOf c).profile
  have hb := entryDuration_bounds (entriesToPlan_inRange h c a e he) hmin hd
  show 1000 ≤ ticks ∧ ticks ≤ 100000
  rcases hfit with rfl | ⟨pos, wpos, moved, fit, -, hw⟩
  · omega
  · have hmin' : 100 ≤ (planInput s c a.demand t).profile.minOn := hmin
    have := windowFit_le hw
    dsimp only at this hb
    omega

theorem serviceParams_on {ps : List Byte} {c : Cyl} (h : serviceParams ps = some c) :
    100 ≤ u16 ps 1 ∧ u16 ps 1 ≤ 10000 := by
  unfold serviceParams at h
  split at h
  · rename_i hr
    simp only [Bool.and_eq_true, within_iff] at hr
    exact hr.1.1
  · cases h

theorem durations_bankInv : BankInv True Lasting fun _ _ q _ => durationsAgree q where
  drop {_ _ q _} h t := by
    obtain ⟨hq, ha, -⟩ := droppedFrom_sublist q t
    exact ⟨fun x hx => h.1 x (hq.subset hx), by rw [ha]; exact h.2⟩
  ended h _ _ := ⟨h.1, fun p hp => by cases hp⟩
  queue {_ _ q _} h f hf := ⟨fun x hx => by
    obtain ⟨y, hy, rfl⟩ := List.mem_map.1 hx
    obtain ⟨-, -, -, -, -, -, -, ht, -, -⟩ := hf y
    rw [ht]
    exact h.1 y hy, h.2⟩
  pulse {_ _ q _} h _ _ _ := ⟨h.1, fun p hp => by
    obtain ⟨p', hp', rfl⟩ := Option.map_eq_some_iff.1 hp
    exact h.2 p' hp'⟩
  opened h _ x hx now _ _ _ _ := ⟨fun y hy => h.1 y (List.eraseP_subset hy), fun p hp => by
    cases hp
    exact Nat.add_le_add_left (h.1 x hx).2 now⟩
  gap h _ := h
  regap h _ := h
  enqueue {_ _ q _} h a x hx _ := ⟨fun y hy => by
    rcases List.mem_cons.1 ((insertShot_perm a x q.queue).subset hy) with rfl | hy
    · exact hx
    · exact h.1 y hy, h.2⟩
  turned h := h
  counted h := h
  moved h _ _ _ := h
  service h c ps gap dueAt hp _ := ⟨fun y hy => by
    rcases List.mem_append.1 hy with hy | hy
    · exact h.1 y hy
    · obtain ⟨i, -, rfl⟩ := List.mem_map.1 hy
      have := serviceParams_on hp
      show 1000 ≤ 10 * u16 ps 1 ∧ 10 * u16 ps 1 ≤ 100000
      omega, h.2⟩
  records _ _ _ _ _ _ h := h
  reset _ := ⟨by simp [Sched.reset], by simp [Sched.reset]⟩

/-- Settles O51: a shot's duration is set where it is made, by the Planner or by SERVICE, and a pulse takes it over. -/
theorem stepKeepsTheDurations : Obligations.StepKeepsTheDurations := by
  unfold Obligations.StepKeepsTheDurations
  intro s t hr h he
  have hrel := durations_bankInv.blindRel (G := fun s => tablesInRange s.tables) (fun _ _ hk => hk.tables.range)
    fun s c a t hg => planned_lasting hg c a t
  exact (step_rel hrel.execRel trivial hr he).banks h

end Sys2Proof.Proofs.Durations
end

section
/-! SUPPORT. The commands that neither reset the part nor read the events nor move the crank: what holds across each of
them holds across all, and needs nothing of the queues, the timebase or the Planner. -/

namespace Sys2Proof.Proofs.Plain

open Sys2Proof Sys2Proof.Machine Sys2Proof.Laws Sys2Proof.Laws.Fine Sys2Proof.Proofs.Steps

/-! ### Frames -/

/-- A relation that does not look at the link, but for the edges that wait. -/
structure LinkRel (R : State → State → Prop) : Prop where
  refl  : ∀ s, R s s
  trans : ∀ {s t u}, R s t → R t u → R s u
  link  : ∀ (s : State) x, x.edges = s.link.edges → R s (s.setLink x)

namespace LinkRel

variable {R : State → State → Prop}

theorem respond (h : LinkRel R) (s : State) (code : Byte) (r : Result) (data : List Byte) :
    R s (respond s code r data) := h.link s _ rfl

theorem clockTransaction (h : LinkRel R) (s : State) (bytes : List Byte) (odd : List Bool) :
    R s (clockTransaction s bytes odd) := h.link s _ rfl

theorem breakTransaction (h : LinkRel R) (s : State) (bytes : List Byte) (odd : List Bool) :
    R s (breakTransaction s bytes odd) := h.trans (h.clockTransaction s bytes odd) (h.respond _ _ _ _)

theorem restartSilence (h : LinkRel R) (s : State) : R s (restartSilence s) := h.link s _ rfl

theorem received (h : LinkRel R) (s : State) (code : Byte) (f : Frame) : R s (received s code f) :=
  h.trans (h.clockTransaction s (frameBytes code f) f.odd) (h.restartSilence _)

/-- What a frame does outside the link is what its owner does. -/
theorem takeFrame (h : LinkRel R) (s : State) (code : Byte) (f : Frame) (admits : List Byte → Bool)
    (owner : State → List Byte → Reply)
    (ho : admits (frameParams f) = true → ∀ s, R s (owner s (frameParams f)).state) :
    R s (takeFrame s code f admits owner) := by
  unfold Machine.takeFrame
  split
  · dsimp only
    split
    · unfold dispatchFrame
      split
      · exact h.trans (h.received s code f) (h.respond _ _ _ _)
      · rename_i ha
        split
        · exact h.trans (h.received s code f) (h.respond _ _ _ _)
        · exact h.trans (h.received s code f) (h.trans (ho (by simp at ha; exact ha.2) _) (h.respond _ _ _ _))
    · exact h.trans (h.clockTransaction s _ _) (h.respond _ _ _ _)
  · exact h.breakTransaction s _ _

theorem takeUnknown (h : LinkRel R) (s : State) (code : Byte) (f : Frame) : R s (takeUnknown s code f) := by
  unfold Machine.takeUnknown
  split
  · dsimp only
    split
    · exact h.trans (h.received s code f) (h.respond _ _ _ _)
    · exact h.trans (h.clockTransaction s _ _) (h.respond _ _ _ _)
  · exact h.breakTransaction s _ _

end LinkRel

/-! ### What the plain commands are made of -/

/-- The commands that reset the part, read the events, or move the Angle Clock. -/
def special : Instr → Bool
  | .powerOnReset | .crankEdge _ _ | .camEdge _ | .deadlineExpiry _ | .stall | .reset _ | .loadWheel _ | .readEvents _ => true
  | _ => false

/-- A relation closed under every update that a command which is not special is made of, but for what it does at the link. -/
structure OwnRel (R : State → State → Prop) : Prop extends OpRel (fun _ => True) (fun _ => False) R where
  supAny    : ∀ s c x, R s (s.setSup c x)
  demand    : ∀ s c x, R s (s.setDemand c x)
  trace     : ∀ s x, R s (s.setTrace x)
  mask      : ∀ (s : State) m, R s (s.setEvents { s.events with mask := m })
  sense     : ∀ (s : State) x, R s { s with sense := x }
  supply    : ∀ (s : State) x, R s { s with supply := x }
  tables    : ∀ s x, R s (s.setTables x)
  levels    : ∀ (s : State) x n, R s { s with level := x, nextRecharge := n }
  drive     : ∀ s k x, R s (s.setDrive k x)
  slow      : ∀ s k, R s (markSlow k s)
  stop      : ∀ s, R s (stopFiring s)
  drain     : ∀ s : State, s.firing = .armed → R s (drainTest (s.setFiring .draining))
  rearm     : ∀ s : State, R s (s.setFiring .armed)
  arm       : ∀ s, R s (armFromSafe s)
  service'  : ∀ s c u n g, R s (startService s c u n g)
  overspeed : ∀ (s : State) b, R s (s.setClock { s.clock with overspeed := b })
  techo     : ∀ s, R s (endTecho s)
  cmark     : ∀ s, R s (endCmark s)

namespace OwnRel

variable {R : State → State → Prop}

theorem whole (h : OwnRel R) : WholeRel (fun _ => True) (fun _ => False) R where
  toOpRel := h.toOpRel
  swap s := by
    unfold State.takePendingSwap
    split
    · exact h.tables s _
    · exact h.refl s
  supAny := h.supAny

theorem whenDue (h : OwnRel R) (s : State) (due : Bool) {f : State → State} (hf : due = true → R s (f s)) :
    R s (whenDue due f s) := by
  unfold Machine.whenDue
  split
  · exact hf ‹_›
  · exact h.refl s

/-! ### Samples -/

theorem judgeSample (h : OwnRel R) (k : Bank) (s : State) (x : Nat) : R s (judgeSample k s x) := by
  unfold Machine.judgeSample
  dsimp only
  split
  · exact injectorFault_rel h.whole k trivial s _
  · split
    · exact injectorFault_rel h.whole k trivial s _
    · split
      · exact h.trans (h.slow s k) (h.drive _ k _)
      · exact h.drive s k _

theorem takeDriveSample (h : OwnRel R) (k : Bank) (s : State) (x : Byte) : R s (takeDriveSample k s x) :=
  h.trans (h.sense s _) (h.trans (h.drive (s.readSense k x) k _) (h.judgeSample k _ _))

theorem takeTraceSample (h : OwnRel R) (k : Bank) (s : State) (x : Byte) : R s (takeTraceSample k s x) := by
  unfold Machine.takeTraceSample
  dsimp only
  split
  · exact h.trans (h.sense s _) (h.trans (h.trace _ _) (h.event _ _))
  · exact h.trans (h.sense s _) (h.trace _ _)

theorem takeSupply (h : OwnRel R) (s : State) (x : Nat) : R s (takeSupply s x) := by
  unfold Machine.takeSupply
  dsimp only
  split
  · exact h.supply s _
  · exact h.trans (h.supply s _) (h.event _ _)

/-! ### Owners -/

theorem judgeOverspeed (h : OwnRel R) (s : State) : R s (judgeOverspeed s) := by
  unfold Machine.judgeOverspeed
  dsimp only
  split
  · exact h.trans (h.overspeed s _) (h.event _ _)
  · exact h.overspeed s _

theorem applyLimits (h : OwnRel R) (s : State) (l : Limits) : R s (applyLimits s l) := by
  unfold Machine.applyLimits
  dsimp only
  have hclamp : R s (clampLevels (s.setTables { s.tables with limits := l })) :=
    h.trans (h.tables s _) (h.levels _ _ s.nextRecharge)
  have hspeed : R s (if l.maxSpeed = s.tables.limits.maxSpeed then clampLevels (s.setTables { s.tables with limits := l })
      else Machine.judgeOverspeed (clampLevels (s.setTables { s.tables with limits := l }))) := by
    split
    · exact hclamp
    · exact h.trans hclamp (h.judgeOverspeed _)
  split
  · exact hspeed
  · exact h.trans hspeed (h.trans (moveGap_rel h.toOpRel .bankA trivial _) (moveGap_rel h.toOpRel .bankB trivial _))

theorem cutBy (h : OwnRel R) (s : State) (c : Cyl) (op : CutOp) : R s (cutBy s c op) := by
  unfold Machine.cutBy
  dsimp only
  split
  · exact h.trans (h.supAny s c _) (h.trans (cutCylinder_rel h.toOpRel _ trivial _ c) (h.supAny _ c _))
  · exact h.supAny s c _

theorem ownCut (h : OwnRel R) (s : State) (ps : List Byte) : R s (ownCut s ps).state := by
  unfold Machine.ownCut
  split
  · exact h.cutBy s _ _
  · exact h.refl s
  · exact h.refl s

theorem ownDemand (h : OwnRel R) (s : State) (ps : List Byte) : R s (ownDemand s ps).state := by
  unfold Machine.ownDemand
  split
  · exact h.refl s
  · exact foldl_rel h.toOpRel _ (fun s _ => h.demand s _ _) _ s

theorem ownArm (h : OwnRel R) (s : State) (ps : List Byte) : R s (ownArm s ps).state := by
  unfold Machine.ownArm
  split
  · show R s (if s.firing = .safe then armFromSafe s else s.setFiring .armed)
    split
    · exact h.arm s
    · exact h.rearm s
  · exact h.refl s

theorem ownDisarm (h : OwnRel R) (s : State) (ps : List Byte) : R s (ownDisarm s ps).state := by
  unfold Machine.ownDisarm
  split
  · exact h.drain s ‹_›
  · exact h.refl s

theorem ownClearFault (h : OwnRel R) (s : State) (ps : List Byte) : R s (ownClearFault s ps).state := by
  unfold Machine.ownClearFault
  split
  · exact h.supAny s _ _
  · exact h.refl s

theorem ownService (h : OwnRel R) (s : State) (ps : List Byte) : R s (ownService s ps).state := by
  unfold Machine.ownService
  split
  · exact h.refl s
  · split
    · exact h.refl s
    · split
      · exact h.refl s
      · split
        · exact h.service' s _ _ _ _
        · exact h.refl s

theorem storeCyl (h : OwnRel R) (s : State) (c : Cyl) (r : CylRecord) : R s (storeCyl s c r) := by
  unfold Machine.storeCyl
  dsimp only
  split
  · exact h.tables s _
  · exact h.trans (h.tables s _) (h.demand _ _ _)

theorem ownLoadCyl (h : OwnRel R) (s : State) (ps : List Byte) : R s (ownLoadCyl s ps).state := by
  unfold Machine.ownLoadCyl
  split
  · exact h.refl s
  · split
    · exact h.refl s
    · split
      · exact h.refl s
      · split
        · exact h.refl s
        · exact h.storeCyl s _ _

theorem ownLoadProfile (h : OwnRel R) (s : State) (ps : List Byte) : R s (ownLoadProfile s ps).state := by
  unfold Machine.ownLoadProfile
  split
  · exact h.refl s
  · split
    · exact h.refl s
    · split
      · exact h.refl s
      · exact h.tables s _

theorem ownLoadPattern (h : OwnRel R) (s : State) (ps : List Byte) : R s (ownLoadPattern s ps).state := by
  unfold Machine.ownLoadPattern
  split
  · exact h.refl s
  · split
    · exact h.refl s
    · exact h.tables s _

theorem ownSwap (h : OwnRel R) (s : State) (ps : List Byte) : R s (ownSwap s ps).state := by
  unfold Machine.ownSwap
  split
  · exact h.refl s
  · split <;> exact h.tables s _

theorem ownTraceArm (h : OwnRel R) (s : State) (ps : List Byte) : R s (ownTraceArm s ps).state := by
  unfold Machine.ownTraceArm
  dsimp only
  split
  · exact h.trace s _
  · split
    · exact h.refl s
    · split
      · exact h.trace s _
      · exact h.refl s

theorem ownTraceRead (h : OwnRel R) (s : State) (ps : List Byte) : R s (ownTraceRead s ps).state := by
  unfold Machine.ownTraceRead
  split
  · exact h.trace s _
  · exact h.refl s

theorem ownSetMask (h : OwnRel R) (s : State) (ps : List Byte) : R s (ownSetMask s ps).state := by
  unfold Machine.ownSetMask
  split
  · exact h.mask s _
  · exact h.refl s

/-- A reading owner leaves the state. -/
theorem ownRead_state (s : State) (ps : List Byte) : (ownReadTable s ps).state = s ∧ (ownReadCyl s ps).state = s ∧
    (ownReadReport s ps).state = s ∧ (ownReadQueue s ps).state = s := by
  refine ⟨?_, ?_, ?_, ?_⟩
  · unfold ownReadTable
    split <;> rfl
  · unfold ownReadCyl
    split <;> rfl
  · unfold ownReadReport
    split <;> rfl
  · unfold ownReadQueue
    split
    · split <;> rfl
    · rfl

theorem ownRead (h : OwnRel R) {s t : State} (ht : t = s) : R s t := ht ▸ h.refl s

theorem ownStop (h : OwnRel R) (s : State) (ps : List Byte) : R s (ownStop s ps).state := by
  unfold Machine.ownStop took
  dsimp only
  exact h.stop s

/-! ### Commands -/

theorem expireSilence (h : OwnRel R) (s : State) : R s (expireSilence s) := by
  unfold Machine.expireSilence
  exact h.trans (h.event s _) (h.stop _)

theorem endOnSchedule (h : OwnRel R) (k : Bank) (s : State) : R s (endOnSchedule k s) := by
  unfold Machine.endOnSchedule
  split
  · exact h.refl s
  · exact h.trans (h.pulseEnd s k _ _ trivial) (settleGap_rel h.toOpRel k trivial _)

end OwnRel

/-- The same with what a command does at the link, where only the edges that wait are looked at. -/
structure PlainRel (R : State → State → Prop) : Prop extends OwnRel R, LinkRel R

namespace PlainRel

variable {R : State → State → Prop}

theorem link_rel (h : PlainRel R) : LinkRel R := ⟨h.refl, h.trans, h.link⟩

/-- The relation holds across every command that is not special. -/
theorem exec (h : PlainRel R) {i : Instr} (hi : special i = false) {s t : State} (he : exec i s = .next t) : R s t := by
  have key : ∀ {x : State}, Host.Outcome.next x = (Host.Outcome.next t : Host.Outcome State Fault Refusal) → R s x →
      R s t := fun hx hr => by cases hx; exact hr
  have hl := h.link_rel
  cases i with
  | powerOnReset => cases hi
  | crankEdge => cases hi
  | camEdge => cases hi
  | deadlineExpiry => cases hi
  | stall => cases hi
  | reset => cases hi
  | loadWheel => cases hi
  | readEvents => cases hi
  | busyPeriodEnd => exact key he (h.whenDue s _ fun _ => h.link s { s.link with busyUntil := none } rfl)
  | techoPulseEnd => exact key he (h.whenDue s _ fun _ => h.techo s)
  | cmarkPulseEnd => exact key he (h.whenDue s _ fun _ => h.cmark s)
  | timedInstant k tag =>
    exact key he (h.whenDue s _ (f := fun s => takeDue k s [tag]) fun _ => takeDue_rel h.toOpRel k trivial s _)
  | chainShotDue k tag =>
    exact key he (h.whenDue s _ (f := fun s => takeDue k s [tag]) fun _ => takeDue_rel h.toOpRel k trivial s _)
  | gapEnd k => exact key he (h.whenDue s _ fun hd => endGap_rel h.toOpRel k trivial s (dueGapEnd_cond hd))
  | deferDeadline k tag => exact key he (h.whenDue s _ (f := fun s => dropWithChain k s tag .shedConflict) fun _ =>
      dropWithChain_rel h.toOpRel k trivial s _ _)
  | scheduledEnd k => exact key he (h.whenDue s _ fun _ => h.endOnSchedule k s)
  | windowClose k c => exact key he (h.whenDue s _ (f := fun s => closeTrack k s c) fun _ =>
      closeTrack_rel h.toOpRel k trivial s c)
  | driveSample k x =>
    exact key he (h.whenDue s _ (f := fun s => Machine.takeDriveSample k s x) fun _ => h.takeDriveSample k s x)
  | traceSample x =>
    change execTraceSample x s = _ at he
    unfold execTraceSample at he
    split at he
    · exact key he (h.takeTraceSample _ s x)
    · exact key he (h.refl s)
  | rechargeStep => exact key he (h.whenDue s _ fun _ => h.levels s _ _)
  | supplySample x => exact key he (h.whenDue s _ (f := fun s => Machine.takeSupply s x.toNat) fun _ => h.takeSupply s _)
  | linkSilence => exact key he (h.whenDue s _ fun _ => h.expireSilence s)
  | brokenTransaction bytes odd => exact key he (hl.breakTransaction s bytes odd)
  | unknown code f => exact key he (hl.takeUnknown s code f)
  | nop f => exact key he (hl.takeFrame s _ _ _ _ fun _ s => h.refl s)
  | readId f => exact key he (hl.takeFrame s _ _ _ _ fun _ s => h.refl s)
  | loadCyl f => exact key he (hl.takeFrame s _ _ _ _ fun _ s => h.ownLoadCyl s _)
  | loadProfile f => exact key he (hl.takeFrame s _ _ _ _ fun _ s => h.ownLoadProfile s _)
  | loadPattern f => exact key he (hl.takeFrame s _ _ _ _ fun _ s => h.ownLoadPattern s _)
  | swap f => exact key he (hl.takeFrame s _ _ _ _ fun _ s => h.ownSwap s _)
  | loadLimits f => exact key he (hl.takeFrame s _ _ _ _ fun _ s => h.applyLimits s _)
  | readTable f => exact key he (hl.takeFrame s _ _ _ _ fun _ s => h.ownRead (OwnRel.ownRead_state s _).1)
  | demand f => exact key he (hl.takeFrame s _ _ _ _ fun _ s => h.ownDemand s _)
  | arm f => exact key he (hl.takeFrame s _ _ _ _ fun _ s => h.ownArm s _)
  | disarm f => exact key he (hl.takeFrame s _ _ _ _ fun _ s => h.ownDisarm s _)
  | stop f => exact key he (hl.takeFrame s _ _ _ _ fun _ s => h.ownStop s _)
  | cutSet f => exact key he (hl.takeFrame s _ _ _ _ fun _ s => h.ownCut s _)
  | cutClear f => exact key he (hl.takeFrame s _ _ _ _ fun _ s => h.ownCut s _)
  | cutToggle f => exact key he (hl.takeFrame s _ _ _ _ fun _ s => h.ownCut s _)
  | cutTest f => exact key he (hl.takeFrame s _ _ _ _ fun _ s => h.ownCut s _)
  | clearFault f => exact key he (hl.takeFrame s _ _ _ _ fun _ s => h.ownClearFault s _)
  | service f => exact key he (hl.takeFrame s _ _ _ _ fun _ s => h.ownService s _)
  | traceArm f => exact key he (hl.takeFrame s _ _ _ _ fun _ s => h.ownTraceArm s _)
  | traceRead f => exact key he (hl.takeFrame s _ _ _ _ fun _ s => h.ownTraceRead s _)
  | readAngle f => exact key he (hl.takeFrame s _ _ _ _ fun _ s => h.refl s)
  | readTime f => exact key he (hl.takeFrame s _ _ _ _ fun _ s => h.refl s)
  | readStatus f => exact key he (hl.takeFrame s _ _ _ _ fun _ s => h.refl s)
  | readCyl f => exact key he (hl.takeFrame s _ _ _ _ fun _ s => h.ownRead (OwnRel.ownRead_state s _).2.1)
  | readReport f => exact key he (hl.takeFrame s _ _ _ _ fun _ s => h.ownRead (OwnRel.ownRead_state s _).2.2.1)
  | readQueue f => exact key he (hl.takeFrame s _ _ _ _ fun _ s => h.ownRead (OwnRel.ownRead_state s _).2.2.2)
  | readCounters f => exact key he (hl.takeFrame s _ _ _ _ fun _ s => h.refl s)
  | setMask f => exact key he (hl.takeFrame s _ _ _ _ fun _ s => h.ownSetMask s _)

end PlainRel

end Sys2Proof.Proofs.Plain
end

section
/-! SUPPORT. The bank condition with its Drive Stage and its lines, and the levels of the reservoirs. -/

namespace Sys2Proof.Proofs.BankAgreement

open Sys2Proof Sys2Proof.Machine Sys2Proof.Laws Sys2Proof.Laws.Fine Sys2Proof.Proofs.Steps Sys2Proof.Proofs.Tables
  Sys2Proof.Proofs.Banks Sys2Proof.Proofs.Counters Sys2Proof.Proofs.Plain

/-! ### Condition, pulse, phase, gate and boost switch -/

/-- The Drive Stage of a pulse. -/
def Driving (d : DriveStage) : Prop :=
  (d.phase = .boost ∨ d.phase = .peak ∨ d.phase = .hold) ∧ d.output.isSome = true ∧
    d.boostSw = (d.phase == .boost)

/-- The Drive Stage of a bank without a pulse. -/
def Resting (p : Phase) (d : DriveStage) : Prop :=
  d.phase = p ∧ d.output = none ∧ d.gate = false ∧ d.boostSw = false

/-- R96, R131, R138: one line per bank condition. -/
theorem bankAgrees_iff {q : Sched} {d : DriveStage} : bankAgrees q d = true ↔
    (q.cond = .idle ∧ q.active = none ∧ Resting .off d) ∨ (q.cond = .gap ∧ q.active = none ∧ Resting .quench d) ∨
    (q.cond = .active ∧ q.active.isSome = true ∧ Driving d) := by
  unfold bankAgrees Resting Driving
  cases q.cond <;> cases q.active <;> simp [and_assoc, or_assoc]

theorem bankAgrees_congr {q q' : Sched} {d : DriveStage} (hc : q'.cond = q.cond) (ha : q'.active.isSome = q.active.isSome) :
    bankAgrees q d = true → bankAgrees q' d = true := by
  rw [bankAgrees_iff, bankAgrees_iff, hc, ha, ← Option.isNone_iff_eq_none, ← Option.isNone_iff_eq_none,
    ← Option.not_isSome, ← Option.not_isSome, ha]
  exact id

theorem driving_started (r : CylRecord) (p : ProfileRecord) (now : Nat) (dg : Bool) : Driving (.started r p now dg) := by
  unfold Driving DriveStage.started
  cases dg
  · simp
  · by_cases h : p.peakHold = 0 <;> simp [h]

theorem driving_movePhase {d : DriveStage} (h : Driving d) (now x : Nat) : Driving (d.movePhase now x) := by
  obtain ⟨hp, ho, hb⟩ := h
  unfold DriveStage.movePhase DriveStage.endBoost DriveStage.enterHold Driving
  rcases hp with hp | hp | hp <;> simp only [hp] at hb ⊢
  · split
    · split <;> simp [ho]
    · simp [hp, ho, hb]
  · split <;> simp [hp, ho, hb]
  · simp [ho, hb]

theorem driving_moveGate {d : DriveStage} (h : Driving d) (x : Nat) : Driving (d.moveGate x) := by
  unfold DriveStage.moveGate
  split <;> exact h

theorem conditions_bankInv : BankInv True (fun _ => True) fun _ _ q d => bankAgrees q d = true where
  drop {_ _ q _} h t := by
    obtain ⟨-, ha, -, hc, -⟩ := droppedFrom_sublist q t
    exact bankAgrees_congr hc (by rw [ha]) h
  ended _ _ _ := by simp [bankAgrees, Sched.ended, DriveStage.quenched]
  queue h _ _ := bankAgrees_congr rfl rfl h
  pulse {_ _ q _} h _ _ _ := bankAgrees_congr (q := q) rfl (by simp) h
  opened _ _ _ _ _ _ _ _ _ := bankAgrees_iff.2 (.inr (.inr ⟨rfl, rfl, driving_started _ _ _ _⟩))
  gap h hc := by
    rcases bankAgrees_iff.1 h with ⟨hi, -⟩ | ⟨-, ha, hp, hrest⟩ | ⟨hi, -⟩
    · rw [hc] at hi; cases hi
    · exact bankAgrees_iff.2 (.inl ⟨rfl, ha, rfl, hrest⟩)
    · rw [hc] at hi; cases hi
  regap h hc := by
    rcases bankAgrees_iff.1 h with ⟨-, ha, hp, hrest⟩ | ⟨hi, -⟩ | ⟨hi, -⟩
    · exact bankAgrees_iff.2 (.inr (.inl ⟨rfl, ha, rfl, hrest⟩))
    · rw [hc] at hi; cases hi
    · rw [hc] at hi; cases hi
  enqueue h _ _ _ _ := bankAgrees_congr rfl rfl h
  turned h := bankAgrees_congr rfl rfl h
  counted h := h
  moved h ha now x := by
    rcases bankAgrees_iff.1 h with ⟨-, hn, -⟩ | ⟨-, hn, -⟩ | ⟨hc, hs, hd⟩
    · rw [hn] at ha; cases ha
    · rw [hn] at ha; cases ha
    · exact bankAgrees_iff.2 (.inr (.inr ⟨hc, hs, driving_moveGate (driving_movePhase hd now x) x⟩))
  service h _ _ _ _ _ _ := bankAgrees_congr rfl rfl h
  records _ _ _ _ _ _ h := h
  reset _ := rfl

/-! ### Levels -/

/-- The levels stay within the capacities. -/
def LevelsKept (s t : State) : Prop := levelsAgree s → levelsAgree t

theorem LevelsKept.of_same {s t : State} (hl : t.level = s.level) (hc : t.tables.limits = s.tables.limits) :
    LevelsKept s t := fun h k => by
  show t.level.get k ≤ t.tables.limits.capacity.get k
  rw [hl, hc]
  exact h k

theorem levelsKept_setLevel {s : State} {k : Bank} {x : Nat} (h : levelsAgree s → x ≤ s.tables.limits.capacity.get k) :
    LevelsKept s (s.setLevel k x) := fun hs j => by
  rw [setLevel_levelOf]
  split
  · subst j; exact h hs
  · exact hs j

theorem dropAll_level (k : Bank) (l : List (Byte × ShotOutcome)) (s : State) :
    (l.foldl (dropShot k) s).level = s.level := by
  induction l generalizing s with
  | nil => rfl
  | cons x l ih => exact (ih _).trans (dropShot_level k s x)

theorem followEnd_level (s : State) (k : Bank) (tag : Byte) (o : ShotOutcome) :
    (followEnd s k tag o).level = s.level := by
  unfold followEnd
  split
  · rfl
  · split
    · exact dropAll_level k _ s
    · rfl

theorem countEnd_level (s : State) (c : Cyl) (o : ShotOutcome) : (countEnd s c o).level = s.level := by
  unfold countEnd
  split <;> rfl

/-- R118: a pulse end gives the recuperation to its own reservoir alone. -/
theorem endPulse_level (k : Bank) (s : State) (o : ShotOutcome) (f : Option FaultKind) :
    (endPulse k s o f).level = if (s.schedOf k).active.isSome then (creditRecup s k).level else s.level := by
  unfold endPulse
  split
  · rename_i h
    rw [h]
    rfl
  · rename_i p h
    rw [h, drainTest_level, followEnd_level, countEnd_level, writeOutcome_level]
    rfl

/-- The capacities, with the rest of the limits, are no part of what the banks change. -/
theorem limits_bank : BankRel fun s t => t.tables.limits = s.tables.limits where
  refl _ := rfl
  trans h1 h2 := h2.trans h1
  sched _ _ _ := rfl
  drive _ _ _ := rfl
  level _ _ _ := rfl
  sup _ _ _ := rfl
  event _ _ := rfl
  safe := goSafe_limits
  swap := takePendingSwap_limits
  trace _ _ := rfl
  service _ := rfl

theorem endPulse_levelsKept (k : Bank) (s : State) (o : ShotOutcome) (f : Option FaultKind) :
    LevelsKept s (endPulse k s o f) := by
  have hlim : (endPulse k s o f).tables.limits = s.tables.limits := Laws.endPulse_rel limits_bank k s o f
  have hlev := endPulse_level k s o f
  split at hlev
  · have hcredit : LevelsKept s (creditRecup s k) := levelsKept_setLevel fun _ => Nat.min_le_left _ _
    exact fun h => LevelsKept.of_same hlev hlim (hcredit h)
  · exact .of_same hlev hlim

theorem openPulse_level (k : Bank) (s : State) (x : Shot) (dg : Bool) : (openPulse k s x dg).level = s.level := by
  unfold openPulse traceStart
  dsimp only
  split <;> rfl

theorem openPulse_levelsKept (k : Bank) (s : State) (x : Shot) (dg : Bool) : LevelsKept s (openPulse k s x dg) :=
  .of_same (openPulse_level k s x dg) (Laws.openPulse_rel limits_bank k s x dg)

theorem chargeBoost_levelsKept (s : State) (k : Bank) (c : Cyl) : LevelsKept s (chargeBoost s k c) :=
  levelsKept_setLevel fun h => Nat.le_trans (Nat.sub_le _ _) (h k)

theorem levels_reset : levelsAgree State.reset := by
  intro k
  cases k <;> decide

/-- R115, R118, R119: nothing but a recuperation and a recharge raises a level, both up to the capacity, and new capacities
clamp it. -/
theorem levelsKept_blind : BlindRel True (fun _ => True) (fun _ => True) LevelsKept where
  refl _ := id
  trans h1 h2 h := h2 (h1 h)
  sup _ _ _ _ := id
  service _ := id
  event _ _ := id
  drop s k x _ := .of_same (dropShot_level k s x) (dropShot_limits k s x)
  pulseEnd s k o f _ := endPulse_levelsKept k s o f
  queue _ _ _ _ _ := id
  tracks _ _ _ _ := id
  close _ _ _ _ _ := id
  boosted s k x _ _ _ _ h := openPulse_levelsKept k _ x false (chargeBoost_levelsKept s k x.cyl h)
  degraded s k x _ _ _ := openPulse_levelsKept k s x true
  gap _ _ _ _ := id
  regap _ _ _ _ := id
  enqueue _ _ _ _ _ _ _ := id
  turned _ _ _ _ _ := id
  swap s := .of_same (takePendingSwap_level s) (takePendingSwap_limits s)
  supAny _ _ _ := id
  toPlanRel := planRel_true fun _ _ _ => id
  clock _ _ := id
  firing _ _ := id
  link _ _ := id
  trace _ _ := id
  events _ _ := id
  sense _ _ := id
  supply _ _ := id
  queueing _ _ := id
  ticking _ := id
  recharge s _ k := by cases k <;> exact Nat.min_le_left _ _
  counted _ _ _ := id
  moved _ _ _ _ := id
  slow _ _ := id
  load s x hl _ := .of_same rfl (by
    cases hl with
    | pattern _ _ b => cases b <;> rfl
    | _ => rfl)
  pend _ := id
  wheel _ _ _ _ := id
  limits s ps _ k := by cases k <;> exact Nat.min_le_left _ _
  arm _ := id
  service' _ _ _ _ := id
  resets _ _ _ := levels_reset

/-! ### Outputs -/

/-- R104, R131: what is queued and what is on belongs to the bank, and the Drive Stage drives its output. -/
def Owned (y : Cyls CylRecord) (k : Bank) (q : Sched) (d : DriveStage) : Prop :=
  (∀ x ∈ q.queue, (y.get x.cyl).bank = k) ∧
    ∀ p ∈ q.active, (y.get p.cyl).bank = k ∧ d.output = some (y.get p.cyl).output

theorem movePhase_output (d : DriveStage) (now x : Nat) : (d.movePhase now x).output = d.output := by
  unfold DriveStage.movePhase
  split
  · rfl
  · split
    · unfold DriveStage.endBoost
      dsimp only
      split <;> rfl
    · rfl
  · split <;> rfl
  · rfl
  · rfl

theorem moveGate_output (d : DriveStage) (x : Nat) : (d.moveGate x).output = d.output := by
  unfold DriveStage.moveGate
  split <;> rfl

theorem owned_bankInv : BankInv False (fun _ => True) Owned where
  drop {_ _ q _} h t := by
    obtain ⟨hq, ha, -⟩ := droppedFrom_sublist q t
    exact ⟨fun x hx => h.1 x (hq.subset hx), by rw [ha]; exact h.2⟩
  ended h _ _ := ⟨h.1, fun p hp => by cases hp⟩
  queue h f hf := ⟨fun x hx => by
    obtain ⟨y, hy, rfl⟩ := List.mem_map.1 hx
    obtain ⟨-, hc, -⟩ := hf y
    rw [hc]
    exact h.1 y hy, h.2⟩
  pulse h _ _ _ := ⟨h.1, fun p hp => by
    obtain ⟨p', hp', rfl⟩ := Option.map_eq_some_iff.1 hp
    exact h.2 p' hp'⟩
  opened h _ x hx _ _ _ _ _ := ⟨fun y hy => h.1 y (List.eraseP_subset hy), fun p hp => by
    cases hp
    exact ⟨h.1 x hx, rfl⟩⟩
  gap h _ := h
  regap h _ := h
  enqueue {_ _ q _} h a x _ hb := ⟨fun y hy => by
    rcases List.mem_cons.1 ((insertShot_perm a x q.queue).subset hy) with rfl | hy
    · exact hb
    · exact h.1 y hy, h.2⟩
  turned h := h
  counted h := h
  moved h _ now x := ⟨h.1, fun p hp => by
    rw [moveGate_output, movePhase_output]
    exact h.2 p hp⟩
  service h _ _ _ _ _ hb := ⟨fun y hy => by
    rcases List.mem_append.1 hy with hy | hy
    · exact h.1 y hy
    · obtain ⟨i, -, rfl⟩ := List.mem_map.1 hy
      exact hb, h.2⟩
  records h := h.elim
  reset _ := ⟨by simp [Sched.reset], by simp [Sched.reset]⟩

theorem owned_blind : BlindRel False (fun _ => True) (fun _ => True) (Kept Owned) :=
  owned_bankInv.blindRel (fun _ _ _ _ => trivial) (planRel_true (R := Kept Owned) fun _ _ _ => .of_same (.refl _) rfl rfl rfl).plan

/-- The banks as they were, cylinder by cylinder and Drive Stage by Drive Stage. -/
def SameBanks (s t : State) : Prop := t.sched = s.sched ∧ t.drive = s.drive

theorem sameBanks_link : LinkRel SameBanks where
  refl _ := ⟨rfl, rfl⟩
  trans h1 h2 := ⟨h2.1.trans h1.1, h2.2.trans h1.2⟩
  link _ _ _ := ⟨rfl, rfl⟩

/-- R29: LOAD_CYL touches no bank. -/
theorem ownLoadCyl_sameBanks (s : State) (ps : List Byte) : SameBanks s (ownLoadCyl s ps).state := by
  unfold ownLoadCyl
  split
  · exact ⟨rfl, rfl⟩
  · split
    · exact ⟨rfl, rfl⟩
    · split
      · exact ⟨rfl, rfl⟩
      · split
        · exact ⟨rfl, rfl⟩
        · show SameBanks s (storeCyl s _ _)
          unfold storeCyl
          dsimp only
          split <;> exact ⟨rfl, rfl⟩

/-- Empty banks own nothing that a record could take from them. -/
theorem outputsAgree_of_empty {s : State} (h : ∀ k, (s.schedOf k).queue = [] ∧ (s.schedOf k).active = none) :
    outputsAgree s := fun k => by
  obtain ⟨hq, ha⟩ := h k
  rw [hq, ha]
  exact ⟨by simp, by simp⟩

theorem outputsAgree_loadCyl {f : Frame} {s t : State} (h : outputsAgree s) (he : exec (.loadCyl f) s = .next t)
    (hc : t.tables.cyl = s.tables.cyl) : outputsAgree t := by
  obtain ⟨hs, hd⟩ : SameBanks s t := by
    cases he
    exact sameBanks_link.takeFrame s _ _ _ _ fun _ s => ownLoadCyl_sameBanks s _
  intro k
  have := h k
  simpa only [State.schedOf, State.driveOf, State.bankOf, State.cylOf, hs, hd, hc] using this

theorem step_outputsAgree {s t : State} (h : outputsAgree s) (he : step s = .next t)
    (hc : t.tables.cyl = s.tables.cyl ∨ ∀ k, (t.schedOf k).queue = [] ∧ (t.schedOf k).active = none) :
    outputsAgree t := by
  rcases hc with hc | hempty
  · rcases step_way he with ⟨⟨i, q, l, he⟩ | ⟨l, rfl⟩⟩ | ⟨-, rfl⟩
    · by_cases hi : ∃ f, i = .loadCyl f
      · obtain ⟨f, rfl⟩ := hi
        exact outputsAgree_loadCyl (s := { s with pending := q, link := l }) h he hc
      · exact (exec_rel owned_blind.execRel (.inr fun f hf => hi ⟨f, hf⟩) trivial he).banks h
    · exact h
    · exact h
  · exact outputsAgree_of_empty hempty

/-! ### Lines -/

/-- R131: a boost line is high exactly in BOOST. -/
theorem boostLine_iff {s : State} {k : Bank} (h : bankAgrees (s.schedOf k) (s.driveOf k) = true) :
    s.boostLine k = true ↔ (s.driveOf k).phase = .boost := by
  unfold State.boostLine
  rcases bankAgrees_iff.1 h with ⟨-, -, hp, -, -, hb⟩ | ⟨-, -, hp, -, -, hb⟩ | ⟨-, -, -, -, hb⟩
  · simp [hp, hb]
  · simp [hp, hb]
  · simp [hb]

theorem gateLine_iff_drive (s : State) (out : Fin 8) :
    s.gateLine out = true ↔ ∃ k, (s.driveOf k).output = some out ∧ (s.driveOf k).gate = true := by
  have hbanks : (∃ k, (s.driveOf k).output = some out ∧ (s.driveOf k).gate = true) ↔
      (s.drive.a.output = some out ∧ s.drive.a.gate = true) ∨ (s.drive.b.output = some out ∧ s.drive.b.gate = true) :=
    ⟨fun ⟨k, hk⟩ => by cases k; exacts [.inl hk, .inr hk],
      fun h => h.elim (fun ha => ⟨.bankA, ha⟩) fun hb => ⟨.bankB, hb⟩⟩
  rw [hbanks]
  simp [State.gateLine]

/-- R131: a bank drives an output only with a pulse on. -/
theorem active_of_output {s : State} {k : Bank} {out : Fin 8} (h : bankAgrees (s.schedOf k) (s.driveOf k) = true)
    (ho : (s.driveOf k).output = some out) : ∃ p, (s.schedOf k).active = some p := by
  rcases bankAgrees_iff.1 h with ⟨-, -, -, hn, -⟩ | ⟨-, -, -, hn, -⟩ | ⟨-, ha, -⟩
  · rw [ho] at hn; cases hn
  · rw [ho] at hn; cases hn
  · exact Option.isSome_iff_exists.1 ha

theorem gateLine_iff {s : State} (h : ∀ k, bankAgrees (s.schedOf k) (s.driveOf k) = true) (out : Fin 8) :
    s.gateLine out = true ↔
      ∃ k p, (s.schedOf k).active = some p ∧ (s.driveOf k).output = some out ∧ (s.driveOf k).gate = true := by
  rw [gateLine_iff_drive]
  constructor
  · rintro ⟨k, ho, hg⟩
    obtain ⟨p, hp⟩ := active_of_output (h k) ho
    exact ⟨k, p, hp, ho, hg⟩
  · rintro ⟨k, p, -, ho, hg⟩
    exact ⟨k, ho, hg⟩

theorem gateLine_iff_cyl {s : State} (h : ∀ k, bankAgrees (s.schedOf k) (s.driveOf k) = true) (ho : outputsAgree s)
    (out : Fin 8) : s.gateLine out = true ↔
      ∃ k p, (s.schedOf k).active = some p ∧ (s.cylOf p.cyl).output = out ∧ (s.driveOf k).gate = true := by
  rw [gateLine_iff h]
  refine exists_congr fun k => exists_congr fun p => and_congr_right fun hp => and_congr_left fun _ => ?_
  rw [((ho k).2 p hp).2, Option.some_inj]

/-- R28, R131: a bank's pulse is on an output of the bank, so its gate lines are high one at a time. -/
theorem gateLine_unique {s : State} (h : ∀ k, bankAgrees (s.schedOf k) (s.driveOf k) = true) (ho : outputsAgree s)
    {out out' : Fin 8} (hb : out.val < 4 ↔ out'.val < 4) (h1 : s.gateLine out = true) (h2 : s.gateLine out' = true) :
    out = out' := by
  obtain ⟨k, p, hp, rfl, -⟩ := (gateLine_iff_cyl h ho out).1 h1
  obtain ⟨k', p', hp', rfl, -⟩ := (gateLine_iff_cyl h ho out').1 h2
  have hk : k = k' := by
    rw [← ((ho k).2 p hp).1, ← ((ho k').2 p' hp').1]
    unfold State.bankOf CylRecord.bank
    simp only [hb]
  subst hk
  rw [hp] at hp'
  cases hp'
  rfl

/-- Settles O50: condition, pulse and Drive Stage of a bank only move together; a level is raised up to the capacity alone;
and a shot is queued on the bank of its cylinder, whose output its pulse drives. -/
theorem stepKeepsTheBanks : Obligations.StepKeepsTheBanks := by
  unfold Obligations.StepKeepsTheBanks
  refine ⟨fun s t ⟨hb, hl⟩ he => ⟨conditions_bankInv.step he hb, step_rel levelsKept_blind.execRel trivial trivial he hl⟩,
    fun s t h he hc => step_outputsAgree h he hc,
    fun s h => ⟨fun k => boostLine_iff (h k), gateLine_iff h, fun ho =>
      ⟨gateLine_iff_cyl h ho, fun out out' hb h1 h2 => gateLine_unique h ho hb h1 h2⟩⟩⟩

end Sys2Proof.Proofs.BankAgreement
end

section
/-! SUPPORT. Removals and pulse ends in the words of the statements: what they change of the banks, what they tell the
Supervisor, and the one drain test that several of them come to. -/

namespace Sys2Proof.Proofs.Removals

open Sys2Proof Sys2Proof.Machine Sys2Proof.Laws

/-! ### The drain test once -/

/-- The state with what the banks and the Supervisor hold in another. -/
def withBanks (s b : State) : State :=
  { s with sched := b.sched, drive := b.drive, level := b.level, events := b.events, sup := b.sup, service := b.service }

/-- The change from `s` to `t` is one of the banks and the Supervisor alone. -/
def BankChange (s t : State) : Prop := t = withBanks s t

theorem BankChange.refl (s : State) : BankChange s s := rfl

theorem BankChange.trans {s t u : State} (h1 : BankChange s t) (h2 : BankChange t u) : BankChange s u := by
  unfold BankChange withBanks at *
  rw [h2, h1]

theorem BankChange.tellAll (s : State) (os) : BankChange s (tellAll s os) := by
  unfold BankChange withBanks
  rw [tellAll_eq]

theorem drainSettled_agrees (s : State) : drainAgrees (drainSettled s) := by
  rw [← drainTest_settled]
  exact drainTest_drainAgrees s

/-- Where DRAINING has not run out, the test does nothing. -/
theorem drainSettled_of_agrees {s : State} (h : drainAgrees s) : drainSettled s = s := by
  rw [← drainTest_settled]
  refine if_neg fun hd => ?_
  rw [h hd.1] at hd
  exact Bool.false_ne_true hd.2

theorem drainSettled_of_ne {s : State} (h : s.firing ≠ .draining) : drainSettled s = s :=
  drainSettled_of_agrees fun hd => absurd hd h

/-! ### What the Supervisor is told -/

theorem told_counted (x : CylSup) (n : Nat) (b : Bool) (os : List (Byte × PlaceOutcome)) :
    ({ x with faults := n, firstPulse := b } : CylSup).told os = { x.told os with faults := n, firstPulse := b } := by
  unfold CylSup.told
  dsimp only
  split
  · rfl
  · split
    · rfl
    · split <;> rfl

theorem serviceDone_counted (x : CylSup) (n : Nat) (b : Bool) (os : List (Byte × PlaceOutcome)) :
    ({ x with faults := n, firstPulse := b } : CylSup).serviceDone os = x.serviceDone os := rfl

theorem told_append (x : CylSup) (xs ys : List (Byte × PlaceOutcome)) : x.told (xs ++ ys) = (x.told xs).told ys := by
  induction xs generalizing x with
  | nil => rw [told_nil]; rfl
  | cons a xs ih => rw [List.cons_append, told_cons, ih, ← told_cons]

theorem serviceDone_append (x : CylSup) (xs ys : List (Byte × PlaceOutcome)) :
    x.serviceDone (xs ++ ys) = (x.serviceDone xs || (x.told xs).serviceDone ys) := by
  induction xs generalizing x with
  | nil => simp
  | cons a xs ih => rw [List.cons_append, serviceDone_cons, ih, serviceDone_cons x a xs, told_cons x a xs, Bool.or_assoc]

theorem outcomesOf_append (xs ys : List (Cyl × Byte × PlaceOutcome)) (c : Cyl) :
    outcomesOf (xs ++ ys) c = outcomesOf xs c ++ outcomesOf ys c := by
  simp [outcomesOf]

/-- What is told depends on the Supervisor alone. -/
theorem outcomesTold_congr {s s' t t' : State} {os : List (Cyl × Byte × PlaceOutcome)} (h : outcomesTold s t os)
    (hs : s'.sup = s.sup) (hv : s'.service = s.service) (ht : t'.sup = t.sup) (hw : t'.service = t.service) :
    outcomesTold s' t' os := by
  unfold outcomesTold State.supOf at *
  rwa [hs, hv, ht, hw]

theorem outcomesTold_trans {s t u : State} {xs ys : List (Cyl × Byte × PlaceOutcome)} (h1 : outcomesTold s t xs)
    (h2 : outcomesTold t u ys) : outcomesTold s u (xs ++ ys) := by
  obtain ⟨ht, hv⟩ := h1
  obtain ⟨hu, hw⟩ := h2
  refine ⟨fun c => by rw [hu, ht, outcomesOf_append, told_append], ?_⟩
  rw [hw, hv]
  have hor : (∃ c, (s.supOf c).serviceDone (outcomesOf (xs ++ ys) c) = true) ↔
      (∃ c, (s.supOf c).serviceDone (outcomesOf xs c) = true) ∨ ∃ c, (t.supOf c).serviceDone (outcomesOf ys c) = true := by
    rw [← exists_or]
    exact exists_congr fun c => by rw [outcomesOf_append, serviceDone_append, ht, Bool.or_eq_true]
  by_cases h2 : ∃ c, (t.supOf c).serviceDone (outcomesOf ys c) = true
  · rw [if_pos h2, if_pos (hor.2 (.inr h2))]
  · rw [if_neg h2]
    exact if_congr (hor.trans (or_iff_left h2)).symm rfl rfl

/-- Counting an end commutes with what is told. -/
theorem outcomesTold_counted {s t : State} {os : List (Cyl × Byte × PlaceOutcome)} (h : outcomesTold s t os) (c : Cyl) :
    outcomesTold (endCounted s c) (endCounted t c) os := by
  obtain ⟨ht, hv⟩ := h
  have hsup : ∀ (u : State) d, (endCounted u c).supOf d =
      if d = c then { u.supOf c with faults := 0, firstPulse := false } else u.supOf d := fun u d => cyls_get_set _ _ _ _
  refine ⟨fun d => ?_, ?_⟩
  · rw [hsup, hsup, ht, ht]
    split
    · subst d; exact (told_counted _ _ _ _).symm
    · rfl
  · refine hv.trans (if_congr (exists_congr fun d => ?_) rfl rfl)
    rw [hsup]
    split
    · subst d; exact Iff.rfl
    · exact Iff.rfl

/-! ### Removals -/

/-- R93, R112, R113: the shots of a list are gone from the queue of a bank, counted and told. -/
def removed (k : Bank) (cs : List (Shot × ShotOutcome)) (s : State) : State :=
  tellAll { s with sched := s.sched.set k (droppedAll (s.schedOf k) cs), events := eventsAfter s cs } (chainOutcomes cs)

theorem droppedAll_nil (q : Sched) : droppedAll q [] = q := by simp [droppedAll]

theorem removed_nil (k : Bank) (s : State) : removed k [] s = s := by
  unfold removed chainOutcomes eventsAfter
  rw [droppedAll_nil, show s.schedOf k = s.sched.get k from rfl, banks_set_get]
  rfl

theorem removed_change (k : Bank) (cs : List (Shot × ShotOutcome)) (s : State) : BankChange s (removed k cs s) :=
  .trans (t := { s with sched := s.sched.set k (droppedAll (s.schedOf k) cs), events := eventsAfter s cs }) rfl
    (.tellAll _ _)

theorem removed_sched (k : Bank) (cs : List (Shot × ShotOutcome)) (s : State) :
    (removed k cs s).sched = s.sched.set k (droppedAll (s.schedOf k) cs) := tellAll_sched _ _

theorem removed_told (k : Bank) (cs : List (Shot × ShotOutcome)) (s : State) :
    outcomesTold s (removed k cs s) (chainOutcomes cs) :=
  outcomesTold_congr (tellAll_told
    { s with sched := s.sched.set k (droppedAll (s.schedOf k) cs), events := eventsAfter s cs } _) rfl rfl rfl rfl

/-- Each shot of the list stands in the queue, named by its tag alone. -/
structure Named (q : List Shot) (cs : List (Shot × ShotOutcome)) : Prop where
  nodup : (cs.map fun z => z.1.tag).Nodup
  named : ∀ z ∈ cs, q.filter (fun y => y.tag == z.1.tag) = [z.1]

theorem dropAll_removed (k : Bank) {s : State} {cs : List (Shot × ShotOutcome)} (hn : Named (s.schedOf k).queue cs)
    (hd : drainAgrees s) : (cs.map fun z => (z.1.tag, z.2)).foldl (dropShot k) s = drainSettled (removed k cs s) := by
  rw [dropAll_eq k s cs hn.nodup hn.named]
  split
  · rename_i h
    subst h
    rw [removed_nil, drainSettled_of_agrees hd]
  · exact drainTest_settled _

theorem drained_iff {s : State} : drained s = true ↔ ∀ k, (s.schedOf k).queue = [] ∧ (s.schedOf k).active = none := by
  unfold drained
  simp only [Bool.and_eq_true, List.isEmpty_iff, Option.isNone_iff_eq_none]
  constructor
  · rintro ⟨⟨⟨ha, hb⟩, pa⟩, pb⟩ k
    cases k
    · exact ⟨ha, pa⟩
    · exact ⟨hb, pb⟩
  · intro h
    exact ⟨⟨⟨(h .bankA).1, (h .bankB).1⟩, (h .bankA).2⟩, (h .bankB).2⟩

/-! ### The end of a pulse -/

/-- R105, R118, R138, R156: a pulse is off the bank, its end counted unless it is FAULTED, and its outcome told. -/
def pulseGone (k : Bank) (p : Option Pulse) (o : ShotOutcome) (f : Option FaultKind) (s : State) : State :=
  tellAll (if o = .faulted then pulseOff s k p else pulseCounted (pulseOff s k p) p) (pulseOutcome s p o f)

theorem pulseGone_none (k : Bank) (o : ShotOutcome) (f : Option FaultKind) (s : State) : pulseGone k none o f s = s := by
  unfold pulseGone
  exact ite_self _

theorem result_eq (s : State) (p : Pulse) (o : ShotOutcome) (f : Option FaultKind) :
    p.result s.timebase o f = endedNow s p o f := by
  unfold Pulse.result endedNow
  by_cases h : o = .firedPreempted
  · simp [h]
  · simp [h, beq_eq_false_iff_ne.2 h]

theorem countEnd_writeOutcome (s : State) (c : Cyl) (tag : Byte) (r : PlaceOutcome) (o : ShotOutcome) :
    countEnd (writeOutcome s c tag r) c o =
      writeOutcome (if o = .faulted then s else endCounted s c) c tag r := by
  unfold countEnd
  split
  · rfl
  · have hsup : (endCounted s c).supOf c = { s.supOf c with faults := 0, firstPulse := false } := cyls_get_set_same _ _ _
    have htold : ((endCounted s c).supOf c).told [(tag, r)] =
        { (s.supOf c).told [(tag, r)] with faults := 0, firstPulse := false } := hsup ▸ told_counted _ _ _ _
    have hdone : ((endCounted s c).supOf c).serviceDone [(tag, r)] = (s.supOf c).serviceDone [(tag, r)] :=
      hsup ▸ serviceDone_counted _ _ _ _
    rw [supOf_writeOutcome, if_pos rfl, writeOutcome_told, writeOutcome_told, htold, hdone]
    simp only [State.setSup, endCounted, cyls_set_set]

/-- R105: what a pulse end comes to, but for its successors and the drain test. -/
theorem endPulse_some {k : Bank} {s : State} {p : Pulse} (h : (s.schedOf k).active = some p) (o : ShotOutcome)
    (f : Option FaultKind) :
    endPulse k s o f = drainTest (followEnd (pulseGone k (some p) o f s) k p.tag o) := by
  unfold endPulse
  rw [h]
  dsimp only
  rw [countEnd_writeOutcome]
  have hoff : ((creditRecup s k).setDrive k ((creditRecup s k).driveOf k).quenched).setSched k
      ((((creditRecup s k).setDrive k ((creditRecup s k).driveOf k).quenched).schedOf k).ended s.timebase) =
      pulseOff s k (some p) := rfl
  have hres : p.result s.timebase o f = endedNow s p o f := result_eq s p o f
  unfold pulseGone
  show _ = drainTest (followEnd (tellAll _ [(p.cyl, p.tag, endedNow s p o f)]) k p.tag o)
  rw [← hres, ← hoff]
  rfl

theorem endPulse_none {k : Bank} {s : State} (h : (s.schedOf k).active = none) (o : ShotOutcome) (f : Option FaultKind) :
    endPulse k s o f = s := by
  unfold endPulse
  rw [h]

/-- The outcomes whose successors go their own way (R93). -/
def follows (o : ShotOutcome) : Bool := o == .fired || o == .firedDegraded || o == .firedPreempted

theorem followEnd_of_not {o : ShotOutcome} (h : follows o = false) (s : State) (k : Bank) (tag : Byte) :
    followEnd s k tag o = s := by
  simp only [follows, Bool.or_eq_false_iff, beq_eq_false_iff_ne] at h
  unfold followEnd
  rw [if_neg (by simp [h]), if_neg h.2]

/-- R105: an end that leaves the successors alone. -/
theorem endPulse_gone {k : Bank} {s : State} {o : ShotOutcome} (ho : follows o = false) (f : Option FaultKind)
    (hd : drainAgrees s) : endPulse k s o f = drainSettled (pulseGone k (s.schedOf k).active o f s) := by
  cases h : (s.schedOf k).active with
  | none => rw [endPulse_none h, pulseGone_none, drainSettled_of_agrees hd]
  | some p => rw [endPulse_some h, followEnd_of_not ho, drainTest_settled]

theorem pulseOff_change (s : State) (k : Bank) (p : Option Pulse) : BankChange s (pulseOff s k p) := by
  cases p <;> rfl

theorem pulseCounted_change (s : State) (p : Option Pulse) : BankChange s (pulseCounted s p) := by
  cases p <;> rfl

theorem pulseGone_change (k : Bank) (p : Option Pulse) (o : ShotOutcome) (f : Option FaultKind) (s : State) :
    BankChange s (pulseGone k p o f s) := by
  unfold pulseGone
  refine .trans ?_ (.tellAll _ _)
  split
  · exact pulseOff_change s k p
  · exact (pulseOff_change s k p).trans (pulseCounted_change _ p)

theorem pulseCounted_sched (s : State) (p : Option Pulse) : (pulseCounted s p).sched = s.sched := by cases p <;> rfl

theorem pulseGone_sched (k : Bank) (p : Option Pulse) (o : ShotOutcome) (f : Option FaultKind) (s : State) :
    (pulseGone k p o f s).sched = (pulseOff s k p).sched := by
  unfold pulseGone
  rw [tellAll_sched]
  split
  · rfl
  · exact pulseCounted_sched _ p

/-- R105, R156: the outcome of a pulse that was not FAULTED. -/
theorem pulseGone_told {o : ShotOutcome} (ho : o ≠ .faulted) (k : Bank) (p : Option Pulse) (f : Option FaultKind)
    (s : State) : outcomesTold (pulseCounted s p) (pulseGone k p o f s) (pulseOutcome s p o f) := by
  unfold pulseGone
  rw [if_neg ho]
  refine outcomesTold_congr (tellAll_told _ _) ?_ ?_ rfl rfl <;> cases p <;> rfl

/-! ### The gap -/

/-- R96: what follows an end on a bank, in the words of the statements. -/
theorem gapSettled_settleGap {k : Bank} {s : State} (h : endPassed s k) : gapSettled k s (settleGap k s) := by
  unfold gapSettled settleGap
  split
  · rename_i hg
    have hdue : dueGapEnd s k = true := by
      unfold dueGapEnd gapOver
      rw [hg.1, hg.2]
      cases hl : (s.schedOf k).lastEnd with
      | none => rfl
      | some n => simpa using h n hl
    show Host.Outcome.next (whenDue (dueGapEnd s k) (endGap k) s) = _
    rw [hdue]
    rfl
  · rfl

/-- Without a waiting shot the arbiter has nothing to do. -/
theorem runArbiter_of_none {k : Bank} {s : State} (h : chooseWaiting (s.schedOf k).queue = none) : runArbiter k s = s := by
  unfold runArbiter
  split
  · cases hl : (s.schedOf k).queue.length with
    | zero => rfl
    | succ n =>
      unfold arbitrate
      rw [h]
  · rfl

theorem endGap_gapPast (k : Bank) (s : State) : endGap k s = runArbiter k (gapPast s k) := rfl

/-- R96, R138: a bank without shots has only its gap to end. -/
theorem settleGap_of_empty {k : Bank} {s : State} (h : (s.schedOf k).queue = []) :
    settleGap k s =
      if (s.schedOf k).cond = .gap ∧ s.tables.limits.bankGapUs = 0 then gapPast s k else s := by
  unfold settleGap
  split
  · rw [endGap_gapPast]
    refine runArbiter_of_none ?_
    rw [show (gapPast s k).schedOf k = { s.schedOf k with cond := .idle } from banks_get_set_same _ _ _]
    dsimp only
    rw [h]
    rfl
  · rfl

end Sys2Proof.Proofs.Removals
end

section
/-! SUPPORT. A bank cancelled as a whole (R107, R108): what becomes of its scheduler, its Drive Stage, its reservoir and the
plans, whatever its queue holds. -/

namespace Sys2Proof.Proofs.Cancelling

open Sys2Proof Sys2Proof.Machine Sys2Proof.Laws Sys2Proof.Proofs.Removals

/-! ### What a removal leaves -/

/-- What no removal and no pulse end moves; away from DRAINING the change is one of the banks alone. -/
structure Beside (s t : State) : Prop where
  timebase : t.timebase = s.timebase
  clock    : t.clock = s.clock
  limits   : t.tables.limits = s.tables.limits
  events   : t.events = s.events
  change   : s.firing ≠ .draining → BankChange s t

theorem Beside.refl (s : State) : Beside s s := ⟨rfl, rfl, rfl, rfl, fun _ => rfl⟩

theorem BankChange.firing {s t : State} (h : BankChange s t) : t.firing = s.firing := by rw [h]; rfl

theorem Beside.trans {s t u : State} (h1 : Beside s t) (h2 : Beside t u) : Beside s u where
  timebase := h2.timebase.trans h1.timebase
  clock := h2.clock.trans h1.clock
  limits := h2.limits.trans h1.limits
  events := h2.events.trans h1.events
  change hf := (h1.change hf).trans (h2.change (by rwa [BankChange.firing (h1.change hf)]))

theorem Beside.of_change {s t : State} (h : BankChange s t) (he : t.events = s.events) : Beside s t := by
  refine ⟨?_, ?_, ?_, he, fun _ => h⟩ <;> rw [h] <;> rfl

theorem drainTest_eq_of (s : State) : (drainTest s).timebase = s.timebase ∧ (drainTest s).clock = s.clock ∧
    (drainTest s).events = s.events ∧ (drainTest s).sup = s.sup ∧ (drainTest s).service = s.service := by
  rw [drainTest_settled]
  unfold drainSettled
  split <;> exact ⟨rfl, rfl, rfl, rfl, rfl⟩

theorem Beside.drainTest (s : State) : Beside s (drainTest s) := by
  obtain ⟨ht, hc, he, -, -⟩ := drainTest_eq_of s
  exact ⟨ht, hc, drainTest_limits s, he, fun hf => by rw [drainTest_of_ne hf]; rfl⟩

/-! ### Every shot of a bank -/

/-- The first shot of a queue removed. -/
theorem dropShot_head {k : Bank} {s : State} {x : Shot} {xs : List Shot} (hq : (s.schedOf k).queue = x :: xs)
    {o : ShotOutcome} (ho : o.isShed = false) :
    dropShot k s (x.tag, o) = drainTest (writeOutcome (s.setSched k { s.schedOf k with
      queue := xs, cancelled := (s.schedOf k).cancelled + 1 }) x.cyl x.tag (.unopened o)) := by
  unfold dropShot findShot eraseShot raiseIfShed Sched.countRemoval
  simp [hq, ho]

/-- R107, R113: a bank's queue has been cancelled. -/
structure QueueCancelled (k : Bank) (s t : State) : Prop extends Beside s t where
  sched : t.sched = s.sched.set k { s.schedOf k with
    queue := [], cancelled := (s.schedOf k).cancelled + BitVec.ofNat 32 (s.schedOf k).queue.length }
  drive : t.drive = s.drive
  level : t.level = s.level

theorem dropQueue_cancelled {k : Bank} {o : ShotOutcome} (ho : o.isShed = false) (q : List Shot) {s : State}
    (hq : (s.schedOf k).queue = q) : QueueCancelled k s ((q.map fun x => (x.tag, o)).foldl (dropShot k) s) := by
  induction q generalizing s with
  | nil =>
    refine ⟨.refl s, ?_, rfl, rfl⟩
    have : ({ s.schedOf k with
        queue := [], cancelled := (s.schedOf k).cancelled + BitVec.ofNat 32 (s.schedOf k).queue.length } : Sched) =
        s.schedOf k := by
      have hn : BitVec.ofNat 32 (s.schedOf k).queue.length = 0#32 := by rw [hq]; rfl
      dsimp only
      rw [hn, BitVec.add_zero]
      exact congrArg (fun l => ({ s.schedOf k with queue := l } : Sched)) hq.symm
    rw [this]
    exact (banks_set_get s.sched k).symm
  | cons x q ih =>
    rw [List.map_cons, List.foldl_cons, dropShot_head hq ho]
    generalize hu : s.setSched k { s.schedOf k with queue := q, cancelled := (s.schedOf k).cancelled + 1 } = u
    have hus : u.schedOf k = { s.schedOf k with queue := q, cancelled := (s.schedOf k).cancelled + 1 } := by
      subst hu
      exact banks_get_set_same _ _ _
    have hbeside : Beside s (drainTest (writeOutcome u x.cyl x.tag (.unopened o))) := by
      refine .trans (t := u) (by subst hu; exact .of_change rfl rfl) (.trans ?_ (.drainTest _))
      exact .of_change (BankChange.tellAll u [(x.cyl, x.tag, .unopened o)]) (writeOutcome_events _ _ _ _)
    have hv : (drainTest (writeOutcome u x.cyl x.tag (.unopened o))).sched = u.sched :=
      (drainTest_sched _).trans (writeOutcome_sched _ _ _ _)
    have hvs : (drainTest (writeOutcome u x.cyl x.tag (.unopened o))).schedOf k = u.schedOf k := by
      unfold State.schedOf
      rw [hv]
    obtain ⟨hb, hs, hd, hl⟩ := ih (s := drainTest (writeOutcome u x.cyl x.tag (.unopened o))) (by rw [hvs, hus])
    refine ⟨hbeside.trans hb, ?_, ?_, ?_⟩
    · rw [hs, hvs, hus, hv, hq]
      subst hu
      simp only [State.setSched, banks_set_set, List.length_cons]
      rw [Nat.add_comm, BitVec.ofNat_add, BitVec.add_assoc]
      rfl
    · rw [hd, drainTest_drive, writeOutcome_drive]
      subst hu
      rfl
    · rw [hl, drainTest_level, writeOutcome_level]
      subst hu
      rfl

theorem cancelAll_cancelled (k : Bank) (s : State) {o : ShotOutcome} (ho : o.isShed = false) :
    QueueCancelled k s (cancelShots k s (fun _ => true) o) := by
  unfold cancelShots
  rw [List.filter_true]
  exact dropQueue_cancelled ho _ rfl

/-- Tags that are all different name their shots. -/
theorem filter_tag_of_nodup {q : List Shot} (h : (q.map Shot.tag).Nodup) {x : Shot} (hx : x ∈ q) :
    q.filter (fun y => y.tag == x.tag) = [x] := by
  induction q with
  | nil => cases hx
  | cons y q ih =>
    obtain ⟨hy, hq⟩ := List.nodup_cons.1 h
    rcases List.mem_cons.1 hx with rfl | hx
    · rw [List.filter_cons_of_pos (p := fun y : Shot => y.tag == x.tag) (beq_self_eq_true _), List.filter_eq_nil_iff.2]
      intro z hz hzt
      exact hy (List.mem_map.2 ⟨z, hz, eq_of_beq hzt⟩)
    · rw [List.filter_cons_of_neg, ih hq hx]
      intro hyt
      exact hy (List.mem_map.2 ⟨x, hx, (eq_of_beq hyt).symm⟩)

/-- Some of the shots of a queue whose tags are all different, each with an outcome. -/
theorem named_of_nodup {q : List Shot} (h : (q.map Shot.tag).Nodup) (p : Shot → Bool) (g : Shot → ShotOutcome) :
    Named q ((q.filter p).map fun x => (x, g x)) where
  nodup := by
    rw [List.map_map]
    exact h.sublist (List.Sublist.map _ List.filter_sublist)
  named z hz := by
    obtain ⟨x, hx, rfl⟩ := List.mem_map.1 hz
    exact filter_tag_of_nodup h (List.mem_filter.1 hx).1

theorem dropAll_told (k : Bank) {s : State} {cs : List (Shot × ShotOutcome)} (hn : Named (s.schedOf k).queue cs) :
    outcomesTold s ((cs.map fun z => (z.1.tag, z.2)).foldl (dropShot k) s) (chainOutcomes cs) := by
  rw [dropAll_eq k s cs hn.nodup hn.named]
  split
  · rename_i h
    subst h
    exact tellAll_told s []
  · obtain ⟨-, -, -, hs, hv⟩ := drainTest_eq_of (removed k cs s)
    exact outcomesTold_congr (removed_told k cs s) rfl rfl hs hv

theorem cancelAll_told (k : Bank) {s : State} (h : ((s.schedOf k).queue.map Shot.tag).Nodup) (o : ShotOutcome) :
    outcomesTold s (cancelShots k s (fun _ => true) o) (chainOutcomes (allWith o (s.schedOf k).queue)) := by
  have := dropAll_told k (named_of_nodup h (fun _ => true) fun _ => o)
  rw [List.map_map, List.filter_true] at this
  unfold cancelShots
  rw [List.filter_true]
  exact this

/-! ### The pulse of a bank -/

/-- R105: a bank's pulse, if it had one, has ended. -/
structure PulseCancelled (k : Bank) (s t : State) : Prop extends Beside s t where
  sched : t.sched = (pulseOff s k (s.schedOf k).active).sched
  drive : t.drive = (pulseOff s k (s.schedOf k).active).drive
  level : t.level = (pulseOff s k (s.schedOf k).active).level

theorem tellAll_drive (s : State) (os) : (tellAll s os).drive = s.drive := by rw [tellAll_eq]
theorem tellAll_level (s : State) (os) : (tellAll s os).level = s.level := by rw [tellAll_eq]
theorem tellAll_events (s : State) (os) : (tellAll s os).events = s.events := by rw [tellAll_eq]

theorem pulseGone_banks (k : Bank) (p : Option Pulse) (o : ShotOutcome) (f : Option FaultKind) (s : State) :
    (pulseGone k p o f s).drive = (pulseOff s k p).drive ∧ (pulseGone k p o f s).level = (pulseOff s k p).level ∧
    (pulseGone k p o f s).events = s.events := by
  unfold pulseGone
  rw [tellAll_drive, tellAll_level, tellAll_events]
  cases p <;> split <;> exact ⟨rfl, rfl, rfl⟩

theorem endPulse_drainTest {k : Bank} {s : State} {p : Pulse} (h : (s.schedOf k).active = some p) {o : ShotOutcome}
    (ho : follows o = false) (f : Option FaultKind) :
    endPulse k s o f = drainTest (pulseGone k (some p) o f s) := by
  rw [endPulse_some h, followEnd_of_not ho]

theorem endPulse_cancelled (k : Bank) (s : State) {o : ShotOutcome} (ho : follows o = false) (f : Option FaultKind) :
    PulseCancelled k s (endPulse k s o f) := by
  cases h : (s.schedOf k).active with
  | none =>
    rw [endPulse_none h]
    refine ⟨.refl s, ?_, ?_, ?_⟩ <;> rw [h] <;> rfl
  | some p =>
    obtain ⟨hd, hl, he⟩ := pulseGone_banks k (some p) o f s
    rw [endPulse_drainTest h ho]
    refine ⟨(Beside.of_change (pulseGone_change _ _ _ _ s) he).trans (.drainTest _), ?_, ?_, ?_⟩
    · rw [h, drainTest_sched, pulseGone_sched]
    · rw [h, drainTest_drive, hd]
    · rw [h, drainTest_level, hl]

theorem endPulse_told (k : Bank) (s : State) {o : ShotOutcome} (ho : follows o = false) (hf : o ≠ .faulted)
    (f : Option FaultKind) :
    outcomesTold (pulseCounted s (s.schedOf k).active) (endPulse k s o f) (pulseOutcome s (s.schedOf k).active o f) := by
  cases h : (s.schedOf k).active with
  | none =>
    rw [endPulse_none h]
    exact tellAll_told s []
  | some p =>
    rw [endPulse_drainTest h ho]
    obtain ⟨-, -, -, hs, hv⟩ := drainTest_eq_of (pulseGone k (some p) o f s)
    exact outcomesTold_congr (pulseGone_told hf k (some p) f s) rfl rfl hs hv

/-! ### The bank -/

/-- R107, R108: a bank has been cancelled. -/
structure BankCancelled (k : Bank) (o : ShotOutcome) (s t : State) : Prop extends Beside s t where
  sched : t.sched = s.sched.set k (cancelledSched s k)
  drive : t.drive = s.drive.set k (cancelledStage s k)
  level : t.level = if (s.schedOf k).active.isSome then s.level.set k (recuperated s k) else s.level
  told  : ((s.schedOf k).queue.map Shot.tag).Nodup →
    outcomesTold (pulseCounted s (s.schedOf k).active) t (bankOutcomes s k o)

theorem pulseCounted_told {s t : State} {os : List (Cyl × Byte × PlaceOutcome)} (h : outcomesTold s t os)
    (p : Option Pulse) : outcomesTold (pulseCounted s p) (pulseCounted t p) os := by
  cases p with
  | none => exact h
  | some p => exact outcomesTold_counted h p.cyl

/-- The outcome of a pulse is the same at every state of one instant. -/
theorem pulseOutcome_congr {s t : State} (h : t.timebase = s.timebase) (p : Option Pulse) (o : ShotOutcome)
    (f : Option FaultKind) : pulseOutcome t p o f = pulseOutcome s p o f := by
  unfold pulseOutcome endedNow
  rw [h]

/-- The scheduler of a bank without its shots, its pulse and its tracks, its gap not yet judged. -/
def clearedSched (s : State) (k : Bank) : Sched :=
  { s.schedOf k with
    queue := [], active := none, tracks := []
    cancelled := (s.schedOf k).cancelled + BitVec.ofNat 32 (s.schedOf k).queue.length
    lastEnd := if (s.schedOf k).active.isSome then some s.timebase else (s.schedOf k).lastEnd
    cond := if (s.schedOf k).active.isSome then .gap else (s.schedOf k).cond }

/-- R107, R108: a bank has been cancelled, but for its gap. -/
structure BankCleared (k : Bank) (o : ShotOutcome) (s t : State) : Prop extends Beside s t where
  sched : t.sched = s.sched.set k (clearedSched s k)
  drive : t.drive = if (s.schedOf k).active.isSome then s.drive.set k (stageEnded (s.driveOf k)) else s.drive
  level : t.level = if (s.schedOf k).active.isSome then s.level.set k (recuperated s k) else s.level
  told  : ((s.schedOf k).queue.map Shot.tag).Nodup →
    outcomesTold (pulseCounted s (s.schedOf k).active) t (bankOutcomes s k o)

theorem schedOf_of_set {s t : State} {k : Bank} {x : Sched} (h : t.sched = s.sched.set k x) : t.schedOf k = x := by
  unfold State.schedOf
  rw [h]
  exact banks_get_set_same _ _ _

theorem recuperated_congr {s t : State} {k : Bank} (hl : t.level = s.level) (hd : t.drive = s.drive)
    (hc : t.tables.limits = s.tables.limits) : recuperated t k = recuperated s k := by
  unfold recuperated State.levelOf State.driveOf
  rw [hc, hl, hd]

/-- The pulse, then the tracks of a bank whose queue has been cancelled. -/
theorem BankCleared.of_parts {k : Bank} {s u v : State} {o : ShotOutcome} (hc : QueueCancelled k s u)
    (hp : PulseCancelled k u v)
    (htold : ((s.schedOf k).queue.map Shot.tag).Nodup → outcomesTold s u (chainOutcomes (allWith o (s.schedOf k).queue)))
    (hend : outcomesTold (pulseCounted u (u.schedOf k).active) v (pulseOutcome u (u.schedOf k).active o none)) :
    BankCleared k o s (v.setSched k { v.schedOf k with tracks := [] }) := by
  have hus := schedOf_of_set hc.sched
  have hua : (u.schedOf k).active = (s.schedOf k).active := by rw [hus]
  have hud : u.driveOf k = s.driveOf k := congrArg (Banks.get · k) hc.drive
  obtain ⟨hpb, hps, hpd, hpl⟩ := hp
  rw [hua] at hps hpd hpl hend
  rw [pulseOutcome_congr hc.timebase] at hend
  refine ⟨hc.toBeside.trans (hpb.trans (.of_change rfl rfl)), ?_, ?_, ?_, fun h =>
    outcomesTold_congr (outcomesTold_trans (pulseCounted_told (htold h) _) hend) rfl rfl rfl rfl⟩
  · show v.sched.set k { v.sched.get k with tracks := [] } = _
    unfold clearedSched
    rw [hps]
    cases ha : (s.schedOf k).active with
    | none =>
      show u.sched.set k { u.schedOf k with tracks := [] } = _
      rw [hus, hc.sched, banks_set_set]
      simp [ha]
    | some p =>
      show (u.sched.set k { u.schedOf k with active := none, cond := .gap, lastEnd := some u.timebase }).set k
        { (u.sched.set k { u.schedOf k with active := none, cond := .gap, lastEnd := some u.timebase }).get k with
          tracks := [] } = _
      rw [banks_get_set_same, banks_set_set, hus, hc.sched, banks_set_set, hc.timebase]
      rfl
  · show v.drive = _
    rw [hpd]
    cases (s.schedOf k).active with
    | none => exact hc.drive
    | some p =>
      show u.drive.set k (stageEnded (u.driveOf k)) = _
      rw [hud, hc.drive]
      rfl
  · show v.level = _
    rw [hpl]
    cases (s.schedOf k).active with
    | none => exact hc.level
    | some p =>
      show u.level.set k (recuperated u k) = _
      rw [recuperated_congr hc.level hc.drive hc.limits, hc.level]
      rfl

/-- R96: the gap of a cleared bank. -/
theorem BankCleared.settled {k : Bank} {s w : State} {o : ShotOutcome} (h : BankCleared k o s w) :
    BankCancelled k o s (settleGap k w) := by
  have hs := schedOf_of_set h.sched
  rw [settleGap_of_empty (by rw [hs]; rfl), hs, h.limits]
  have hcond : (clearedSched s k).cond = if (s.schedOf k).active.isSome then .gap else (s.schedOf k).cond := rfl
  have hiff : (clearedSched s k).cond = .gap ↔ (s.schedOf k).active.isSome = true ∨ (s.schedOf k).cond = .gap := by
    rw [hcond]
    cases (s.schedOf k).active <;> simp
  split
  · rename_i hg
    have hor := hiff.1 hg.1
    refine ⟨h.toBeside.trans (.of_change rfl rfl), ?_, ?_, h.level,
      fun hn => outcomesTold_congr (h.told hn) rfl rfl rfl rfl⟩
    · show w.sched.set k { w.schedOf k with cond := .idle } = _
      rw [hs, h.sched, banks_set_set]
      unfold cancelledSched clearedSched
      simp [hor, hg.2]
    · show w.drive.set k { w.drive.get k with phase := .off } = _
      rw [h.drive]
      unfold cancelledStage
      simp only [if_pos (And.intro hor hg.2)]
      cases (s.schedOf k).active <;> simp [State.driveOf]
  · rename_i hg
    have hno : ¬((s.schedOf k).active.isSome = true ∨ (s.schedOf k).cond = .gap) ∨ s.tables.limits.bankGapUs ≠ 0 := by
      rw [← hiff]
      exact Decidable.not_and_iff_or_not.1 hg
    refine ⟨h.toBeside, ?_, ?_, h.level, h.told⟩
    · rw [h.sched]
      unfold cancelledSched clearedSched
      dsimp only
      congr 2
      rcases hno with hno | hno
      · rw [if_neg hno, if_neg fun ha => hno (.inl ha)]
      · rw [if_neg hno]
        by_cases ha : (s.schedOf k).active.isSome = true <;> by_cases hc : (s.schedOf k).cond = .gap <;> simp [ha, hc]
    · rw [h.drive]
      have hneg : ¬(((s.schedOf k).active.isSome = true ∨ (s.schedOf k).cond = .gap) ∧ s.tables.limits.bankGapUs = 0) :=
        fun hb => hno.elim (fun hn => hn hb.1) fun hn => hn hb.2
      unfold cancelledStage
      simp only [if_neg hneg]
      cases (s.schedOf k).active <;> simp [State.driveOf]

theorem cancelBank_cancelled (k : Bank) (s : State) {o : ShotOutcome} (ho : o.isShed = false) (hf : follows o = false)
    (hn : o ≠ .faulted) : BankCancelled k o s (cancelBank k s o) :=
  (BankCleared.of_parts (cancelAll_cancelled k s ho) (endPulse_cancelled k _ hf none) (fun h => cancelAll_told k h o)
    (endPulse_told k _ hf hn none)).settled

/-! ### Both banks -/

theorem BankCancelled.other {k j : Bank} {s t : State} {o : ShotOutcome} (h : BankCancelled k o s t) (hj : j ≠ k) :
    t.schedOf j = s.schedOf j ∧ t.driveOf j = s.driveOf j ∧ t.levelOf j = s.levelOf j := by
  refine ⟨?_, ?_, ?_⟩
  · show t.sched.get j = _
    rw [h.sched, banks_get_set, if_neg hj]
    rfl
  · show t.drive.get j = _
    rw [h.drive, banks_get_set, if_neg hj]
    rfl
  · show t.level.get j = _
    rw [h.level]
    split
    · rw [banks_get_set, if_neg hj]
      rfl
    · rfl

theorem BankCancelled.own {k : Bank} {s t : State} {o : ShotOutcome} (h : BankCancelled k o s t) :
    t.schedOf k = cancelledSched s k ∧ t.driveOf k = cancelledStage s k ∧
    t.levelOf k = if (s.schedOf k).active.isSome then recuperated s k else s.levelOf k := by
  refine ⟨schedOf_of_set h.sched, ?_, ?_⟩
  · show t.drive.get k = _
    rw [h.drive, banks_get_set_same]
  · show t.level.get k = _
    rw [h.level]
    split
    · exact banks_get_set_same _ _ _
    · rfl

/-- R107, R108: both banks have been cancelled, bank A first. -/
structure BothCancelled (o : ShotOutcome) (s t : State) : Prop extends Beside s t where
  banks : ∀ k, t.schedOf k = cancelledSched s k ∧ t.driveOf k = cancelledStage s k ∧
    t.levelOf k = if (s.schedOf k).active.isSome then recuperated s k else s.levelOf k
  told : (∀ k, ((s.schedOf k).queue.map Shot.tag).Nodup) →
    outcomesTold (pulseCounted (pulseCounted s (s.schedOf .bankA).active) (s.schedOf .bankB).active) t
      (bankOutcomes s .bankA o ++ bankOutcomes s .bankB o)

theorem bothCancelled {o : ShotOutcome} {s u t : State} (ha : BankCancelled .bankA o s u)
    (hb : BankCancelled .bankB o u t) : BothCancelled o s t := by
  obtain ⟨hs, hd, hl⟩ := ha.other (j := .bankB) (by decide)
  have hsched : cancelledSched u .bankB = cancelledSched s .bankB := by
    unfold cancelledSched
    rw [hs, ha.limits, ha.timebase]
  have hstage : cancelledStage u .bankB = cancelledStage s .bankB := by
    unfold cancelledStage
    rw [hs, hd, ha.limits]
  have hrec : recuperated u .bankB = recuperated s .bankB := by
    unfold recuperated
    rw [hl, hd, ha.limits]
  have hout : bankOutcomes u .bankB o = bankOutcomes s .bankB o := by
    unfold bankOutcomes
    rw [hs, pulseOutcome_congr ha.timebase]
  obtain ⟨hbs, hbd, hbl⟩ := hb.own
  obtain ⟨has, had, hal⟩ := ha.own
  obtain ⟨hts, htd, htl⟩ := hb.other (j := .bankA) (by decide)
  refine ⟨ha.toBeside.trans hb.toBeside, fun k => ?_, fun hn => ?_⟩
  · cases k with
    | bankA => exact ⟨hts.trans has, htd.trans had, htl.trans hal⟩
    | bankB =>
      rw [hbs, hbd, hbl, hsched, hstage, hrec, hs, hl]
      exact ⟨rfl, rfl, rfl⟩
  · have h1 := pulseCounted_told (ha.told (hn .bankA)) (s.schedOf .bankB).active
    have h2 := hb.told (by rw [hs]; exact hn .bankB)
    rw [hs, hout] at h2
    exact outcomesTold_trans h1 h2

theorem BothCancelled.banksCancelled {o : ShotOutcome} {s t : State} (h : BothCancelled o s t)
    (hn : ∀ k, ((s.schedOf k).queue.map Shot.tag).Nodup) : banksCancelled s t o := ⟨h.banks, h.told hn⟩

theorem BothCancelled.empty {o : ShotOutcome} {s t : State} (h : BothCancelled o s t) (k : Bank) :
    (t.schedOf k).queue = [] ∧ (t.schedOf k).active = none ∧ (t.schedOf k).tracks = [] := by
  rw [(h.banks k).1]
  exact ⟨rfl, rfl, rfl⟩

theorem cancelBoth (s : State) {o : ShotOutcome} (ho : o.isShed = false) (hf : follows o = false) (hn : o ≠ .faulted) :
    BothCancelled o s (cancelBank .bankB (cancelBank .bankA s o) o) :=
  bothCancelled (cancelBank_cancelled .bankA s ho hf hn) (cancelBank_cancelled .bankB _ ho hf hn)

end Sys2Proof.Proofs.Cancelling
end

section
/-! SUPPORT. The firing state: what SAFE and DRAINING promise of the banks. -/

namespace Sys2Proof.Proofs.FiringState

open Sys2Proof Sys2Proof.Machine Sys2Proof.Laws Sys2Proof.Laws.Fine Sys2Proof.Proofs.Steps Sys2Proof.Proofs.Plain
  Sys2Proof.Proofs.Freeze Sys2Proof.Proofs.Removals Sys2Proof.Proofs.Cancelling

/-! ### What holds across the hand-on of a tooth holds across the tooth -/

/-- A relation of the banks that asks nothing of the Angle Clock and holds across the hand-on. -/
structure ToothRel (R : State → State → Prop) : Prop extends WholeRel (fun _ => True) (fun _ => False) R where
  clock  : ∀ s x, R s (s.setClock x)
  handOn : ∀ tie kind left s, R s (handOn tie kind left s)

namespace ToothRel

variable {R : State → State → Prop}

theorem judgedEdge (h : ToothRel R) (tie : TieOrder) (s : State) : R s (judgedEdge tie s) := by
  unfold Machine.judgedEdge
  dsimp only
  split
  · exact h.event s _
  · exact h.trans (loseSync_rel h.toWholeRel h.clock (fun _ => trivial) s)
      (h.trans (seekTooth_rel h.toWholeRel h.clock _ false) (h.handOn _ _ _ _))
  · exact h.trans (clockTooth_rel h.toWholeRel h.clock (fun _ => trivial) s _ _ _) (h.handOn _ _ _ _)

theorem syncEdge (h : ToothRel R) (tie : TieOrder) (s : State) : R s (syncEdge tie s) := by
  unfold Machine.syncEdge
  split
  · exact h.clock s _
  · exact h.trans (h.clock s _) (h.judgedEdge tie _)

theorem crankTransition (h : ToothRel R) (tr : Transition) (tie : TieOrder) (s : State) :
    R s (crankTransition tr tie s) := by
  unfold Machine.crankTransition
  split
  · unfold risingEdge
    refine h.trans (h.clock s { s.clock with lastCrank := some s.timebase }) ?_
    dsimp only
    split
    · exact h.event _ _
    · split
      · exact h.trans (leaveStalled_rel h.toWholeRel h.clock _) (h.handOn _ _ _ _)
      · exact h.trans (seekTooth_rel h.toWholeRel h.clock _ true) (h.handOn _ _ _ _)
      · exact h.syncEdge tie _
      · exact h.syncEdge tie _
  · exact h.refl s

theorem expireDeadline (h : ToothRel R) (tie : TieOrder) (s : State) : R s (expireDeadline tie s) := by
  unfold Machine.expireDeadline
  split
  · exact h.trans (clockTooth_rel h.toWholeRel h.clock (fun _ => trivial) s _ _ _) (h.handOn _ _ _ _)
  · exact loseSync_rel h.toWholeRel h.clock (fun _ => trivial) s

end ToothRel

/-! ### SAFE -/

/-- R45: what a service chain leaves on a bank. -/
def ServiceOnly (q : Sched) : Prop :=
  (∀ x ∈ q.queue, x.flags.service = true ∧ x.isAngle = false) ∧ ∀ p ∈ q.active, p.flags.service = true

theorem safeAgrees_iff {s : State} : safeAgrees s ↔ (s.firing = .safe → ∀ k, ServiceOnly (s.schedOf k)) := .rfl

/-- SAFE goes on holding a service chain at most. -/
def KeepsSafe (s t : State) : Prop := safeAgrees s → safeAgrees t

theorem KeepsSafe.of_same {s t : State} (hf : t.firing = s.firing) (hs : t.sched = s.sched) : KeepsSafe s t := by
  unfold KeepsSafe safeAgrees State.schedOf
  rw [hf, hs]
  exact id

/-- One bank has changed, to nothing that a service chain would not leave. -/
theorem KeepsSafe.of_bank {s t : State} {k : Bank} {q : Sched} (hf : t.firing = s.firing) (hs : t.sched = s.sched.set k q)
    (hq : ServiceOnly (s.schedOf k) → ServiceOnly q) : KeepsSafe s t := by
  intro h
  refine safeAgrees_iff.2 fun hsafe j => ?_
  have hj := safeAgrees_iff.1 h (hf ▸ hsafe) j
  have htj : t.schedOf j = if j = k then q else s.schedOf j := by
    show t.sched.get j = _
    rw [hs]
    exact banks_get_set _ _ _ _
  rw [htj]
  split
  · subst j; exact hq hj
  · exact hj

theorem ServiceOnly.mono {q q' : Sched} (h : ServiceOnly q) (hq : ∀ x ∈ q'.queue, x ∈ q.queue)
    (ha : ∀ p ∈ q'.active, p ∈ q.active) : ServiceOnly q' := ⟨fun x hx => h.1 x (hq x hx), fun p hp => h.2 p (ha p hp)⟩

/-- Progress changes no shot's kind. -/
theorem ServiceOnly.map {q : Sched} (h : ServiceOnly q) {f : Shot → Shot} (hf : Keeps f) :
    ServiceOnly { q with queue := q.queue.map f } := ⟨fun x hx => by
  obtain ⟨y, hy, rfl⟩ := List.mem_map.1 hx
  obtain ⟨-, -, -, -, -, ha, -, -, -, hfl⟩ := hf y
  obtain ⟨hs, hang⟩ := h.1 y hy
  refine ⟨by rw [hfl]; exact hs, ?_⟩
  unfold Shot.isAngle at hang ⊢
  rw [ha]
  exact hang, h.2⟩

theorem safeAgrees_of_empty {s : State} (h : ∀ k, (s.schedOf k).queue = [] ∧ (s.schedOf k).active = none) :
    safeAgrees s := fun _ k => by
  obtain ⟨hq, ha⟩ := h k
  rw [hq, ha]
  exact ⟨by simp, by simp⟩

theorem drainTest_keepsSafe (s : State) : KeepsSafe s (drainTest s) := by
  unfold drainTest
  split
  · rename_i hd
    intro _
    refine safeAgrees_of_empty fun k => ?_
    unfold State.schedOf
    rw [goSafe_sched]
    exact drained_iff.1 hd.2 k
  · exact id

theorem dropShot_drainTest (k : Bank) (s : State) (x : Byte × ShotOutcome) :
    dropShot k s x = s ∨ ∃ u, dropShot k s x = drainTest u ∧ u.firing = s.firing := by
  unfold dropShot
  split
  · exact .inl rfl
  · refine .inr ⟨_, rfl, ?_⟩
    rw [writeOutcome_firing, raiseIfShed_firing]
    rfl

theorem dropShot_keepsSafe (k : Bank) (s : State) (x : Byte × ShotOutcome) : KeepsSafe s (dropShot k s x) := by
  have hsched := dropShot_sched k s x
  rcases dropShot_drainTest k s x with h | ⟨u, h, hf⟩
  · rw [h]; exact id
  · rw [h] at hsched ⊢
    rw [drainTest_sched] at hsched
    obtain ⟨hq, ha, -⟩ := droppedFrom_sublist (s.schedOf k) x
    have hu : KeepsSafe s u := .of_bank hf hsched fun hs => hs.mono (fun _ hx => hq.subset hx) (by rw [ha]; exact fun _ => id)
    exact fun hs => drainTest_keepsSafe u (hu hs)

theorem dropAll_keepsSafe (k : Bank) (l : List (Byte × ShotOutcome)) (s : State) : KeepsSafe s (l.foldl (dropShot k) s) := by
  induction l generalizing s with
  | nil => exact id
  | cons x l ih => exact fun h => ih _ (dropShot_keepsSafe k s x h)

theorem followEnd_keepsSafe (s : State) (k : Bank) (tag : Byte) (o : ShotOutcome) : KeepsSafe s (followEnd s k tag o) := by
  unfold followEnd
  split
  · exact .of_bank rfl rfl fun h => h.map (Banks.timeSuccessors_keeps tag s.timebase)
  · split
    · exact dropAll_keepsSafe k _ s
    · exact id

theorem pulseGone_keepsSafe (k : Bank) (p : Option Pulse) (o : ShotOutcome) (f : Option FaultKind) (s : State) :
    KeepsSafe s (pulseGone k p o f s) := by
  have hf : (pulseGone k p o f s).firing = s.firing := by rw [pulseGone_change k p o f s]; rfl
  have hs := pulseGone_sched k p o f s
  cases p with
  | none => exact .of_same hf hs
  | some p => exact .of_bank hf hs fun h => ⟨h.1, fun p hp => by cases hp⟩

/-! ### The promises -/

/-- R45, R48: SAFE holds a service chain at most, and DRAINING something to drain. -/
def Promised (s : State) : Prop := drainAgrees s ∧ safeAgrees s

theorem promised_of_armed {s : State} (h : s.firing = .armed) : Promised s :=
  ⟨fun hd => Firing.noConfusion (h.symm.trans hd), fun hs => Firing.noConfusion (h.symm.trans hs)⟩

theorem promised_of_empty {s : State} (hf : s.firing = .safe)
    (h : ∀ k, (s.schedOf k).queue = [] ∧ (s.schedOf k).active = none) : Promised s :=
  ⟨fun hd => Firing.noConfusion (hf.symm.trans hd), safeAgrees_of_empty h⟩

/-- The drain test makes good whatever emptied a bank. -/
theorem promised_drainTest {s : State} (h : safeAgrees s) : Promised (drainTest s) :=
  ⟨drainTest_drainAgrees s, drainTest_keepsSafe s h⟩

/-- The promises are kept. -/
def KeepsPromise (s t : State) : Prop := Promised s → Promised t

theorem KeepsPromise.of_same {s t : State} (hf : t.firing = s.firing) (hs : t.sched = s.sched) : KeepsPromise s t := by
  unfold KeepsPromise Promised drainAgrees safeAgrees drained State.schedOf
  rw [hf, hs]
  exact id

/-- A bank has changed to a scheduler with something to drain where there was, and with nothing new for SAFE. -/
theorem KeepsPromise.of_bank {s t : State} {k : Bank} {q : Sched} (hf : t.firing = s.firing) (hs : t.sched = s.sched.set k q)
    (hd : q.queue = [] → q.active = none → (s.schedOf k).queue = [] ∧ (s.schedOf k).active = none)
    (hq : ServiceOnly (s.schedOf k) → ServiceOnly q) : KeepsPromise s t := fun ⟨h1, h2⟩ => by
  refine ⟨fun hdr => Bool.eq_false_iff.2 fun ht => ?_, KeepsSafe.of_bank hf hs hq h2⟩
  have hempty := drained_iff.1 ht
  have hs' : drained s = true := drained_iff.2 fun j => by
    have hj := hempty j
    have htj : t.schedOf j = if j = k then q else s.schedOf j := by
      show t.sched.get j = _
      rw [hs]
      exact banks_get_set _ _ _ _
    rw [htj] at hj
    split at hj
    · subst j; exact hd hj.1 hj.2
    · exact hj
  rw [h1 (hf ▸ hdr)] at hs'
  cases hs'

theorem dropShot_promised (k : Bank) (s : State) (x : Byte × ShotOutcome) : KeepsPromise s (dropShot k s x) := fun h => by
  have hsafe := dropShot_keepsSafe k s x h.2
  rcases dropShot_drainTest k s x with he | ⟨u, he, -⟩
  · rwa [he]
  · rw [he] at hsafe ⊢
    exact ⟨drainTest_drainAgrees u, hsafe⟩

theorem endPulse_promised (k : Bank) (s : State) (o : ShotOutcome) (f : Option FaultKind) :
    KeepsPromise s (endPulse k s o f) := fun h => by
  cases ha : (s.schedOf k).active with
  | none => rwa [endPulse_none ha]
  | some p =>
    rw [endPulse_some ha]
    exact promised_drainTest (followEnd_keepsSafe _ k p.tag o (pulseGone_keepsSafe k _ o f s h.2))

theorem openPulse_promised (k : Bank) (s : State) (x : Shot) (dg : Bool) (hx : x ∈ (s.schedOf k).queue) :
    KeepsPromise s (openPulse k s x dg) := by
  unfold openPulse traceStart
  dsimp only
  split <;>
    exact .of_bank rfl rfl (fun _ hn => by cases hn) fun h => ⟨fun y hy => h.1 y (List.eraseP_subset hy), fun p hp => by
      cases hp
      exact (h.1 x hx).1⟩

theorem keepsPromise_op : OpRel (fun _ => True) (fun _ => False) KeepsPromise where
  refl _ := id
  trans h1 h2 h := h2 (h1 h)
  sup _ _ _ _ := .of_same rfl rfl
  service _ := .of_same rfl rfl
  event _ _ := .of_same rfl rfl
  drop s k x _ := dropShot_promised k s x
  pulseEnd s k o f _ := endPulse_promised k s o f
  queue _ _ _ _ hf := .of_bank rfl rfl (fun hq ha => ⟨List.map_eq_nil_iff.1 hq, ha⟩) fun h => h.map hf
  tracks _ _ _ _ := .of_bank rfl rfl (fun hq ha => ⟨hq, ha⟩) id
  close _ _ _ _ _ := .of_bank rfl rfl (fun hq ha => ⟨hq, Option.map_eq_none_iff.1 ha⟩) fun h => ⟨h.1, fun p hp => by
    obtain ⟨p', hp', rfl⟩ := Option.map_eq_some_iff.1 hp
    exact h.2 p' hp'⟩
  boosted s k x _ _ hx _ := fun h => openPulse_promised k (chargeBoost s k x.cyl) x false hx h
  degraded s k x _ _ hx := openPulse_promised k s x true hx
  gap _ _ _ _ := .of_bank rfl rfl (fun hq ha => ⟨hq, ha⟩) id
  regap _ _ _ _ := .of_bank rfl rfl (fun hq ha => ⟨hq, ha⟩) id
  enqueue _ _ _ _ _ h := h.elim
  turned _ _ _ _ h := h.elim

/-! ### Commands without a tooth -/

theorem stopFiring_cancelled (s : State) : BothCancelled .cancelledStop (goSafe s) (stopFiring s) :=
  cancelBoth (goSafe s) rfl rfl ShotOutcome.noConfusion

theorem stopFiring_promised (s : State) : Promised (stopFiring s) := by
  have hb := stopFiring_cancelled s
  have hne : (goSafe s).firing ≠ .draining := by rw [goSafe_firing]; exact Firing.noConfusion
  refine promised_of_empty ?_ fun k => ⟨(hb.empty k).1, (hb.empty k).2.1⟩
  rw [BankChange.firing (hb.change hne), goSafe_firing]

theorem keepsPromise_plain : PlainRel KeepsPromise where
  toOpRel := keepsPromise_op
  link _ _ _ := .of_same rfl rfl
  supAny _ _ _ := .of_same rfl rfl
  demand _ _ _ := .of_same rfl rfl
  trace _ _ := .of_same rfl rfl
  mask _ _ := .of_same rfl rfl
  sense _ _ := .of_same rfl rfl
  supply _ _ := .of_same rfl rfl
  tables _ _ := .of_same rfl rfl
  levels _ _ _ := .of_same rfl rfl
  drive _ _ _ := .of_same rfl rfl
  slow _ _ := .of_bank rfl rfl (fun hq ha => ⟨hq, Option.map_eq_none_iff.1 ha⟩) fun h => ⟨h.1, fun p hp => by
    obtain ⟨p', hp', rfl⟩ := Option.map_eq_some_iff.1 hp
    exact h.2 p' hp'⟩
  stop s _ := stopFiring_promised s
  drain s hf _ := promised_drainTest (s := s.setFiring .draining) fun hs => Firing.noConfusion hs
  rearm s _ := promised_of_armed rfl
  arm s _ := promised_of_armed rfl
  service' s c u n g := .of_bank rfl rfl (fun hq ha => ⟨(List.append_eq_nil_iff.1 hq).1, ha⟩) fun h => ⟨fun x hx => by
    rcases List.mem_append.1 hx with hx | hx
    · exact h.1 x hx
    · obtain ⟨i, -, rfl⟩ := List.mem_map.1 hx
      exact ⟨rfl, rfl⟩, h.2⟩
  overspeed _ _ := .of_same rfl rfl
  techo _ := .of_same rfl rfl
  cmark _ := .of_same rfl rfl

/-! ### Teeth -/

/-- ARMED is neither entered nor left. -/
def KeepsArmed (s t : State) : Prop := t.firing = .armed ↔ s.firing = .armed

theorem keepsArmed_quiet : QuietRel KeepsArmed where
  refl _ := .rfl
  trans h1 h2 := h2.trans h1
  clock _ _ := .rfl
  sched _ _ _ _ := .rfl
  drive _ _ _ := .rfl
  level _ _ _ := .rfl
  sup _ _ _ _ := .rfl
  event _ _ := .rfl
  drain s := (drainTest_unfrozen s).armed
  swap s := (takePendingSwap_unfrozen s).armed
  trace _ _ := .rfl
  service _ := .rfl

theorem keepsArmed_whole : WholeRel (fun _ => True) (fun _ => True) KeepsArmed where
  toOpRel := keepsArmed_quiet.opRel fun _ _ _ _ _ => .rfl
  swap := keepsArmed_quiet.swap
  supAny _ _ _ := .rfl

theorem freezes_keepsArmed (r : ToothReport) (s : State) : KeepsArmed s (freezes r s) :=
  freezes_rel keepsArmed_whole (planRel_true fun _ _ _ => .rfl) (fun _ => trivial) r s trivial

/-- R57: only ARMED freezes, and ARMED promises nothing. -/
theorem freezes_promised (r : ToothReport) (s : State) : KeepsPromise s (freezes r s) := by
  by_cases h : s.firing = .armed
  · exact fun _ => promised_of_armed ((freezes_keepsArmed r s).2 h)
  · rw [freezes_not_armed r h]
    exact id

theorem handOn_promised (tie : TieOrder) (kind : ToothKind) (left : Bool) (s : State) :
    KeepsPromise s (handOn tie kind left s) := by
  have hop := keepsPromise_op
  have hw := keepsPromise_plain.whole
  unfold handOn
  dsimp only
  generalize toothReport s.tables.wheel s.clock kind left = r
  have hbegin : KeepsPromise s (if r.leftStalled then endServiceByMotion (if r.marker then s.takePendingSwap else s)
      else if r.marker then s.takePendingSwap else s) :=
    hop.trans (ite_rel hop _ (hw.swap s)) (ite_rel hop _ (endServiceByMotion_rel hop (fun _ => trivial) _))
  split
  · exact hop.trans hbegin (hop.trans (settleOld_rel hop (fun _ => trivial) tie _)
      (hop.trans (freezes_promised r _) (settleNew_rel hop (fun _ => trivial) tie r _)))
  · exact hbegin

theorem keepsPromise_tooth : ToothRel KeepsPromise where
  toWholeRel := keepsPromise_plain.whole
  clock _ _ := .of_same rfl rfl
  handOn := handOn_promised

/-! ### Every step -/

theorem reset_promised {s : State} (l : LinkIface) (q : List Instr) :
    KeepsPromise s { State.reset with pending := q, link := l } :=
  fun _ => promised_of_empty rfl fun k => by cases k <;> exact ⟨rfl, rfl⟩

theorem exec_promised {i : Instr} {s t : State} (he : exec i s = .next t) : KeepsPromise s t := by
  have hp := keepsPromise_plain
  have ht := keepsPromise_tooth
  have hl := hp.link_rel
  by_cases hi : special i = false
  · exact hp.exec hi he
  · cases i with
    | powerOnReset => cases he; exact reset_promised _ _
    | crankEdge tr tie => cases he; exact ht.crankTransition tr tie s
    | camEdge tr => cases he; exact camTransition_rel ht.toWholeRel ht.clock tr s
    | deadlineExpiry tie => cases he; exact hp.whenDue s _ fun _ => ht.expireDeadline tie s
    | stall => cases he; exact hp.whenDue s _ fun _ => stallClock_rel ht.toWholeRel ht.clock (fun _ => trivial) s
    | reset f =>
      cases he
      exact hl.takeFrame s _ _ _ _ fun _ s => by
        unfold ownReset softReset
        exact reset_promised _ _
    | loadWheel f =>
      cases he
      exact hl.takeFrame s _ _ _ _ fun _ s => by
        unfold ownLoadWheel
        split
        · exact id
        · split
          · exact id
          · exact hp.trans (hp.tables s _) (reloadClock_rel ht.toWholeRel ht.clock (fun _ => trivial) _)
    | readEvents f =>
      cases he
      exact hl.takeFrame s _ _ _ _ fun _ s => .of_same rfl rfl
    | _ => exact absurd rfl hi

/-- Settles O26: whatever empties a bank ends with the drain test, and what a bank gains it gains while ARMED, or by
SERVICE. -/
theorem stepKeepsTheFiringState : Obligations.StepKeepsTheFiringState := by
  unfold Obligations.StepKeepsTheFiringState
  intro s t h he
  rcases step_way he with ⟨⟨i, q, l, he⟩ | ⟨l, rfl⟩⟩ | ⟨-, ht⟩
  · exact exec_promised he h
  · exact h
  · subst ht; exact h

end Sys2Proof.Proofs.FiringState
end

section
/-! SUPPORT. The Angle Clock by itself. Bank work never touches it, so each change of the clock is judged as a change of one
record: a tooth taken in a sync state, an edge of the search, and the ways out of synchronisation. The one quantitative point
is that the 200 ticks of the crank filter keep every interval of the sync states above 0, through two synthetic teeth. -/

namespace Sys2Proof.Proofs.Clock

open Sys2Proof Sys2Proof.Machine Sys2Proof.Laws Sys2Proof.Laws.Fine Sys2Proof.Proofs.Steps Sys2Proof.Proofs.PendingSwap

/-! ### What the clock's agreement reads -/

/-- Clock, wheel and timebase are the same. -/
def SameClock (s t : State) : Prop :=
  t.clock = s.clock ∧ t.tables.wheel = s.tables.wheel ∧ t.timebase = s.timebase

theorem SameClock.rfl' (s : State) : SameClock s s := ⟨rfl, rfl, rfl⟩

theorem takePendingSwap_wheel (s : State) : s.takePendingSwap.tables.wheel = s.tables.wheel := by
  unfold State.takePendingSwap
  split <;> rfl

theorem takePendingSwap_sameClock (s : State) : SameClock s s.takePendingSwap := by
  refine ⟨?_, takePendingSwap_wheel s, ?_⟩ <;> (unfold State.takePendingSwap; split <;> rfl)

theorem sameClock_bank : BankRel SameClock where
  refl := SameClock.rfl'
  trans := fun ⟨a, b, c⟩ ⟨d, e, f⟩ => ⟨d.trans a, e.trans b, f.trans c⟩
  sched s _ _ := SameClock.rfl' s
  drive s _ _ := SameClock.rfl' s
  level s _ _ := SameClock.rfl' s
  sup s _ _ := SameClock.rfl' s
  event s _ := SameClock.rfl' s
  safe s := takePendingSwap_sameClock (s.setFiring .safe)
  swap := takePendingSwap_sameClock
  trace s _ := SameClock.rfl' s
  service s := SameClock.rfl' s

/-- The clock of a state agrees with its synchronisation state. -/
def Agrees (s : State) : Prop := clockAgrees s.tables.wheel s.timebase s.clock

/-- The agreement is kept. -/
def ClockKept (s t : State) : Prop := Agrees s → Agrees t

theorem SameClock.kept {s t : State} (h : SameClock s t) : ClockKept s t := by
  obtain ⟨hk, hw, hn⟩ := h
  unfold ClockKept Agrees
  rw [hk, hw, hn]
  exact id

theorem clockKept_bank : BankRel ClockKept where
  refl _ := id
  trans h1 h2 h := h2 (h1 h)
  sched _ _ _ := id
  drive _ _ _ := id
  level _ _ _ := id
  sup _ _ _ := id
  event _ _ := id
  safe s := (takePendingSwap_sameClock (s.setFiring .safe)).kept
  swap s := (takePendingSwap_sameClock s).kept
  trace _ _ := id
  service _ := id

theorem handOn_kept (tie : TieOrder) (kind : ToothKind) (left : Bool) (s : State) : ClockKept s (handOn tie kind left s) :=
  Laws.handOn_rel clockKept_bank (fun _ _ _ => id) tie kind left s

/-! ### Speed -/

theorem setSpeed_clock (s : State) : ∃ b,
    (setSpeed s).clock = { s.clock with speed := s.clock.speedNow s.tables.wheel, overspeed := b } := by
  unfold setSpeed judgeOverspeed
  dsimp only
  split <;> exact ⟨_, rfl⟩

theorem setSpeed_timebase (s : State) : (setSpeed s).timebase = s.timebase := by
  unfold setSpeed judgeOverspeed
  dsimp only
  split <;> rfl

theorem speedNow_le (w : WheelRecord) (k : AngleClock) : k.speedNow w ≤ 8191 := by
  unfold AngleClock.speedNow
  split
  · exact Nat.zero_le _
  · exact Nat.zero_le _
  · exact Nat.min_le_left _ _
  · exact Nat.min_le_left _ _

/-- R19: the speed is recomputed to what the state of the clock asks for, so it is no part of what a change must show. -/
theorem agrees_setSpeed {s : State} (h : clockAgrees s.tables.wheel s.timebase { s.clock with speed := 0 }) :
    Agrees (setSpeed s) := by
  obtain ⟨b, hk⟩ := setSpeed_clock s
  unfold Agrees
  rw [hk, setSpeed_tables, setSpeed_timebase]
  obtain ⟨hst, hse, hsy, hl, hr, hsn, hcam, -, hrest⟩ := h
  refine ⟨fun hs => ?_, fun hs => ?_, hsy, hl, hr, hsn, hcam, speedNow_le _ _, hrest⟩
  · obtain ⟨a, b, c, d, e, f, -⟩ := hst hs
    exact ⟨a, b, c, d, e, f, by simp [AngleClock.speedNow, show s.clock.sync = .stalled from hs]⟩
  · obtain ⟨a, b, -, c⟩ := hse hs
    exact ⟨a, b, by simp [AngleClock.speedNow, show s.clock.sync = .seeking from hs], c⟩

/-! ### The prediction -/

theorem predict_bounds (t1 t2 : Nat) : 3 * t1 / 4 ≤ predict t1 t2 ∧ predict t1 t2 ≤ 5 * t1 / 4 := by
  unfold predict clampTo
  split
  · omega
  · split <;> omega

theorem wheel_range {w : WheelRecord} (h : w.inRange = true) :
    (w.n = 24 ∨ w.n = 36 ∨ w.n = 60 ∨ w.n = 72) ∧ (w.m = 1 ∨ w.m = 2) ∧ w.refAngle ≤ 11519 := by
  simpa [WheelRecord.inRange, and_assoc] using h

/-- A history whose last interval is in range is one the agreement takes. -/
theorem history_of {now : Nat} {k : AngleClock} (hp : k.tpred = predict k.t1 k.t2) (h1 : k.t1 ≤ 2500000)
    (h2 : k.t2 ≤ 2500000) (hc : ∀ c, k.lastCrank = some c → c ≤ now)
    (hn : ∀ n, k.stallFrom = some n → n ≤ now ∧ now ≤ n + 2500000 ∧ ∀ l, k.lastTooth = some l → n ≤ l ∧ l ≤ now) :
    historyAgrees now k :=
  ⟨hp, h1, h2, by have := (predict_bounds k.t1 k.t2).2; omega, hc, hn⟩

/-! ### Losing synchronisation -/

theorem cleared_agrees {w : WheelRecord} {now : Nat} {k : AngleClock} (h : clockAgrees w now k) (hs : k.sync ≠ .stalled) :
    clockAgrees w now { k.cleared .seeking with speed := 0 } := by
  obtain ⟨-, hse, hsy, hl, -, -, -, -, hrest⟩ := h
  have hfrom : k.stallFrom.isSome = true := by
    cases hk : k.sync with
    | stalled => exact absurd hk hs
    | seeking => exact (hse hk).2.1
    | crankSync => exact (hsy (.inl hk)).2.2.1
    | fullSync => exact (hsy (.inr hk)).2.2.1
  exact ⟨fun h => (by cases h), fun _ => ⟨rfl, hfrom, rfl, fun h => (by cases h)⟩, fun h => (by rcases h with h | h <;> cases h),
    fun _ => hl hs, fun _ => rfl, Nat.zero_le _, Nat.zero_le _, Nat.zero_le _, hrest⟩

/-- A change of the synchronisation state brings the clock it names, but for the speed. -/
theorem agrees_changeSync {s : State} {k : AngleClock} (h : clockAgrees s.tables.wheel s.timebase { k with speed := 0 }) :
    Agrees (changeSync s k) := by
  unfold changeSync
  dsimp only
  refine agrees_setSpeed ?_
  have hsame : SameClock (s.setClock k)
      (if s.clock.sync = .fullSync then departFullSync (s.setClock k) else s.setClock k) :=
    Laws.ite_rel sameClock_bank _ (Laws.departFullSync_rel sameClock_bank _)
  obtain ⟨hk, hw, hn⟩ := hsame
  rw [hk, hw, hn]
  exact h

theorem loseSync_agrees {s : State} (h : Agrees s) (hs : s.clock.sync ≠ .stalled) : Agrees (loseSync s) :=
  agrees_changeSync (cleared_agrees h hs)

theorem changeSync_clock (s : State) (k : AngleClock) : ∃ v b, (changeSync s k).clock = { k with speed := v, overspeed := b } ∧
    (changeSync s k).timebase = s.timebase := by
  unfold changeSync
  dsimp only
  have hsame : SameClock (s.setClock k)
      (if s.clock.sync = .fullSync then departFullSync (s.setClock k) else s.setClock k) :=
    Laws.ite_rel sameClock_bank _ (Laws.departFullSync_rel sameClock_bank _)
  generalize (if s.clock.sync = .fullSync then departFullSync (s.setClock k) else s.setClock k) = u at hsame ⊢
  obtain ⟨hk, hw, hn⟩ := hsame
  obtain ⟨b, hb⟩ := setSpeed_clock u
  exact ⟨_, b, hb.trans (by rw [hk]; rfl), (setSpeed_timebase u).trans hn⟩

theorem angleReading_le {s : State} (h : s.clock.held ≤ 11519) : s.angleReading ≤ 11519 := by
  unfold State.angleReading
  split
  · exact h
  · exact Nat.zero_le _
  · exact Nat.le_trans (Nat.le_of_lt (Nat.mod_lt _ (by decide))) (by decide : Config.revolution ≤ 11519)
  · exact Nat.le_of_lt_succ (Nat.mod_lt _ (by decide : 0 < Config.cycle))

theorem stallClock_kept (s : State) : ClockKept s (stallClock s) := by
  intro h
  obtain ⟨-, -, -, -, -, -, -, -, hheld, hw, -, -, -, -, hc, -⟩ := h
  refine agrees_changeSync ⟨fun _ => ⟨rfl, rfl, rfl, rfl, rfl, rfl, rfl⟩, fun h => (by cases h),
    fun h => (by rcases h with h | h <;> cases h), fun h => absurd rfl h, fun _ => rfl, Nat.zero_le _, Nat.zero_le _,
    Nat.zero_le _, angleReading_le hheld, hw, ?_⟩
  exact history_of rfl (Nat.zero_le _) (Nat.zero_le _) hc fun n hn => by cases hn

theorem parseWheel_some {ps : List Byte} {w : WheelRecord} (h : parseWheel ps = some w) :
    w.inRange = true ∧ w.loaded = true := by
  unfold parseWheel at h
  dsimp only at h
  split at h
  · rename_i hr
    cases h
    refine ⟨?_, rfl⟩
    obtain ⟨hn, hm, hr, -⟩ := hr
    simp [WheelRecord.inRange, hn, hm, hr]
  · cases h

/-- R17: a new wheel leaves a clock that stands still as it is, and makes a moving one forget. -/
theorem reloadClock_kept (s : State) {ps : List Byte} {w : WheelRecord} (hw : parseWheel ps = some w) :
    ClockKept s (reloadClock (s.setTables { s.tables with wheel := w })) := by
  intro h
  obtain ⟨hin, hload⟩ := parseWheel_some hw
  obtain ⟨hst, hse, hsy, -, hr, hsn, hcam, hsp, hheld, -, hp, h1, h2, h3, hc, hn⟩ := h
  unfold reloadClock
  split
  · rename_i hs
    have hne : ∀ x, x ≠ Sync.stalled → s.clock.sync ≠ x := fun x hx he => hx (he.symm.trans hs)
    exact ⟨hst, fun h => absurd h (hne _ (by decide)),
      fun h => by rcases h with h | h <;> exact absurd h (hne _ (by decide)), fun _ => hload, hr, hsn, hcam, hsp, hheld, hin,
      hp, h1, h2, h3, hc, hn⟩
  · rename_i hs
    refine agrees_changeSync ⟨fun h => (by cases h), fun _ => ⟨rfl, ?_, rfl, fun h => (by cases h)⟩,
      fun h => (by rcases h with h | h <;> cases h), fun _ => hload, fun _ => rfl, Nat.zero_le _, Nat.zero_le _,
      Nat.zero_le _, hheld, hin, ?_⟩
    · have hs' : s.clock.sync ≠ .stalled := hs
      cases hk : s.clock.sync with
      | stalled => exact absurd hk hs'
      | seeking => exact (hse hk).2.1
      | crankSync => exact (hsy (.inl hk)).2.2.1
      | fullSync => exact (hsy (.inr hk)).2.2.1
    · refine history_of rfl (Nat.zero_le _) (Nat.zero_le _) hc fun n hk => ?_
      obtain ⟨h1, h2, -⟩ := hn n hk
      exact ⟨h1, h2, fun l hl => by cases hl⟩

/-! ### A tooth of a sync state -/

/-- R10: what the count of the synthetic teeth in a row becomes. -/
def synthAfter (k : AngleClock) (syn : Bool) : Nat := if syn then k.synth + 1 else 0

/-- R10 to R14: what the revolution check and the deadline make of a clock that has moved on. -/
theorem settled_eq (w : WheelRecord) (k : AngleClock) (syn : Bool) (now : Nat) : ∃ x r cam ab,
    k.settled w syn now = { k with
      sync := x, rev1 := r, camCount := cam, synth := synthAfter k syn, absorb := ab,
      stallFrom := if syn then k.stallFrom else some now, deadline := some (k.deadlineFor w) } ∧
    (x = k.sync ∧ r = k.rev1 ∧ cam ≤ k.camCount ∨ (x = .crankSync ∨ x = .fullSync) ∧ r = false ∧ cam = 0) := by
  unfold AngleClock.settled
  dsimp only
  by_cases hi : k.index = 0
  · generalize k.toothVerdict = v
    simp only [if_pos hi]
    cases v with
    | keep => exact ⟨_, _, _, _, rfl, .inl ⟨rfl, rfl, Nat.zero_le _⟩⟩
    | up => exact ⟨_, _, _, _, rfl, .inr ⟨.inr rfl, rfl, rfl⟩⟩
    | fault => exact ⟨_, _, _, _, rfl, .inr ⟨.inl rfl, rfl, rfl⟩⟩
  · simp only [if_neg hi]
    exact ⟨_, _, _, _, rfl, .inl ⟨rfl, rfl, Nat.le_refl _⟩⟩

/-- R9: the position and the history of a tooth. -/
theorem advance_eq (w : WheelRecord) (k : AngleClock) (t t1 : Nat) (hi : k.index ≤ w.lastIndex)
    (hr : k.sync ≠ .fullSync → k.rev1 = false) : ∃ i r, k.advance w t t1 =
      { k with lastTooth := some t, t1 := t1, t2 := k.t1, tpred := predict t1 k.t1, index := i, rev1 := r } ∧
      i ≤ w.lastIndex ∧ (k.sync ≠ .fullSync → r = false) := by
  unfold AngleClock.advance AngleClock.moveHistory
  dsimp only
  split
  · exact ⟨_, _, rfl, Nat.zero_le _, fun h => by rw [beq_false_of_ne h, Bool.false_and]⟩
  · rename_i hg
    refine ⟨_, _, rfl, ?_, hr⟩
    have hne : k.index ≠ w.lastIndex := by simpa [WheelRecord.gapAfter] using hg
    omega

/-- R9 to R14: what a tooth makes of the clock, field by field: the history, the next position and its deadline, with the
state, the revolution and the cam count those of the revolution check. -/
theorem settled_advance (w : WheelRecord) (k : AngleClock) (syn : Bool) (now t t1 : Nat)
    (hs : k.sync = .crankSync ∨ k.sync = .fullSync) (hi : k.index ≤ w.lastIndex) (hr : k.sync ≠ .fullSync → k.rev1 = false)
    (hcam : k.camCount ≤ 3) : ∃ x i r cam ab, (k.advance w t t1).settled w syn now =
      { k with
        sync := x, lastTooth := some t, t1 := t1, t2 := k.t1, tpred := predict t1 k.t1, index := i, rev1 := r, camCount := cam,
        synth := synthAfter k syn, absorb := ab, stallFrom := if syn then k.stallFrom else some now,
        deadline := some (t + if i = w.n - w.m - 1 then (2 * w.m + 3) * predict t1 k.t1 / 2 else 3 * predict t1 k.t1 / 2) } ∧
      (x = .crankSync ∨ x = .fullSync) ∧ i ≤ w.lastIndex ∧ (x ≠ .fullSync → r = false) ∧ cam ≤ 3 := by
  obtain ⟨i, r, he, hix, hrx⟩ := advance_eq w k t t1 hi hr
  obtain ⟨x, r', cam, ab, hse, hcase⟩ := settled_eq w (k.advance w t t1) syn now
  rw [he] at hse hcase
  have hd : ∀ k' : AngleClock, k'.deadlineFor w = k'.lastTooth.getD 0 +
      if k'.index = w.n - w.m - 1 then (2 * w.m + 3) * k'.tpred / 2 else 3 * k'.tpred / 2 := fun k' => by
    simp only [AngleClock.deadlineFor, WheelRecord.gapAfter, WheelRecord.lastIndex, beq_iff_eq]
  refine ⟨x, i, r', cam, ab, ?_, ?_⟩
  · rw [he, hse, hd]
    rfl
  · rcases hcase with ⟨rfl, rfl, hle⟩ | ⟨hx, rfl, rfl⟩
    · exact ⟨hs, hix, hrx, Nat.le_trans hle hcam⟩
    · exact ⟨hx, hix, fun _ => rfl, Nat.zero_le _⟩

/-- What a tooth of time `t` and interval `t1` needs for the clock to agree after it: the interval is no shorter than the
filter allows, and the tooth stands no further past the last edge than the predictions it was made from. -/
structure ToothFits (w : WheelRecord) (now : Nat) (k : AngleClock) (syn : Bool) (t t1 : Nat) : Prop where
  long    : 8 ≤ t1 + 2 * synthAfter k syn
  synth   : synthAfter k syn ≤ 2
  falls   : synthAfter k syn ≠ 0 → 3 * k.t1 / 4 ≤ t1
  bound   : t1 ≤ 2500000
  past    : t ≤ now
  real    : syn = false → t = now
  started : ∀ n, k.stallFrom = some n → n ≤ t
  near    : ∃ c, k.lastCrank = some c ∧
    t ≤ c + if synthAfter k syn = 0 then 0 else (w.m + 1) * (t1 + if synthAfter k syn = 2 then k.t1 else 0)

theorem settled_agrees {w : WheelRecord} {now : Nat} {k : AngleClock} {syn : Bool} {t t1 : Nat} (h : clockAgrees w now k)
    (hs : k.sync = .crankSync ∨ k.sync = .fullSync) (hf : ToothFits w now k syn t t1) :
    clockAgrees w now { (k.advance w t t1).settled w syn now with speed := 0 } := by
  obtain ⟨-, -, hsy, hl, hr, -, hcam, -, hheld, hw, -, h1, h2, -, hc, hn⟩ := h
  obtain ⟨-, -, hfrom, hi, -⟩ := hsy hs
  obtain ⟨c, hlc, hnear⟩ := hf.near
  obtain ⟨x, i, r, cam, ab, he, hx, hix, hrx, hcamx⟩ := settled_advance w k syn now t t1 hs hi hr hcam
  have hne : x ≠ .stalled ∧ x ≠ .seeking := by rcases hx with rfl | rfl <;> decide
  have hk : k.sync ≠ .stalled := by rcases hs with h | h <;> rw [h] <;> decide
  have hp := (predict_bounds t1 k.t1).1
  have hlong := hf.long
  have hsyn := hf.synth
  rw [he]
  refine ⟨fun h => absurd h hne.1, fun h => absurd h hne.2, fun _ => ⟨rfl, rfl, ?_, hix, ?_⟩, fun _ => hl hk, hrx, hsyn, hcamx,
    Nat.zero_le _, hheld, hw, history_of rfl hf.bound h1 hc ?_⟩
  · cases syn
    · rfl
    · exact hfrom
  · refine ⟨?_, ?_, hlong, hf.falls, t, c, rfl, hlc, hnear, rfl⟩
    · show 0 < t1
      omega
    · show 0 < predict t1 k.t1
      omega
  · intro n hn'
    cases syn with
    | false =>
      cases hn'
      exact ⟨Nat.le_refl _, Nat.le_add_right _ _, fun l hl => by cases hl; exact ⟨(hf.real rfl).ge, hf.past⟩⟩
    | true =>
      obtain ⟨hle, hst, -⟩ := hn n hn'
      exact ⟨hle, hst, fun l hl => by cases hl; exact ⟨hf.started n hn', hf.past⟩⟩

theorem signalVerdict_sameClock (v : CamVerdict) (s : State) : SameClock s (signalVerdict v s) := by
  cases v with
  | keep => exact SameClock.rfl' s
  | up => exact SameClock.rfl' s
  | fault => exact Laws.departFullSync_rel sameClock_bank (s.raise .camFault)

theorem clockTooth_agrees {s : State} {syn : Bool} {t t1 : Nat} (h : Agrees s)
    (hs : s.clock.sync = .crankSync ∨ s.clock.sync = .fullSync) (hf : ToothFits s.tables.wheel s.timebase s.clock syn t t1) :
    Agrees (clockTooth s syn t t1) := by
  unfold clockTooth
  dsimp only
  refine agrees_setSpeed ?_
  have hsame := signalVerdict_sameClock (s.clock.advance s.tables.wheel t t1).toothVerdict
    (s.setClock (((s.clock.advance s.tables.wheel t t1).settled s.tables.wheel syn s.timebase).echoed s.timebase))
  obtain ⟨hk, hw, hn⟩ := hsame
  rw [hk, hw, hn]
  exact settled_agrees h hs hf

/-! ### The arithmetic of the filter -/

/-- How far the timestamp of the last tooth may run ahead of the last real edge. -/
def lead (w : WheelRecord) (k : AngleClock) : Nat :=
  if k.synth = 0 then 0 else (w.m + 1) * (k.t1 + if k.synth = 2 then k.t2 else 0)

/-- R3: an edge the filter lets through stands 200 ticks behind the one before. -/
theorem spaced_of_unfiltered {last : Option Nat} {now c : Nat} (h : filtered last now = false) (hl : last = some c) :
    c + 200 ≤ now := by
  subst hl
  have hf : Config.filterTicks = 200 := rfl
  simp only [filtered, Option.any_some, hf, decide_eq_false_iff_not] at h
  omega

section
variable {m t1 t2 tp synth dt : Nat}

theorem lead_le (hm : m = 1 ∨ m = 2) (hs2 : synth ≤ 2) :
    (if synth = 0 then 0 else (m + 1) * (t1 + if synth = 2 then t2 else 0)) ≤
      if synth = 0 then 0 else 3 * (t1 + if synth = 2 then t2 else 0) := by
  split
  · exact Nat.le_refl _
  · exact Nat.mul_le_mul_right _ (by omega)

/-- R8: an interval the tables take, and that the filter has spaced, is at least 8 ticks per pitch. -/
theorem interval_long (hm : m = 1 ∨ m = 2) (hs2 : synth ≤ 2) (hfall : synth ≠ 0 → 3 * t2 / 4 ≤ t1) (hp : 3 * t1 / 4 ≤ tp)
    (hsp : 200 ≤ dt + if synth = 0 then 0 else (m + 1) * (t1 + if synth = 2 then t2 else 0)) (hd : tp ≤ 2 * dt)
    {p : Nat} (hpit : p = 1 ∨ p = m + 1 ∧ (2 * m + 1) * tp ≤ 2 * dt) : 8 ≤ dt / p := by
  have hlead := lead_le (t1 := t1) (t2 := t2) hm hs2
  have hsp' := Nat.le_trans hsp (Nat.add_le_add_left hlead dt)
  have key : 8 ≤ dt ∧ (3 * tp ≤ 2 * dt → 24 ≤ dt) := by
    rcases (by omega : synth = 0 ∨ synth = 1 ∨ synth = 2) with rfl | rfl | rfl
    · simp only [if_true, Nat.add_zero] at hsp'
      omega
    · have := hfall (by decide)
      norm_num at hsp'
      omega
    · have := hfall (by decide)
      norm_num at hsp'
      omega
  rcases hpit with rfl | ⟨rfl, hg⟩
  · rw [Nat.div_one]
    exact key.1
  · have h24 := key.2 (Nat.le_trans (Nat.mul_le_mul_right tp (by omega)) hg)
    rw [Nat.le_div_iff_mul_le (by omega)]
    have : 8 * (m + 1) ≤ 24 := by omega
    omega

/-- R14: so is the last interval when the edge is absorbed. -/
theorem absorbed_long (hm : m = 1 ∨ m = 2) (hs2 : synth ≤ 2) (hfall : synth ≠ 0 → 3 * t2 / 4 ≤ t1) (hp : tp ≤ 5 * t1 / 4)
    (hsp : 200 ≤ dt + if synth = 0 then 0 else (m + 1) * (t1 + if synth = 2 then t2 else 0)) (hd : dt < 3 * tp / 4) :
    8 ≤ t1 := by
  have hlead := lead_le (t1 := t1) (t2 := t2) hm hs2
  have hsp' := Nat.le_trans hsp (Nat.add_le_add_left hlead dt)
  rcases (by omega : synth = 0 ∨ synth = 1 ∨ synth = 2) with rfl | rfl | rfl
  · simp only [if_true, Nat.add_zero] at hsp'
    omega
  · norm_num at hsp'
    omega
  · have := hfall (by decide)
    norm_num at hsp'
    omega

end

/-! ### Edges of the search -/

/-- R7: a clock of the search after an edge, whatever the search holds. -/
theorem searching_agrees {w : WheelRecord} {now t1 t2 : Nat} {k : AngleClock} {g : Option Nat} (h : clockAgrees w now k)
    (hs : k.sync = .seeking) (hc : k.lastCrank = some now) (h1 : t1 ≤ 2500000) (h2 : t2 ≤ 2500000) :
    clockAgrees w now { k with t1 := t1, t2 := t2, tpred := predict t1 t2, lastTooth := some now, stallFrom := some now,
                               gapSearch := g, speed := 0 } := by
  obtain ⟨-, hse, -, hl, hr, hsn, hcam, -, hheld, hw, -, -, -, -, hcr, -⟩ := h
  refine ⟨fun h => (by rw [h] at hs; cases hs), fun _ => ⟨(hse hs).1, rfl, rfl, fun _ => ⟨now, now, rfl, hc, Nat.le_refl _⟩⟩,
    fun h => (by rcases h with h | h <;> (rw [h] at hs; cases hs)), hl, hr, hsn, hcam, Nat.zero_le _, hheld, hw,
    history_of rfl h1 h2 hcr fun n hn => ?_⟩
  cases hn
  exact ⟨Nat.le_refl _, Nat.le_add_right _ _, fun l hl => (by cases hl; exact ⟨Nat.le_refl _, Nat.le_refl _⟩)⟩

/-- R7: the gap is confirmed by an interval of at least 8 ticks per pitch. -/
theorem confirmed_agrees {w : WheelRecord} {now : Nat} {k : AngleClock} (h : clockAgrees w now { k with speed := 0 })
    (hs : k.sync = .seeking) (hc : k.lastCrank = some now) (hl : k.lastTooth = some now) (h8 : 8 ≤ k.t1) :
    clockAgrees w now { k.confirmed w with speed := 0 } := by
  obtain ⟨-, hse, -, hload, -, -, -, -, hheld, hw, hp, h1, h2, h3, hcr, hn⟩ := h
  have hlow := (predict_bounds k.t1 k.t2).1
  have htp : k.tpred = predict k.t1 k.t2 := hp
  refine ⟨fun h => (by cases h), fun h => (by cases h), fun _ => ⟨?_, rfl, (hse hs).2.1, Nat.zero_le _, ?_⟩,
    fun _ => hload (by rw [hs]; decide), fun _ => rfl, Nat.zero_le _, Nat.zero_le _, Nat.zero_le _, hheld, hw, hp, h1, h2, h3,
    hcr, hn⟩
  · show k.lastTooth.isSome = true
    rw [hl]
    rfl
  · refine ⟨Nat.lt_of_lt_of_le (by decide) h8, ?_, Nat.le_trans h8 (Nat.le_add_right _ _), fun h => absurd rfl h, now, now,
      hl, hc, Nat.le_refl _, ?_⟩
    · show 0 < k.tpred
      omega
    · simp only [AngleClock.confirmed, AngleClock.deadlineFor, hl, Option.getD_some, WheelRecord.gapAfter,
        WheelRecord.lastIndex, beq_iff_eq]

theorem sought_agrees {w : WheelRecord} {now : Nat} {k : AngleClock} (may : Bool) (h : clockAgrees w now k)
    (hs : k.sync = .seeking) (hc : k.lastCrank = some now)
    (hsp : k.gapSearch.isSome = true → ∀ l, k.lastTooth = some l → l + 200 ≤ now) :
    clockAgrees w now { k.sought w may now with speed := 0 } := by
  have hk := h
  obtain ⟨-, hse, -, -, -, -, -, -, -, hw, hp, h1, h2, -, -, hn⟩ := hk
  obtain ⟨n, hfrom⟩ := Option.isSome_iff_exists.1 (hse hs).2.1
  obtain ⟨-, hm, -⟩ := wheel_range hw
  unfold AngleClock.sought
  split
  · have := searching_agrees (g := k.gapSearch) h hs hc h1 h2
    rw [← hp] at this
    exact this
  · rename_i t ht
    have hlast := (hn n hfrom).2.2 t ht
    have hdt : now - t ≤ 2500000 := by have := (hn n hfrom).2.1; omega
    dsimp only
    generalize hcand : (may && k.gapCandidate w (now - t)) = cand
    have hnew : (if cand = true then (now - t) / (w.m + 1) else now - t) ≤ 2500000 := by
      split
      · exact Nat.le_trans (Nat.div_le_self _ _) hdt
      · exact hdt
    unfold AngleClock.searched AngleClock.moveHistory
    dsimp only
    split
    · exact searching_agrees (k := k) h hs hc hnew h1
    · exact searching_agrees (k := k) h hs hc hnew h1
    · exact searching_agrees (k := k) h hs hc hnew h1
    · rename_i hg
      split
      · have h200 := hsp (by rw [hg]; rfl) t ht
        refine confirmed_agrees (searching_agrees (k := k) (g := k.gapSearch) h hs hc hnew h1) hs hc rfl ?_
        show 8 ≤ if true = true then (now - t) / (w.m + 1) else now - t
        rw [if_pos rfl, Nat.le_div_iff_mul_le (by omega)]
        have : 8 * (w.m + 1) ≤ 24 := by omega
        omega
      · exact searching_agrees (k := k) h hs hc hnew h1

theorem seekTooth_agrees {s : State} (may : Bool) (h : Agrees s) (hs : s.clock.sync = .seeking)
    (hc : s.clock.lastCrank = some s.timebase)
    (hsp : s.clock.gapSearch.isSome = true → ∀ l, s.clock.lastTooth = some l → l + 200 ≤ s.timebase) :
    Agrees (seekTooth s may) := by
  unfold seekTooth
  exact agrees_setSpeed (sought_agrees may h hs hc hsp)

theorem leaveStalled_agrees {s : State} (h : Agrees s) (hs : s.clock.sync = .stalled)
    (hc : s.clock.lastCrank = some s.timebase) (hload : s.tables.wheel.loaded = true) : Agrees (leaveStalled s) := by
  obtain ⟨hst, -, -, -, hr, hsn, hcam, -, hheld, hw, hp, h1, h2, h3, hcr, -⟩ := h
  obtain ⟨-, -, -, -, hd, -, -⟩ := hst hs
  unfold leaveStalled
  refine agrees_setSpeed ⟨fun h => (by cases h), fun _ => ⟨hd, rfl, rfl, fun _ => ⟨_, _, rfl, hc, Nat.le_refl _⟩⟩,
    fun h => (by rcases h with h | h <;> cases h), fun _ => hload, fun _ => hr (by rw [hs]; decide), hsn, hcam,
    Nat.zero_le _, hheld, hw, hp, h1, h2, h3, hcr, fun n hn => ?_⟩
  cases hn
  exact ⟨Nat.le_refl _, Nat.le_add_right _ _, fun l hl => (by cases hl; exact ⟨Nat.le_refl _, Nat.le_refl _⟩)⟩

/-! ### Edges of the sync states -/

/-- The edge now taken stands 200 ticks behind the last real one, so the last tooth is no further ahead than its lead. -/
def Spaced (s : State) : Prop :=
  ∀ l, s.clock.lastTooth = some l → l + 200 ≤ s.timebase + lead s.tables.wheel s.clock

theorem judgedEdge_agrees (tie : TieOrder) {s : State} (h : Agrees s)
    (hs : s.clock.sync = .crankSync ∨ s.clock.sync = .fullSync) (hc : s.clock.lastCrank = some s.timebase) (hsp : Spaced s) :
    Agrees (judgedEdge tie s) := by
  have hk := h
  obtain ⟨-, -, hsy, -, -, hsn, -, -, -, hw, hp, h1, h2, -, -, hn⟩ := hk
  obtain ⟨hlt, hds, hfrom, -, ht0, htp0, -, hfall, l, c, hl, hcc, hnear, hd⟩ := hsy hs
  obtain ⟨n, hn'⟩ := Option.isSome_iff_exists.1 hfrom
  obtain ⟨-, hm, -⟩ := wheel_range hw
  obtain ⟨-, hstall, hbetween⟩ := hn n hn'
  have hlast := hbetween l hl
  have hne : s.clock.sync ≠ .stalled := by rcases hs with h | h <;> rw [h] <;> decide
  unfold judgedEdge
  dsimp only
  rw [hl, Option.getD_some]
  have hspaced := hsp l hl
  split
  · exact h
  · refine handOn_kept _ _ _ _ ?_
    obtain ⟨v, b, hclock, htime⟩ := changeSync_clock s (s.clock.cleared .seeking)
    refine seekTooth_agrees false (loseSync_agrees h hne) ?_ ?_ ?_
    · unfold loseSync
      rw [hclock]
      rfl
    · unfold loseSync
      rw [hclock, htime]
      exact hc
    · unfold loseSync
      rw [hclock]
      exact fun h => (by cases h)
  · rename_i hj
    refine handOn_kept _ _ _ _ (clockTooth_agrees h hs ?_)
    have hlong : 8 ≤ (s.timebase - l) / s.tables.wheel.pitches s.clock.index := by
      unfold AngleClock.judge at hj
      split at hj
      · cases hj
      · rename_i h2
        split at hj
        · cases hj
        · rename_i hgap
          refine interval_long (m := s.tables.wheel.m) (t1 := s.clock.t1) (t2 := s.clock.t2) (tp := s.clock.tpred)
            (synth := s.clock.synth) hm hsn hfall ?_ ?_ (Nat.le_of_not_lt h2) ?_
          · rw [hp]
            exact (predict_bounds _ _).1
          · unfold lead at hspaced
            omega
          · unfold WheelRecord.pitches
            split
            · rename_i hg
              exact .inr ⟨rfl, Nat.le_of_not_lt fun hlt => hgap ⟨hg, hlt⟩⟩
            · exact .inl rfl
    exact {
      long := Nat.le_trans hlong (Nat.le_add_right _ _)
      synth := Nat.zero_le _
      falls := fun h => absurd rfl h
      bound := Nat.le_trans (Nat.div_le_self _ _) (by omega)
      past := Nat.le_refl _
      real := fun _ => rfl
      started := fun x hx => (hn x hx).1
      near := ⟨s.timebase, hc, Nat.le_add_right _ _⟩ }

theorem syncEdge_agrees (tie : TieOrder) {s : State} (h : Agrees s)
    (hs : s.clock.sync = .crankSync ∨ s.clock.sync = .fullSync) (hc : s.clock.lastCrank = some s.timebase) (hsp : Spaced s) :
    Agrees (syncEdge tie s) := by
  unfold syncEdge
  split
  · rename_i habs
    obtain ⟨hst, hse, hsy, hload, hr, hsn, hcam, hspd, hheld, hw, hp, h1, h2, h3, hcr, hn⟩ := h
    obtain ⟨hlt, hds, hfrom, hi, ht0, htp0, -, hfall, l, c, hl, -, -, hd⟩ := hsy hs
    obtain ⟨n, hn'⟩ := Option.isSome_iff_exists.1 hfrom
    obtain ⟨-, hm, -⟩ := wheel_range hw
    have hlast := (hn n hn').2.2 l hl
    have hspaced := hsp l hl
    have h8 : 8 ≤ s.clock.t1 := by
      unfold AngleClock.absorbs at habs
      rw [hl, Option.getD_some, Bool.and_eq_true, decide_eq_true_eq] at habs
      refine absorbed_long (m := s.tables.wheel.m) (t2 := s.clock.t2) (tp := s.clock.tpred) (synth := s.clock.synth)
        hm hsn hfall ?_ ?_ habs.2
      · rw [hp]
        exact (predict_bounds _ _).2
      · unfold lead at hspaced
        omega
    exact ⟨hst, hse, fun _ => ⟨hlt, hds, hfrom, hi, ht0, htp0, h8, fun h => absurd rfl h, l, s.timebase, hl, hc,
        Nat.le_trans hlast.2 (Nat.le_add_right _ _), hd⟩,
      hload, hr, Nat.zero_le _, hcam, hspd, hheld, hw, hp, h1, h2, h3, hcr, hn⟩
  · exact judgedEdge_agrees tie (s := s.setClock { s.clock with absorb := false }) h hs hc hsp

/-- R3: noting an edge keeps the agreement: the edge stands no earlier than the one before. -/
theorem noted_agrees {w : WheelRecord} {now : Nat} {k : AngleClock} (h : clockAgrees w now k) :
    clockAgrees w now { k with lastCrank := some now } := by
  obtain ⟨hst, hse, hsy, hl, hr, hsn, hcam, hsp, hheld, hw, hp, h1, h2, h3, hc, hn⟩ := h
  refine ⟨hst, fun hs => ?_, fun hs => ?_, hl, hr, hsn, hcam, hsp, hheld, hw, hp, h1, h2, h3,
    fun c h => (by cases h; exact Nat.le_refl _), hn⟩
  · obtain ⟨a, b, d, hg⟩ := hse hs
    refine ⟨a, b, d, fun hsome => ?_⟩
    obtain ⟨l, c, hl, hlc, hle⟩ := hg hsome
    exact ⟨l, now, hl, rfl, Nat.le_trans hle (hc c hlc)⟩
  · obtain ⟨a, b, d, e, h0, htp, h8, hf, l, c, hl, hlc, hle, hd⟩ := hsy hs
    exact ⟨a, b, d, e, h0, htp, h8, hf, l, now, hl, rfl, Nat.le_trans hle (Nat.add_le_add_right (hc c hlc) _), hd⟩

theorem crankTransition_kept (tr : Transition) (tie : TieOrder) (s : State) : ClockKept s (crankTransition tr tie s) := by
  unfold crankTransition
  split
  · rename_i hload
    rw [Bool.and_eq_true] at hload
    intro h
    have hk := h
    obtain ⟨-, hse, hsy, -⟩ := hk
    have hnoted : Agrees (s.setClock { s.clock with lastCrank := some s.timebase }) := noted_agrees h
    have hspaced : (s.clock.sync = .crankSync ∨ s.clock.sync = .fullSync) → filtered s.clock.lastCrank s.timebase = false →
        Spaced (s.setClock { s.clock with lastCrank := some s.timebase }) := by
      intro hs hfil l hl
      obtain ⟨-, -, -, -, -, -, -, -, l', c, hl', hlc, hle, -⟩ := hsy hs
      cases hl.symm.trans hl'
      have := spaced_of_unfiltered hfil hlc
      exact Nat.le_trans (Nat.add_le_add_right hle _) (by rw [Nat.add_right_comm]; exact Nat.add_le_add_right this _)
    unfold risingEdge
    dsimp only
    split
    · exact hnoted
    · rename_i hfil
      have hfil := Bool.eq_false_iff.2 hfil
      split
      · rename_i hs
        exact handOn_kept _ _ _ _ (leaveStalled_agrees hnoted hs rfl hload.1)
      · rename_i hs
        refine handOn_kept _ _ _ _ (seekTooth_agrees true hnoted hs rfl fun hg l hl => ?_)
        obtain ⟨-, -, -, hsearch⟩ := hse hs
        obtain ⟨l', c, hl', hlc, hle⟩ := hsearch hg
        cases hl.symm.trans hl'
        exact Nat.le_trans (Nat.add_le_add_right hle _) (spaced_of_unfiltered hfil hlc)
      · rename_i hs
        exact syncEdge_agrees tie hnoted (.inl hs) rfl (hspaced (.inl hs) hfil)
      · rename_i hs
        exact syncEdge_agrees tie hnoted (.inr hs) rfl (hspaced (.inr hs) hfil)
  · exact id

theorem camTransition_kept (tr : Transition) (s : State) : ClockKept s (camTransition tr s) := by
  unfold camTransition
  split
  · dsimp only
    split
    · exact id
    · unfold AngleClock.countCam
      split
      · exact id
      · exact id
      all_goals
        rintro ⟨hst, hse, hsy, hl, hr, hsn, -, hrest⟩
        exact ⟨hst, hse, hsy, hl, hr, hsn, Nat.min_le_left _ _, hrest⟩
  · exact id

/-! ### The deadline -/

theorem pitches_le (w : WheelRecord) (i : Nat) : 1 ≤ w.pitches i ∧ w.pitches i ≤ w.m + 1 := by
  unfold WheelRecord.pitches
  split <;> omega

/-- R13: the deadline stands half a pitch behind the time of the synthetic tooth. -/
theorem synthetic_le_deadline (w : WheelRecord) (i tp : Nat) :
    w.pitches i * tp + tp / 2 ≤ if i = w.n - w.m - 1 then (2 * w.m + 3) * tp / 2 else 3 * tp / 2 := by
  have hg : (w.gapAfter i = true) = (i = w.n - w.m - 1) := by
    simp only [WheelRecord.gapAfter, WheelRecord.lastIndex, beq_iff_eq]
  unfold WheelRecord.pitches
  simp only [hg]
  split
  · rw [Nat.le_div_iff_mul_le (by decide)]
    have : (2 * w.m + 3) * tp = (w.m + 1) * tp * 2 + tp := by ring
    omega
  · omega

/-- R13: a synthetic tooth stands no further ahead of the last real edge than one prediction more. -/
theorem synthetic_near {m p l c t1 t2 tp synth : Nat} (hp : p ≤ m + 1) (hs : synth < 2)
    (hl : l ≤ c + if synth = 0 then 0 else (m + 1) * (t1 + if synth = 2 then t2 else 0)) :
    l + p * tp ≤ c + if synth + 1 = 0 then 0 else (m + 1) * (tp + if synth + 1 = 2 then t1 else 0) := by
  have hpt : p * tp ≤ (m + 1) * tp := Nat.mul_le_mul_right tp hp
  rw [if_neg (Nat.succ_ne_zero synth), Nat.mul_add]
  rcases (by omega : synth = 0 ∨ synth = 1) with rfl | rfl
  · norm_num at hl ⊢
    omega
  · norm_num at hl ⊢
    omega

theorem expireDeadline_kept (tie : TieOrder) (s : State) (hdue : dueDeadline s = true) :
    ClockKept s (expireDeadline tie s) := by
  intro h
  have hk := h
  obtain ⟨hst, hse, hsy, -, -, -, -, -, -, hw, hp, h1, h2, -, -, hn⟩ := hk
  have hs : s.clock.sync = .crankSync ∨ s.clock.sync = .fullSync := by
    cases hx : s.clock.sync with
    | stalled => simp [dueDeadline, State.reached, (hst hx).2.2.2.2.1] at hdue
    | seeking => simp [dueDeadline, State.reached, (hse hx).1] at hdue
    | crankSync => exact .inl rfl
    | fullSync => exact .inr rfl
  have hne : s.clock.sync ≠ .stalled := by rcases hs with h | h <;> rw [h] <;> decide
  obtain ⟨-, -, hfrom, -, -, -, h8, -, l, c, hl, hc, hnear, hd⟩ := hsy hs
  obtain ⟨n, hn'⟩ := Option.isSome_iff_exists.1 hfrom
  obtain ⟨hn0, hstall, hbetween⟩ := hn n hn'
  have hlast := hbetween l hl
  have hbounds := predict_bounds s.clock.t1 s.clock.t2
  rw [← hp] at hbounds
  have hpast := synthetic_le_deadline s.tables.wheel s.clock.index s.clock.tpred
  have hdead : l + (if s.clock.index = s.tables.wheel.n - s.tables.wheel.m - 1 then
      (2 * s.tables.wheel.m + 3) * s.clock.tpred / 2 else 3 * s.clock.tpred / 2) ≤ s.timebase := by
    simpa [dueDeadline, State.reached, hd] using hdue
  have hpit := pitches_le s.tables.wheel s.clock.index
  have hmul : 1 * s.clock.tpred ≤ s.tables.wheel.pitches s.clock.index * s.clock.tpred := Nat.mul_le_mul_right _ hpit.1
  unfold expireDeadline
  split
  · rename_i hsynth
    refine handOn_kept _ _ _ _ (clockTooth_agrees h hs ?_)
    have htime : s.clock.syntheticTime s.tables.wheel = l + s.tables.wheel.pitches s.clock.index * s.clock.tpred := by
      rw [AngleClock.syntheticTime, hl, Option.getD_some]
    have hafter : synthAfter s.clock true = s.clock.synth + 1 := rfl
    rw [htime]
    exact {
      long := by rw [hafter]; omega
      synth := by rw [hafter]; omega
      falls := fun _ => hbounds.1
      bound := by omega
      past := by omega
      real := fun h => (by cases h)
      started := fun x hx => Nat.le_trans ((hn x hx).2.2 l hl).1 (Nat.le_add_right _ _)
      near := ⟨c, hc, synthetic_near hpit.2 hsynth hnear⟩ }
  · exact loseSync_agrees h hne

/-! ### Time and commands -/

theorem reached_some_false (s : State) (t : Nat) : s.reached (some t) = false ↔ s.timebase < t := by
  simp [State.reached]

theorem dueStall_of_started {s : State} {n : Nat} (h : s.clock.stallFrom = some n) :
    dueStall s = s.reached (some (n + Config.stallTicks)) := by
  rw [dueStall, h, Option.map_some]

/-- With no event due the stall timer has not run out. -/
theorem stall_ahead {s : State} (hd : dueEvent s = none) {n : Nat} (h : s.clock.stallFrom = some n) :
    s.timebase < n + Config.stallTicks := by
  rw [dueEvent, List.findSome?_eq_none_iff] at hd
  have hstall := hd (onDue (dueStall s) .stall) (by simp [dueEvents])
  have hnot : dueStall s = false := by simpa [onDue] using hstall
  rw [dueStall_of_started h] at hnot
  exact (reached_some_false _ _).1 hnot

/-- R16: time passes only while the stall timer has not run out. -/
theorem tick_kept (s : State) (hd : dueEvent s = none) : ClockKept s (tick s) := by
  rintro ⟨hst, hse, hsy, hl, hr, hsn, hcam, hsp, hheld, hw, hp, h1, h2, h3, hc, hn⟩
  refine ⟨hst, hse, hsy, hl, hr, hsn, hcam, hsp, hheld, hw, hp, h1, h2, h3, fun c h => Nat.le_succ_of_le (hc c h),
    fun n h => ?_⟩
  obtain ⟨ha, -, hbetween⟩ := hn n h
  exact ⟨Nat.le_succ_of_le ha, Nat.succ_le_of_lt (stall_ahead hd h),
    fun l hl => ⟨(hbetween l hl).1, Nat.le_succ_of_le (hbetween l hl).2⟩⟩

theorem reset_agrees : Agrees State.reset := by
  refine ⟨fun _ => ⟨rfl, rfl, rfl, rfl, rfl, rfl, rfl⟩, fun h => (by cases h), fun h => (by rcases h with h | h <;> cases h),
    fun h => absurd rfl h, fun _ => rfl, by decide, by decide, by decide, by decide, by decide, ?_⟩
  exact history_of rfl (by decide) (by decide) (fun c h => (by cases h)) fun n h => (by cases h)

theorem clockKept_exec : ExecRel True (fun _ => True) (fun _ => True) ClockKept where
  toWholeRel := wholeRel_of_bankRel clockKept_bank _ _
  toPlanRel := planRel_true fun _ _ _ => id
  link _ _ := id
  trace _ _ := id
  events _ _ _ := id
  read _ := id
  sense _ _ := id
  supply _ _ := id
  queueing _ _ := id
  ticking := tick_kept
  recharge _ := id
  counted _ _ _ := id
  moved _ _ _ _ := id
  slow _ _ := id
  load s x hl _ := by
    cases hl with
    | cyl => exact id
    | profile => exact id
    | pattern _ _ b => cases b <;> exact id
    | swapped => exact id
  pend _ _ _ := id
  limits _ _ := id
  stop s := clockKept_bank.trans (clockKept_bank.safe s) (clockKept_bank.trans (Laws.cancelBank_rel clockKept_bank .bankA _ _)
    (Laws.cancelBank_rel clockKept_bank .bankB _ _))
  drain s _ := Laws.drainTest_rel clockKept_bank (s.setFiring .draining)
  rearm _ _ := id
  arm _ _ := id
  service' _ _ _ _ _ := id
  resets _ _ _ := reset_agrees
  overspeed _ _ := id
  crank s tr tie _ := crankTransition_kept tr tie s
  cam s tr := camTransition_kept tr s
  deadline s tie _ hdue := expireDeadline_kept tie s hdue
  stalled s _ := stallClock_kept s
  reload s _ _ hw := reloadClock_kept s hw
  techo _ := id
  cmark _ := id

/-- Settles O40: each change of the clock on its own, and no other change of a step touches the clock. -/
theorem stepKeepsTheClock : Obligations.StepKeepsTheClock := by
  unfold Obligations.StepKeepsTheClock
  intro s t h he
  exact step_rel clockKept_exec trivial trivial he h

end Sys2Proof.Proofs.Clock
end

section
/-! SUPPORT. The statements that one reading of a definition settles: the order of a step, the two resets, the transaction
that breaks, the ends of the timed pulses, and the frames whose owner answers at once. -/

namespace Sys2Proof.Proofs.Frames

open Sys2Proof Sys2Proof.Machine Sys2Proof.Laws

/-! ### Frames that reach their owner -/

/-- A frame that passes is answered by its owner, whose reply is worked out apart. -/
theorem takeFrame_reply {s : State} {code : Byte} {f : Frame} {admits : List Byte → Bool}
    {owner : State → List Byte → Reply} (h : passes s code f = true) (hl : (frameParams f).length ≤ 60)
    (ha : admits (frameParams f) = true) {r : Reply} (hr : owner (received s code f) (frameParams f) = r) :
    takeFrame s code f admits owner = respond r.state code r.result r.data := by
  rw [takeFrame_of_passes owner h hl ha, hr]

/-- The same for a frame of exactly `n` parameters. -/
theorem takeFrame_exactly {s : State} {code : Byte} {f : Frame} {n : Nat} {owner : State → List Byte → Reply}
    (h : passes s code f = true) (hl : (frameParams f).length = n) (hn : n ≤ 60) {r : Reply}
    (hr : owner (received s code f) (frameParams f) = r) :
    takeFrame s code f (exactly n) owner = respond r.state code r.result r.data :=
  takeFrame_reply (admits := exactly n) h (hl.trans_le hn) (beq_iff_eq.2 hl) hr

/-- A frame its owner refuses only has its answer. -/
theorem takeFrame_refused {s : State} {code : Byte} {f : Frame} {n : Nat} {owner : State → List Byte → Reply} {r : Result}
    (h : passes s code f = true) (hl : (frameParams f).length = n) (hn : n ≤ 60)
    (hr : owner (received s code f) (frameParams f) = refuse (received s code f) r) :
    takeFrame s code f (exactly n) owner = answered s code f r [] := takeFrame_exactly h hl hn hr

theorem length_of_empty {f : Frame} (h : frameParams f = []) : (frameParams f).length = 0 := by rw [h]; rfl

/-! ### The step -/

/-- Settles O1: the match of a step, read at its two arms. -/
theorem stepRunsFrontCommand : Obligations.StepRunsFrontCommand := by
  unfold Obligations.StepRunsFrontCommand
  refine ⟨fun c rest s h => ?_, fun e rest s hp he => step_edge hp he⟩
  unfold step
  rw [h]

theorem step_idle {s : State} (hp : s.pending = []) (he : s.link.edges = []) : step s = Machine.idleStep s := by
  unfold step
  rw [hp]
  dsimp only
  rw [he]

/-- Settles O2: what the block does of itself. -/
theorem idleStep : Obligations.IdleStep := by
  unfold Obligations.IdleStep
  intro s hp he
  rw [step_idle hp he, Machine.idleStep]
  refine ⟨fun i hd => by rw [hd], fun hd hs => ?_, fun hd hs => ?_⟩
  · rw [hd]
    exact if_pos hs
  · rw [hd]
    exact if_neg (Bool.eq_false_iff.1 hs)

/-! ### The resets -/

theorem reset_select (x : Select) : x.afterPowerOn = if x = .released then .released else .missed := by
  cases x <;> rfl

/-- R165: with a transaction in progress at the reset, the pins ignore the clock until LSEL has risen. -/
theorem missed_ignores {t : State} (h : t.link.select = .missed) :
    t.link.ldoPin = none ∧ takeEdge .selectFall t = .next t ∧ takeEdge .clockFall t = .next t ∧
      (∀ b, takeEdge (.clockRise b) t = .next t) ∧
      takeEdge .selectRise t = .next { t with link := { t.link with select := .released } } := by
  refine ⟨?_, ?_, ?_, fun b => ?_, ?_⟩
  · simp only [LinkIface.ldoPin, h]
  · simp only [takeEdge, LinkIface.selectFall, h, State.setLink]
  · simp only [takeEdge, LinkIface.clockFall, h, State.setLink]
  · simp only [takeEdge, LinkIface.clockRise, h, State.setLink]
  · simp only [takeEdge, h, State.setLink]

theorem reset_int : EventLatch.reset.int = false := by decide

/-- Settles O4: each block's reset value, and the pins with a transaction in progress at the reset. -/
theorem powerOnReset : Obligations.PowerOnReset := by
  unfold Obligations.PowerOnReset
  intro s
  refine ⟨_, rfl, ?_, ?_, rfl, rfl, rfl, rfl, rfl, rfl, rfl, rfl, rfl, rfl, rfl, rfl, rfl, reset_int, rfl, ?_, ?_, ?_, rfl, rfl,
    rfl, rfl, ?_, ?_, ?_, rfl, rfl, rfl, rfl, rfl, rfl, rfl, ?_, rfl, rfl, rfl, rfl, rfl, rfl⟩
  · rw [reset_select]
    rfl
  · intro h
    have hmissed : s.link.select.afterPowerOn = .missed := by rw [reset_select, if_neg h]
    obtain ⟨hpin, hfall, hcf, hcr, hrise⟩ := missed_ignores
      (t := { State.reset with
        pending := s.pending
        link := { LinkIface.reset with select := s.link.select.afterPowerOn, edges := s.link.edges } }) hmissed
    exact ⟨hpin, hfall, hcf, hcr, _, hrise, rfl, rfl⟩
  · intro c; fin_cases c <;> rfl
  · intro i; fin_cases i <;> rfl
  · intro p i
    cases p <;> fin_cases i <;> rfl
  · intro c; fin_cases c <;> rfl
  · intro k
    cases k <;> exact ⟨rfl, rfl, rfl, rfl, rfl, rfl, rfl, rfl, rfl, rfl, rfl, rfl, rfl⟩
  · intro out
    unfold State.gateLine
    rfl
  · intro c; fin_cases c <;> rfl

/-- Settles O5: RESET clears every block, and its answer is what the link keeps. -/
theorem softReset : Obligations.SoftReset := by
  unfold Obligations.SoftReset
  intro f s h hp
  exact congrArg Host.Outcome.next (takeFrame_exactly h (length_of_empty hp) (by decide) rfl)

theorem reset_tablesInRange : tablesInRange TableStore.reset :=
  ⟨by decide, by decide, by decide, rfl, rfl, by decide, by decide, by decide⟩

theorem reset_countersAgree : countersAgree Sched.reset := by
  unfold countersAgree
  decide

/-- Settles O6: each invariant of the reset state, whose banks are empty and whose tables hold the defaults. -/
theorem resetMeetsTheInvariants : Obligations.ResetMeetsTheInvariants := by
  unfold Obligations.ResetMeetsTheInvariants
  intro q
  refine ⟨reset_tablesInRange, ?_, fun h => (by cases h),
    fun h => (by cases h), ?_, Clock.reset_agrees, ?_, ?_⟩
  · intro c d _ hc _
    fin_cases c <;> cases hc
  · intro _ k
    cases k <;> exact ⟨fun x hx => (by cases hx), fun p hp => (by cases hp)⟩
  · intro k
    cases k <;> exact ⟨reset_countersAgree, rfl, fun x hx => (by cases hx), fun p hp => (by cases hp)⟩
  · intro k
    cases k <;> exact Nat.zero_le _

/-! ### Broken transactions -/

/-- Settles O10: a transaction without a complete frame takes one path, whatever its bytes name. -/
theorem brokenTransaction : Obligations.BrokenTransaction := by
  unfold Obligations.BrokenTransaction
  refine ⟨fun bytes odd s => rfl, fun i code f s hi hf => ?_⟩
  have hframe : ∀ admits owner, takeFrame s code f admits owner = breakTransaction s (code :: f.len :: f.rest) f.odd := by
    intro admits owner
    unfold takeFrame
    rw [if_neg (by rw [hf]; decide)]
    rfl
  have hunknown : takeUnknown s code f = breakTransaction s (code :: f.len :: f.rest) f.odd := by
    unfold takeUnknown
    rw [if_neg (by rw [hf]; decide)]
    rfl
  cases i with
  | unknown => cases hi; exact congrArg Host.Outcome.next hunknown
  | powerOnReset | busyPeriodEnd | crankEdge | camEdge | deadlineExpiry | stall | techoPulseEnd | cmarkPulseEnd
  | timedInstant | chainShotDue | gapEnd | deferDeadline | scheduledEnd | windowClose | driveSample | traceSample
  | rechargeStep | supplySample | linkSilence | brokenTransaction => cases hi
  | _ => cases hi; exact congrArg Host.Outcome.next (hframe _ _)

/-! ### The ends of the busy period and of the pulses -/

theorem whenDue_of_true {due : Bool} {f : State → State} {s : State} (h : due = true) : whenDue due f s = f s := if_pos h

theorem whenDue_of_false {due : Bool} {f : State → State} {s : State} (h : due = false) : whenDue due f s = s :=
  if_neg (Bool.eq_false_iff.1 h)

theorem reached_of_le {s : State} {x : Option Nat} {n : Nat} (hx : x = some n) (h : n ≤ s.timebase) :
    s.reached x = true := by
  rw [hx]
  exact decide_eq_true h

theorem not_reached_of_lt {s : State} {x : Option Nat} {n : Nat} (hx : x = some n) (h : s.timebase < n) :
    s.reached x = false := by
  rw [hx]
  exact decide_eq_false (Nat.not_le_of_lt h)

/-- Settles O13: each end at its instant, and nothing before it. -/
theorem busyAndPulseEnds : Obligations.BusyAndPulseEnds := by
  unfold Obligations.BusyAndPulseEnds
  exact ⟨fun s n hn h => congrArg _ (whenDue_of_true (f := endBusy) (reached_of_le hn h)),
    fun s n hn h => congrArg _ (whenDue_of_true (f := endTecho) (reached_of_le hn h)),
    fun s n hn h => congrArg _ (whenDue_of_true (f := endCmark) (reached_of_le hn h)),
    fun s n hn h => congrArg _ (whenDue_of_false (f := endBusy) (not_reached_of_lt hn h)),
    fun s n hn h => congrArg _ (whenDue_of_false (f := endTecho) (not_reached_of_lt hn h)),
    fun s n hn h => congrArg _ (whenDue_of_false (f := endCmark) (not_reached_of_lt hn h))⟩

/-! ### Frames answered at once -/

/-- R176: the number of codes the part knows. -/
theorem commandCount_eq : (codeTable.map Prod.fst).dedup.length = Config.commandCount := by decide

/-- Settles O14: both owners answer from constants. -/
theorem nopAndReadId : Obligations.NopAndReadId := by
  unfold Obligations.NopAndReadId
  intro f s hp
  refine ⟨fun h => ?_, fun h => ?_⟩
  · exact congrArg Host.Outcome.next (takeFrame_exactly (owner := ownNop) h (length_of_empty hp) (by decide) rfl)
  · rw [commandCount_eq]
    exact congrArg Host.Outcome.next (takeFrame_exactly (owner := ownReadId) h (length_of_empty hp) (by decide) rfl)

/-- Settles O19: the three cases of the owner. -/
theorem swap : Obligations.Swap := by
  unfold Obligations.Swap
  intro f s h hp
  have hl := length_of_empty hp
  refine ⟨fun hw => ?_, fun hw hf hs => ?_, fun hw hn => ?_⟩
  · exact congrArg Host.Outcome.next (takeFrame_refused h hl (by decide) (if_pos hw))
  · have hown : ownSwap (received s 0x14 f) (frameParams f) =
        took ((received s 0x14 f).setTables { s.tables with swapPending := true }) := by
      refine (if_neg (Bool.eq_false_iff.1 hw)).trans (if_pos ⟨hf, hs⟩)
    exact congrArg Host.Outcome.next (takeFrame_exactly h hl (by decide) hown)
  · have hown : ownSwap (received s 0x14 f) (frameParams f) =
        took ((received s 0x14 f).setTables s.tables.swapPages) := by
      refine (if_neg (Bool.eq_false_iff.1 hw)).trans (if_neg ?_)
      rintro ⟨hf, hs⟩
      exact hn.elim hf fun h => h hs
    have hpages : s.tables.swapPages = { s.tables with activePage1 := !s.tables.activePage1 } := by
      unfold TableStore.swapPages
      rw [← hw]
    rw [hpages] at hown
    exact congrArg Host.Outcome.next (takeFrame_exactly h hl (by decide) hown)

end Sys2Proof.Proofs.Frames
end

section
/-! SUPPORT. Numbers in the bytes of a frame and of a reply. -/

namespace Sys2Proof.Proofs.Bytes

open Sys2Proof Sys2Proof.Machine Sys2Proof.Laws

@[simp] theorem leBytes_length (k n : Nat) : (leBytes k n).length = k := by
  induction k generalizing n with
  | zero => rfl
  | succ k ih => simp [leBytes, ih]

theorem leValue_leBytes (k n : Nat) : leValue (leBytes k n) = n % 256 ^ k := by
  induction k generalizing n with
  | zero => simp [leBytes, leValue, Nat.mod_one]
  | succ k ih =>
    have hpow : 256 ^ (k + 1) = 256 * 256 ^ k := Nat.pow_succ'
    rw [leBytes, leValue, ih, BitVec.toNat_ofNat, hpow, Nat.mod_mul]

/-- A field that lies in the first part of a reply. -/
theorem fieldAt_append_left {xs ys : List Byte} {off n : Nat} (h : off + n ≤ xs.length) :
    fieldAt (xs ++ ys) off n = fieldAt xs off n := by
  unfold fieldAt
  rw [List.drop_append_of_le_length (by omega), List.take_append_of_le_length (by simp; omega)]

theorem fieldAt_leBytes (k n : Nat) : fieldAt (leBytes k n) 0 k = n % 256 ^ k := by
  rw [fieldAt, List.drop_zero, List.take_of_length_le (leBytes_length k n).le, leValue_leBytes]

theorem fieldAt_one (ps : List Byte) (i : Nat) : fieldAt ps i 1 = u8 ps i := by
  have hg : ps.getD i 0 = (ps.drop i).getD 0 0 := by simp [List.getD_eq_getElem?_getD, List.getElem?_drop]
  unfold fieldAt u8
  rw [hg]
  cases ps.drop i with
  | nil => rfl
  | cons x xs => simp [leValue]

theorem fieldAt_two (ps : List Byte) (i : Nat) : fieldAt ps i 2 = u16 ps i := by
  have h0 : ps.getD i 0 = (ps.drop i).getD 0 0 := by simp [List.getD_eq_getElem?_getD, List.getElem?_drop]
  have h1 : ps.getD (i + 1) 0 = (ps.drop i).getD 1 0 := by simp [List.getD_eq_getElem?_getD, List.getElem?_drop]
  unfold fieldAt u16 u8
  rw [h0, h1]
  match ps.drop i with
  | [] => rfl
  | [x] => simp [leValue]
  | x :: y :: xs => simp [leValue]

end Sys2Proof.Proofs.Bytes
end

section
/-! SUPPORT. What every command keeps: the ways of all commands but the resets, the totality of all, and the events that stay
latched. -/

namespace Sys2Proof.Proofs.Commands

open Sys2Proof Sys2Proof.Machine Sys2Proof.Laws Sys2Proof.Laws.Fine Sys2Proof.Proofs.Steps Sys2Proof.Proofs.Plain
open Sys2Proof.Proofs.Frames Sys2Proof.Proofs.Bytes

variable {R : State → State → Prop}

/-- A relation of the plain commands that does not look at the clock or the banks holds across every command that does not
reset the part, once it holds across the reading of the events. -/
theorem exec_unreset (h : PlainRel R) (hb : BankRel R) (hc : ∀ s x, R s (s.setClock x)) {i : Instr}
    (hp : i ≠ .powerOnReset) (hr : ∀ f, i ≠ .reset f)
    (hread : ∀ f, i = .readEvents f → ∀ s : State, R s (s.setEvents { s.events with latched := 0 })) {s t : State}
    (he : exec i s = .next t) : R s t := by
  have hw : WholeRel (fun _ => True) (fun _ => True) R := wholeRel_of_bankRel hb _ _
  have hplan : PlanRel (fun _ => True) R (fun _ => True) := planRel_true h.demand
  have hk : ∀ k : Bank, True := fun _ => trivial
  cases i with
  | powerOnReset => exact absurd rfl hp
  | reset f => exact absurd rfl (hr f)
  | crankEdge tr tie => cases he; exact crankTransition_rel hw hc hplan hk tr tie s trivial
  | camEdge tr => cases he; exact camTransition_rel hw hc tr s
  | deadlineExpiry tie => cases he; exact h.whenDue s _ fun _ => expireDeadline_rel hw hc hplan hk tie s trivial
  | stall => cases he; exact h.whenDue s _ fun _ => stallClock_rel hw hc hk s
  | loadWheel f =>
    cases he
    refine h.link_rel.takeFrame s _ _ _ _ fun _ u => ?_
    unfold ownLoadWheel
    split
    · exact h.refl u
    · split
      · exact h.refl u
      · exact h.trans (h.tables u _) (reloadClock_rel hw hc hk _)
  | readEvents f => cases he; exact h.link_rel.takeFrame s _ _ _ _ fun _ s => hread f rfl s
  | _ => exact h.exec rfl he

/-! ### Totality, what waits, and time -/

/-- Every command has a next state. -/
theorem exec_next (i : Instr) (s : State) : ∃ t, exec i s = .next t := by
  cases i with
  | traceSample x =>
    show ∃ t, execTraceSample x s = .next t
    unfold execTraceSample
    split <;> exact ⟨_, rfl⟩
  | _ => exact ⟨_, rfl⟩

/-- What waits is the same, and no time has passed. -/
def Outside (s t : State) : Prop := t.pending = s.pending ∧ t.link.edges = s.link.edges ∧ t.timebase = s.timebase

theorem Outside.same (s : State) : Outside s s := ⟨rfl, rfl, rfl⟩

theorem Outside.trans {s t u : State} (h : Outside s t) (h' : Outside t u) : Outside s u :=
  ⟨h'.1.trans h.1, h'.2.1.trans h.2.1, h'.2.2.trans h.2.2⟩

theorem takePendingSwap_outside (s : State) : Outside s s.takePendingSwap := by
  unfold State.takePendingSwap
  split <;> exact Outside.same s

theorem outside_bank : BankRel Outside where
  refl := Outside.same
  trans := Outside.trans
  sched s _ _ := Outside.same s
  drive s _ _ := Outside.same s
  level s _ _ := Outside.same s
  sup s _ _ := Outside.same s
  event s _ := Outside.same s
  safe s := takePendingSwap_outside (s.setFiring .safe)
  swap := takePendingSwap_outside
  trace s _ := Outside.same s
  service s := Outside.same s

theorem outside_plain : PlainRel Outside where
  toOpRel := (wholeRel_of_bankRel outside_bank _ _).toOpRel
  link _ _ h := ⟨rfl, h, rfl⟩
  supAny s _ _ := Outside.same s
  demand s _ _ := Outside.same s
  trace s _ := Outside.same s
  mask s _ := Outside.same s
  sense s _ := Outside.same s
  supply s _ := Outside.same s
  tables s _ := Outside.same s
  levels s _ _ := Outside.same s
  drive s _ _ := Outside.same s
  slow s _ := Outside.same s
  stop s := (outside_bank.safe s).trans ((Laws.cancelBank_rel outside_bank .bankA _ _).trans
    (Laws.cancelBank_rel outside_bank .bankB _ _))
  drain s _ := Laws.drainTest_rel outside_bank (s.setFiring .draining)
  rearm s := Outside.same s
  arm s := Outside.same s
  service' s _ _ _ _ := Outside.same s
  overspeed s _ := Outside.same s
  techo s := Outside.same s
  cmark s := Outside.same s

/-- A reset keeps what waits, and its frame, if it is taken, sets the timebase to 0. -/
theorem reset_outside (f : Frame) (s : State) :
    let t := takeFrame s 0x02 f (exactly 0) ownReset
    t.pending = s.pending ∧ t.link.edges = s.link.edges ∧ (t.timebase = s.timebase ∨ t.timebase = 0) := by
  rcases takeFrame_cases s 0x02 f (exactly 0) ownReset with h | h | h | h | h <;> dsimp only <;> rw [h]
  · exact ⟨rfl, rfl, .inl rfl⟩
  · exact ⟨rfl, rfl, .inl rfl⟩
  · exact ⟨rfl, rfl, .inl rfl⟩
  · exact ⟨rfl, rfl, .inl rfl⟩
  · exact ⟨rfl, rfl, .inr rfl⟩

/-- Settles O3: no update a command is made of touches the queue, the edges that wait or the timebase, but for a reset. -/
theorem everyCommandCompletes : Obligations.EveryCommandCompletes := by
  unfold Obligations.EveryCommandCompletes
  intro c s
  obtain ⟨t, ht⟩ := exec_next c s
  by_cases hp : c = .powerOnReset
  · subst hp
    exact ⟨_, rfl, rfl, rfl, .inr ⟨rfl, .inl rfl⟩⟩
  · by_cases hr : ∃ f, c = .reset f
    · obtain ⟨f, rfl⟩ := hr
      obtain ⟨hq, he, htime⟩ := reset_outside f s
      exact ⟨_, rfl, hq, he, htime.imp id fun h => ⟨h, .inr ⟨f, rfl⟩⟩⟩
    · have hkept := exec_unreset outside_plain outside_bank (fun s _ => Outside.same s) hp (fun f h => hr ⟨f, h⟩)
        (fun _ _ s => Outside.same s) ht
      obtain ⟨hq, he, htime⟩ := hkept
      exact ⟨t, ht, hq, he, .inl htime⟩

/-! ### Latched events -/

/-- Every latched event is still latched. -/
def StaysLatched (s t : State) : Prop := ∀ b, s.events.latched.getLsbD b = true → t.events.latched.getLsbD b = true

theorem StaysLatched.of_eq {s t : State} (h : t.events.latched = s.events.latched) : StaysLatched s t :=
  fun _ hb => h ▸ hb

theorem StaysLatched.trans {s t u : State} (h : StaysLatched s t) (h' : StaysLatched t u) : StaysLatched s u :=
  fun b hb => h' b (h b hb)

theorem raise_latched (s : State) (e : Event) : StaysLatched s (s.raise e) := fun b hb => by
  simp only [raise_events, BitVec.getLsbD_or, hb, Bool.true_or]

theorem takePendingSwap_latched (s : State) : StaysLatched s s.takePendingSwap := by
  unfold State.takePendingSwap
  split <;> exact fun _ => id

theorem latched_bank : BankRel StaysLatched where
  refl _ _ := id
  trans := StaysLatched.trans
  sched _ _ _ _ := id
  drive _ _ _ _ := id
  level _ _ _ _ := id
  sup _ _ _ _ := id
  event := raise_latched
  safe s := takePendingSwap_latched (s.setFiring .safe)
  swap := takePendingSwap_latched
  trace _ _ _ := id
  service _ _ := id

theorem latched_plain : PlainRel StaysLatched where
  toOpRel := (wholeRel_of_bankRel latched_bank _ _).toOpRel
  link _ _ _ _ := id
  supAny _ _ _ _ := id
  demand _ _ _ _ := id
  trace _ _ _ := id
  mask _ _ _ := id
  sense _ _ _ := id
  supply _ _ _ := id
  tables _ _ _ := id
  levels _ _ _ _ := id
  drive _ _ _ _ := id
  slow _ _ _ := id
  stop s := (latched_bank.safe s).trans ((Laws.cancelBank_rel latched_bank .bankA _ _).trans
    (Laws.cancelBank_rel latched_bank .bankB _ _))
  drain s _ := Laws.drainTest_rel latched_bank (s.setFiring .draining)
  rearm _ _ := id
  arm _ _ := id
  service' _ _ _ _ _ _ := id
  overspeed _ _ _ := id
  techo _ _ := id
  cmark _ _ := id

theorem ne_zero_iff {n : Nat} (x : BitVec n) : x ≠ 0#n ↔ ∃ i, x.getLsbD i = true := by
  constructor
  · intro h
    by_contra hn
    refine h (BitVec.eq_of_getLsbD_eq fun i _ => ?_)
    rw [BitVec.getLsbD_zero]
    exact Bool.eq_false_iff.2 fun hi => hn ⟨i, hi⟩
  · rintro ⟨i, hi⟩ rfl
    simp at hi

/-- Settles O60: the two owners of the event block, and the latches across every other command. -/
theorem eventsLatchUntilRead : Obligations.EventsLatchUntilRead := by
  unfold Obligations.EventsLatchUntilRead
  refine ⟨fun f s h hp => ?_, fun f s h hl => ⟨fun hm => ?_, fun hm => ?_⟩, fun s => ?_, fun i s t hp hr hread he => ?_⟩
  · refine ⟨eventBytes s.events.latched,
      congrArg Host.Outcome.next (takeFrame_exactly (owner := ownReadEvents) h (length_of_empty hp) (by decide) rfl),
      leBytes_length 2 _, ?_⟩
    rw [eventBytes, fieldAt_leBytes]
    exact Nat.mod_eq_of_lt (by have := s.events.latched.isLt; omega)
  · rw [fieldAt_two] at hm ⊢
    have hown : ownSetMask (received s 0x48 f) (frameParams f) =
        took ((received s 0x48 f).setEvents { s.events with mask := BitVec.ofNat 13 (u16 (frameParams f) 0) }) := if_pos hm
    exact congrArg Host.Outcome.next (takeFrame_exactly h hl (by decide) hown)
  · rw [fieldAt_two] at hm
    exact congrArg Host.Outcome.next (takeFrame_refused h hl (by decide) (if_neg (Nat.not_lt.2 hm)))
  · have hint : s.intLine = (s.events.latched &&& s.events.mask != 0#13) := rfl
    rw [hint, bne_iff_ne, ne_zero_iff]
    simp only [BitVec.getLsbD_and, Bool.and_eq_true]
  · exact exec_unreset latched_plain latched_bank (fun _ _ _ => id) hp hr (fun f h => absurd h (hread f)) he

end Sys2Proof.Proofs.Commands
end

section
/-! SUPPORT. Transactions: the bits and the bytes of a command, the pins edge by edge, the order of the checks, and what a
refusal leaves alone. -/

namespace Sys2Proof.Proofs.Transactions

open Sys2Proof Sys2Proof.Machine Sys2Proof.Laws Sys2Proof.Laws.Fine Sys2Proof.Proofs.Steps Sys2Proof.Proofs.Plain

/-! ### Bits and bytes -/

theorem byteOfBits_bitsOfByte (x : Byte) : byteOfBits (x.getLsbD 7) (x.getLsbD 6) (x.getLsbD 5) (x.getLsbD 4)
    (x.getLsbD 3) (x.getLsbD 2) (x.getLsbD 1) (x.getLsbD 0) = x := by
  revert x
  decide

theorem bitsOfByte_byteOfBits (a b c d e f g h : Bool) :
    bitsOfByte (byteOfBits a b c d e f g h) = [a, b, c, d, e, f, g, h] := by
  revert a b c d e f g h
  decide

/-- Bits, eight at a time: each of them is a whole byte and the rest, or fewer than eight. -/
theorem bits_induction {P : List Bool → Prop} (short : ∀ l, l.length < 8 → P l) (byte : ∀ x l, P l → P (bitsOfByte x ++ l)) :
    ∀ l, P l
  | a :: b :: c :: d :: e :: f :: g :: h :: rest => by
    have hP := byte (byteOfBits a b c d e f g h) rest (bits_induction short byte rest)
    rwa [bitsOfByte_byteOfBits] at hP
  | [] => short _ (by decide)
  | [_] => short _ (by simp)
  | [_, _] => short _ (by simp)
  | [_, _, _] => short _ (by simp)
  | [_, _, _, _] => short _ (by simp)
  | [_, _, _, _, _] => short _ (by simp)
  | [_, _, _, _, _, _] => short _ (by simp)
  | [_, _, _, _, _, _, _] => short _ (by simp)

theorem bytesOfBits_cons (x : Byte) (l : List Bool) :
    bytesOfBits (bitsOfByte x ++ l) = (x :: (bytesOfBits l).1, (bytesOfBits l).2) := by
  simp only [bitsOfByte, List.cons_append, List.nil_append, bytesOfBits, byteOfBits_bitsOfByte]

theorem bytesOfBits_append (bs : List Byte) (l : List Bool) :
    bytesOfBits (bitsOfBytes bs ++ l) = (bs ++ (bytesOfBits l).1, (bytesOfBits l).2) := by
  induction bs with
  | nil => rfl
  | cons x xs ih => rw [bitsOfBytes, List.append_assoc, bytesOfBits_cons, ih]; rfl

theorem bytesOfBits_short : ∀ {odd : List Bool}, odd.length < 8 → bytesOfBits odd = ([], odd)
  | [], _ => rfl
  | [_], _ => rfl
  | [_, _], _ => rfl
  | [_, _, _], _ => rfl
  | [_, _, _, _], _ => rfl
  | [_, _, _, _, _], _ => rfl
  | [_, _, _, _, _, _], _ => rfl
  | [_, _, _, _, _, _, _], _ => rfl
  | _ :: _ :: _ :: _ :: _ :: _ :: _ :: _ :: _, h => by simp at h; omega

/-- The bytes and the odd bits of a transaction are all its bits. -/
theorem bitsOfBytes_bytesOfBits (l : List Bool) : bitsOfBytes (bytesOfBits l).1 ++ (bytesOfBits l).2 = l := by
  induction l using bits_induction with
  | short l h => rw [bytesOfBits_short h]; rfl
  | byte x rest ih => rw [bytesOfBits_cons, bitsOfBytes, List.append_assoc, ih]

/-- The whole bytes of the first bits. -/
theorem bytesOfBits_take (l : List Bool) (n : Nat) : (bytesOfBits (l.take n)).1 = (bytesOfBits l).1.take (n / 8) := by
  induction l using bits_induction generalizing n with
  | short l h => rw [bytesOfBits_short h, bytesOfBits_short (by simp; omega), List.take_nil]
  | byte x rest ih =>
    have hx : (bitsOfByte x).length = 8 := rfl
    by_cases hn : n < 8
    · rw [bytesOfBits_short (by simp; omega), Nat.div_eq_of_lt hn, List.take_zero]
    · obtain ⟨m, rfl⟩ : ∃ m, n = 8 + m := ⟨n - 8, by omega⟩
      rw [← hx, List.take_length_add_append, bytesOfBits_cons, bytesOfBits_cons, ih m, hx, Nat.add_div_left _ (by decide),
        List.take_succ_cons]

theorem bytesOfBits_zeros (n : Nat) : (bytesOfBits (List.replicate n false)).1 = List.replicate (n / 8) 0 := by
  induction n using Nat.strong_induction_on with
  | _ n ih =>
    by_cases hn : n < 8
    · rw [bytesOfBits_short (by simpa using hn), Nat.div_eq_of_lt hn]
      rfl
    · obtain ⟨m, rfl⟩ : ∃ m, n = 8 + m := ⟨n - 8, by omega⟩
      have h0 : List.replicate (8 + m) false = bitsOfByte 0 ++ List.replicate m false := by
        rw [← List.replicate_append_replicate]; rfl
      rw [h0, bytesOfBits_cons, ih m (by omega), Nat.add_div_left _ (by decide), List.replicate_succ]

/-- R165, R169: the whole bytes LDO has carried. -/
theorem bytesOfBits_clockedOut (r : Response) (n : Nat) :
    (bytesOfBits (r.clockedOut n)).1 = (r.bytes ++ List.replicate (n / 8) 0).take (n / 8) := by
  rw [Response.clockedOut, bytesOfBits_take, bytesOfBits_append, bytesOfBits_zeros]

/-! ### Commands and their bytes -/

/-- The row of a CUT frame is one of the four, and the one its frame names. -/
theorem cutRow_sent {f : Frame} (hf : frameFits f = true) :
    (cutRow f f).wf = true ∧ linkParts (cutRow f f) = some (frameBytes 0x30 f, f.odd) := by
  have hrow : cutRow f f = .cutSet f ∨ cutRow f f = .cutClear f ∨ cutRow f f = .cutToggle f ∨ cutRow f f = .cutTest f := by
    rcases hp : frameParams f with _ | ⟨a, _ | ⟨op, _ | ⟨c, l⟩⟩⟩ <;> simp only [cutRow, hp]
    case cons.cons.nil =>
      by_cases h1 : op = 1
      · exact .inl (by rw [if_pos h1])
      · by_cases h2 : op = 2
        · exact .inr (.inl (by rw [if_neg h1, if_pos h2]))
        · by_cases h3 : op = 3
          · exact .inr (.inr (.inl (by rw [if_neg h1, if_neg h2, if_pos h3])))
          · exact .inr (.inr (.inr (by rw [if_neg h1, if_neg h2, if_neg h3])))
    all_goals exact .inr (.inr (.inr trivial))
  rcases hrow with h | h | h | h <;> rw [h] <;> exact ⟨by rw [Instr.wf, hf, h, beq_self_eq_true]; rfl, rfl⟩

/-- Every row of the code table is sent as its code and its frame. -/
theorem codeTable_sent {f : Frame} (hf : frameFits f = true) :
    ∀ x ∈ codeTable, (x.2 f).wf = true ∧ linkParts (x.2 f) = some (frameBytes x.1 f, f.odd) := by
  simp only [codeTable, List.cons_append, List.nil_append, List.forall_mem_cons, List.not_mem_nil, false_implies, implies_true]
  refine ⟨⟨hf, rfl⟩, ⟨hf, rfl⟩, ⟨hf, rfl⟩, ⟨hf, rfl⟩, ⟨hf, rfl⟩, ⟨hf, rfl⟩, ⟨hf, rfl⟩, ⟨hf, rfl⟩, ⟨hf, rfl⟩, ⟨hf, rfl⟩,
    ⟨hf, rfl⟩, ⟨hf, rfl⟩, ⟨hf, rfl⟩, ⟨hf, rfl⟩, cutRow_sent hf, ⟨hf, rfl⟩, ⟨hf, rfl⟩, ⟨hf, rfl⟩, ⟨hf, rfl⟩, ⟨hf, rfl⟩,
    ⟨hf, rfl⟩, ⟨hf, rfl⟩, ⟨hf, rfl⟩, ⟨hf, rfl⟩, ⟨hf, rfl⟩, ⟨hf, rfl⟩, ⟨hf, rfl⟩, ⟨hf, rfl⟩, trivial⟩

theorem mem_of_commandOf {code : Byte} {cmd : Frame → Instr} (h : commandOf code = some cmd) : (code, cmd) ∈ codeTable := by
  obtain ⟨l₁, l₂, he, -⟩ := List.lookup_eq_some_iff.1 h
  rw [he]
  exact List.mem_append_right _ (List.mem_cons_self ..)

/-- The command of a transaction with a complete frame. -/
theorem decodeBytes_frame {code : Byte} {f : Frame} (h : frameComplete f = true) :
    decodeBytes (frameBytes code f) f.odd = (commandOf code).elim (.unknown code f) fun cmd => cmd f := by
  unfold decodeBytes frameBytes
  dsimp only
  rw [if_pos h]
  cases commandOf code <;> rfl

/-- Every transaction carries a command that the link sends as it came. -/
theorem decodeBytes_sent (bytes : List Byte) {odd : List Bool} (ho : odd.length < 8) :
    (decodeBytes bytes odd).wf = true ∧ linkParts (decodeBytes bytes odd) = some (bytes, odd) := by
  have hodd : oddFits odd = true := decide_eq_true ho
  match bytes with
  | [] => exact ⟨hodd, rfl⟩
  | [_] => exact ⟨hodd, rfl⟩
  | code :: len :: rest =>
    by_cases hc : frameComplete { len := len, rest := rest, odd := odd } = true
    · have hfits : frameFits { len := len, rest := rest, odd := odd } = true := by rw [frameFits, hc, hodd]; rfl
      have he := decodeBytes_frame (code := code) hc
      change decodeBytes (code :: len :: rest) odd = _ at he
      rw [he]
      cases hcmd : commandOf code with
      | none => exact ⟨by rw [Option.elim, Instr.wf, hfits, hcmd]; rfl, rfl⟩
      | some cmd => exact codeTable_sent hfits (code, cmd) (mem_of_commandOf hcmd)
    · have he : decodeBytes (code :: len :: rest) odd = .brokenTransaction (code :: len :: rest) odd := if_neg hc
      rw [he]
      refine ⟨?_, rfl⟩
      have hlen : rest.length ≤ len.toNat := by simpa [frameComplete] using hc
      rw [Instr.wf, hodd, Bool.and_true]
      exact decide_eq_true hlen

theorem frameFits_iff {f : Frame} : frameFits f = true ↔ frameComplete f = true ∧ f.odd.length < 8 := by
  rw [frameFits, Bool.and_eq_true, oddFits, decide_eq_true_eq]

/-- A well-formed command comes back from its bytes. -/
theorem decodeBytes_of_parts {i : Instr} {p : List Byte × List Bool} (hw : i.wf = true) (hp : linkParts i = some p) :
    decodeBytes p.1 p.2 = i ∧ p.2.length < 8 := by
  have known : ∀ (code : Byte) (cmd : Frame → Instr) (f : Frame), frameFits f = true → commandOf code = some cmd →
      decodeBytes (frameBytes code f) f.odd = cmd f ∧ f.odd.length < 8 := fun code cmd f hf hc => by
    obtain ⟨hcomp, hodd⟩ := frameFits_iff.1 hf
    exact ⟨by rw [decodeBytes_frame hcomp, hc]; rfl, hodd⟩
  have cut : ∀ f, frameFits f = true → decodeBytes (frameBytes 0x30 f) f.odd = cutRow f f ∧ f.odd.length < 8 :=
    fun f hf => known 0x30 (fun f => cutRow f f) f hf rfl
  cases i with
  | powerOnReset | busyPeriodEnd | crankEdge | camEdge | deadlineExpiry | stall | techoPulseEnd | cmarkPulseEnd
  | timedInstant | chainShotDue | gapEnd | deferDeadline | scheduledEnd | windowClose | driveSample | traceSample
  | rechargeStep | supplySample | linkSilence => cases hp
  | brokenTransaction bytes odd =>
    cases hp
    rw [Instr.wf, Bool.and_eq_true, oddFits, decide_eq_true_eq] at hw
    obtain ⟨hb, ho⟩ := hw
    refine ⟨?_, ho⟩
    match bytes, hb with
    | [], _ => rfl
    | [_], _ => rfl
    | code :: len :: rest, hb =>
      have hb' : rest.length ≤ len.toNat := of_decide_eq_true hb
      exact if_neg (by simpa [frameComplete] using hb')
  | unknown code f =>
    cases hp
    rw [Instr.wf, Bool.and_eq_true, Option.isNone_iff_eq_none] at hw
    obtain ⟨hcomp, hodd⟩ := frameFits_iff.1 hw.1
    exact ⟨by rw [decodeBytes_frame hcomp, hw.2]; rfl, hodd⟩
  | cutSet f | cutClear f | cutToggle f | cutTest f =>
    cases hp
    rw [Instr.wf, Bool.and_eq_true, beq_iff_eq] at hw
    exact ⟨(cut f hw.1).1.trans hw.2, (cut f hw.1).2⟩
  | _ => cases hp; exact known _ _ _ hw rfl

/-- Settles O7: the bits give back the bytes, and the bytes the command. -/
theorem transactionRoundTrip : Obligations.TransactionRoundTrip := by
  unfold Obligations.TransactionRoundTrip
  intro i bits hw he
  rw [encodeTransaction, Option.map_eq_some_iff] at he
  obtain ⟨p, hp, rfl⟩ := he
  obtain ⟨hd, hodd⟩ := decodeBytes_of_parts hw hp
  rw [decodeTransaction, bytesOfBits_append, bytesOfBits_short hodd, List.append_nil]
  exact hd

theorem encode_decode (bits : List Bool) : (decodeTransaction bits).wf = true ∧
    encodeTransaction (decodeTransaction bits) = some bits ∧
    linkParts (decodeTransaction bits) = some (bytesOfBits bits) := by
  have hodd : (bytesOfBits bits).2.length < 8 := by
    rw [(bytesOfBits_length bits).2]
    exact Nat.mod_lt _ (by decide)
  obtain ⟨hw, hp⟩ := decodeBytes_sent (bytesOfBits bits).1 hodd
  refine ⟨hw, ?_, hp⟩
  rw [encodeTransaction, decodeTransaction, hp, Option.map_some, bitsOfBytes_bytesOfBits]

/-! ### What goes out on LDO -/

/-- The bits LDO has carried and the select are the same. -/
def SamePins (s t : State) : Prop := t.link.ldo = s.link.ldo ∧ t.link.select = s.link.select

theorem SamePins.same (s : State) : SamePins s s := ⟨rfl, rfl⟩

theorem SamePins.trans {s t u : State} (h : SamePins s t) (h' : SamePins t u) : SamePins s u :=
  ⟨h'.1.trans h.1, h'.2.trans h.2⟩

theorem takePendingSwap_samePins (s : State) : SamePins s s.takePendingSwap := by
  unfold State.takePendingSwap
  split <;> exact SamePins.same s

theorem samePins_bank : BankRel SamePins where
  refl := SamePins.same
  trans := SamePins.trans
  sched s _ _ := SamePins.same s
  drive s _ _ := SamePins.same s
  level s _ _ := SamePins.same s
  sup s _ _ := SamePins.same s
  event s _ := SamePins.same s
  safe s := takePendingSwap_samePins (s.setFiring .safe)
  swap := takePendingSwap_samePins
  trace s _ := SamePins.same s
  service s := SamePins.same s

theorem samePins_own : OwnRel SamePins where
  toOpRel := (wholeRel_of_bankRel samePins_bank _ _).toOpRel
  supAny s _ _ := SamePins.same s
  demand s _ _ := SamePins.same s
  trace s _ := SamePins.same s
  mask s _ := SamePins.same s
  sense s _ := SamePins.same s
  supply s _ := SamePins.same s
  tables s _ := SamePins.same s
  levels s _ _ := SamePins.same s
  drive s _ _ := SamePins.same s
  slow s _ := SamePins.same s
  stop s := (samePins_bank.safe s).trans ((Laws.cancelBank_rel samePins_bank .bankA _ _).trans
    (Laws.cancelBank_rel samePins_bank .bankB _ _))
  drain s _ := Laws.drainTest_rel samePins_bank (s.setFiring .draining)
  rearm s := SamePins.same s
  arm s := SamePins.same s
  service' s _ _ _ _ := SamePins.same s
  overspeed s _ := SamePins.same s
  techo s := SamePins.same s
  cmark s := SamePins.same s

theorem ownLoadWheel_samePins (s : State) (ps : List Byte) : SamePins s (ownLoadWheel s ps).state := by
  unfold ownLoadWheel
  split
  · exact SamePins.same s
  · split
    · exact SamePins.same s
    · rename_i w _
      have hset : SamePins s (s.setTables { s.tables with wheel := w }) := SamePins.same s
      refine hset.trans (reloadClock_rel (K := fun _ => True) (wholeRel_of_bankRel samePins_bank _ fun _ => True) ?_ ?_ _)
      · exact fun s _ => SamePins.same s
      · exact fun _ => trivial

/-- What a command leaves of LDO and the select: the response clocked out with these edges, and no transaction. -/
def ClockedOut (s t : State) (edges : Nat) : Prop :=
  t.link.ldo = s.link.response.clockedOut edges ∧ t.link.select = .released

theorem clockedOut_takeFrame (s : State) (code : Byte) (f : Frame) (admits : List Byte → Bool)
    (owner : State → List Byte → Reply) (ho : ∀ u, SamePins u (owner u (frameParams f)).state) :
    ClockedOut s (takeFrame s code f admits owner) (8 * (frameBytes code f).length + f.odd.length) := by
  rcases takeFrame_cases s code f admits owner with h | h | h | h | h <;> rw [h]
  · exact ⟨rfl, rfl⟩
  · exact ⟨rfl, rfl⟩
  · exact ⟨rfl, rfl⟩
  · exact ⟨rfl, rfl⟩
  · exact ho (received s code f)

theorem clockedOut_takeUnknown (s : State) (code : Byte) (f : Frame) :
    ClockedOut s (takeUnknown s code f) (8 * (frameBytes code f).length + f.odd.length) := by
  unfold takeUnknown
  dsimp only
  split
  · split <;> exact ⟨rfl, rfl⟩
  · exact ⟨rfl, rfl⟩

/-- R165, R169: every command of the link, at every edge of its transaction. -/
theorem exec_clockedOut {i : Instr} {p : List Byte × List Bool} (hp : linkParts i = some p) (s : State) :
    ∃ t, exec i s = .next t ∧ ClockedOut s t (8 * p.1.length + p.2.length) := by
  have same : ∀ (owner : State → List Byte → Reply) (ps : List Byte), (∀ u, (owner u ps).state = u) →
      ∀ u, SamePins u (owner u ps).state := fun owner ps h u => by rw [h u]; exact SamePins.same u
  have frame : ∀ (code : Byte) (f : Frame) (admits : List Byte → Bool) (owner : State → List Byte → Reply),
      (∀ u, SamePins u (owner u (frameParams f)).state) → ∃ t,
        (Host.Outcome.next (takeFrame s code f admits owner) : Host.Outcome State Fault Refusal) = .next t ∧
          ClockedOut s t (8 * (frameBytes code f).length + f.odd.length) :=
    fun code f admits owner h => ⟨_, rfl, clockedOut_takeFrame s code f admits owner h⟩
  have h := samePins_own
  cases i with
  | powerOnReset | busyPeriodEnd | crankEdge | camEdge | deadlineExpiry | stall | techoPulseEnd | cmarkPulseEnd
  | timedInstant | chainShotDue | gapEnd | deferDeadline | scheduledEnd | windowClose | driveSample | traceSample
  | rechargeStep | supplySample | linkSilence => cases hp
  | brokenTransaction bytes odd => cases hp; exact ⟨_, rfl, rfl, rfl⟩
  | unknown code f => cases hp; exact ⟨_, rfl, clockedOut_takeUnknown s code f⟩
  | reset f => cases hp; exact frame _ _ _ _ SamePins.same
  | readEvents f => cases hp; exact frame _ _ _ _ SamePins.same
  | nop f | readId f | readAngle f | readTime f | readStatus f | readCounters f =>
    cases hp; exact frame _ _ _ _ SamePins.same
  | loadWheel f => cases hp; exact frame _ _ _ _ fun u => ownLoadWheel_samePins u _
  | loadCyl f => cases hp; exact frame _ _ _ _ fun u => h.ownLoadCyl u _
  | loadProfile f => cases hp; exact frame _ _ _ _ fun u => h.ownLoadProfile u _
  | loadPattern f => cases hp; exact frame _ _ _ _ fun u => h.ownLoadPattern u _
  | swap f => cases hp; exact frame _ _ _ _ fun u => h.ownSwap u _
  | loadLimits f => cases hp; exact frame _ _ _ _ fun u => h.applyLimits u _
  | demand f => cases hp; exact frame _ _ _ _ fun u => h.ownDemand u _
  | arm f => cases hp; exact frame _ _ _ _ fun u => h.ownArm u _
  | disarm f => cases hp; exact frame _ _ _ _ fun u => h.ownDisarm u _
  | stop f => cases hp; exact frame _ _ _ _ fun u => h.ownStop u _
  | cutSet f | cutClear f | cutToggle f | cutTest f => cases hp; exact frame _ _ _ _ fun u => h.ownCut u _
  | clearFault f => cases hp; exact frame _ _ _ _ fun u => h.ownClearFault u _
  | service f => cases hp; exact frame _ _ _ _ fun u => h.ownService u _
  | traceArm f => cases hp; exact frame _ _ _ _ fun u => h.ownTraceArm u _
  | traceRead f => cases hp; exact frame _ _ _ _ fun u => h.ownTraceRead u _
  | setMask f => cases hp; exact frame _ _ _ _ fun u => h.ownSetMask u _
  | readTable f => cases hp; exact frame _ _ _ _ (same _ _ fun u => (OwnRel.ownRead_state u _).1)
  | readCyl f => cases hp; exact frame _ _ _ _ (same _ _ fun u => (OwnRel.ownRead_state u _).2.1)
  | readReport f => cases hp; exact frame _ _ _ _ (same _ _ fun u => (OwnRel.ownRead_state u _).2.2.1)
  | readQueue f => cases hp; exact frame _ _ _ _ (same _ _ fun u => (OwnRel.ownRead_state u _).2.2.2)

/-- R165: with LSEL high the pins ignore LCLK, and LDO is not driven. -/
theorem released_ignores {t : State} (h : t.link.select = .released) :
    t.link.ldoPin = none ∧ takeEdge .clockFall t = .next t ∧ ∀ b, takeEdge (.clockRise b) t = .next t := by
  refine ⟨?_, ?_, fun b => ?_⟩
  · simp only [LinkIface.ldoPin, h]
  · simp only [takeEdge, LinkIface.clockFall, h, State.setLink]
  · simp only [takeEdge, LinkIface.clockRise, h, State.setLink]

/-! ### Edge by edge -/

/-- The edges of the bits of a transaction that are still to come, from a bit on. -/
def edgesFrom (bits : List Bool) : List LinkEdge := (bits.flatMap fun b => [.clockRise b, .clockFall]) ++ [.selectRise]

theorem edgesFrom_drop (bits : List Bool) (k : Nat) (hk : k ≤ bits.length) :
    (transactionEdges bits).drop (1 + 2 * k) = edgesFrom (bits.drop k) := by
  have hdrop : (edgesFrom bits).drop (2 * k) = edgesFrom (bits.drop k) := by
    induction bits generalizing k with
    | nil => cases Nat.le_zero.1 hk; rfl
    | cons b bs ih =>
      cases k with
      | zero => rfl
      | succ k => exact ih k (Nat.le_of_succ_le_succ hk)
  rw [← hdrop, Nat.add_comm, ← List.drop_drop, List.drop_drop]
  rw [show transactionEdges bits = .selectFall :: edgesFrom bits from rfl, ← Nat.add_comm 1, Nat.add_comm 1 (2 * k),
    List.drop_succ_cons]

/-- The state with so many bits of the transaction behind it. -/
def midway (s : State) (bits : List Bool) (k : Nat) : State :=
  s.setLink { inTransaction s.link (bits.take k) with edges := edgesFrom (bits.drop k) }

theorem run_one {s t : State} (h : step s = .next t) : core.run 1 s = .next t := by
  have hc : core.step s = .next t := h
  simp only [Host.Core.run, hc]

theorem run_two {s t u : State} (h : step s = .next t) (h' : step t = .next u) : core.run 2 s = .next u :=
  (run_add core 1 1 s t (run_one h)).trans (run_one h')

theorem run_midway {s : State} {bits : List Bool} (hp : s.pending = []) (hs : s.link.select = .released)
    (he : s.link.edges = transactionEdges bits) {k : Nat} (hk : k ≤ bits.length) :
    core.run (1 + 2 * k) s = .next (midway s bits k) := by
  induction k with
  | zero =>
    refine run_one ((step_edge hp he).trans ?_)
    have hsel : ({ s.link with edges := edgesFrom bits } : LinkIface).select = .released := hs
    exact congrArg (fun l => Host.Outcome.next (s.setLink l)) (selectFall_released hsel)
  | succ k ih =>
    obtain ⟨b, hb⟩ : ∃ b, bits[k]? = some b := ⟨_, List.getElem?_eq_getElem hk⟩
    have hdrop : bits.drop k = b :: bits.drop (k + 1) := by
      rw [List.drop_eq_getElem_cons hk]
      rw [List.getElem?_eq_getElem hk] at hb
      cases hb
      rfl
    have htake : bits.take (k + 1) = bits.take k ++ [b] := by rw [List.take_add_one, hb]; rfl
    obtain ⟨t, h1, h2⟩ := step_bit (s := s) (bits.take k) b (edgesFrom (bits.drop (k + 1))) hp
    have hmid : midway s bits k = s.setLink { inTransaction s.link (bits.take k) with
        edges := .clockRise b :: .clockFall :: edgesFrom (bits.drop (k + 1)) } := by
      rw [midway, hdrop]
      rfl
    have hnext : midway s bits (k + 1) = s.setLink { inTransaction s.link (bits.take k ++ [b]) with
        edges := edgesFrom (bits.drop (k + 1)) } := by rw [midway, htake]
    rw [show 1 + 2 * (k + 1) = (1 + 2 * k) + 2 from by ring, run_add core _ 2 s _ (ih (Nat.le_of_succ_le hk)), hmid, hnext]
    exact run_two h1 h2

/-- Settles O8: the bits and the command they spell, the bits that go out, and the pins one edge at a time. -/
theorem everyTransactionIsACommand : Obligations.EveryTransactionIsACommand := by
  unfold Obligations.EveryTransactionIsACommand
  intro bits
  obtain ⟨hw, he, hp⟩ := encode_decode bits
  have hlen := bytesOfBits_length bits
  have hcount : 8 * (bytesOfBits bits).1.length + (bytesOfBits bits).2.length = bits.length := by
    rw [hlen.1, hlen.2]
    exact Nat.div_add_mod _ _
  refine ⟨hw, he, fun s => ?_, fun s hpend hsel hedges => ⟨fun k hk => ?_, ?_⟩⟩
  · obtain ⟨t, ht, hldo, hreleased⟩ := exec_clockedOut hp s
    rw [hcount] at hldo
    obtain ⟨hpin, hfall, hrise⟩ := released_ignores hreleased
    refine ⟨t, ht, hldo, ?_, hpin, hfall, hrise⟩
    rw [hldo]
    exact bytesOfBits_clockedOut _ _
  · have htake : (bits.take k).length = k := List.length_take_of_le hk
    refine ⟨midway s bits k, run_midway hpend hsel hedges hk, ?_, ?_⟩
    · have hpin := inTransaction_ldoPin s.link (bits.take k)
      rw [htake] at hpin
      exact hpin
    · have hbytes : (bytesOfBits (bits.take k)).1.length = k / 8 := by rw [(bytesOfBits_length _).1, htake]
      rw [midway, ← edgesFrom_drop bits k hk, inTransaction, htake, LinkIface.holding, hbytes]
      rfl
  · rw [show 2 * bits.length + 2 = (1 + 2 * bits.length) + 1 from by ring,
      run_add core _ 1 s _ (run_midway hpend hsel hedges (Nat.le_refl _))]
    have hmid : midway s bits bits.length = s.setLink { inTransaction s.link bits with edges := [.selectRise] } := by
      rw [midway, List.take_length, List.drop_length]
      rfl
    obtain ⟨t, ht⟩ := Commands.exec_next (decodeTransaction bits) { s with link := { s.link with edges := [] } }
    rw [hmid, ht]
    refine run_one ((step_edge (s := s.setLink { inTransaction s.link bits with edges := [.selectRise] }) hpend rfl).trans ?_)
    have hlast := exec_inTransaction { s with link := { s.link with edges := [] } } bits
      (i := decodeTransaction bits) (by rw [he]; rfl)
    exact hlast.trans ht

end Sys2Proof.Proofs.Transactions
end

section
/-! SUPPORT. The checks of a frame: the frame commands one by one, with their admitted lengths and owners, and what an owner
that refuses leaves alone. -/

namespace Sys2Proof.Proofs.Checks

open Sys2Proof Sys2Proof.Machine Sys2Proof.Laws

/-! ### Owners that refuse -/

/-- R170: a refusal of the owner leaves the state alone and brings no data. -/
def RefusesOnly (owner : State → List Byte → Reply) : Prop :=
  ∀ s ps, (owner s ps).result.isRefusal = true → ∃ r, owner s ps = refuse s r

theorem refusesOnly_ok {owner : State → List Byte → Reply} (h : ∀ s ps, (owner s ps).result.isRefusal = false) :
    RefusesOnly owner := fun s ps hr => by rw [h] at hr; cases hr

theorem refusesOnly_arm : RefusesOnly ownArm := fun s ps => by
  unfold ownArm
  split
  · exact fun h => (by cases h)
  · exact fun _ => ⟨_, rfl⟩

theorem refusesOnly_disarm : RefusesOnly ownDisarm := fun s ps => by
  unfold ownDisarm
  split
  · exact fun h => (by cases h)
  · exact fun _ => ⟨_, rfl⟩

theorem refusesOnly_demand : RefusesOnly ownDemand := fun s ps => by
  unfold ownDemand
  split
  · exact fun _ => ⟨_, rfl⟩
  · dsimp only
    split <;> exact fun h => (by cases h)

theorem refusesOnly_cut : RefusesOnly ownCut := fun s ps => by
  unfold ownCut
  split
  · exact fun h => (by cases h)
  · exact fun _ => ⟨_, rfl⟩
  · exact fun _ => ⟨_, rfl⟩

theorem refusesOnly_clearFault : RefusesOnly ownClearFault := fun s ps => by
  unfold ownClearFault
  split
  · exact fun h => (by cases h)
  · exact fun _ => ⟨_, rfl⟩

theorem refusesOnly_service : RefusesOnly ownService := fun s ps => by
  unfold ownService
  split
  · exact fun _ => ⟨_, rfl⟩
  · split
    · exact fun _ => ⟨_, rfl⟩
    · split
      · exact fun _ => ⟨_, rfl⟩
      · split
        · exact fun h => (by cases h)
        · exact fun _ => ⟨_, rfl⟩

theorem refusesOnly_loadWheel : RefusesOnly ownLoadWheel := fun s ps => by
  unfold ownLoadWheel
  split
  · exact fun _ => ⟨_, rfl⟩
  · split
    · exact fun _ => ⟨_, rfl⟩
    · exact fun h => (by cases h)

theorem refusesOnly_loadCyl : RefusesOnly ownLoadCyl := fun s ps => by
  unfold ownLoadCyl
  split
  · exact fun _ => ⟨_, rfl⟩
  · split
    · exact fun _ => ⟨_, rfl⟩
    · split
      · exact fun _ => ⟨_, rfl⟩
      · split
        · exact fun _ => ⟨_, rfl⟩
        · exact fun h => (by cases h)

theorem refusesOnly_loadProfile : RefusesOnly ownLoadProfile := fun s ps => by
  unfold ownLoadProfile
  split
  · exact fun _ => ⟨_, rfl⟩
  · split
    · exact fun _ => ⟨_, rfl⟩
    · split
      · exact fun _ => ⟨_, rfl⟩
      · exact fun h => (by cases h)

theorem refusesOnly_loadPattern : RefusesOnly ownLoadPattern := fun s ps => by
  unfold ownLoadPattern
  split
  · exact fun _ => ⟨_, rfl⟩
  · split
    · exact fun _ => ⟨_, rfl⟩
    · exact fun h => (by cases h)

theorem refusesOnly_swap : RefusesOnly ownSwap := fun s ps => by
  unfold ownSwap
  split
  · exact fun _ => ⟨_, rfl⟩
  · split <;> exact fun h => (by cases h)

theorem refusesOnly_loadLimits : RefusesOnly ownLoadLimits := refusesOnly_ok fun s ps => by
  unfold ownLoadLimits
  dsimp only
  split <;> rfl

theorem refusesOnly_readTable : RefusesOnly ownReadTable := fun s ps => by
  unfold ownReadTable
  split
  · exact fun h => (by cases h)
  · exact fun _ => ⟨_, rfl⟩

theorem refusesOnly_readCyl : RefusesOnly ownReadCyl := fun s ps => by
  unfold ownReadCyl
  split
  · exact fun h => (by cases h)
  · exact fun _ => ⟨_, rfl⟩

theorem refusesOnly_readReport : RefusesOnly ownReadReport := fun s ps => by
  unfold ownReadReport
  split
  · exact fun h => (by cases h)
  · exact fun _ => ⟨_, rfl⟩

theorem refusesOnly_readQueue : RefusesOnly ownReadQueue := fun s ps => by
  unfold ownReadQueue
  split
  · split
    · exact fun h => (by cases h)
    · exact fun _ => ⟨_, rfl⟩
  · exact fun _ => ⟨_, rfl⟩

theorem refusesOnly_setMask : RefusesOnly ownSetMask := fun s ps => by
  unfold ownSetMask
  split
  · exact fun h => (by cases h)
  · exact fun _ => ⟨_, rfl⟩

theorem refusesOnly_traceArm : RefusesOnly ownTraceArm := fun s ps => by
  unfold ownTraceArm
  dsimp only
  split
  · exact fun h => (by cases h)
  · split
    · exact fun _ => ⟨_, rfl⟩
    · split
      · exact fun h => (by cases h)
      · exact fun _ => ⟨_, rfl⟩

theorem refusesOnly_traceRead : RefusesOnly ownTraceRead := fun s ps => by
  unfold ownTraceRead
  split
  · exact fun h => (by cases h)
  · exact fun _ => ⟨_, rfl⟩

/-! ### Admitted lengths -/

/-- The lengths a command admits are those section 11.1 gives its code. -/
def AdmitsAs (code : Byte) (admits : List Byte → Bool) : Prop :=
  ∀ ps : List Byte, lengthAdmitted code ps = true ↔ ps.length ≤ 60 ∧ admits ps = true

theorem admitsAs_exactly {code : Byte} {n : Nat} (h : ∀ ps, lengthAdmitted code ps = (ps.length == n)) (hn : n ≤ 60) :
    AdmitsAs code (exactly n) := fun ps => by
  rw [h, exactly, beq_iff_eq]
  omega

theorem admitsAs_demand : AdmitsAs 0x20 admitsDemand := fun ps => by
  have hl : lengthAdmitted 0x20 ps = [5, 10, 15, 20, 25, 30, 35, 40].contains ps.length := rfl
  rw [hl]
  simp only [admitsDemand, within, List.contains_iff_mem, List.mem_cons, List.not_mem_nil, or_false, Bool.and_eq_true,
    beq_iff_eq, decide_eq_true_eq]
  omega

theorem admitsAs_pattern : AdmitsAs 0x13 admitsPattern := fun ps => by
  have hl : lengthAdmitted 0x13 ps = ([2, 11, 20, 29, 38, 47, 56].contains ps.length && ps.length == 2 + 9 * u8 ps 1) := rfl
  rw [hl]
  simp only [admitsPattern, List.contains_iff_mem, List.mem_cons, List.not_mem_nil, or_false, Bool.and_eq_true, beq_iff_eq,
    decide_eq_true_eq]
  omega

/-! ### The frame commands -/

/-- The command takes its frame with an owner: what its code is, what lengths it admits, and that its owner refuses only. -/
def TakesFrame (i : Instr) (code : Byte) (f : Frame) : Prop :=
  ∃ admits owner, (∀ s, exec i s = .next (takeFrame s code f admits owner)) ∧ (commandOf code).isSome = true ∧
    AdmitsAs code admits ∧ RefusesOnly owner

theorem takesFrame {i : Instr} {code : Byte} {f : Frame} (h : frameOf i = some (code, f)) :
    i = .unknown code f ∨ TakesFrame i code f := by
  have fixed : ∀ (n : Nat) (owner : State → List Byte → Reply), (∀ s, exec i s = .next (takeFrame s code f (exactly n) owner)) →
      (commandOf code).isSome = true → (∀ ps, lengthAdmitted code ps = (ps.length == n)) → n ≤ 60 → RefusesOnly owner →
      TakesFrame i code f := fun n owner he hc hl hn hr => ⟨_, owner, he, hc, admitsAs_exactly hl hn, hr⟩
  cases i with
  | powerOnReset | busyPeriodEnd | crankEdge | camEdge | deadlineExpiry | stall | techoPulseEnd | cmarkPulseEnd
  | timedInstant | chainShotDue | gapEnd | deferDeadline | scheduledEnd | windowClose | driveSample | traceSample
  | rechargeStep | supplySample | linkSilence | brokenTransaction => cases h
  | unknown code' f' => cases h; exact .inl rfl
  | demand f' => cases h; exact .inr ⟨_, _, fun _ => rfl, rfl, admitsAs_demand, refusesOnly_demand⟩
  | loadPattern f' => cases h; exact .inr ⟨_, _, fun _ => rfl, rfl, admitsAs_pattern, refusesOnly_loadPattern⟩
  | nop | readId | readAngle | readTime | readStatus | readCounters | readEvents | reset | stop =>
    cases h
    exact .inr (fixed 0 _ (fun _ => rfl) rfl (fun _ => rfl) (by decide) (refusesOnly_ok fun _ _ => rfl))
  | swap f' => cases h; exact .inr (fixed 0 _ (fun _ => rfl) rfl (fun _ => rfl) (by decide) refusesOnly_swap)
  | arm f' => cases h; exact .inr (fixed 0 _ (fun _ => rfl) rfl (fun _ => rfl) (by decide) refusesOnly_arm)
  | disarm f' => cases h; exact .inr (fixed 0 _ (fun _ => rfl) rfl (fun _ => rfl) (by decide) refusesOnly_disarm)
  | traceRead f' => cases h; exact .inr (fixed 0 _ (fun _ => rfl) rfl (fun _ => rfl) (by decide) refusesOnly_traceRead)
  | clearFault f' => cases h; exact .inr (fixed 1 _ (fun _ => rfl) rfl (fun _ => rfl) (by decide) refusesOnly_clearFault)
  | readCyl f' => cases h; exact .inr (fixed 1 _ (fun _ => rfl) rfl (fun _ => rfl) (by decide) refusesOnly_readCyl)
  | readReport f' => cases h; exact .inr (fixed 1 _ (fun _ => rfl) rfl (fun _ => rfl) (by decide) refusesOnly_readReport)
  | cutSet | cutClear | cutToggle | cutTest =>
    cases h
    exact .inr (fixed 2 _ (fun _ => rfl) rfl (fun _ => rfl) (by decide) refusesOnly_cut)
  | traceArm f' => cases h; exact .inr (fixed 2 _ (fun _ => rfl) rfl (fun _ => rfl) (by decide) refusesOnly_traceArm)
  | readQueue f' => cases h; exact .inr (fixed 2 _ (fun _ => rfl) rfl (fun _ => rfl) (by decide) refusesOnly_readQueue)
  | setMask f' => cases h; exact .inr (fixed 2 _ (fun _ => rfl) rfl (fun _ => rfl) (by decide) refusesOnly_setMask)
  | readTable f' => cases h; exact .inr (fixed 3 _ (fun _ => rfl) rfl (fun _ => rfl) (by decide) refusesOnly_readTable)
  | loadWheel f' => cases h; exact .inr (fixed 5 _ (fun _ => rfl) rfl (fun _ => rfl) (by decide) refusesOnly_loadWheel)
  | service f' => cases h; exact .inr (fixed 6 _ (fun _ => rfl) rfl (fun _ => rfl) (by decide) refusesOnly_service)
  | loadCyl f' => cases h; exact .inr (fixed 12 _ (fun _ => rfl) rfl (fun _ => rfl) (by decide) refusesOnly_loadCyl)
  | loadProfile f' => cases h; exact .inr (fixed 17 _ (fun _ => rfl) rfl (fun _ => rfl) (by decide) refusesOnly_loadProfile)
  | loadLimits f' => cases h; exact .inr (fixed 31 _ (fun _ => rfl) rfl (fun _ => rfl) (by decide) refusesOnly_loadLimits)

theorem frameComplete_of_wf {i : Instr} {code : Byte} {f : Frame} (hw : i.wf = true) (h : frameOf i = some (code, f)) :
    frameComplete f = true := by
  have fits : frameFits f = true → frameComplete f = true := fun h => (Transactions.frameFits_iff.1 h).1
  cases i with
  | powerOnReset | busyPeriodEnd | crankEdge | camEdge | deadlineExpiry | stall | techoPulseEnd | cmarkPulseEnd
  | timedInstant | chainShotDue | gapEnd | deferDeadline | scheduledEnd | windowClose | driveSample | traceSample
  | rechargeStep | supplySample | linkSilence | brokenTransaction => cases h
  | unknown | cutSet | cutClear | cutToggle | cutTest => cases h; exact fits ((Bool.and_eq_true _ _).mp hw).1
  | _ => cases h; exact fits hw

/-! ### The checks in their order -/

/-- A frame of a code that names no command. -/
theorem takeUnknown_of_complete {s : State} {code : Byte} {f : Frame} (hc : frameComplete f = true) :
    takeUnknown s code f = if frameChecks code f = true then answered s code f .unknown [] else
      { answered s code f .badCrc [] with link := { (answered s code f .badCrc []).link with silence := s.link.silence } } := by
  unfold takeUnknown
  rw [if_pos hc]
  rfl

/-- Settles O11: the first check that fails gives the result. -/
theorem frameChecksInOrder : Obligations.FrameChecksInOrder := by
  unfold Obligations.FrameChecksInOrder
  intro i code f s hw hf
  have hc := frameComplete_of_wf hw hf
  rcases takesFrame hf with rfl | ⟨admits, owner, he, hcmd, hadm, -⟩
  · have hnone : commandOf code = none := by
      rw [Instr.wf, Bool.and_eq_true, Option.isNone_iff_eq_none] at hw
      exact hw.2
    have hex : exec (.unknown code f) s = .next (takeUnknown s code f) := rfl
    rw [hex, takeUnknown_of_complete hc]
    refine ⟨fun hk => ?_, fun hk _ => ?_, fun _ hs => ?_, fun _ hs => ?_⟩
    · rw [if_neg (Bool.eq_false_iff.1 hk)]
    · rw [if_pos hk]
    · rw [hnone] at hs; cases hs
    · rw [hnone] at hs; cases hs
  · rw [he]
    refine ⟨fun hk => ?_, fun _ hn => ?_, fun hk _ hl => ?_, fun hk _ hl hb => ?_⟩
    · rw [takeFrame_of_badCrc admits owner hc hk]
      rfl
    · rw [hn] at hcmd; cases hcmd
    · by_cases hlen : (frameParams f).length ≤ 60
      · have ha : admits (frameParams f) = false := by
          refine Bool.eq_false_iff.2 fun ha => ?_
          rw [(hadm _).2 ⟨hlen, ha⟩] at hl
          cases hl
        rw [takeFrame_of_badLength owner hc hk ha]
      · rw [frameParams_length hc] at hlen
        unfold takeFrame dispatchFrame
        rw [if_pos hc, if_pos hk, if_pos (.inl (Nat.lt_of_not_le hlen))]
        rfl
    · obtain ⟨hlen, ha⟩ := (hadm _).1 hl
      rw [takeFrame_of_busy owner hc hk hlen ha hb]

/-! ### Refusals -/

/-- What a refusal shows of the state after it. -/
def OnlyLink (s t : State) (code : Byte) : Prop :=
  t = { s with link := t.link } ∧ t.link.busyUntil = s.link.busyUntil ∧ t.link.response.code = code ∧
    t.link.response.data = [] ∧
    (t.link.silence = s.link.silence ∨ t.link.silence = s.link.silence.map fun _ => s.timebase)

theorem answered_onlyLink (s : State) (code : Byte) (f : Frame) (r : Result) : OnlyLink s (answered s code f r []) code :=
  ⟨rfl, rfl, rfl, rfl, .inr rfl⟩

theorem broken_onlyLink (s : State) (code : Byte) (f : Frame) :
    OnlyLink s (breakTransaction s (frameBytes code f) f.odd) code := ⟨rfl, rfl, rfl, rfl, .inl rfl⟩

theorem badCrc_onlyLink (s : State) (code : Byte) (f : Frame) :
    OnlyLink s (respond (clockTransaction s (frameBytes code f) f.odd) code .badCrc []) code := ⟨rfl, rfl, rfl, rfl, .inl rfl⟩

/-- Settles O12: a check that fails has only the answer, and an owner that refuses adds nothing to it. -/
theorem refusedFrameHasNoEffect : Obligations.RefusedFrameHasNoEffect := by
  unfold Obligations.RefusedFrameHasNoEffect
  intro i code f s t hf he href
  show OnlyLink s t code
  rcases takesFrame hf with rfl | ⟨admits, owner, hex, -, -, howner⟩
  · cases he
    unfold takeUnknown
    split
    · dsimp only
      split
      · exact answered_onlyLink s code f .unknown
      · exact badCrc_onlyLink s code f
    · exact broken_onlyLink s code f
  · rw [hex] at he
    cases he
    rcases takeFrame_cases s code f admits owner with h | h | h | h | h <;> rw [h] at href ⊢
    · exact broken_onlyLink s code f
    · exact badCrc_onlyLink s code f
    · exact answered_onlyLink s code f _
    · exact answered_onlyLink s code f _
    · obtain ⟨r, hr⟩ := howner _ _ href
      rw [hr]
      exact answered_onlyLink s code f r

end Sys2Proof.Proofs.Checks
end

section
/-! SUPPORT. The layouts of the loads: what a record is in bytes, and back. -/

namespace Sys2Proof.Proofs.Layouts

open Sys2Proof Sys2Proof.Machine Sys2Proof.Laws Sys2Proof.Proofs.Bytes Sys2Proof.Proofs.Tables

/-! ### Fields -/

theorem byte_toNat (n : Nat) : (byte n).toNat = n % 256 := BitVec.toNat_ofNat n 8

theorem byte_u8 (ps : List Byte) (i : Nat) : byte (u8 ps i) = ps.getD i 0 := by
  simp [byte, u8]

theorem leBytes_two (n : Nat) : leBytes 2 n = [byte n, byte (n / 256)] := rfl

theorem leBytes_u16 (ps : List Byte) (i : Nat) : leBytes 2 (u16 ps i) = [ps.getD i 0, ps.getD (i + 1) 0] := by
  have h0 := u8_lt ps i
  have hlow : byte (u16 ps i) = byte (u8 ps i) := BitVec.eq_of_toNat_eq (by simp only [byte_toNat, u16]; omega)
  have hhigh : u16 ps i / 256 = u8 ps (i + 1) := by unfold u16; omega
  rw [leBytes_two, hhigh, hlow, byte_u8, byte_u8]

/-- A one-byte field, from the byte that stands there. -/
theorem u8_of_byte {ps : List Byte} {i n : Nat} (h : ps.getD i 0 = byte n) (hn : n < 256) : u8 ps i = n := by
  rw [u8, h, byte_toNat, Nat.mod_eq_of_lt hn]

/-- A two-byte field, from the two bytes that stand there. -/
theorem u16_of_bytes {ps : List Byte} {i n : Nat} (h : ps.getD i 0 = byte n) (h' : ps.getD (i + 1) 0 = byte (n / 256))
    (hn : n < 65536) : u16 ps i = n := by
  rw [u16, u8_of_byte h' (by omega), u8, h, byte_toNat]
  omega

/-- The bytes of a list of known length, one after another. -/
theorem eq_map_getD {ps : List Byte} {n : Nat} (h : ps.length = n) : ps = (List.range n).map fun i => ps.getD i 0 := by
  apply List.ext_getElem
  · simp [h]
  · intro i hi _
    simp [List.getD_eq_getElem?_getD, hi]

theorem cylOf_eq_some {n : Nat} {c : Cyl} : Machine.cylOf n = some c ↔ n = cylNumber c := by
  unfold Machine.cylOf cylNumber
  split
  · rw [Option.some_inj, Fin.ext_iff]
    dsimp only
    omega
  · have := c.isLt
    constructor
    · intro h; cases h
    · intro h; omega

theorem cylOf_eq_none {n : Nat} : Machine.cylOf n = none ↔ n = 0 ∨ 8 < n := by
  unfold Machine.cylOf
  split <;> simp <;> omega

theorem profileOf_eq_some {n : Nat} {i : Fin 4} : profileOf n = some i ↔ n = i.val := by
  unfold profileOf
  split
  · rw [Option.some_inj, Fin.ext_iff]
  · have := i.isLt
    constructor
    · intro h; cases h
    · intro h; omega

theorem profileOf_eq_none {n : Nat} : profileOf n = none ↔ 3 < n := by
  unfold profileOf
  split <;> simp <;> omega

theorem patternOf_eq_some {n : Nat} {i : Fin 16} : patternOf n = some i ↔ n = i.val := by
  unfold patternOf
  split
  · rw [Option.some_inj, Fin.ext_iff]
  · have := i.isLt
    constructor
    · intro h; cases h
    · intro h; omega

theorem patternOf_eq_none {n : Nat} : patternOf n = none ↔ 15 < n := by
  unfold patternOf
  split <;> simp <;> omega

theorem flagOf_eq_some {n : Nat} {b : Bool} : flagOf n = some b ↔ n = b.toNat := by
  unfold flagOf
  cases b <;> split <;> simp_all

theorem flagOf_eq_none {n : Nat} : flagOf n = none ↔ 1 < n := by
  unfold flagOf
  split
  · simp; omega
  · split <;> simp <;> omega

theorem flagByte_toNat (b : Bool) : (flagByte b).toNat = b.toNat := by cases b <;> rfl

theorem byte_bool (b : Bool) : byte b.toNat = flagByte b := by cases b <;> rfl

/-! ### LOAD_WHEEL -/

theorem inRange_iff {w : WheelRecord} : w.inRange = true ↔
    (w.n = 24 ∨ w.n = 36 ∨ w.n = 60 ∨ w.n = 72) ∧ (w.m = 1 ∨ w.m = 2) ∧ w.refAngle ≤ 11519 := by
  simp [WheelRecord.inRange, and_assoc]

theorem parseWheel_wheelBytes {w : WheelRecord} (hr : w.inRange = true) (hl : w.loaded = true) :
    parseWheel (wheelBytes w) = some w := by
  obtain ⟨n, m, r, p, l⟩ := w
  obtain ⟨hn, hm, href⟩ := inRange_iff.1 hr
  cases hl
  dsimp only at hn hm href
  have h0 : u8 (wheelBytes ⟨n, m, r, p, true⟩) 0 = n := u8_of_byte rfl (by omega)
  have h1 : u8 (wheelBytes ⟨n, m, r, p, true⟩) 1 = m := u8_of_byte rfl (by omega)
  have h2 : u16 (wheelBytes ⟨n, m, r, p, true⟩) 2 = r := u16_of_bytes rfl rfl (by omega)
  have h4 : u8 (wheelBytes ⟨n, m, r, p, true⟩) 4 = (p == .falling).toNat := flagByte_toNat _
  unfold parseWheel
  dsimp only
  rw [h0, h1, h2, h4]
  cases p
  · exact if_pos ⟨hn, hm, href, by decide⟩
  · exact if_pos ⟨hn, hm, href, by decide⟩

theorem wheelBytes_of_parse {ps : List Byte} {w : WheelRecord} (hl : ps.length = 5) (h : parseWheel ps = some w) :
    wheelBytes w = ps := by
  unfold parseWheel at h
  dsimp only at h
  split at h
  · rename_i hc
    cases h
    have hflag : flagByte ((if u8 ps 4 = 0 then Transition.rising else .falling) == .falling) = ps.getD 4 0 := by
      rw [← byte_u8]
      rcases (by omega : u8 ps 4 = 0 ∨ u8 ps 4 = 1) with h | h <;> rw [h] <;> rfl
    rw [wheelBytes, hflag, byte_u8, byte_u8, leBytes_u16]
    exact (eq_map_getD hl).symm
  · cases h

/-! ### LOAD_CYL -/

theorem cylInRange_iff {r : CylRecord} : r.inRange = true ↔
    r.tdc ≤ 11519 ∧ r.windowOpen ≤ 3200 ∧ r.windowClose ≤ 3200 ∧ 160 ≤ r.freezeLead ∧ r.freezeLead ≤ 2880 := by
  simp [CylRecord.inRange, and_assoc]

theorem parseCyl_cylBytes {c : Cyl} {r : CylRecord} (hr : r.inRange = true) : parseCyl (cylBytes c r) = some (c, r) := by
  obtain ⟨en, tdc, out, prof, wo, wc, fl⟩ := r
  obtain ⟨h1, h2, h3, h4, h5⟩ := cylInRange_iff.1 hr
  dsimp only at h1 h2 h3 h4 h5
  have e0 : Machine.cylOf (u8 (cylBytes c ⟨en, tdc, out, prof, wo, wc, fl⟩) 0) = some c := by
    rw [cylOf_eq_some]
    exact u8_of_byte rfl (by have := c.isLt; unfold cylNumber; omega)
  have e1 : flagOf (u8 (cylBytes c ⟨en, tdc, out, prof, wo, wc, fl⟩) 1) = some en := by
    rw [flagOf_eq_some]
    exact flagByte_toNat en
  have e2 : u16 (cylBytes c ⟨en, tdc, out, prof, wo, wc, fl⟩) 2 = tdc := u16_of_bytes rfl rfl (by omega)
  have e4 : Machine.cylOf (u8 (cylBytes c ⟨en, tdc, out, prof, wo, wc, fl⟩) 4) = some out := by
    rw [cylOf_eq_some]
    exact u8_of_byte rfl (by have := out.isLt; unfold cylNumber; omega)
  have e5 : profileOf (u8 (cylBytes c ⟨en, tdc, out, prof, wo, wc, fl⟩) 5) = some prof := by
    rw [profileOf_eq_some]
    exact u8_of_byte rfl (by have := prof.isLt; omega)
  have e6 : u16 (cylBytes c ⟨en, tdc, out, prof, wo, wc, fl⟩) 6 = wo := u16_of_bytes rfl rfl (by omega)
  have e8 : u16 (cylBytes c ⟨en, tdc, out, prof, wo, wc, fl⟩) 8 = wc := u16_of_bytes rfl rfl (by omega)
  have e10 : u16 (cylBytes c ⟨en, tdc, out, prof, wo, wc, fl⟩) 10 = fl := u16_of_bytes rfl rfl (by omega)
  unfold parseCyl
  rw [e0, e1, e2, e4, e5, e6, e8, e10]
  exact if_pos ⟨h1, h2, h3, within_iff.2 ⟨h4, h5⟩⟩

theorem cylBytes_of_parse {ps : List Byte} {c : Cyl} {r : CylRecord} (hl : ps.length = 12)
    (h : parseCyl ps = some (c, r)) : cylBytes c r = ps := by
  unfold parseCyl at h
  split at h
  · rename_i c' en out prof hc hen hout hprof
    split at h
    · cases h
      rw [cylBytes, ← byte_bool, ← flagOf_eq_some.1 hen, ← cylOf_eq_some.1 hc, ← profileOf_eq_some.1 hprof]
      have ho : (out.val + 1) = u8 ps 4 := (cylOf_eq_some.1 hout).symm
      rw [ho]
      simp only [byte_u8, leBytes_u16]
      exact (eq_map_getD hl).symm
    · cases h
  · cases h

/-! ### LOAD_PROFILE -/

theorem parseProfile_profileBytes {i : Fin 4} {p : ProfileRecord} (hr : p.inRange = true) :
    parseProfile (profileBytes i p) = some (i, p) := by
  have hr' := hr
  obtain ⟨a, b, c, d, e, f, g, h, j, k⟩ := p
  simp only [ProfileRecord.inRange, Bool.and_eq_true, within_iff, decide_eq_true_eq] at hr'
  have e0 : profileOf (u8 (profileBytes i ⟨a, b, c, d, e, f, g, h, j, k⟩) 0) = some i := by
    rw [profileOf_eq_some]
    exact u8_of_byte rfl (by have := i.isLt; omega)
  have e1 : u16 (profileBytes i ⟨a, b, c, d, e, f, g, h, j, k⟩) 1 = a := u16_of_bytes rfl rfl (by omega)
  have e3 : u16 (profileBytes i ⟨a, b, c, d, e, f, g, h, j, k⟩) 3 = b := u16_of_bytes rfl rfl (by omega)
  have e5 : u8 (profileBytes i ⟨a, b, c, d, e, f, g, h, j, k⟩) 5 = c := u8_of_byte rfl (by omega)
  have e6 : u8 (profileBytes i ⟨a, b, c, d, e, f, g, h, j, k⟩) 6 = d := u8_of_byte rfl (by omega)
  have e7 : u8 (profileBytes i ⟨a, b, c, d, e, f, g, h, j, k⟩) 7 = e := u8_of_byte rfl (by omega)
  have e8 : u8 (profileBytes i ⟨a, b, c, d, e, f, g, h, j, k⟩) 8 = f := u8_of_byte rfl (by omega)
  have e9 : u16 (profileBytes i ⟨a, b, c, d, e, f, g, h, j, k⟩) 9 = g := u16_of_bytes rfl rfl (by omega)
  have e11 : u16 (profileBytes i ⟨a, b, c, d, e, f, g, h, j, k⟩) 11 = h := u16_of_bytes rfl rfl (by omega)
  have e13 : u16 (profileBytes i ⟨a, b, c, d, e, f, g, h, j, k⟩) 13 = j := u16_of_bytes rfl rfl (by omega)
  have e15 : u16 (profileBytes i ⟨a, b, c, d, e, f, g, h, j, k⟩) 15 = k := u16_of_bytes rfl rfl (by omega)
  unfold parseProfile
  dsimp only
  rw [e0, e1, e3, e5, e6, e7, e8, e9, e11, e13, e15]
  exact if_pos hr

theorem profileBytes_of_parse {ps : List Byte} {i : Fin 4} {p : ProfileRecord} (hl : ps.length = 17)
    (h : parseProfile ps = some (i, p)) : profileBytes i p = ps := by
  unfold parseProfile at h
  dsimp only at h
  split at h
  · rename_i j hj
    split at h
    · cases h
      rw [profileBytes, ← profileOf_eq_some.1 hj]
      simp only [byte_u8, leBytes_u16]
      exact (eq_map_getD hl).symm
    · cases h
  · cases h

/-! ### LOAD_LIMITS -/

theorem ofCode_code (m : ConverterMode) : ConverterMode.ofCode m.code = m := by cases m <;> rfl

theorem code_lt (m : ConverterMode) : m.code < 256 := by cases m <;> decide

theorem code_ofCode {n : Nat} (h : n ≤ 2) : (ConverterMode.ofCode n).code = n := by
  rcases (by omega : n = 0 ∨ n = 1 ∨ n = 2) with rfl | rfl | rfl <;> rfl

/-- The bytes of LOAD_LIMITS, one by one. -/
def limitsList (l : Limits) : List Byte :=
  [byte l.bankGapUs, byte l.deferMain, byte (l.deferMain / 256), byte l.deferPilot, byte (l.deferPilot / 256),
   byte l.deferAfter, byte (l.deferAfter / 256), byte l.deferLate, byte (l.deferLate / 256), byte l.staleHold,
   byte l.lockout, byte l.linkSilence, byte (l.linkSilence / 256), byte l.maxSpeed, byte (l.maxSpeed / 256),
   byte l.lowThr, byte (l.lowThr / 256), byte l.crankThr, byte (l.crankThr / 256), byte l.underThr,
   byte (l.underThr / 256), byte l.capacity.a, byte (l.capacity.a / 256), byte l.capacity.b, byte (l.capacity.b / 256),
   byte l.rateNormal, byte l.rateFast, byte l.lowWater, byte (l.lowWater / 256), byte l.converter.a.code,
   byte l.converter.b.code]

theorem limitsBytes_eq (l : Limits) : limitsBytes l = limitsList l := by
  simp only [limitsBytes, leBytes_two, List.cons_append, List.nil_append]
  rfl

/-- The bytes of a limits record in range read back as it. -/
theorem rawLimits_limitsBytes {l : Limits} (hr : l.inRange = true) : rawLimits (limitsBytes l) = l := by
  rw [limitsBytes_eq]
  have hlow : l.lowThr < 65536 ∧ l.crankThr < 65536 ∧ l.underThr < 65536 ∧ l.lowWater < 65536 := by
    simp only [Limits.inRange, Bool.and_eq_true, within_iff, decide_eq_true_eq] at hr
    omega
  simp only [Limits.inRange, Bool.and_eq_true, within_iff, decide_eq_true_eq, and_assoc] at hr
  obtain ⟨hbg, hdm, hdp, hda, hdl, hsh, -, hlo, -, hls, -, hms, -, -, -, -, -, -, -, hca, -, hcb, -, hrn, -, hrf, -, -⟩ := hr
  have lt {n m : Nat} (k : Nat) (h : n ≤ m) (hm : m < k) : n < k := Nat.lt_of_le_of_lt h hm
  have e0 : u8 (limitsList l) 0 = l.bankGapUs := u8_of_byte rfl (lt _ hbg (by decide))
  have e1 : u16 (limitsList l) 1 = l.deferMain := u16_of_bytes rfl rfl (lt _ hdm (by decide))
  have e3 : u16 (limitsList l) 3 = l.deferPilot := u16_of_bytes rfl rfl (lt _ hdp (by decide))
  have e5 : u16 (limitsList l) 5 = l.deferAfter := u16_of_bytes rfl rfl (lt _ hda (by decide))
  have e7 : u16 (limitsList l) 7 = l.deferLate := u16_of_bytes rfl rfl (lt _ hdl (by decide))
  have e9 : u8 (limitsList l) 9 = l.staleHold := u8_of_byte rfl (lt _ hsh (by decide))
  have e10 : u8 (limitsList l) 10 = l.lockout := u8_of_byte rfl (lt _ hlo (by decide))
  have e11 : u16 (limitsList l) 11 = l.linkSilence := u16_of_bytes rfl rfl (lt _ hls (by decide))
  have e13 : u16 (limitsList l) 13 = l.maxSpeed := u16_of_bytes rfl rfl (lt _ hms (by decide))
  have e15 : u16 (limitsList l) 15 = l.lowThr := u16_of_bytes rfl rfl hlow.1
  have e17 : u16 (limitsList l) 17 = l.crankThr := u16_of_bytes rfl rfl hlow.2.1
  have e19 : u16 (limitsList l) 19 = l.underThr := u16_of_bytes rfl rfl hlow.2.2.1
  have e21 : u16 (limitsList l) 21 = l.capacity.a := u16_of_bytes rfl rfl (lt _ hca (by decide))
  have e23 : u16 (limitsList l) 23 = l.capacity.b := u16_of_bytes rfl rfl (lt _ hcb (by decide))
  have e25 : u8 (limitsList l) 25 = l.rateNormal := u8_of_byte rfl (lt _ hrn (by decide))
  have e26 : u8 (limitsList l) 26 = l.rateFast := u8_of_byte rfl (lt _ hrf (by decide))
  have e27 : u16 (limitsList l) 27 = l.lowWater := u16_of_bytes rfl rfl hlow.2.2.2
  have e29 : u8 (limitsList l) 29 = l.converter.a.code := u8_of_byte rfl (code_lt _)
  have e30 : u8 (limitsList l) 30 = l.converter.b.code := u8_of_byte rfl (code_lt _)
  rw [rawLimits, e0, e1, e3, e5, e7, e9, e10, e11, e13, e15, e17, e19, e21, e23, e25, e26, e27, e29, e30, ofCode_code,
    ofCode_code]

theorem limitsBytes_rawLimits {ps : List Byte} (hl : ps.length = 31) (ha : u8 ps 29 ≤ 2) (hb : u8 ps 30 ≤ 2) :
    limitsBytes (rawLimits ps) = ps := by
  have hhigh : ∀ i, byte (u16 ps i / 256) = ps.getD (i + 1) 0 := fun i => by
    have := leBytes_u16 ps i
    rw [leBytes_two, List.cons.injEq, List.cons.injEq] at this
    exact this.2.1
  have hlow : ∀ i, byte (u16 ps i) = ps.getD i 0 := fun i => by
    have := leBytes_u16 ps i
    rw [leBytes_two, List.cons.injEq] at this
    exact this.1
  rw [limitsBytes_eq]
  unfold limitsList rawLimits
  dsimp only
  rw [code_ofCode ha, code_ofCode hb]
  simp only [byte_u8, hlow, hhigh]
  exact (eq_map_getD hl).symm

/-- R41: nothing was clamped exactly where the stored record is the one sent. -/
theorem limitsClamped_eq_false {ps : List Byte} (hl : ps.length = 31) :
    limitsClamped ps = false ↔ limitsBytes (clampLimits (rawLimits ps)) = ps := by
  have hiff : limitsClamped ps = false ↔ clampLimits (rawLimits ps) = rawLimits ps ∧ u8 ps 29 ≤ 2 ∧ u8 ps 30 ≤ 2 := by
    simp [limitsClamped, and_assoc]
  rw [hiff]
  constructor
  · rintro ⟨hc, ha, hb⟩
    rw [hc, limitsBytes_rawLimits hl ha hb]
  · intro h
    have hback := rawLimits_limitsBytes (clampLimits_inRange (rawLimits ps))
    rw [h] at hback
    have hcode : ∀ (m : ConverterMode) (i : Nat), ps.getD i 0 = byte m.code → u8 ps i ≤ 2 := fun m i hi => by
      rw [u8_of_byte hi (code_lt m)]
      cases m <;> decide
    refine ⟨hback.symm, hcode (clampLimits (rawLimits ps)).converter.a 29 ?_,
      hcode (clampLimits (rawLimits ps)).converter.b 30 ?_⟩
    · rw [← congrArg (fun l : List Byte => l.getD 29 0) h, limitsBytes_eq]
      rfl
    · rw [← congrArg (fun l : List Byte => l.getD 30 0) h, limitsBytes_eq]
      rfl

/-! ### LOAD_PATTERN -/

/-- The control byte of an entry, by the bits section 11.3 gives it. -/
theorem ctl_fields {r a c d b n : Nat} (hr : r < 4) (ha : a ≤ 1) (hc : c ≤ 1) (hd : d ≤ 1) (hb : b ≤ 1) (hn : n < 4) :
    let ctl := r + 4 * a + 8 * c + 16 * d + 32 * b + 64 * n
    ctl < 256 ∧ ctl % 4 = r ∧ ctl / 4 % 2 = a ∧ ctl / 8 % 2 = c ∧ ctl / 16 % 2 = d ∧ ctl / 32 % 2 = b ∧ ctl / 64 = n := by
  dsimp only
  omega

def EntryAnchor.isChain : EntryAnchor → Bool
  | .angle _ _ => false
  | .chain _ => true

def EntryAnchor.advances : EntryAnchor → Bool
  | .angle _ adv => adv
  | .chain _ => false

/-- The field an anchor carries, as a two-byte number. -/
def EntryAnchor.field : EntryAnchor → Nat
  | .angle off _ => (off % 65536).toNat
  | .chain gap => gap

def DurationSource.isFraction : DurationSource → Bool
  | .fixed _ => false
  | .fraction _ => true

/-- The field a duration source carries. -/
def DurationSource.field : DurationSource → Nat
  | .fixed us => us
  | .fraction fr => fr

/-- The control byte of an entry. -/
def ctlOf (e : PatternEntry) : Nat :=
  e.cls.rank + 4 * (EntryAnchor.isChain e.anchor).toNat + 8 * (EntryAnchor.advances e.anchor).toNat +
    16 * (DurationSource.isFraction e.duration).toNat + 32 * e.lowBoost.toNat + 64 * (e.repeats - 1)

theorem entryBytes_eq (e : PatternEntry) : entryBytes e = byte (ctlOf e) :: (leBytes 2 (EntryAnchor.field e.anchor) ++
    leBytes 2 (DurationSource.field e.duration) ++ leBytes 2 e.maxUs ++ leBytes 2 e.repeatGapUs) := by
  obtain ⟨cls, anchor, dur, mx, rep, gap, lb⟩ := e
  cases anchor with
  | angle off adv => cases dur <;> cases adv <;> cases lb <;> rfl
  | chain g => cases dur <;> cases lb <;> rfl

theorem rank_lt (c : PulseClass) : c.rank < 4 := by cases c <;> decide

theorem ofCode_rank (c : PulseClass) : PulseClass.ofCode c.rank = c := by cases c <;> rfl

theorem entryInRange_iff {e : PatternEntry} : e.inRange = true ↔ e.anchor.inRange = true ∧ e.duration.inRange = true ∧
    (100 ≤ e.maxUs ∧ e.maxUs ≤ 10000) ∧ (1 ≤ e.repeats ∧ e.repeats ≤ 4) ∧ 100 ≤ e.repeatGapUs ∧ e.repeatGapUs ≤ 10000 := by
  simp [PatternEntry.inRange, and_assoc]

theorem parseAnchor_of {ctl : Nat} {ps : List Byte} {a : EntryAnchor} (hr : a.inRange = true)
    (hc : ctl / 4 % 2 = (EntryAnchor.isChain a).toNat) (hadv : ctl / 8 % 2 = (EntryAnchor.advances a).toNat)
    (hf : u16 ps 1 = EntryAnchor.field a) : parseAnchor ctl ps = some a := by
  unfold parseAnchor
  cases a with
  | angle off adv =>
    have hc : ctl / 4 % 2 = 0 := hc
    have hoff : -3200 ≤ off ∧ off ≤ 3200 := by simpa [EntryAnchor.inRange] using hr
    have hs : s16 ps 1 = off := by
      unfold s16
      rw [hf]
      simp only [EntryAnchor.field]
      omega
    have hb : (ctl / 8 % 2 == 1) = adv := by rw [hadv]; cases adv <;> rfl
    rw [if_pos hc, hs, if_pos hoff, hb]
  | chain g =>
    have hc : ctl / 4 % 2 = 1 := hc
    rw [if_neg (by rw [hc]; decide), if_pos (by rw [hf]; exact hr), hf]
    rfl

theorem parseDuration_of {ctl : Nat} {ps : List Byte} {d : DurationSource} (hr : d.inRange = true)
    (hc : ctl / 16 % 2 = (DurationSource.isFraction d).toNat) (hf : u16 ps 3 = DurationSource.field d) :
    parseDuration ctl ps = some d := by
  unfold parseDuration
  cases d with
  | fixed us =>
    have hus : us ≤ 10000 := by simpa [DurationSource.inRange] using hr
    have hc : ctl / 16 % 2 = 0 := hc
    rw [if_pos hc, hf]
    exact if_pos hus
  | fraction fr =>
    have hc : ctl / 16 % 2 = 1 := hc
    rw [if_neg (by rw [hc]; decide), hf]
    exact if_pos hr

theorem anchor_field_lt {a : EntryAnchor} (h : a.inRange = true) : EntryAnchor.field a < 65536 := by
  cases a with
  | angle off adv => simp only [EntryAnchor.field]; omega
  | chain g => have := within_iff.1 h; simp only [EntryAnchor.field]; omega

theorem duration_field_lt {d : DurationSource} (h : d.inRange = true) : DurationSource.field d < 65536 := by
  cases d with
  | fixed us => have : us ≤ 10000 := by simpa [DurationSource.inRange] using h
                simp only [DurationSource.field]; omega
  | fraction fr => have := within_iff.1 h; simp only [DurationSource.field]; omega

theorem ctlOf_fields {e : PatternEntry} (h : e.inRange = true) : ctlOf e < 256 ∧ ctlOf e % 4 = e.cls.rank ∧
    ctlOf e / 4 % 2 = (EntryAnchor.isChain e.anchor).toNat ∧ ctlOf e / 8 % 2 = (EntryAnchor.advances e.anchor).toNat ∧
    ctlOf e / 16 % 2 = (DurationSource.isFraction e.duration).toNat ∧ ctlOf e / 32 % 2 = e.lowBoost.toNat ∧
    ctlOf e / 64 = e.repeats - 1 := by
  obtain ⟨-, -, -, hrep, -⟩ := entryInRange_iff.1 h
  exact ctl_fields (rank_lt _) (Bool.toNat_le _) (Bool.toNat_le _) (Bool.toNat_le _) (Bool.toNat_le _) (by omega)

theorem parseEntry_entryBytes {e : PatternEntry} (h : e.inRange = true) (rest : List Byte) :
    parseEntry (entryBytes e ++ rest) = some e := by
  obtain ⟨ha, hd, hm, hrep, hg⟩ := entryInRange_iff.1 h
  obtain ⟨hlt, hcls, hchain, hadv, hfrac, hlow, hn⟩ := ctlOf_fields h
  rw [entryBytes_eq]
  generalize hps : byte (ctlOf e) :: (leBytes 2 (EntryAnchor.field e.anchor) ++ leBytes 2 (DurationSource.field e.duration) ++
    leBytes 2 e.maxUs ++ leBytes 2 e.repeatGapUs) ++ rest = ps
  have h0 : u8 ps 0 = ctlOf e := by subst hps; exact u8_of_byte rfl hlt
  have h1 : u16 ps 1 = EntryAnchor.field e.anchor := by subst hps; exact u16_of_bytes rfl rfl (anchor_field_lt ha)
  have h3 : u16 ps 3 = DurationSource.field e.duration := by subst hps; exact u16_of_bytes rfl rfl (duration_field_lt hd)
  have h5 : u16 ps 5 = e.maxUs := by subst hps; exact u16_of_bytes rfl rfl (by omega)
  have h7 : u16 ps 7 = e.repeatGapUs := by subst hps; exact u16_of_bytes rfl rfl (by omega)
  have hgaps : (within 100 10000 e.maxUs && within 100 10000 e.repeatGapUs) = true := by
    rw [Bool.and_eq_true, within_iff, within_iff]
    exact ⟨hm, hg⟩
  have hlb : (e.lowBoost.toNat == 1) = e.lowBoost := by cases e.lowBoost <;> rfl
  unfold parseEntry
  dsimp only
  rw [h0, parseAnchor_of ha hchain hadv h1, parseDuration_of hd hfrac h3, h5, h7, hcls, hlow, hn, ofCode_rank, hlb,
    Nat.sub_add_cancel hrep.1]
  exact if_pos hgaps

theorem entryBytes_length (e : PatternEntry) : (entryBytes e).length = 9 := by
  rw [entryBytes_eq]
  rfl

theorem parseEntries_flatMap {es : List PatternEntry} (h : ∀ e ∈ es, e.inRange = true) :
    parseEntries es.length (es.flatMap entryBytes) = some es := by
  induction es with
  | nil => rfl
  | cons e es ih =>
    obtain ⟨he, hes⟩ := List.forall_mem_cons.1 h
    rw [List.flatMap_cons, List.length_cons, parseEntries, parseEntry_entryBytes he, ← entryBytes_length e,
      List.drop_left, ih hes]

theorem patternBytes_fields (i : Fin 16) {es : List PatternEntry} (h : es.length ≤ 6) :
    patternOf (u8 (patternBytes i es) 0) = some i ∧ u8 (patternBytes i es) 1 = es.length ∧
    (patternBytes i es).length = 2 + 9 * es.length := by
  refine ⟨?_, u8_of_byte rfl (by omega), ?_⟩
  · rw [patternOf_eq_some]
    exact u8_of_byte rfl (by have := i.isLt; omega)
  · have hlen : (es.flatMap entryBytes).length = 9 * es.length := by
      clear h
      induction es with
      | nil => rfl
      | cons e es ih => rw [List.flatMap_cons, List.length_append, ih, entryBytes_length, List.length_cons]; ring
    simp only [patternBytes, List.length_cons, hlen]
    ring

theorem parsePattern_patternBytes {i : Fin 16} {es : List PatternEntry} (hl : es.length ≤ 6)
    (h : ∀ e ∈ es, e.inRange = true) :
    parsePattern (patternBytes i es) = if patternAdmitted es then some (i, es) else none := by
  obtain ⟨h0, h1, -⟩ := patternBytes_fields i hl
  unfold parsePattern
  rw [h0, h1]
  have hdrop : (patternBytes i es).drop 2 = es.flatMap entryBytes := rfl
  rw [hdrop, parseEntries_flatMap h]

end Sys2Proof.Proofs.Layouts
end

section
/-! SUPPORT. The Table Store's commands: what a taken load stores, what a moving clock loses to a new wheel, when a load is
refused, and what READ_TABLE reads back. -/

namespace Sys2Proof.Proofs.Loads

open Sys2Proof Sys2Proof.Machine Sys2Proof.Laws Sys2Proof.Proofs.Bytes Sys2Proof.Proofs.Tables Sys2Proof.Proofs.Layouts
  Sys2Proof.Proofs.Frames Sys2Proof.Proofs.PendingSwap Sys2Proof.Proofs.Clock Sys2Proof.Proofs.Removals
  Sys2Proof.Proofs.Cancelling Sys2Proof.Proofs.Freeze Sys2Proof.Laws.Fine Sys2Proof.Proofs.BankAgreement Sys2Proof.Proofs.Steps Sys2Proof.Proofs.Checks

/-! ### The owners, case by case -/

theorem ownLoadWheel_took {s : State} {ps : List Byte} {w : WheelRecord} (hf : s.firing = .safe) (hp : parseWheel ps = some w) :
    ownLoadWheel s ps = took (reloadClock (s.setTables { s.tables with wheel := w })) := by
  unfold ownLoadWheel
  rw [if_neg (not_not.2 hf), hp]

theorem ownLoadWheel_badParam {s : State} {ps : List Byte} (hf : s.firing = .safe) (hp : parseWheel ps = none) :
    ownLoadWheel s ps = refuse s .badParam := by
  unfold ownLoadWheel
  rw [if_neg (not_not.2 hf), hp]

theorem outputTaken_eq_true {s : State} {c : Cyl} {out : Fin 8} :
    outputTaken s c out = true ↔ ∃ d, d ≠ c ∧ (s.cylOf d).enabled = true ∧ (s.cylOf d).output = out := by
  unfold outputTaken
  simp [List.any_eq_true, mem_allCyls, and_assoc]

theorem ownLoadCyl_none {s : State} {ps : List Byte} (hs : s.service = none) (hf : s.firing = .safe)
    (hp : parseCyl ps = none) : ownLoadCyl s ps = refuse s .badParam := by
  unfold ownLoadCyl
  rw [if_neg (by rw [hs]; decide), if_neg (not_not.2 hf), hp]

theorem ownLoadCyl_some {s : State} {ps : List Byte} {c : Cyl} {r : CylRecord} (hs : s.service = none)
    (hf : s.firing = .safe) (hp : parseCyl ps = some (c, r)) : ownLoadCyl s ps =
      if r.enabled && outputTaken s c r.output then refuse s .badParam else took (storeCyl s c r) := by
  unfold ownLoadCyl
  rw [if_neg (by rw [hs]; decide), if_neg (not_not.2 hf), hp]

theorem ownLoadCyl_took {s : State} {ps : List Byte} {c : Cyl} {r : CylRecord} (hs : s.service = none)
    (hf : s.firing = .safe) (hp : parseCyl ps = some (c, r))
    (ho : r.enabled = true → ∀ d, d ≠ c → (s.cylOf d).enabled = true → (s.cylOf d).output ≠ r.output) :
    ownLoadCyl s ps = took (storeCyl s c r) := by
  rw [ownLoadCyl_some hs hf hp]
  refine if_neg fun h => ?_
  obtain ⟨he, ht⟩ := (Bool.and_eq_true _ _).mp h
  obtain ⟨d, hd, hde, hdo⟩ := outputTaken_eq_true.1 ht
  exact ho he d hd hde hdo

theorem ownLoadProfile_none {s : State} {ps : List Byte} (hs : s.service = none) (hf : s.firing = .safe)
    (hp : parseProfile ps = none) : ownLoadProfile s ps = refuse s .badParam := by
  unfold ownLoadProfile
  rw [if_neg (by rw [hs]; decide), if_neg (not_not.2 hf), hp]

theorem ownLoadProfile_some {s : State} {ps : List Byte} {i : Fin 4} {p : ProfileRecord} (hs : s.service = none)
    (hf : s.firing = .safe) (hp : parseProfile ps = some (i, p)) :
    ownLoadProfile s ps = took (s.setTables { s.tables with profile := s.tables.profile.set i p }) := by
  unfold ownLoadProfile
  rw [if_neg (by rw [hs]; decide), if_neg (not_not.2 hf), hp]

theorem ownLoadPattern_none {s : State} {ps : List Byte} (hs : s.tables.swapPending = false)
    (hp : parsePattern ps = none) : ownLoadPattern s ps = refuse s .badParam := by
  unfold ownLoadPattern
  rw [if_neg (Bool.eq_false_iff.1 hs), hp]

theorem ownLoadPattern_some {s : State} {ps : List Byte} {i : Fin 16} {es : List PatternEntry}
    (hs : s.tables.swapPending = false) (hp : parsePattern ps = some (i, es)) :
    ownLoadPattern s ps = took (s.setTables (s.tables.setPattern (!s.tables.activePage1) i es)) := by
  unfold ownLoadPattern
  rw [if_neg (Bool.eq_false_iff.1 hs), hp]

/-! ### Pattern pages -/

/-- R34, R37: a pattern of one page replaced, and everything else kept. -/
theorem setPattern_eq (t : TableStore) (b : Bool) (i : Fin 16) (es : List PatternEntry) :
    t.setPattern b i es = { t with page0 := (t.setPattern b i es).page0, page1 := (t.setPattern b i es).page1 } := by
  cases b <;> rfl

theorem setPattern_length (t : TableStore) (b : Bool) (i : Fin 16) (es : List PatternEntry) :
    (t.setPattern b i es).page0.length = t.page0.length ∧ (t.setPattern b i es).page1.length = t.page1.length := by
  cases b
  · exact ⟨List.length_set, rfl⟩
  · exact ⟨rfl, List.length_set⟩

theorem getD_set {α : Type} (l : List α) (i j : Nat) (x d : α) (hi : i < l.length) :
    (l.set i x).getD j d = if j = i then x else l.getD j d := by
  simp only [List.getD_eq_getElem?_getD, List.getElem?_set]
  by_cases h : j = i
  · subst h; simp [hi]
  · rw [if_neg (Ne.symm h), if_neg h]

theorem pattern_setPattern (t : TableStore) (b : Bool) (i : Fin 16) (es : List PatternEntry) (h0 : t.page0.length = 16)
    (h1 : t.page1.length = 16) (p : Bool) (j : Fin 16) :
    (t.setPattern b i es).pattern p j = if p = b ∧ j = i then es else t.pattern p j := by
  have hset (l : List (List PatternEntry)) (hl : l.length = 16) :
      (l.set i.val es).getD j.val [] = if j = i then es else l.getD j.val [] := by
    rw [getD_set _ _ _ _ _ (by rw [hl]; exact i.isLt)]
    simp only [Fin.ext_iff]
  cases b <;> cases p
  · exact (hset t.page0 h0).trans (by simp only [true_and]; rfl)
  · exact (if_neg (by rintro ⟨h, -⟩; cases h)).symm
  · exact (if_neg (by rintro ⟨h, -⟩; cases h)).symm
  · exact (hset t.page1 h1).trans (by simp only [true_and]; rfl)

theorem patternBytes_admitted (i : Fin 16) {es : List PatternEntry} (h : es.length ≤ 6) :
    admitsPattern (patternBytes i es) = true ∧ (patternBytes i es).length ≤ 60 := by
  obtain ⟨-, h1, hl⟩ := patternBytes_fields i h
  unfold admitsPattern
  rw [h1, hl]
  exact ⟨by simp [h], by omega⟩

theorem patternInRange_iff {es : List PatternEntry} : patternInRange es = true ↔
    es.length ≤ 6 ∧ (∀ e ∈ es, e.inRange = true) ∧ patternAdmitted es = true := by
  simp [patternInRange, and_assoc]

/-! ### Loads that are taken -/

/-- Settles O15: the owner of each load reads back the record its bytes were made of, and stores it. -/
theorem loadReplacesTheRecord : Obligations.LoadReplacesTheRecord := by
  unfold Obligations.LoadReplacesTheRecord
  refine ⟨fun w f s hr hl hf hk hpass hps => ?_, fun c r f s hr hf hs ho hpass hps => ?_,
    fun i p f s hr hf hs hpass hps => ?_, fun i es f s hr hw h0 h1 hpass hps => ?_⟩
  · have hparse : parseWheel (frameParams f) = some w := by rw [hps]; exact parseWheel_wheelBytes hr hl
    have hown : ownLoadWheel (received s 0x10 f) (frameParams f) =
        took ((received s 0x10 f).setTables { s.tables with wheel := w }) :=
      (ownLoadWheel_took (s := received s 0x10 f) hf hparse).trans (congrArg took (if_pos hk))
    exact congrArg Host.Outcome.next (takeFrame_exactly hpass (by rw [hps]; rfl) (by decide) hown)
  · have hparse : parseCyl (frameParams f) = some (c, r) := by rw [hps]; exact parseCyl_cylBytes hr
    have hown := ownLoadCyl_took (s := received s 0x11 f) hs hf hparse ho
    refine congrArg Host.Outcome.next ((takeFrame_exactly hpass (by rw [hps]; rfl) (by decide) hown).trans ?_)
    unfold storeCyl
    cases r.enabled <;> rfl
  · have hown : ownLoadProfile (received s 0x12 f) (frameParams f) =
        took ((received s 0x12 f).setTables { s.tables with profile := s.tables.profile.set i p }) :=
      ownLoadProfile_some (s := received s 0x12 f) hs hf (by rw [hps]; exact parseProfile_profileBytes hr)
    exact congrArg Host.Outcome.next (takeFrame_exactly hpass (by rw [hps]; rfl) (by decide) hown)
  · obtain ⟨hlen, hes, had⟩ := patternInRange_iff.1 hr
    obtain ⟨ha, h60⟩ := patternBytes_admitted i hlen
    have hown : ownLoadPattern (received s 0x13 f) (frameParams f) =
        took ((received s 0x13 f).setTables (s.tables.setPattern (!s.tables.activePage1) i es)) :=
      ownLoadPattern_some (s := received s 0x13 f) hw (by rw [hps, parsePattern_patternBytes hlen hes, if_pos had])
    obtain ⟨hl0, hl1⟩ := setPattern_length s.tables (!s.tables.activePage1) i es
    exact ⟨_, congrArg Host.Outcome.next (takeFrame_reply (admits := admitsPattern) hpass (by rwa [hps]) (by rwa [hps]) hown),
      rfl, setPattern_eq _ _ _ _, hl0.trans h0, hl1.trans h1, pattern_setPattern _ _ _ _ h0 h1⟩

/-! ### A wheel loaded while the crank turns -/

/-- R20: the overspeed flag after an evaluation at speed 0. -/
def calm (s : State) : Bool := if 100 < s.tables.limits.maxSpeed then false else s.clock.overspeed

/-- R20: at speed 0 the overspeed flag only falls, and no event is raised. -/
theorem judgeOverspeed_of_zero {s : State} (h : s.clock.speed = 0) :
    judgeOverspeed s = s.setClock { s.clock with overspeed := calm s } := by
  have hflag : overspeedAfter s.clock.overspeed 0 s.tables.limits.maxSpeed = calm s := by
    unfold overspeedAfter calm
    rw [if_neg (Nat.not_lt_zero _)]
    simp only [Nat.sub_pos_iff_lt]
  have hrise : (calm s && !s.clock.overspeed) = false := by
    unfold calm
    split
    · rfl
    · exact Bool.and_not_self _
  unfold judgeOverspeed
  dsimp only
  rw [h, hflag, hrise]
  rfl

/-- R19: without crank sync the speed is 0. -/
theorem speedNow_unsynced (w : WheelRecord) {k : AngleClock} (h : k.sync = .seeking ∨ k.sync = .stalled) :
    k.speedNow w = 0 := by
  unfold AngleClock.speedNow
  rcases h with h | h <;> rw [h]

theorem setSpeed_unsynced {s : State} (h : s.clock.sync = .seeking ∨ s.clock.sync = .stalled) :
    setSpeed s = s.setClock { s.clock with speed := 0, overspeed := calm s } := by
  unfold setSpeed
  rw [speedNow_unsynced _ h]
  exact judgeOverspeed_of_zero rfl

/-- R19: the clock that a change to a state without crank sync leaves. -/
def quietClock (s : State) (k : AngleClock) : AngleClock := { k with speed := 0, overspeed := calm (s.setClock k) }

/-- What a departure from FULL_SYNC keeps away from DRAINING. -/
theorem departFullSync_keeps {s : State} (h : s.firing ≠ .draining) : (departFullSync s).link = s.link ∧
    (departFullSync s).tables.wheel = s.tables.wheel := by
  have hb := (cancelBoth (s.raise .syncDown) (o := .cancelledSync) rfl rfl (by decide)).change h
  have hswap (u : State) : u.takePendingSwap.link = u.link ∧ u.takePendingSwap.tables.wheel = u.tables.wheel := by
    unfold State.takePendingSwap
    split <;> exact ⟨rfl, rfl⟩
  unfold departFullSync
  dsimp only
  generalize cancelBank .bankB (cancelBank .bankA (s.raise .syncDown) .cancelledSync) .cancelledSync = u at hb ⊢
  obtain ⟨hl, hw⟩ := hswap u
  rw [hl, hw, hb]
  exact ⟨rfl, rfl⟩

/-- R12, R19: a change to a state without crank sync, which outside FULL_SYNC is one of the clock alone. -/
theorem changeSync_unsynced (s : State) {k : AngleClock} (hk : k.sync = .seeking ∨ k.sync = .stalled) :
    (changeSync s k).clock = quietClock s k ∧
    (s.clock.sync ≠ .fullSync → changeSync s k = s.setClock (quietClock s k)) ∧
    (s.firing ≠ .draining → (changeSync s k).link = s.link ∧ (changeSync s k).tables.wheel = s.tables.wheel) := by
  have hclock : (departFullSync (s.setClock k)).clock = k := Laws.departFullSync_rel clock_bank _
  have hlim : (departFullSync (s.setClock k)).tables.limits = s.tables.limits := Laws.departFullSync_rel limits_bank _
  unfold changeSync
  dsimp only
  by_cases hs : s.clock.sync = .fullSync
  · have hkeeps := departFullSync_keeps (s := s.setClock k)
    rw [if_pos hs]
    generalize departFullSync (s.setClock k) = u at hclock hlim hkeeps ⊢
    have hcalm : calm u = calm (s.setClock k) := by
      unfold calm
      rw [hclock, hlim]
      rfl
    rw [setSpeed_unsynced (by rwa [hclock]), hcalm, hclock]
    exact ⟨rfl, fun hn => absurd hs hn, fun hf => hkeeps hf⟩
  · rw [if_neg hs, setSpeed_unsynced (s := s.setClock k) hk]
    exact ⟨rfl, fun _ => rfl, fun _ => ⟨rfl, rfl⟩⟩

theorem reloadClock_keeps {s : State} (h : s.clock.sync ≠ .stalled) (hf : s.firing ≠ .draining) :
    (reloadClock s).clock = quietClock s (s.clock.cleared .seeking).forgotten ∧ (reloadClock s).link = s.link ∧
    (reloadClock s).tables.wheel = s.tables.wheel ∧
    (s.clock.sync ≠ .fullSync → reloadClock s = s.setClock (quietClock s (s.clock.cleared .seeking).forgotten)) := by
  have hr : reloadClock s = changeSync s (s.clock.cleared .seeking).forgotten := if_neg h
  obtain ⟨hclock, hout, hkeeps⟩ := changeSync_unsynced s (k := (s.clock.cleared .seeking).forgotten) (.inl rfl)
  rw [hr]
  exact ⟨hclock, (hkeeps hf).1, (hkeeps hf).2, hout⟩

/-- Settles O16: the clock restarts, and outside FULL_SYNC that is all beside the record. -/
theorem loadWheelRestartsTheClock : Obligations.LoadWheelRestartsTheClock := by
  unfold Obligations.LoadWheelRestartsTheClock
  intro w f s hr hl hf hk hpass hps
  have hparse : parseWheel (frameParams f) = some w := by rw [hps]; exact parseWheel_wheelBytes hr hl
  have hown := ownLoadWheel_took (s := received s 0x10 f) hf hparse
  obtain ⟨hclock, hlink, hwheel, hrest⟩ := reloadClock_keeps
    (s := (received s 0x10 f).setTables { s.tables with wheel := w }) hk
    (fun hd => by cases hf.symm.trans hd)
  refine ⟨_, congrArg Host.Outcome.next (takeFrame_exactly hpass (by rw [hps]; rfl) (by decide) hown), hwheel, ?_, hclock,
    fun hn => ?_⟩
  · exact congrArg (fun l : LinkIface => { l with response := { code := 0x10, result := .ok, data := [] } }) hlink
  · refine (congrArg (fun u => respond u 0x10 .ok []) (hrest hn)).trans ?_
    exact congrArg (fun k => { answered s 0x10 f .ok [] with clock := k, tables := { s.tables with wheel := w } })
      hclock.symm

/-! ### Patterns refused field by field -/

theorem u8_drop (ps : List Byte) (n i : Nat) : u8 (ps.drop n) i = u8 ps (n + i) := by
  simp only [u8, List.getD_eq_getElem?_getD, List.getElem?_drop]

theorem u16_drop (ps : List Byte) (n i : Nat) : u16 (ps.drop n) i = u16 ps (n + i) := by
  simp only [u16, u8_drop, Nat.add_assoc]

theorem u16_lt (ps : List Byte) (i : Nat) : u16 ps i < 65536 := by
  have := u8_lt ps i
  have := u8_lt ps (i + 1)
  unfold u16
  omega

theorem parseAnchor_eq_none {ctl : Nat} {ps : List Byte} : parseAnchor ctl ps = none ↔
    (ctl / 4 % 2 = 0 ∧ 3200 < u16 ps 1 ∧ u16 ps 1 < 62336) ∨
    (ctl / 4 % 2 = 1 ∧ ¬(100 ≤ u16 ps 1 ∧ u16 ps 1 ≤ 10000)) := by
  have hlt := u16_lt ps 1
  have hs : (-3200 ≤ s16 ps 1 ∧ s16 ps 1 ≤ 3200) ↔ ¬(3200 < u16 ps 1 ∧ u16 ps 1 < 62336) := by
    unfold s16
    split <;> omega
  unfold parseAnchor
  simp only [within_iff, hs]
  split <;> split <;> simp <;> omega

theorem parseDuration_eq_none {ctl : Nat} {ps : List Byte} : parseDuration ctl ps = none ↔
    (ctl / 16 % 2 = 0 ∧ 10000 < u16 ps 3) ∨ (ctl / 16 % 2 = 1 ∧ ¬(1 ≤ u16 ps 3 ∧ u16 ps 3 ≤ 256)) := by
  unfold parseDuration
  simp only [within_iff]
  split <;> split <;> simp <;> omega

/-- R35: an entry at an offset has a carried field out of its range. -/
def BadEntry (ps : List Byte) (at' : Nat) : Prop :=
  (u8 ps at' / 4 % 2 = 0 ∧ 3200 < u16 ps (at' + 1) ∧ u16 ps (at' + 1) < 62336) ∨
  (u8 ps at' / 4 % 2 = 1 ∧ ¬(100 ≤ u16 ps (at' + 1) ∧ u16 ps (at' + 1) ≤ 10000)) ∨
  (u8 ps at' / 16 % 2 = 0 ∧ 10000 < u16 ps (at' + 3)) ∨
  (u8 ps at' / 16 % 2 = 1 ∧ ¬(1 ≤ u16 ps (at' + 3) ∧ u16 ps (at' + 3) ≤ 256)) ∨
  ¬(100 ≤ u16 ps (at' + 5) ∧ u16 ps (at' + 5) ≤ 10000) ∨ ¬(100 ≤ u16 ps (at' + 7) ∧ u16 ps (at' + 7) ≤ 10000)

theorem parseEntry_eq_none {ps : List Byte} {b : Nat} : parseEntry (ps.drop b) = none ↔ BadEntry ps b := by
  have ha := parseAnchor_eq_none (ctl := u8 (ps.drop b) 0) (ps := ps.drop b)
  have hd := parseDuration_eq_none (ctl := u8 (ps.drop b) 0) (ps := ps.drop b)
  have hsplit : parseEntry (ps.drop b) = none ↔ parseAnchor (u8 (ps.drop b) 0) (ps.drop b) = none ∨
      parseDuration (u8 (ps.drop b) 0) (ps.drop b) = none ∨
      ¬(100 ≤ u16 (ps.drop b) 5 ∧ u16 (ps.drop b) 5 ≤ 10000) ∨ ¬(100 ≤ u16 (ps.drop b) 7 ∧ u16 (ps.drop b) 7 ≤ 10000) := by
    unfold parseEntry
    dsimp only
    cases parseAnchor (u8 (ps.drop b) 0) (ps.drop b) <;> cases parseDuration (u8 (ps.drop b) 0) (ps.drop b) <;>
      simp [within_iff, -not_and]
    tauto
  rw [hsplit, ha, hd]
  simp only [u8_drop, u16_drop, Nat.add_zero, BadEntry, or_assoc]

theorem parseEntries_eq_none {n : Nat} {ps : List Byte} {b : Nat} :
    parseEntries n (ps.drop b) = none ↔ ∃ j, j < n ∧ BadEntry ps (b + 9 * j) := by
  induction n generalizing b with
  | zero => simp [parseEntries]
  | succ n ih =>
    have hsplit : parseEntries (n + 1) (ps.drop b) = none ↔
        parseEntry (ps.drop b) = none ∨ parseEntries n (ps.drop (b + 9)) = none := by
      rw [parseEntries, List.drop_drop]
      cases parseEntry (ps.drop b) <;> cases parseEntries n (ps.drop (b + 9)) <;> simp
    rw [hsplit, parseEntry_eq_none, ih]
    constructor
    · rintro (h | ⟨j, hj, h⟩)
      · exact ⟨0, Nat.succ_pos n, h⟩
      · exact ⟨j + 1, Nat.succ_lt_succ hj, by rwa [show b + 9 * (j + 1) = b + 9 + 9 * j by ring]⟩
    · rintro ⟨j, hj, h⟩
      cases j with
      | zero => exact .inl h
      | succ j => exact .inr ⟨j, Nat.lt_of_succ_lt_succ hj, by rwa [show b + 9 + 9 * j = b + 9 * (j + 1) by ring]⟩

theorem parseEntry_control {ps : List Byte} {b : Nat} {e : PatternEntry} (h : parseEntry (ps.drop b) = some e) :
    e.repeats = u8 ps b / 64 + 1 ∧ (EntryAnchor.isChain e.anchor = true ↔ u8 ps b / 4 % 2 = 1) := by
  unfold parseEntry at h
  rw [u8_drop, Nat.add_zero] at h
  dsimp only at h
  split at h
  · rename_i a d ha _
    split at h
    · cases h
      refine ⟨rfl, ?_⟩
      unfold parseAnchor at ha
      split at ha <;> split at ha <;> cases ha
      · exact ⟨fun hc => (by cases hc), fun hc => (by omega)⟩
      · exact ⟨fun _ => by omega, fun _ => rfl⟩
    · cases h
  · cases h

theorem parseEntries_repeats {n : Nat} {ps : List Byte} {b : Nat} {es : List PatternEntry}
    (h : parseEntries n (ps.drop b) = some es) :
    es.map PatternEntry.repeats = (List.range n).map fun j => u8 ps (b + 9 * j) / 64 + 1 := by
  induction n generalizing b es with
  | zero => cases h; rfl
  | succ n ih =>
    rw [parseEntries, List.drop_drop] at h
    split at h
    · rename_i e es' he hes
      cases h
      rw [List.map_cons, ih hes, (parseEntry_control he).1, List.range_succ_eq_map, List.map_cons, List.map_map]
      refine congrArg _ (List.map_congr_left fun j _ => ?_)
      simp only [Function.comp_apply, show b + 9 * j.succ = b + 9 + 9 * j from (by simp only [Nat.succ_eq_add_one]; ring)]
    · cases h

theorem patternAdmitted_cons {e : PatternEntry} {es : List PatternEntry} : patternAdmitted (e :: es) = true ↔
    EntryAnchor.isChain e.anchor = false ∧ ((e :: es).map PatternEntry.repeats).sum ≤ 8 := by
  obtain ⟨cls, anchor, dur, mx, rep, gap, lb⟩ := e
  cases anchor <;> simp [patternAdmitted, EntryAnchor.isChain]

/-- R36: the entries read are admitted exactly where the first is not chained and the repeat counts stay within eight. -/
theorem parseEntries_admitted {n : Nat} {ps : List Byte} {b : Nat} {es : List PatternEntry}
    (h : parseEntries n (ps.drop b) = some es) : patternAdmitted es = false ↔
    (0 < n ∧ u8 ps b / 4 % 2 = 1) ∨ 8 < ((List.range n).map fun j => u8 ps (b + 9 * j) / 64 + 1).sum := by
  rw [← parseEntries_repeats h]
  cases n with
  | zero => cases h; simp [patternAdmitted]
  | succ n =>
    rw [parseEntries] at h
    split at h
    · rename_i e es' he _
      cases h
      rw [← Bool.not_eq_true, patternAdmitted_cons, not_and_or, Bool.not_eq_false, (parseEntry_control he).2, not_le]
      simp
    · cases h

theorem parsePattern_eq_none {ps : List Byte} : parsePattern ps = none ↔
    15 < u8 ps 0 ∨ (∃ j, j < u8 ps 1 ∧ BadEntry ps (2 + 9 * j)) ∨ (0 < u8 ps 1 ∧ u8 ps 2 / 4 % 2 = 1) ∨
      8 < ((List.range (u8 ps 1)).map fun j => u8 ps (2 + 9 * j) / 64 + 1).sum := by
  rw [← patternOf_eq_none, ← parseEntries_eq_none]
  unfold parsePattern
  cases patternOf (u8 ps 0) with
  | none => simp
  | some i =>
    cases hes : parseEntries (u8 ps 1) (ps.drop 2) with
    | none => simp
    | some es =>
      rw [← parseEntries_admitted hes]
      by_cases had : patternAdmitted es = true <;> simp [had]

/-! ### Loads that are refused -/

theorem parseWheel_eq_none {ps : List Byte} (hl : ps.length = 5)
    (h : ∀ w : WheelRecord, w.inRange = true → ps ≠ wheelBytes w) : parseWheel ps = none := by
  cases hp : parseWheel ps with
  | none => rfl
  | some w => exact absurd (wheelBytes_of_parse hl hp).symm (h w (parseWheel_inRange hp))

theorem parseCyl_eq_none {ps : List Byte} (hl : ps.length = 12)
    (h : ∀ c (r : CylRecord), r.inRange = true → ps ≠ cylBytes c r) : parseCyl ps = none := by
  cases hp : parseCyl ps with
  | none => rfl
  | some x => exact absurd (cylBytes_of_parse hl hp).symm (h x.1 x.2 (parseCyl_inRange hp))

theorem parseProfile_eq_none {ps : List Byte} (hl : ps.length = 17)
    (h : ∀ i (p : ProfileRecord), p.inRange = true → ps ≠ profileBytes i p) : parseProfile ps = none := by
  cases hp : parseProfile ps with
  | none => rfl
  | some x => exact absurd (profileBytes_of_parse hl hp).symm (h x.1 x.2 (parseProfile_inRange hp))

theorem service_free {s : State} (h : s.service = none) : ¬s.service.isSome = true := by rw [h]; decide

/-- A pattern load its owner refuses. -/
theorem loadPattern_refused {s : State} {f : Frame} {r : Result} (h : passes s 0x13 f = true)
    (hl : (frameParams f).length ≤ 60) (ha : admitsPattern (frameParams f) = true)
    (hr : ownLoadPattern (received s 0x13 f) (frameParams f) = refuse (received s 0x13 f) r) :
    exec (.loadPattern f) s = .next (answered s 0x13 f r []) :=
  congrArg Host.Outcome.next (takeFrame_reply (admits := admitsPattern) h hl ha hr)

/-- Settles O17: the owners' checks in their order, and the pattern's fields one by one. -/
theorem loadsAreRefused : Obligations.LoadsAreRefused := by
  unfold Obligations.LoadsAreRefused
  refine ⟨fun f s h hl => ⟨fun hf => ?_, fun hf hw => ?_⟩,
    fun f s h hl => ⟨fun hs => ?_, fun hs hf => ?_, fun hs hf hr => ?_, fun hs hf c r d hps hr he hd hde hdo => ?_⟩,
    fun f s h hl => ⟨fun hs => ?_, fun hs hf => ?_, fun hs hf hr => ?_⟩,
    fun i es f s h hps hlen hes => ?_, fun f s h hlen => ?_⟩
  · exact congrArg Host.Outcome.next (takeFrame_refused h hl (by decide) (if_pos hf))
  · exact congrArg Host.Outcome.next (takeFrame_refused h hl (by decide)
      (ownLoadWheel_badParam (s := received s 0x10 f) hf (parseWheel_eq_none hl hw)))
  · exact congrArg Host.Outcome.next (takeFrame_refused h hl (by decide) (if_pos hs))
  · exact congrArg Host.Outcome.next (takeFrame_refused h hl (by decide)
      ((if_neg (service_free hs)).trans (if_pos hf)))
  · exact congrArg Host.Outcome.next (takeFrame_refused h hl (by decide)
      (ownLoadCyl_none (s := received s 0x11 f) hs hf (parseCyl_eq_none hl hr)))
  · refine congrArg Host.Outcome.next (takeFrame_refused h hl (by decide) (r := .badParam) ?_)
    refine (ownLoadCyl_some (s := received s 0x11 f) hs hf (by rw [hps]; exact parseCyl_cylBytes hr)).trans ?_
    exact if_pos ((Bool.and_eq_true _ _).mpr ⟨he, outputTaken_eq_true.2 ⟨d, hd, hde, hdo⟩⟩)
  · exact congrArg Host.Outcome.next (takeFrame_refused h hl (by decide) (if_pos hs))
  · exact congrArg Host.Outcome.next (takeFrame_refused h hl (by decide)
      ((if_neg (service_free hs)).trans (if_pos hf)))
  · exact congrArg Host.Outcome.next (takeFrame_refused h hl (by decide)
      (ownLoadProfile_none (s := received s 0x12 f) hs hf (parseProfile_eq_none hl hr)))
  · obtain ⟨ha, h60⟩ := patternBytes_admitted i hlen
    refine ⟨fun hw => loadPattern_refused h (by rwa [hps]) (by rwa [hps]) (if_pos hw), fun hw had =>
      loadPattern_refused h (by rwa [hps]) (by rwa [hps]) ?_⟩
    refine ownLoadPattern_none (s := received s 0x13 f) hw ?_
    rw [hps, parsePattern_patternBytes hlen (List.all_eq_true.1 hes), had]
    rfl
  · obtain ⟨h60, ha⟩ := (admitsAs_pattern (frameParams f)).1 hlen
    dsimp only
    simp only [fieldAt_one, fieldAt_two]
    have hnone := parsePattern_eq_none (ps := frameParams f)
    unfold BadEntry at hnone
    refine ⟨fun hw => loadPattern_refused h h60 ha (if_pos hw), fun hw hbad => loadPattern_refused h h60 ha ?_,
      fun hw hgood => ?_⟩
    · exact ownLoadPattern_none (s := received s 0x13 f) hw (hnone.2 hbad)
    · cases hp : parsePattern (frameParams f) with
      | none => exact absurd (hnone.1 hp) hgood
      | some x =>
        have hown : ownLoadPattern (received s 0x13 f) (frameParams f) =
            took ((received s 0x13 f).setTables (s.tables.setPattern (!s.tables.activePage1) x.1 x.2)) :=
          ownLoadPattern_some (s := received s 0x13 f) hw hp
        exact ⟨_, congrArg Host.Outcome.next (takeFrame_reply (admits := admitsPattern) h h60 ha hown), rfl⟩

/-! ### Reading back -/

/-- A frame answered OK has reached its owner. -/
theorem takeFrame_ok {s t : State} {code : Byte} {f : Frame} {admits : List Byte → Bool} {owner : State → List Byte → Reply}
    (ht : takeFrame s code f admits owner = t) (h : t.link.response.result = .ok) :
    admits (frameParams f) = true ∧ (owner (received s code f) (frameParams f)).result = .ok ∧
      t = respond (owner (received s code f) (frameParams f)).state code .ok
        (owner (received s code f) (frameParams f)).data := by
  subst ht
  unfold takeFrame at h ⊢
  split at h
  · rename_i hc
    rw [if_pos hc]
    dsimp only at h ⊢
    split at h
    · rename_i hk
      rw [if_pos hk]
      unfold dispatchFrame at h ⊢
      split at h
      · cases h
      · rename_i ha
        rw [if_neg ha]
        split at h
        · cases h
        · rename_i hb
          rw [if_neg hb]
          have hr : (owner (received s code f) (frameParams f)).result = .ok := h
          refine ⟨Bool.not_eq_false _ ▸ fun hf => ha (.inr hf), hr, ?_⟩
          rw [← hr]
          rfl
    · cases h
  · cases h

/-- The same for a frame of exactly `n` parameters. -/
theorem takeFrame_exactly_ok {s t : State} {code : Byte} {f : Frame} {n : Nat} {owner : State → List Byte → Reply}
    (ht : takeFrame s code f (exactly n) owner = t) (h : t.link.response.result = .ok) :
    (frameParams f).length = n ∧ (owner (received s code f) (frameParams f)).result = .ok ∧
      t.tables = (owner (received s code f) (frameParams f)).state.tables := by
  obtain ⟨ha, hr, ht⟩ := takeFrame_ok ht h
  exact ⟨beq_iff_eq.1 ha, hr, by rw [ht]; rfl⟩

theorem ownLoadWheel_ok {s : State} {ps : List Byte} (h : (ownLoadWheel s ps).result = .ok) :
    ∃ w, parseWheel ps = some w ∧ (ownLoadWheel s ps).state.tables.wheel = w := by
  unfold ownLoadWheel at h ⊢
  split at h
  · cases h
  · rename_i hf
    split at h
    · cases h
    · rename_i w hw
      refine ⟨w, hw, ?_⟩
      rw [if_neg hf]
      dsimp only
      by_cases hk : s.clock.sync = .stalled
      · exact congrArg (fun u : State => u.tables.wheel) (if_pos hk)
      · exact (reloadClock_keeps (s := s.setTables { s.tables with wheel := w }) hk
          fun hd => hf (by cases (not_not.1 hf).symm.trans hd)).2.2.1

theorem ownLoadCyl_ok {s : State} {ps : List Byte} (h : (ownLoadCyl s ps).result = .ok) :
    ∃ c r, parseCyl ps = some (c, r) ∧ (ownLoadCyl s ps).state.tables.cyl = s.tables.cyl.set c r := by
  unfold ownLoadCyl at h ⊢
  split at h
  · cases h
  · rename_i hs
    split at h
    · cases h
    · rename_i hf
      split at h
      · cases h
      · rename_i c r hp
        split at h
        · cases h
        · rename_i ho
          refine ⟨c, r, hp, ?_⟩
          rw [if_neg hs, if_neg hf, if_neg ho]
          unfold took storeCyl
          dsimp only
          split <;> rfl

theorem ownLoadProfile_ok {s : State} {ps : List Byte} (h : (ownLoadProfile s ps).result = .ok) :
    ∃ i p, parseProfile ps = some (i, p) ∧ (ownLoadProfile s ps).state.tables.profile = s.tables.profile.set i p := by
  unfold ownLoadProfile at h ⊢
  split at h
  · cases h
  · rename_i hs
    split at h
    · cases h
    · rename_i hf
      split at h
      · cases h
      · rename_i i p hp
        refine ⟨i, p, hp, ?_⟩
        rw [if_neg hs, if_neg hf]
        rfl

theorem ownLoadPattern_ok {s : State} {ps : List Byte} (h : (ownLoadPattern s ps).result = .ok) :
    ∃ i es, parsePattern ps = some (i, es) ∧
      (ownLoadPattern s ps).state.tables = s.tables.setPattern (!s.tables.activePage1) i es := by
  unfold ownLoadPattern at h ⊢
  split at h
  · cases h
  · rename_i hw
    split at h
    · cases h
    · rename_i i es hp
      refine ⟨i, es, hp, ?_⟩
      rw [if_neg hw]
      rfl

theorem applyLimits_limits (s : State) (l : Limits) : (applyLimits s l).tables.limits = l := by
  have hrel := (wholeRel_of_bankRel limits_bank (fun _ => True) (fun _ => True)).toOpRel
  have hjudge (u : State) : (judgeOverspeed u).tables.limits = u.tables.limits := by
    unfold judgeOverspeed
    dsimp only
    split <;> rfl
  have hmove (u : State) : (moveGap .bankB (moveGap .bankA u)).tables.limits = u.tables.limits :=
    (moveGap_rel hrel .bankB trivial _).trans (moveGap_rel hrel .bankA trivial _)
  unfold applyLimits
  dsimp only
  split
  · split
    · rfl
    · exact hjudge _
  · rw [hmove]
    split
    · rfl
    · exact hjudge _

/-- R43: a table that is there is read out. -/
theorem readTable_answers {g : Frame} {s : State} (h : passes s 0x16 g = true) {k x y : Byte} (hps : frameParams g = [k, x, y])
    {bs : List Byte} (ht : tableBytes s.tables k.toNat x.toNat y.toNat = some bs) :
    exec (.readTable g) s = .next (answered s 0x16 g .ok bs) := by
  have hown : ownReadTable (received s 0x16 g) (frameParams g) = answer (received s 0x16 g) bs := by
    have ht' : tableBytes (received s 0x16 g).tables (u8 [k, x, y] 0) (u8 [k, x, y] 1) (u8 [k, x, y] 2) = some bs := ht
    unfold ownReadTable
    rw [hps, ht']
  exact congrArg Host.Outcome.next (takeFrame_exactly h (by rw [hps]; rfl) (by decide) hown)

theorem readTable_refused {g : Frame} {s : State} (h : passes s 0x16 g = true) {k x y : Byte} (hps : frameParams g = [k, x, y])
    (ht : tableBytes s.tables k.toNat x.toNat y.toNat = none) :
    exec (.readTable g) s = .next (answered s 0x16 g .badParam []) := by
  have hown : ownReadTable (received s 0x16 g) (frameParams g) = refuse (received s 0x16 g) .badParam := by
    have ht' : tableBytes (received s 0x16 g).tables (u8 [k, x, y] 0) (u8 [k, x, y] 1) (u8 [k, x, y] 2) = none := ht
    unfold ownReadTable
    rw [hps, ht']
  exact congrArg Host.Outcome.next (takeFrame_refused h (by rw [hps]; rfl) (by decide) hown)

/-- R43: the tables READ_TABLE does not have. -/
theorem tableBytes_eq_none (t : TableStore) {k x y : Nat}
    (h : 5 < k ∨ (k = 1 ∧ (x = 0 ∨ 8 < x)) ∨ (k = 2 ∧ 3 < x) ∨ (k = 3 ∧ (15 < x ∨ 1 < y))) : tableBytes t k x y = none := by
  unfold tableBytes
  rcases h with h | ⟨rfl, h⟩ | ⟨rfl, h⟩ | ⟨rfl, h⟩
  · rw [if_neg (by omega), if_neg (by omega), if_neg (by omega), if_neg (by omega), if_neg (by omega), if_neg (by omega)]
  · rw [if_neg (by decide), if_pos rfl, cylOf_eq_none.2 h]
    rfl
  · rw [if_neg (by decide), if_neg (by decide), if_pos rfl, profileOf_eq_none.2 h]
    rfl
  · rw [if_neg (by decide), if_neg (by decide), if_neg (by decide), if_pos rfl]
    rcases h with h | h
    · rw [patternOf_eq_none.2 h]
    · rw [flagOf_eq_none.2 h]
      cases patternOf x <;> rfl

/-- Settles O20: what a load answered OK has stored, and the bytes of what is stored. -/
theorem readTableReturnsTheLoad : Obligations.ReadTableReturnsTheLoad := by
  unfold Obligations.ReadTableReturnsTheLoad
  refine ⟨fun f g s t he hr hg x y hps => ?_, fun f g s t he hr hg y hps => ?_, fun f g s t he hr hg y hps => ?_,
    fun i es f g s t he hr hes hfs h0 h1 hg hps => ?_, fun f g s t he hr hg x y hps => ?_, fun g s hg x y hps => ?_,
    fun g s hg k x y hps hbad => ?_⟩
  · obtain ⟨hl, hok, ht⟩ := takeFrame_exactly_ok (Host.Outcome.next.inj he) hr
    obtain ⟨w, hw, hstored⟩ := ownLoadWheel_ok hok
    have hwheel : t.tables.wheel = w := by rw [ht, hstored]
    refine readTable_answers hg hps ?_
    refine (if_pos rfl).trans ?_
    rw [hwheel, (parseWheel_some hw).2, wheelBytes_of_parse hl hw]
    rfl
  · obtain ⟨hl, hok, ht⟩ := takeFrame_exactly_ok (Host.Outcome.next.inj he) hr
    obtain ⟨c, r, hc, hstored⟩ := ownLoadCyl_ok hok
    have hnum : u8 (frameParams f) 0 = cylNumber c := by
      rw [← cylBytes_of_parse hl hc]
      exact u8_of_byte rfl (by have := c.isLt; unfold cylNumber; omega)
    have hcyl : t.tables.cyl.get c = r := by rw [ht, hstored, cyls_get_set_same]
    refine readTable_answers hg hps ?_
    refine ((if_neg (by decide)).trans (if_pos rfl)).trans ?_
    have hc' : Machine.cylOf ((frameParams f).getD 0 0).toNat = some c := cylOf_eq_some.2 hnum
    rw [hc', Option.map_some, hcyl, cylBytes_of_parse hl hc]
  · obtain ⟨hl, hok, ht⟩ := takeFrame_exactly_ok (Host.Outcome.next.inj he) hr
    obtain ⟨i, p, hp, hstored⟩ := ownLoadProfile_ok hok
    have hnum : u8 (frameParams f) 0 = i.val := by
      rw [← profileBytes_of_parse hl hp]
      exact u8_of_byte rfl (by have := i.isLt; omega)
    have hprofile : t.tables.profile.get i = p := by rw [ht, hstored, profiles_get_set, if_pos rfl]
    refine readTable_answers hg hps ?_
    refine ((if_neg (by decide)).trans ((if_neg (by decide)).trans (if_pos rfl))).trans ?_
    have hi : profileOf ((frameParams f).getD 0 0).toNat = some i := profileOf_eq_some.2 hnum
    rw [hi, Option.map_some, hprofile,
      profileBytes_of_parse hl hp]
  · obtain ⟨-, hok, ht⟩ := takeFrame_ok (Host.Outcome.next.inj he) hr
    obtain ⟨j, es', hp, hstored⟩ := ownLoadPattern_ok hok
    obtain ⟨hlen, hin, had⟩ := patternInRange_iff.1 hes
    rw [hfs, parsePattern_patternBytes hlen hin, if_pos had] at hp
    cases hp
    have htables : t.tables = s.tables.setPattern (!s.tables.activePage1) i es := by rw [ht]; exact hstored
    refine readTable_answers hg hps ?_
    have hi : patternOf (byte i.val).toNat = some i := by
      rw [patternOf_eq_some, byte_toNat]
      have := i.isLt
      omega
    have hp : flagOf (flagByte (!s.tables.activePage1)).toNat = some (!s.tables.activePage1) := by
      rw [flagOf_eq_some, flagByte_toNat]
    refine ((if_neg (by decide)).trans ((if_neg (by decide)).trans ((if_neg (by decide)).trans (if_pos rfl)))).trans ?_
    rw [hi, hp, htables, hfs]
    dsimp only
    rw [pattern_setPattern _ _ _ _ h0 h1, if_pos ⟨rfl, rfl⟩]
  · obtain ⟨hl, hok, ht⟩ := takeFrame_exactly_ok (Host.Outcome.next.inj he) hr
    have hclamped : limitsClamped (frameParams f) = false := by
      unfold ownLoadLimits at hok
      dsimp only at hok
      split at hok
      · cases hok
      · exact Bool.eq_false_iff.2 ‹_›
    have hlimits : t.tables.limits = clampLimits (rawLimits (frameParams f)) := by
      rw [ht]
      exact applyLimits_limits _ _
    refine readTable_answers hg hps ?_
    refine ((if_neg (by decide)).trans ((if_neg (by decide)).trans ((if_neg (by decide)).trans
      ((if_neg (by decide)).trans (if_pos rfl))))).trans ?_
    rw [hlimits, (limitsClamped_eq_false hl).1 hclamped]
  · exact readTable_answers hg hps rfl
  · refine readTable_refused hg hps (tableBytes_eq_none _ ?_)
    rcases hbad with h | ⟨rfl, h⟩ | ⟨rfl, h⟩ | ⟨rfl, h⟩
    · exact .inl h
    · exact .inr (.inl ⟨rfl, h.imp (fun h => by rw [h]; rfl) id⟩)
    · exact .inr (.inr (.inl ⟨rfl, h⟩))
    · exact .inr (.inr (.inr ⟨rfl, h⟩))

end Sys2Proof.Proofs.Loads
end

section
/-! SUPPORT. The edges and timers of the Angle Clock outside the accepted teeth: edges that are none, the search for the gap,
the loss of crank sync, and the stall. -/

namespace Sys2Proof.Proofs.Edges

open Sys2Proof Sys2Proof.Machine Sys2Proof.Laws Sys2Proof.Proofs.Freeze Sys2Proof.Proofs.Frames Sys2Proof.Proofs.Loads
  Sys2Proof.Proofs.Steps Sys2Proof.Proofs.Commands Sys2Proof.Proofs.Clock
  Sys2Proof.Proofs.BankAgreement

/-! ### The filter -/

theorem filtered_of_near {last : Option Nat} {now n : Nat} (h : last = some n) (hn : n ≤ now) (hlt : now < n + 200) :
    filtered last now = true := by
  rw [h]
  exact decide_eq_true (show now - n < 200 by omega)

theorem filtered_of_far {last : Option Nat} {now : Nat} (h : ∀ n, last = some n → n + 200 ≤ now) :
    filtered last now = false := by
  cases last with
  | none => rfl
  | some n =>
    have hlate := h n rfl
    exact decide_eq_false (show ¬now - n < 200 by omega)

theorem crankTransition_loaded {s : State} (h : s.tables.wheel.loaded = true) (tie : TieOrder) :
    crankTransition .rising tie s = risingEdge tie s := by
  unfold crankTransition
  rw [h]
  rfl

theorem risingEdge_noisy (tie : TieOrder) {s : State} (h : filtered s.clock.lastCrank s.timebase = true) :
    risingEdge tie s = (s.setClock { s.clock with lastCrank := some s.timebase }).raise .noise := by
  unfold risingEdge
  exact if_pos h

/-! ### Edges in a sync state that are no teeth -/

/-- R3: the edge's arrival is noted. -/
def edgeNoted (s : State) : State := s.setClock { s.clock with lastCrank := some s.timebase }

/-- R14: an edge that is not absorbed closes the absorb window. -/
def absorbClosed (s : State) : State := s.setClock { s.clock with absorb := false }

/-- A taken edge in a sync state. -/
theorem exec_syncEdge (tie : TieOrder) {s : State} (hc : crankTaken s)
    (hs : s.clock.sync = .crankSync ∨ s.clock.sync = .fullSync) :
    exec (.crankEdge .rising tie) s = .next (syncEdge tie (edgeNoted s)) :=
  congrArg Host.Outcome.next ((crankTransition_loaded hc.1 tie).trans (risingEdge_sync tie (filtered_of_taken hc) hs))

theorem syncEdge_absorbed (tie : TieOrder) {s : State} {n : Nat} (hn : s.clock.lastTooth = some n)
    (ha : s.clock.absorb = true) (hd : s.timebase - n < 3 * s.clock.tpred / 4) :
    syncEdge tie s = s.setClock { s.clock with synth := 0, absorb := false } := by
  unfold syncEdge
  exact if_pos (by simp [AngleClock.absorbs, hn, ha, hd])

theorem syncEdge_judged (tie : TieOrder) {s : State} {n : Nat} (hn : s.clock.lastTooth = some n)
    (ha : ¬(s.clock.absorb = true ∧ s.timebase - n < 3 * s.clock.tpred / 4)) :
    syncEdge tie s = judgedEdge tie (absorbClosed s) := by
  unfold syncEdge
  exact if_neg (by simpa [AngleClock.absorbs, hn] using ha)

theorem judgedEdge_early (tie : TieOrder) {s : State} {n : Nat} (hn : s.clock.lastTooth = some n)
    (h : 2 * (s.timebase - n) < s.clock.tpred) : judgedEdge tie s = s.raise .noise := by
  have hj : s.clock.judge s.tables.wheel (s.timebase - n) = .early := if_pos h
  unfold judgedEdge
  simp only [hn, Option.getD_some, hj]

theorem judgedEdge_lost (tie : TieOrder) {s : State} {n : Nat} (hn : s.clock.lastTooth = some n)
    (h : s.clock.tpred ≤ 2 * (s.timebase - n)) (hg : atGap s)
    (hl : 2 * (s.timebase - n) < (2 * s.tables.wheel.m + 1) * s.clock.tpred) :
    judgedEdge tie s = handOn tie .real false (seekTooth (loseSync s) false) := by
  have hgap : s.tables.wheel.gapAfter s.clock.index = true := by
    simpa [WheelRecord.gapAfter, WheelRecord.lastIndex, atGap] using hg
  have hj : s.clock.judge s.tables.wheel (s.timebase - n) = .lost :=
    (if_neg (Nat.not_lt.2 h)).trans (if_pos ⟨hgap, hl⟩)
  unfold judgedEdge
  simp only [hn, Option.getD_some, hj]

/-- Settles O31: the tests an edge meets, in their order. -/
theorem edgesThatAreNoTeeth : Obligations.EdgesThatAreNoTeeth := by
  unfold Obligations.EdgesThatAreNoTeeth
  intro tie s
  refine ⟨?_, fun hl => ?_, fun hl n hn hlt hle => ?_, fun hc hs n hn => ?_⟩
  · exact congrArg Host.Outcome.next (if_neg (by simp))
  · exact congrArg Host.Outcome.next (if_neg (by simp [hl]))
  · exact congrArg Host.Outcome.next ((crankTransition_loaded hl tie).trans
      (risingEdge_noisy tie (filtered_of_near hn hle hlt)))
  · rw [exec_syncEdge tie hc hs]
    refine ⟨fun ha hd => ?_, fun ha hd => ?_⟩
    · exact congrArg Host.Outcome.next (syncEdge_absorbed tie (s := edgeNoted s) hn ha hd)
    · exact congrArg Host.Outcome.next ((syncEdge_judged tie (s := edgeNoted s) hn ha).trans
        (judgedEdge_early tie (s := absorbClosed (edgeNoted s)) hn hd))

/-! ### Cam edges -/

theorem camTransition_taken {s : State} {tr : Transition} (hl : s.tables.wheel.loaded = true)
    (ht : tr = s.tables.wheel.polarity) : camTransition tr s =
      if filtered s.clock.lastCam s.timebase then
        (s.setClock { s.clock with lastCam := some s.timebase }).raise .noise
      else s.setClock (AngleClock.countCam { s.clock with lastCam := some s.timebase }) := by
  unfold camTransition
  rw [if_pos (by rw [hl, ht]; exact beq_self_eq_true _)]
  rfl

theorem countCam_synced {k : AngleClock} (h : k.sync = .crankSync ∨ k.sync = .fullSync) :
    k.countCam = { k with camCount := min 3 (k.camCount + 1) } := by
  unfold AngleClock.countCam
  rcases h with h | h <;> rw [h]

theorem countCam_unsynced {k : AngleClock} (h : k.sync = .stalled ∨ k.sync = .seeking) : k.countCam = k := by
  unfold AngleClock.countCam
  rcases h with h | h <;> rw [h]

/-- Settles O38: the polarity, the filter, and the count of a sync state. -/
theorem camEdgesAreCounted : Obligations.CamEdgesAreCounted := by
  unfold Obligations.CamEdgesAreCounted
  intro tr s
  refine ⟨fun h => ?_, fun hl ht => ⟨fun n hn hle hlt => ?_, fun hfar => ?_⟩⟩
  · refine congrArg Host.Outcome.next (if_neg ?_)
    rw [Bool.and_eq_true, beq_iff_eq]
    rintro ⟨hl, ht⟩
    exact h.elim (fun h => Bool.false_ne_true (h.symm.trans hl)) fun h => h ht
  · exact congrArg Host.Outcome.next ((camTransition_taken hl ht).trans (if_pos (filtered_of_near hn hle hlt)))
  · have hcount : exec (.camEdge tr) s =
        .next (s.setClock (AngleClock.countCam { s.clock with lastCam := some s.timebase })) :=
      congrArg Host.Outcome.next ((camTransition_taken hl ht).trans
        (if_neg (Bool.eq_false_iff.1 (filtered_of_far hfar))))
    rw [hcount]
    refine ⟨fun h => ?_, fun h => ?_⟩
    · rw [countCam_synced (k := { s.clock with lastCam := some s.timebase }) h]
      rfl
    · rw [countCam_unsynced (k := { s.clock with lastCam := some s.timebase }) h]
      rfl

/-! ### The stall -/

/-- A change of the clock to another synchronisation state takes back no event. -/
theorem changeSync_latched (s : State) (k : AngleClock) : StaysLatched s (changeSync s k) :=
  Fine.changeSync_rel (wholeRel_of_bankRel latched_bank (fun _ => True) (fun _ => True))
    (fun _ _ => .of_eq rfl) (fun _ => trivial) s k

theorem raise_getLsbD (s : State) (e : Event) : (s.raise e).events.latched.getLsbD e.bit = true := by
  cases e <;> simp [State.raise, Event.mask, Event.bit]

/-- Settles O37: the timer's instant, and the clock a stall leaves. -/
theorem stallHoldsTheAngle : Obligations.StallHoldsTheAngle := by
  unfold Obligations.StallHoldsTheAngle
  intro s n hn
  have hx : s.clock.stallFrom.map (fun t => t + Config.stallTicks) = some (n + Config.stallTicks) := by rw [hn]; rfl
  refine ⟨fun hle => ?_, fun hlt => ?_⟩
  · obtain ⟨hclock, hout, -⟩ := changeSync_unsynced (s.raise .stall)
      (k := { (s.clock.cleared .stalled).forgotten with held := s.angleReading, stallFrom := none }) (.inr rfl)
    refine ⟨_, congrArg Host.Outcome.next (whenDue_of_true (f := stallClock) (reached_of_le hx hle)), hclock, ?_,
      changeSync_latched _ _ _ (raise_getLsbD s .stall), fun hs => (hout hs).trans ?_⟩
    · have hs : (stallClock s).clock.sync = .stalled := congrArg AngleClock.sync hclock
      unfold State.angleReading
      rw [hs]
      exact congrArg AngleClock.held hclock
    · exact congrArg (State.setClock _) hclock.symm
  · exact congrArg Host.Outcome.next (whenDue_of_false (f := stallClock) (not_reached_of_lt hx hlt))

/-! ### The search for the gap -/

/-- R18: out of FULL_SYNC a tooth that left no standstill is handed on to nobody. -/
theorem handOn_nobody (tie : TieOrder) (kind : ToothKind) {s : State} (h : s.clock.sync ≠ .fullSync) :
    handOn tie kind false s = s := by
  have hmarker : (toothReport s.tables.wheel s.clock kind false).marker = false := by
    simp only [toothReport, AngleClock.atMarker, beq_eq_false_iff_ne.2 h, Bool.false_and]
  rw [handOn_not_fullSync tie kind h, swapAtMarker, hmarker]
  rfl

/-- R23: out of FULL_SYNC no marker pulse begins. -/
theorem echoed_unmarked {k : AngleClock} (h : k.sync ≠ .fullSync) (now : Nat) :
    k.echoed now = { k with techo := some (now + 200) } := by
  have hmarker : k.atMarker = false := by
    simp only [AngleClock.atMarker, beq_eq_false_iff_ne.2 h, Bool.false_and]
  unfold AngleClock.echoed
  rw [hmarker]
  rfl

/-- R20: what an evaluation of the overspeed flag writes. -/
theorem judgeOverspeed_eq (s : State) : judgeOverspeed s =
    let flag := overspeedAfter s.clock.overspeed s.clock.speed s.tables.limits.maxSpeed
    { s with clock := { s.clock with overspeed := flag }
             events := if flag && !s.clock.overspeed then (s.raise .overspeed).events else s.events } := by
  unfold judgeOverspeed
  dsimp only
  split <;> rfl

/-- R19, R20: what a recomputation of the speed writes. -/
theorem setSpeed_eq (s : State) : setSpeed s =
    let speed := s.clock.speedNow s.tables.wheel
    let flag := overspeedAfter s.clock.overspeed speed s.tables.limits.maxSpeed
    { s with clock := { s.clock with speed := speed, overspeed := flag }
             events := if flag && !s.clock.overspeed then (s.raise .overspeed).events else s.events } :=
  judgeOverspeed_eq _

/-- R19: the speed of a sync state. -/
theorem speedNow_synced (w : WheelRecord) {k : AngleClock} (h : k.sync = .crankSync ∨ k.sync = .fullSync) :
    k.speedNow w = min 8191 (600000000 / (k.t1 * w.n)) := by
  unfold AngleClock.speedNow
  rcases h with h | h <;> rw [h] <;> rfl

/-- R7: an edge that leaves the clock SEEKING. -/
theorem seekTooth_seeking {s : State} {may : Bool} {k : AngleClock}
    (hk : s.clock.sought s.tables.wheel may s.timebase = k) (h : k.sync = .seeking) :
    seekTooth s may = s.setClock (quietClock s { k with techo := some (s.timebase + 200) }) := by
  unfold seekTooth
  rw [hk, echoed_unmarked (by rw [h]; decide)]
  exact setSpeed_unsynced (s := s.setClock { k with techo := some (s.timebase + 200) }) (.inl h)

theorem exec_seeking (tie : TieOrder) {s : State} (hc : crankTaken s) (hs : s.clock.sync = .seeking) :
    exec (.crankEdge .rising tie) s = .next (handOn tie .real false (seekTooth (edgeNoted s) true)) := by
  refine congrArg Host.Outcome.next ((crankTransition_loaded hc.1 tie).trans ?_)
  unfold risingEdge
  rw [filtered_of_taken hc]
  dsimp only
  rw [if_neg Bool.false_ne_true, show (s.setClock { s.clock with lastCrank := some s.timebase }).clock.sync = .seeking from hs]
  rfl

theorem exec_stays_seeking (tie : TieOrder) {s : State} (hc : crankTaken s) (hs : s.clock.sync = .seeking) {k : AngleClock}
    (hk : (edgeNoted s).clock.sought s.tables.wheel true s.timebase = k) (h : k.sync = .seeking) :
    exec (.crankEdge .rising tie) s =
      .next ((edgeNoted s).setClock (quietClock (edgeNoted s) { k with techo := some (s.timebase + 200) })) := by
  rw [exec_seeking tie hc hs, seekTooth_seeking (s := edgeNoted s) hk h]
  refine congrArg Host.Outcome.next (handOn_nobody tie .real ?_)
  intro hf
  cases h.symm.trans hf

theorem gapCandidate_iff {w : WheelRecord} {k : AngleClock} {dt : Nat} :
    k.gapCandidate w dt = true ↔ k.t1 ≠ 0 ∧ (2 * w.m + 1) * k.t1 ≤ 2 * dt := by
  simp [AngleClock.gapCandidate]

/-- R7: an edge after another, in the history and the gap search. -/
theorem sought_next {w : WheelRecord} {k : AngleClock} {n now : Nat} (hn : k.lastTooth = some n) {may c : Bool}
    (hc : (may && k.gapCandidate w (now - n)) = c) :
    k.sought w may now = ({ k.moveHistory (if c then (now - n) / (w.m + 1) else now - n) with
      lastTooth := some now, stallFrom := some now } : AngleClock).searched w c := by
  subst hc
  unfold AngleClock.sought
  rw [hn]

theorem searched_false (w : WheelRecord) (k : AngleClock) :
    k.searched w false = { k with gapSearch := k.gapSearch.map fun n => min 72 (n + 1) } := by
  obtain ⟨⟩ := k
  rename_i g _ _ _ _ _ _ _ _ _ _ _ _
  cases g <;> rfl

theorem searched_first {w : WheelRecord} {k : AngleClock} (h : k.gapSearch ≠ some (w.n - w.m - 1)) :
    k.searched w true = { k with gapSearch := some 0 } := by
  unfold AngleClock.searched
  split
  · rename_i hc _; cases hc
  · rename_i hc _; cases hc
  · rfl
  · rename_i n _ hn
    exact if_neg fun he => h (by rw [hn, he])

theorem searched_confirmed {w : WheelRecord} {k : AngleClock} (h : k.gapSearch = some (w.n - w.m - 1)) :
    k.searched w true = k.confirmed w := by
  unfold AngleClock.searched
  rw [h]
  exact if_pos rfl

/-- R13: the deadline of the interval that begins at tooth index 0, where that is no gap. -/
theorem deadlineFor_first {w : WheelRecord} {k : AngleClock} (hw : 0 < w.n - w.m - 1) (hi : k.index = 0) :
    k.deadlineFor w = k.lastTooth.getD 0 + 3 * k.tpred / 2 := by
  have hgap : w.gapAfter 0 = false := by
    simp only [WheelRecord.gapAfter, WheelRecord.lastIndex, beq_eq_false_iff_ne]
    omega
  unfold AngleClock.deadlineFor
  rw [hi, hgap]
  rfl

/-- R7: the clock a confirmed gap leaves. -/
theorem confirmed_eq {w : WheelRecord} (k : AngleClock) (hw : 0 < w.n - w.m - 1) : k.confirmed w =
    { k with sync := .crankSync, index := 0, rev1 := false, camCount := 0, synth := 0, absorb := false, gapSearch := none
             deadline := some (k.lastTooth.getD 0 + 3 * k.tpred / 2) } := by
  unfold AngleClock.confirmed
  dsimp only
  rw [deadlineFor_first hw rfl]

theorem seekTooth_confirmed {s : State} {k : AngleClock}
    (hk : s.clock.sought s.tables.wheel true s.timebase = k.confirmed s.tables.wheel)
    (hw : 0 < s.tables.wheel.n - s.tables.wheel.m - 1) : seekTooth s true =
      let speed := min 8191 (600000000 / (k.t1 * s.tables.wheel.n))
      let flag := overspeedAfter k.overspeed speed s.tables.limits.maxSpeed
      { s with
        clock := { k with
          sync := .crankSync, index := 0, rev1 := false, camCount := 0, synth := 0, absorb := false, gapSearch := none
          deadline := some (k.lastTooth.getD 0 + 3 * k.tpred / 2), techo := some (s.timebase + 200), speed := speed
          overspeed := flag }
        events := if flag && !k.overspeed then (s.raise .overspeed).events else s.events } := by
  unfold seekTooth
  rw [hk, confirmed_eq k hw, echoed_unmarked (by simp), setSpeed_eq, speedNow_synced _ (.inl rfl)]
  rfl

/-- Settles O33: the edge's clock in its four cases, each a branch of the search. -/
theorem seekingLooksForTheGap : Obligations.SeekingLooksForTheGap := by
  unfold Obligations.SeekingLooksForTheGap
  intro tie s n hc hs
  dsimp only
  have hcand : (true && (edgeNoted s).clock.gapCandidate s.tables.wheel (s.timebase - n)) = true ↔
      s.clock.t1 ≠ 0 ∧ (2 * s.tables.wheel.m + 1) * s.clock.t1 ≤ 2 * (s.timebase - n) := gapCandidate_iff
  refine ⟨fun hn => ?_, fun hn hno => ?_, fun hn hyes hg => ?_, fun hn hyes hg hw => ?_⟩
  · have hk : (edgeNoted s).clock.sought s.tables.wheel true s.timebase =
        { (edgeNoted s).clock with lastTooth := some s.timebase, stallFrom := some s.timebase } := by
      unfold AngleClock.sought
      rw [show (edgeNoted s).clock.lastTooth = none from hn]
    exact exec_stays_seeking tie hc hs hk hs
  · have hk := (sought_next (k := (edgeNoted s).clock) (now := s.timebase) hn
      (Bool.eq_false_iff.2 fun h => hno (hcand.1 h))).trans (searched_false _ _)
    exact exec_stays_seeking tie hc hs hk hs
  · have hk := (sought_next (k := (edgeNoted s).clock) (now := s.timebase) hn (hcand.2 hyes)).trans (searched_first hg)
    exact exec_stays_seeking tie hc hs hk hs
  · have hk := (sought_next (k := (edgeNoted s).clock) (now := s.timebase) hn (hcand.2 hyes)).trans (searched_confirmed hg)
    rw [exec_seeking tie hc hs, seekTooth_confirmed (s := edgeNoted s) hk hw, handOn_nobody tie .real (by simp)]
    rfl

/-! ### The loss of crank sync -/

/-- R8: the clock of an edge that has lost crank sync: the search begins with it as an ordinary tooth. -/
def lostClock (s : State) (n : Nat) : AngleClock :=
  { (s.clock.cleared .seeking).moveHistory (s.timebase - n) with
    lastTooth := some s.timebase, stallFrom := some s.timebase, techo := some (s.timebase + 200), speed := 0
    overspeed := calm s }

theorem lostEdge {s : State} {n : Nat} (hn : s.clock.lastTooth = some n) :
    (seekTooth (loseSync s) false).clock = lostClock s n ∧
    (s.clock.sync ≠ .fullSync → seekTooth (loseSync s) false = s.setClock (lostClock s n)) := by
  obtain ⟨hclock, hout, -⟩ := changeSync_unsynced s (k := s.clock.cleared .seeking) (.inl rfl)
  obtain ⟨-, -, -, htime⟩ := changeSync_clock s (s.clock.cleared .seeking)
  have hlim : (loseSync s).tables.limits = s.tables.limits :=
    Fine.changeSync_rel (wholeRel_of_bankRel limits_bank (fun _ => True) (fun _ => True)) (fun _ _ => rfl)
      (fun _ => trivial) s _
  have hlost : loseSync s = changeSync s (s.clock.cleared .seeking) := rfl
  rw [← hlost] at hclock hout htime
  generalize loseSync s = u at hclock hout htime hlim ⊢
  have hk := (sought_next (w := u.tables.wheel) (k := u.clock) (now := u.timebase) (may := false)
    (by rw [hclock]; exact hn) rfl).trans (searched_false _ _)
  have hseek := seekTooth_seeking hk (by rw [hclock]; rfl)
  have hquiet : (seekTooth u false).clock = lostClock s n := by
    rw [hseek]
    have hcalm : (if 100 < s.tables.limits.maxSpeed then false else calm s) = calm s := by
      unfold calm
      split <;> rfl
    unfold lostClock
    rw [← hcalm]
    simp only [quietClock, calm, State.setClock, hclock, htime, hlim]
    rfl
  refine ⟨hquiet, fun hs => ?_⟩
  rw [← hquiet, hseek, hout hs]
  rfl

/-- Settles O36: both losses change to SEEKING with the history kept; the early edge then enters the search. -/
theorem crankSyncIsLost : Obligations.CrankSyncIsLost := by
  unfold Obligations.CrankSyncIsLost
  refine ⟨fun tie s d hs hd hle hsyn => ?_, fun tie s n hc hs hn ha h1 hg hl => ?_, fun tie s d hd hlt => ?_⟩
  · obtain ⟨hclock, hout, -⟩ := changeSync_unsynced s (k := s.clock.cleared .seeking) (.inl rfl)
    have hexec : exec (.deadlineExpiry tie) s = .next (loseSync s) :=
      congrArg Host.Outcome.next ((whenDue_of_true (f := expireDeadline tie) (reached_of_le hd hle)).trans
        (if_neg (Nat.not_lt.2 hsyn)))
    refine ⟨_, hexec, hclock, fun hcs => (hout (by rw [hcs]; decide)).trans ?_⟩
    exact congrArg (State.setClock s) hclock.symm
  · rw [exec_syncEdge tie hc hs]
    obtain ⟨hclock, hout⟩ := lostEdge (s := absorbClosed (edgeNoted s)) hn
    have hedge : syncEdge tie (edgeNoted s) =
        handOn tie .real false (seekTooth (loseSync (absorbClosed (edgeNoted s))) false) :=
      (syncEdge_judged tie (s := edgeNoted s) hn ha).trans
        (judgedEdge_lost tie (s := absorbClosed (edgeNoted s)) hn h1 hg hl)
    have hnobody : syncEdge tie (edgeNoted s) = seekTooth (loseSync (absorbClosed (edgeNoted s))) false :=
      hedge.trans (handOn_nobody tie .real (by rw [hclock]; change Sync.seeking ≠ .fullSync; decide))
    refine ⟨_, rfl, ?_, fun hcs => ?_⟩
    · rw [hnobody, hclock]
      rfl
    · rw [hnobody, hclock]
      exact hout (show s.clock.sync ≠ .fullSync by rw [hcs]; decide)
  · exact congrArg Host.Outcome.next (whenDue_of_false (f := expireDeadline tie) (not_reached_of_lt hd hlt))

end Sys2Proof.Proofs.Edges
end

section
/-! SUPPORT. An accepted tooth at the clock: its position, history and deadline, the revolution check, and the loss of
FULL_SYNC. -/

namespace Sys2Proof.Proofs.Teeth

open Sys2Proof Sys2Proof.Machine Sys2Proof.Laws Sys2Proof.Proofs.Freeze Sys2Proof.Proofs.Frames Sys2Proof.Proofs.Loads
  Sys2Proof.Proofs.Steps Sys2Proof.Proofs.Commands Sys2Proof.Proofs.Clock Sys2Proof.Proofs.BankAgreement
  Sys2Proof.Proofs.Edges

/-! ### The clock of a tooth -/

/-- R9: the index of the next tooth. -/
def nextIndex (w : WheelRecord) (k : AngleClock) : Nat := if k.index = w.n - w.m - 1 then 0 else k.index + 1

/-- R9: the revolution of the next tooth. -/
def nextRev (w : WheelRecord) (k : AngleClock) : Bool :=
  if k.index = w.n - w.m - 1 then k.sync == .fullSync && !k.rev1 else k.rev1

theorem advance_fields (w : WheelRecord) (k : AngleClock) (t t1 : Nat) : k.advance w t t1 =
    { k with lastTooth := some t, t1 := t1, t2 := k.t1, tpred := predict t1 k.t1, index := nextIndex w k
             rev1 := nextRev w k } := by
  unfold AngleClock.advance AngleClock.moveHistory nextIndex nextRev
  dsimp only
  by_cases h : k.index = w.n - w.m - 1
  · rw [if_pos (by simpa [WheelRecord.gapAfter, WheelRecord.lastIndex] using h), if_pos h, if_pos h]
  · rw [if_neg (by simpa [WheelRecord.gapAfter, WheelRecord.lastIndex] using h), if_neg h, if_neg h]

/-- R13: the deadline of the interval a tooth begins. -/
def deadlineAfter (w : WheelRecord) (k : AngleClock) : Nat :=
  k.lastTooth.getD 0 + (if k.index = w.n - w.m - 1 then (2 * w.m + 3) * k.tpred / 2 else 3 * k.tpred / 2)

theorem deadlineFor_eq (w : WheelRecord) (k : AngleClock) : k.deadlineFor w = deadlineAfter w k := by
  simp only [AngleClock.deadlineFor, deadlineAfter, WheelRecord.gapAfter, WheelRecord.lastIndex, beq_iff_eq]

/-- R9 to R14: the clock after a tooth whose revolution check keeps the state. -/
theorem settled_keep {w : WheelRecord} {k : AngleClock} (hv : k.toothVerdict = .keep) (syn : Bool) (now : Nat) :
    k.settled w syn now = { k with
      camCount := if k.index = 0 then 0 else k.camCount, synth := if syn then k.synth + 1 else 0, absorb := syn
      stallFrom := if syn then k.stallFrom else some now, deadline := some (deadlineAfter w k) } := by
  unfold AngleClock.settled
  dsimp only
  rw [hv, deadlineFor_eq]
  split <;> cases syn <;> rfl

/-- R11, R12, R14: the clock after a tooth of index 0 whose revolution check changes the state. -/
theorem settled_change {w : WheelRecord} {k : AngleClock} {v : CamVerdict} (hi : k.index = 0) (hv : k.toothVerdict = v)
    (hk : v ≠ .keep) (syn : Bool) (now : Nat) : k.settled w syn now = { k with
      sync := if v = .up then .fullSync else .crankSync, rev1 := false, camCount := 0
      synth := if syn then k.synth + 1 else 0, absorb := false
      stallFrom := if syn then k.stallFrom else some now, deadline := some (deadlineAfter w k) } := by
  unfold AngleClock.settled
  dsimp only
  rw [hv, if_pos hi, deadlineFor_eq]
  cases v with
  | keep => exact absurd rfl hk
  | up => cases syn <;> rfl
  | fault => cases syn <;> rfl

/-- R9: the clock a tooth brings, its position and history moved on. -/
def movedClock (synthetic : Bool) (s : State) : AngleClock :=
  (metClock synthetic s).advance s.tables.wheel (toothTime synthetic s) (toothInterval synthetic s)

/-- R9, R22, R23: the clock of a tooth, with its revolution check and its pulses. -/
def toothClock (synthetic : Bool) (s : State) : AngleClock :=
  ((movedClock synthetic s).settled s.tables.wheel synthetic s.timebase).echoed s.timebase

theorem toothTaken_eq (synthetic : Bool) (s : State) : toothTaken synthetic s =
    setSpeed (signalVerdict (movedClock synthetic s).toothVerdict (s.setClock (toothClock synthetic s))) := rfl

theorem signalVerdict_rel {R : State → State → Prop} (h : BankRel R) (v : CamVerdict) (s : State) :
    R s (signalVerdict v s) := by
  cases v with
  | keep => exact h.refl s
  | up => exact h.event s _
  | fault => exact h.trans (h.event s _) (Laws.departFullSync_rel h _)

theorem wheel_bank : BankRel fun s t => t.tables.wheel = s.tables.wheel where
  refl _ := rfl
  trans h1 h2 := h2.trans h1
  sched _ _ _ := rfl
  drive _ _ _ := rfl
  level _ _ _ := rfl
  sup _ _ _ := rfl
  event _ _ := rfl
  safe s := (takePendingSwap_steady (s.setFiring .safe)).wheel
  swap s := (takePendingSwap_steady s).wheel
  trace _ _ := rfl
  service _ := rfl

/-- R19: the speed at a tooth. -/
def toothSpeed (synthetic : Bool) (s : State) : Nat := min 8191 (600000000 / (toothInterval synthetic s * s.tables.wheel.n))

/-- R20: the overspeed flag at a tooth. -/
def toothFlag (synthetic : Bool) (s : State) : Bool :=
  overspeedAfter s.clock.overspeed (toothSpeed synthetic s) s.tables.limits.maxSpeed

theorem movedClock_fields (synthetic : Bool) (s : State) : movedClock synthetic s =
    { metClock synthetic s with
      lastTooth := some (toothTime synthetic s), t1 := toothInterval synthetic s, t2 := s.clock.t1
      tpred := predict (toothInterval synthetic s) s.clock.t1, index := nextIndex s.tables.wheel s.clock
      rev1 := nextRev s.tables.wheel s.clock } := by
  unfold movedClock
  rw [advance_fields]
  cases synthetic <;> rfl

/-- R9 to R23: what a tooth leaves of the clock, and how it is told. -/
theorem toothTaken_clock {synthetic : Bool} {s : State} {k : AngleClock} (hk : toothClock synthetic s = k)
    (hs : k.sync = .crankSync ∨ k.sync = .fullSync) (ht : k.t1 = toothInterval synthetic s)
    (ho : k.overspeed = s.clock.overspeed) :
    (toothTaken synthetic s).clock = { k with speed := toothSpeed synthetic s, overspeed := toothFlag synthetic s } ∧
    (toothTaken synthetic s).events =
      if toothFlag synthetic s && !s.clock.overspeed then
        ((signalVerdict (movedClock synthetic s).toothVerdict (s.setClock k)).raise .overspeed).events
      else (signalVerdict (movedClock synthetic s).toothVerdict (s.setClock k)).events := by
  rw [toothTaken_eq, setSpeed_eq, hk]
  have hc := signalVerdict_rel clock_bank (movedClock synthetic s).toothVerdict (s.setClock k)
  have hl := signalVerdict_rel limits_bank (movedClock synthetic s).toothVerdict (s.setClock k)
  have hw := signalVerdict_rel wheel_bank (movedClock synthetic s).toothVerdict (s.setClock k)
  generalize signalVerdict (movedClock synthetic s).toothVerdict (s.setClock k) = u at hc hl hw ⊢
  have hspeed : u.clock.speedNow u.tables.wheel = toothSpeed synthetic s := by
    rw [hc, hw]
    refine (speedNow_synced _ hs).trans ?_
    rw [ht]
    rfl
  dsimp only
  rw [hspeed, hc, hl]
  have hflag : overspeedAfter k.overspeed (toothSpeed synthetic s) s.tables.limits.maxSpeed = toothFlag synthetic s := by
    rw [ho]
    rfl
  refine ⟨?_, ?_⟩
  · exact congrArg (fun b => { k with speed := toothSpeed synthetic s, overspeed := b }) hflag
  · show (if overspeedAfter k.overspeed (toothSpeed synthetic s) s.tables.limits.maxSpeed && !k.overspeed then _ else _) = _
    rw [hflag, ho]

/-! ### The cam count -/

theorem metClock_fields (synthetic : Bool) (s : State) : metClock synthetic s =
    { s.clock with lastCrank := if synthetic then s.clock.lastCrank else some s.timebase
                   absorb := if synthetic then s.clock.absorb else false } := by
  cases synthetic <;> rfl

/-- R11, R12: the clock of a tooth that ends a revolution and changes the state. -/
theorem toothClock_changed {synthetic : Bool} {s : State} (hg : atGap s) (hw : 0 < s.tables.wheel.n - s.tables.wheel.m - 1)
    {v : CamVerdict} (hv : (movedClock synthetic s).toothVerdict = v) (hk : v ≠ .keep) :
    toothClock synthetic s = { s.clock with
      sync := if v = .up then .fullSync else .crankSync, index := 0, rev1 := false, camCount := 0, absorb := false
      synth := if synthetic then s.clock.synth + 1 else 0
      lastCrank := if synthetic then s.clock.lastCrank else some s.timebase
      stallFrom := if synthetic then s.clock.stallFrom else some s.timebase
      lastTooth := some (toothTime synthetic s), t1 := toothInterval synthetic s, t2 := s.clock.t1
      tpred := predict (toothInterval synthetic s) s.clock.t1
      deadline := some (toothTime synthetic s + 3 * predict (toothInterval synthetic s) s.clock.t1 / 2)
      techo := some (s.timebase + 200), cmark := if v = .up then some (s.timebase + 200) else s.clock.cmark } := by
  have hi : (movedClock synthetic s).index = 0 := by
    rw [movedClock_fields]
    exact if_pos hg
  have hd : deadlineAfter s.tables.wheel (movedClock synthetic s) =
      toothTime synthetic s + 3 * predict (toothInterval synthetic s) s.clock.t1 / 2 := by
    unfold deadlineAfter
    rw [hi, if_neg (by omega), movedClock_fields]
    rfl
  unfold toothClock
  rw [settled_change hi hv hk, hd, movedClock_fields, metClock_fields]
  rw [movedClock_fields] at hi
  cases v with
  | keep => exact absurd rfl hk
  | up =>
    simp only [AngleClock.echoed, AngleClock.atMarker, show nextIndex s.tables.wheel s.clock = 0 from hi]
    rfl
  | fault =>
    rw [echoed_unmarked (by simp)]
    simp only [show nextIndex s.tables.wheel s.clock = 0 from hi]
    rfl

theorem movedClock_verdict {synthetic : Bool} {s : State} (hg : atGap s) : (movedClock synthetic s).toothVerdict =
    AngleClock.camVerdict { s.clock with rev1 := s.clock.sync == .fullSync && !s.clock.rev1 } := by
  have hi : nextIndex s.tables.wheel s.clock = 0 := if_pos hg
  have hr : nextRev s.tables.wheel s.clock = (s.clock.sync == .fullSync && !s.clock.rev1) := if_pos hg
  unfold AngleClock.toothVerdict
  rw [movedClock_fields, metClock_fields, hi, hr]
  rfl

theorem verdict_up {synthetic : Bool} {s : State} (hg : atGap s) (hs : s.clock.sync = .crankSync) (hc : s.clock.camCount = 1) :
    (movedClock synthetic s).toothVerdict = .up := by
  rw [movedClock_verdict hg, AngleClock.camVerdict]
  simp only [hs, hc]
  rfl

theorem verdict_fault {synthetic : Bool} {s : State} (hg : atGap s) (hs : s.clock.sync = .fullSync)
    (hc : s.clock.camCount ≠ if s.clock.rev1 then 1 else 0) : (movedClock synthetic s).toothVerdict = .fault := by
  rw [movedClock_verdict hg, AngleClock.camVerdict]
  simp only [hs]
  refine if_neg ?_
  cases hr : s.clock.rev1 <;> simpa [hr] using hc

theorem handOn_latched (tie : TieOrder) (kind : ToothKind) (left : Bool) (s : State) :
    StaysLatched s (handOn tie kind left s) :=
  Laws.handOn_rel latched_bank (fun _ _ _ => .of_eq rfl) tie kind left s

theorem departFullSync_latched (s : State) : StaysLatched s (departFullSync s) := Laws.departFullSync_rel latched_bank s

/-- R12: every departure from FULL_SYNC raises SYNC_DOWN. -/
theorem departFullSync_syncDown (s : State) :
    (departFullSync s).events.latched.getLsbD Event.syncDown.bit = true := by
  unfold departFullSync
  dsimp only
  exact takePendingSwap_latched _ _ (Laws.cancelBank_rel latched_bank _ _ _ _ (Laws.cancelBank_rel latched_bank _ _ _ _
    (raise_getLsbD s .syncDown)))

/-- A tooth that changes the state: its clock, and what it latches. -/
theorem toothTaken_changed {synthetic : Bool} {s : State} (hg : atGap s) (hw : 0 < s.tables.wheel.n - s.tables.wheel.m - 1)
    {v : CamVerdict} (hv : (movedClock synthetic s).toothVerdict = v) (hk : v ≠ .keep) :
    (toothTaken synthetic s).clock =
      { toothClock synthetic s with speed := toothSpeed synthetic s, overspeed := toothFlag synthetic s } ∧
    (toothFlag synthetic s = true → s.clock.overspeed = false →
      (toothTaken synthetic s).events.latched.getLsbD Event.overspeed.bit = true) ∧
    StaysLatched (signalVerdict v (s.setClock (toothClock synthetic s))) (toothTaken synthetic s) := by
  have hclock := toothClock_changed hg hw hv hk
  have hsync : (toothClock synthetic s).sync = .crankSync ∨ (toothClock synthetic s).sync = .fullSync := by
    rw [hclock]
    dsimp only
    split
    · exact .inr rfl
    · exact .inl rfl
  obtain ⟨hc, he⟩ := toothTaken_clock (synthetic := synthetic) (s := s) rfl hsync (by rw [hclock]) (by rw [hclock])
  refine ⟨hc, fun hf hn => ?_, fun b hb => ?_⟩
  · rw [he, hf, hn]
    exact raise_getLsbD _ .overspeed
  · rw [he, hv]
    split
    · exact raise_latched _ _ b hb
    · exact hb

/-- Settles O35: the verdict at index 0, the clock it leaves, and the events it raises. -/
theorem camCountDecides : Obligations.CamCountDecides := by
  unfold Obligations.CamCountDecides
  intro synthetic tie s hready hg hw
  dsimp only
  refine ⟨fun hs hc => ?_, fun hs hc => ?_⟩
  · have hv := verdict_up (synthetic := synthetic) hg hs hc
    obtain ⟨hclock, hover, hlatched⟩ := toothTaken_changed hg hw hv (by decide)
    rw [toothClock_changed hg hw hv (by decide)] at hclock
    have hout : (handOn tie (toothKind synthetic) false (toothTaken synthetic s)).clock = _ :=
      (handOn_clock _ _ _ _).trans hclock
    refine ⟨_, exec_tooth synthetic tie hready, hout, fun hf hn => handOn_latched _ _ _ _ _ (hover hf hn),
      handOn_latched _ _ _ _ _ (hlatched _ (raise_getLsbD _ .syncUp)), ?_⟩
    exact congrArg (fun k : AngleClock => k.cmark.isSome) hout
  · have hv := verdict_fault (synthetic := synthetic) hg hs hc
    obtain ⟨hclock, hover, hlatched⟩ := toothTaken_changed hg hw hv (by decide)
    rw [toothClock_changed hg hw hv (by decide)] at hclock
    exact ⟨_, exec_tooth synthetic tie hready, (handOn_clock _ _ _ _).trans hclock,
      fun hf hn => handOn_latched _ _ _ _ _ (hover hf hn),
      handOn_latched _ _ _ _ _ (hlatched _ (departFullSync_latched _ _ (raise_getLsbD _ .camFault))),
      handOn_latched _ _ _ _ _ (hlatched _ (departFullSync_syncDown _))⟩

end Sys2Proof.Proofs.Teeth
end

section
/-! SUPPORT. What empties both banks: STOP and the silence of the link, and every departure from FULL_SYNC. -/

namespace Sys2Proof.Proofs.Emptied

open Sys2Proof Sys2Proof.Machine Sys2Proof.Laws Sys2Proof.Laws.Fine Sys2Proof.Proofs.Freeze Sys2Proof.Proofs.Frames
  Sys2Proof.Proofs.Steps Sys2Proof.Proofs.Commands Sys2Proof.Proofs.Plain Sys2Proof.Proofs.Removals
  Sys2Proof.Proofs.Cancelling Sys2Proof.Proofs.Edges Sys2Proof.Proofs.Teeth Sys2Proof.Proofs.FiringState
  Sys2Proof.Proofs.PendingSwap

/-! ### Where the banks are the same -/

/-- What a cancellation of the banks reads and writes is the same. -/
structure SameBanks (s t : State) : Prop where
  sched    : t.sched = s.sched
  drive    : t.drive = s.drive
  level    : t.level = s.level
  sup      : t.sup = s.sup
  service  : t.service = s.service
  timebase : t.timebase = s.timebase
  limits   : t.tables.limits = s.tables.limits

theorem SameBanks.schedOf {s t : State} (h : SameBanks s t) (k : Bank) : t.schedOf k = s.schedOf k := by
  unfold State.schedOf
  rw [h.sched]

theorem SameBanks.counted {s t : State} (h : SameBanks s t) (p : Option Pulse) :
    SameBanks (pulseCounted s p) (pulseCounted t p) := by
  obtain ⟨h1, h2, h3, h4, h5, h6, h7⟩ := h
  cases p with
  | none => exact ⟨h1, h2, h3, h4, h5, h6, h7⟩
  | some p =>
    refine ⟨h1, h2, h3, ?_, h5, h6, h7⟩
    simp only [pulseCounted, endCounted, State.supOf, h4]

theorem banksCancelled_congr {s s' t t' : State} {o : ShotOutcome} (hs : SameBanks s' s) (ht : SameBanks t t')
    (h : banksCancelled s t o) : banksCancelled s' t' o := by
  obtain ⟨hbanks, htold⟩ := h
  have hq := fun k => hs.schedOf k
  refine ⟨fun k => ?_, ?_⟩
  · have hb := hbanks k
    unfold cancelledSched cancelledStage recuperated at hb ⊢
    rw [hq k, hs.timebase, hs.limits] at hb
    simp only [State.driveOf, State.levelOf, hs.drive, hs.level] at hb ⊢
    rw [ht.schedOf, ht.drive, ht.level]
    exact hb
  · have hout : ∀ k, bankOutcomes s k o = bankOutcomes s' k o := fun k => by
      unfold bankOutcomes
      rw [hq, pulseOutcome_congr hs.timebase]
    rw [hout, hout, hq, hq] at htold
    have hc := (hs.counted (s'.schedOf .bankA).active).counted (s'.schedOf .bankB).active
    exact outcomesTold_congr htold hc.sup.symm hc.service.symm ht.sup ht.service

/-! ### STOP and the silence of the link -/

theorem goSafe_eq (s : State) : goSafe s = { s with
    firing := .safe, link := { s.link with silence := none }
    tables := if s.tables.swapPending then
        { s.tables with activePage1 := !s.tables.activePage1, swapPending := false } else s.tables } := by
  unfold goSafe State.takePendingSwap
  dsimp only
  cases h : s.tables.swapPending <;> simp [State.setFiring, State.setTables, State.setLink, h, TableStore.swapPages]

/-- R49: what stopping changes beside the banks. -/
theorem stopFiring_eq (s : State) : stopFiring s = { s with
    firing := .safe, sched := (stopFiring s).sched, drive := (stopFiring s).drive, level := (stopFiring s).level
    sup := (stopFiring s).sup, service := (stopFiring s).service, link := { s.link with silence := none }
    tables := if s.tables.swapPending then
        { s.tables with activePage1 := !s.tables.activePage1, swapPending := false } else s.tables } := by
  have hb := stopFiring_cancelled s
  have hchange := hb.change (by rw [goSafe_firing]; exact Firing.noConfusion)
  have hevents := hb.events
  generalize stopFiring s = t at hchange hevents ⊢
  unfold BankChange withBanks at hchange
  rw [goSafe_eq] at hchange hevents
  rw [hevents] at hchange
  exact hchange

/-- R49, R107: the banks after stopping, from any state with the same banks. -/
theorem stopFiring_banks {s s₀ : State} (h : SameBanks s s₀) :
    (∀ k, ((stopFiring s₀).schedOf k).queue = [] ∧ ((stopFiring s₀).schedOf k).active = none ∧
      ((stopFiring s₀).schedOf k).tracks = [] ∧
      ((stopFiring s₀).schedOf k).placed = (s.schedOf k).placed ∧
      ((stopFiring s₀).schedOf k).started = (s.schedOf k).started ∧
      ((stopFiring s₀).schedOf k).shed = (s.schedOf k).shed ∧
      ((stopFiring s₀).schedOf k).cancelled =
        (s.schedOf k).cancelled + BitVec.ofNat 32 (s.schedOf k).queue.length) ∧
    ((∀ k, ((s.schedOf k).queue.map Shot.tag).Nodup) → banksCancelled s (stopFiring s₀) .cancelledStop) := by
  have hb := stopFiring_cancelled s₀
  have hsafe : SameBanks s₀ (goSafe s₀) :=
    ⟨goSafe_sched _, goSafe_drive _, goSafe_level _, by rw [goSafe_eq], by rw [goSafe_eq], by rw [goSafe_eq], goSafe_limits _⟩
  refine ⟨fun k => ?_, fun hn => ?_⟩
  · rw [(hb.banks k).1]
    unfold cancelledSched
    rw [hsafe.schedOf, h.schedOf]
    exact ⟨rfl, rfl, rfl, rfl, rfl, rfl, rfl⟩
  · have hn' : ∀ k, (((goSafe s₀).schedOf k).queue.map Shot.tag).Nodup := fun k => by
      rw [hsafe.schedOf, h.schedOf]
      exact hn k
    have hs : SameBanks s (goSafe s₀) :=
      ⟨hsafe.sched.trans h.sched, hsafe.drive.trans h.drive, hsafe.level.trans h.level, hsafe.sup.trans h.sup,
        hsafe.service.trans h.service, hsafe.timebase.trans h.timebase, hsafe.limits.trans h.limits⟩
    exact banksCancelled_congr hs ⟨rfl, rfl, rfl, rfl, rfl, rfl, rfl⟩ (hb.banksCancelled hn')

/-- Settles O25: both ways stop the firing from a state with the same banks. -/
theorem stopEmptiesTheBanks : Obligations.StopEmptiesTheBanks := by
  unfold Obligations.StopEmptiesTheBanks
  rintro i s s₀ (⟨f, rfl, hpass, hps, rfl⟩ | ⟨rfl, rfl, n, hn, hle⟩)
  · obtain ⟨hempty, hcancelled⟩ := stopFiring_banks (s := s) (s₀ := received s 0x23 f) ⟨rfl, rfl, rfl, rfl, rfl, rfl, rfl⟩
    have heq := stopFiring_eq (received s 0x23 f)
    have hown : ownStop (received s 0x23 f) (frameParams f) = took (stopFiring (received s 0x23 f)) := rfl
    generalize stopFiring (received s 0x23 f) = v at hempty hcancelled heq hown
    refine ⟨_, congrArg Host.Outcome.next (takeFrame_exactly hpass (length_of_empty hps) (by decide) hown), ?_, hempty,
      fun hn => banksCancelled_congr ⟨rfl, rfl, rfl, rfl, rfl, rfl, rfl⟩ ⟨rfl, rfl, rfl, rfl, rfl, rfl, rfl⟩ (hcancelled hn)⟩
    unfold took
    dsimp only
    conv_lhs => rw [heq]
    rfl
  · obtain ⟨hempty, hcancelled⟩ := stopFiring_banks (s := s) (s₀ := s.raise .linkSilence) ⟨rfl, rfl, rfl, rfl, rfl, rfl, rfl⟩
    have hx : s.link.silence.map (fun t => t + Config.msTicks * s.tables.limits.linkSilence) =
        some (n + Config.msTicks * s.tables.limits.linkSilence) := by rw [hn]; rfl
    exact ⟨_, congrArg Host.Outcome.next (whenDue_of_true (f := expireSilence) (reached_of_le hx hle)),
      stopFiring_eq (s.raise .linkSilence), hempty, hcancelled⟩

/-! ### Departures from FULL_SYNC -/

/-- A change beside the banks that takes back no event and no swap. -/
structure Aside (s t : State) : Prop extends SameBanks s t where
  pending : t.tables.swapPending = s.tables.swapPending
  latched : StaysLatched s t

theorem Aside.refl (s : State) : Aside s s := ⟨⟨rfl, rfl, rfl, rfl, rfl, rfl, rfl⟩, rfl, fun _ => id⟩

theorem Aside.trans {s t u : State} (h1 : Aside s t) (h2 : Aside t u) : Aside s u where
  sched := h2.sched.trans h1.sched
  drive := h2.drive.trans h1.drive
  level := h2.level.trans h1.level
  sup := h2.sup.trans h1.sup
  service := h2.service.trans h1.service
  timebase := h2.timebase.trans h1.timebase
  limits := h2.limits.trans h1.limits
  pending := h2.pending.trans h1.pending
  latched := h1.latched.trans h2.latched

theorem Aside.setClock (s : State) (k : AngleClock) : Aside s (s.setClock k) :=
  ⟨⟨rfl, rfl, rfl, rfl, rfl, rfl, rfl⟩, rfl, fun _ => id⟩

theorem Aside.raise (s : State) (e : Event) : Aside s (s.raise e) :=
  ⟨⟨rfl, rfl, rfl, rfl, rfl, rfl, rfl⟩, rfl, raise_latched s e⟩

theorem Aside.setSpeed (s : State) : Aside s (setSpeed s) := by
  rw [setSpeed_eq]
  refine ⟨⟨rfl, rfl, rfl, rfl, rfl, rfl, rfl⟩, rfl, ?_⟩
  dsimp only
  split
  · exact raise_latched s .overspeed
  · exact fun _ => id

theorem Aside.seekTooth (s : State) (may : Bool) : Aside s (seekTooth s may) := (Aside.setClock s _).trans (Aside.setSpeed _)

/-- R12, R39, R107: FULL_SYNC has been left. -/
structure Departed (s t : State) : Prop where
  empty     : ∀ k, (t.schedOf k).queue = [] ∧ (t.schedOf k).active = none ∧ (t.schedOf k).tracks = []
  taken     : t.tables.swapPending = false
  told      : t.events.latched.getLsbD Event.syncDown.bit = true
  cancelled : (∀ k, ((s.schedOf k).queue.map Shot.tag).Nodup) → banksCancelled s t .cancelledSync

theorem Departed.around {s s' t t' : State} (hs : SameBanks s' s) (h : Departed s t) (ht : Aside t t') : Departed s' t' where
  empty k := by rw [ht.schedOf]; exact h.empty k
  taken := ht.pending.trans h.taken
  told := ht.latched _ h.told
  cancelled hn := banksCancelled_congr hs ht.toSameBanks (h.cancelled fun k => by rw [hs.schedOf]; exact hn k)

theorem takePendingSwap_same (s : State) : SameBanks s s.takePendingSwap := by
  unfold State.takePendingSwap
  split <;> exact ⟨rfl, rfl, rfl, rfl, rfl, rfl, rfl⟩

theorem departFullSync_departed (s : State) : Departed s (departFullSync s) := by
  have hb := cancelBoth (s.raise .syncDown) (o := .cancelledSync) rfl rfl (by decide)
  have htaken := departFullSync_taken s
  have htold := departFullSync_syncDown s
  unfold departFullSync at htaken htold ⊢
  dsimp only at htaken htold ⊢
  generalize cancelBank .bankB (cancelBank .bankA (s.raise .syncDown) .cancelledSync) .cancelledSync = u
    at hb htaken htold ⊢
  have hsame := takePendingSwap_same u
  exact ⟨fun k => by rw [hsame.schedOf]; exact hb.empty k, htaken, htold,
    fun hn => banksCancelled_congr (Aside.raise s .syncDown).toSameBanks hsame (hb.banksCancelled hn)⟩

/-- A command that takes the clock out of FULL_SYNC departs from it. -/
def Leaves (s t : State) : Prop := s.clock.sync = .fullSync → t.clock.sync ≠ .fullSync → Departed s t

theorem Leaves.of_sync {s t : State} (h : t.clock.sync = s.clock.sync) : Leaves s t :=
  fun hs ht => absurd (h.trans hs) ht

theorem Leaves.before {s u t : State} (h : Leaves u t) (ha : Aside s u) (hs : u.clock.sync = s.clock.sync) : Leaves s t :=
  fun hf ht => (h (hs.trans hf) ht).around ha.toSameBanks (.refl t)

theorem changeSync_leaves (s : State) (k : AngleClock) : Leaves s (changeSync s k) := fun hs _ => by
  unfold changeSync
  dsimp only
  rw [if_pos hs]
  exact (departFullSync_departed (s.setClock k)).around (Aside.setClock s k).toSameBanks (Aside.setSpeed _)

/-- A tooth departs from FULL_SYNC where its revolution check fails. -/
theorem clockTooth_leaves (s : State) (syn : Bool) (t t1 : Nat) : Leaves s (clockTooth s syn t t1) := by
  intro hs ht
  have hsync := settled_sync s.tables.wheel (s.clock.advance s.tables.wheel t t1) syn s.timebase
  unfold clockTooth at ht ⊢
  dsimp only at ht ⊢
  rw [setSpeed_sync, signalVerdict_rel clock_bank] at ht
  rw [advance_sync] at hsync
  generalize hv : (s.clock.advance s.tables.wheel t t1).toothVerdict = v at hsync ht ⊢
  generalize (s.clock.advance s.tables.wheel t t1).settled s.tables.wheel syn s.timebase = k at hsync ht ⊢
  cases v with
  | keep => exact absurd (hsync.trans hs) ht
  | up => exact absurd hsync ht
  | fault =>
    exact (departFullSync_departed _).around
      ((Aside.setClock s (k.echoed s.timebase)).trans (Aside.raise _ .camFault)).toSameBanks (Aside.setSpeed _)

/-- What is handed on after a departure is handed on to nobody. -/
theorem handOn_leaves {s u : State} (h : Leaves s u) (tie : TieOrder) (kind : ToothKind) :
    Leaves s (handOn tie kind false u) := fun hs ht => by
  rw [handOn_clock] at ht
  rw [handOn_nobody tie kind ht]
  exact h hs ht

theorem judgedEdge_leaves (tie : TieOrder) (s : State) : Leaves s (judgedEdge tie s) := by
  unfold judgedEdge
  dsimp only
  split
  · exact .of_sync rfl
  · refine handOn_leaves (fun hs _ => ?_) tie .real
    have hseek : (loseSync s).clock.sync ≠ .fullSync := by
      obtain ⟨v, b, hk, -⟩ := Proofs.Clock.changeSync_clock s (s.clock.cleared .seeking)
      rw [loseSync, hk]
      exact Sync.noConfusion
    exact (changeSync_leaves s _ hs hseek).around (Aside.refl s).toSameBanks (Aside.seekTooth _ false)
  · exact handOn_leaves (clockTooth_leaves s false _ _) tie .real

theorem syncEdge_leaves (tie : TieOrder) (s : State) : Leaves s (syncEdge tie s) := by
  unfold syncEdge
  split
  · exact .of_sync rfl
  · exact (judgedEdge_leaves tie _).before (Aside.setClock s _) rfl

theorem crankTransition_leaves (tr : Transition) (tie : TieOrder) (s : State) : Leaves s (crankTransition tr tie s) := by
  unfold crankTransition
  split
  · unfold risingEdge
    dsimp only
    split
    · exact .of_sync rfl
    · split
      · rename_i hs
        exact fun hf => absurd (hs.symm.trans hf) Sync.noConfusion
      · rename_i hs
        exact fun hf => absurd (hs.symm.trans hf) Sync.noConfusion
      · exact (syncEdge_leaves tie _).before (Aside.setClock s _) rfl
      · exact (syncEdge_leaves tie _).before (Aside.setClock s _) rfl
  · exact .of_sync rfl

theorem expireDeadline_leaves (tie : TieOrder) (s : State) : Leaves s (expireDeadline tie s) := by
  unfold expireDeadline
  split
  · exact handOn_leaves (clockTooth_leaves s true _ _) tie .synthetic
  · exact changeSync_leaves s _

theorem whenDue_leaves {s : State} (due : Bool) {f : State → State} (h : Leaves s (f s)) : Leaves s (whenDue due f s) := by
  unfold whenDue
  split
  · exact h
  · exact .of_sync rfl

theorem camTransition_sync (tr : Transition) (s : State) : (camTransition tr s).clock.sync = s.clock.sync := by
  unfold camTransition
  dsimp only
  split
  · split
    · rfl
    · exact countCam_sync _
  · rfl

theorem sync_bank : BankRel fun s t => t.clock.sync = s.clock.sync where
  refl _ := rfl
  trans h1 h2 := h2.trans h1
  sched _ _ _ := rfl
  drive _ _ _ := rfl
  level _ _ _ := rfl
  sup _ _ _ := rfl
  event _ _ := rfl
  safe s := congrArg AngleClock.sync (clock_bank.safe s)
  swap s := congrArg AngleClock.sync (clock_bank.swap s)
  trace _ _ := rfl
  service _ := rfl

theorem sync_plain : PlainRel fun s t => t.clock.sync = s.clock.sync where
  toOpRel := (wholeRel_of_bankRel sync_bank _ _).toOpRel
  link _ _ _ := rfl
  supAny _ _ _ := rfl
  demand _ _ _ := rfl
  trace _ _ := rfl
  mask _ _ := rfl
  sense _ _ := rfl
  supply _ _ := rfl
  tables _ _ := rfl
  levels _ _ _ := rfl
  drive _ _ _ := rfl
  slow _ _ := rfl
  stop s := sync_bank.trans (sync_bank.safe s) (sync_bank.trans (Laws.cancelBank_rel sync_bank .bankA _ _)
    (Laws.cancelBank_rel sync_bank .bankB _ _))
  drain s _ := Laws.drainTest_rel sync_bank (s.setFiring .draining)
  rearm _ := rfl
  arm _ := rfl
  service' _ _ _ _ _ := rfl
  overspeed _ _ := rfl
  techo _ := rfl
  cmark _ := rfl

/-- A frame whose owner leaves FULL_SYNC departs from it. -/
theorem takeFrame_leaves (s : State) (code : Byte) (f : Frame) (admits : List Byte → Bool)
    {owner : State → List Byte → Reply} (h : ∀ u ps, Leaves u (owner u ps).state) :
    Leaves s (takeFrame s code f admits owner) := by
  rcases takeFrame_cases s code f admits owner with hc | hc | hc | hc | hc
  · rw [hc]; exact .of_sync rfl
  · rw [hc]; exact .of_sync rfl
  · rw [hc]; exact .of_sync rfl
  · rw [hc]; exact .of_sync rfl
  · intro hs ht
    rw [hc] at ht ⊢
    have hd := h (received s code f) (frameParams f) hs ht
    have hsame : SameBanks s (received s code f) := ⟨rfl, rfl, rfl, rfl, rfl, rfl, rfl⟩
    exact hd.around hsame ⟨⟨rfl, rfl, rfl, rfl, rfl, rfl, rfl⟩, rfl, fun _ => id⟩

theorem ownLoadWheel_leaves (s : State) (ps : List Byte) : Leaves s (ownLoadWheel s ps).state := by
  unfold ownLoadWheel
  split
  · exact .of_sync rfl
  · split
    · exact .of_sync rfl
    · rename_i w hw
      intro hs ht
      have hsame : SameBanks s (s.setTables { s.tables with wheel := w }) := ⟨rfl, rfl, rfl, rfl, rfl, rfl, rfl⟩
      have hreload : Leaves (s.setTables { s.tables with wheel := w })
          (reloadClock (s.setTables { s.tables with wheel := w })) := by
        unfold reloadClock
        split
        · exact .of_sync rfl
        · exact changeSync_leaves _ _
      exact (hreload hs ht).around hsame (.refl _)

/-- Settles O39: the plain commands keep the state of the clock, and of the others each way out departs. -/
theorem leavingFullSyncEmptiesTheBanks : Obligations.LeavingFullSyncEmptiesTheBanks := by
  unfold Obligations.LeavingFullSyncEmptiesTheBanks
  intro i s t hp hr hs he ht
  have key : Leaves s t := by
    cases i with
    | powerOnReset => exact absurd rfl hp
    | reset f => exact absurd rfl (hr f)
    | crankEdge tr tie => cases he; exact crankTransition_leaves tr tie s
    | camEdge tr => cases he; exact .of_sync (camTransition_sync tr s)
    | deadlineExpiry tie => cases he; exact whenDue_leaves _ (expireDeadline_leaves tie s)
    | stall => cases he; exact whenDue_leaves _ ((changeSync_leaves _ _).before (Aside.raise s .stall) rfl)
    | loadWheel f => cases he; exact takeFrame_leaves s _ f _ ownLoadWheel_leaves
    | readEvents f => cases he; exact takeFrame_leaves s _ f _ fun u _ => .of_sync rfl
    | _ => exact .of_sync (sync_plain.exec rfl he)
  obtain ⟨h1, h2, h3, h4⟩ := key hs ht
  exact ⟨h1, h2, h3, h4⟩

end Sys2Proof.Proofs.Emptied
end

section
/-! SUPPORT. The choice of the arbiter, and a single shot that falls due on an IDLE bank. -/

namespace Sys2Proof.Proofs.Arbiter

open Sys2Proof Sys2Proof.Machine Sys2Proof.Laws Sys2Proof.Laws.Fine Sys2Proof.Proofs.Freeze Sys2Proof.Proofs.Frames Sys2Proof.Proofs.Removals

/-! ### The choice -/

/-- R100: `x` is chosen before every `y` that stands behind it. -/
def NoWorse (x y : Shot) : Prop := y.cls.rank < x.cls.rank ∨ (y.cls.rank = x.cls.rank ∧ x.due.getD 0 ≤ y.due.getD 0)

/-- R100: `x` is chosen before every `y` that stands before it. -/
def Better (x y : Shot) : Prop := y.cls.rank < x.cls.rank ∨ (y.cls.rank = x.cls.rank ∧ x.due.getD 0 < y.due.getD 0)

theorem beats_iff {x y : Shot} : x.beats y = true ↔ Better x y := by
  simp only [Shot.beats, Better, Bool.or_eq_true, Bool.and_eq_true, decide_eq_true_eq, beq_iff_eq]
  rw [eq_comm (a := x.cls.rank)]

theorem Better.trans {x y z : Shot} (h1 : Better x y) (h2 : NoWorse y z) : Better x z := by
  unfold Better NoWorse at *
  omega

theorem NoWorse.trans {x y z : Shot} (h1 : NoWorse x y) (h2 : NoWorse y z) : NoWorse x z := by
  unfold NoWorse at *
  omega

theorem noWorse_of_not_better {x y : Shot} (h : ¬Better y x) : NoWorse x y := by
  unfold Better NoWorse at *
  omega

theorem Better.noWorse {x y : Shot} (h : Better x y) : NoWorse x y := h.imp_right fun h => ⟨h.1, Nat.le_of_lt h.2⟩

theorem NoWorse.refl (x : Shot) : NoWorse x x := .inr ⟨rfl, Nat.le_refl _⟩

theorem bestWaiting_eq_none {q : List Shot} : bestWaiting q = none ↔ q = [] := by
  cases q with
  | nil => simp [bestWaiting]
  | cons x q =>
    unfold bestWaiting
    split
    · simp
    · split <;> simp

theorem bestWaiting_spec {q : List Shot} {x : Shot} (h : bestWaiting q = some x) : ∃ before after, q = before ++ x :: after ∧
    (∀ y ∈ after, NoWorse x y) ∧ ∀ y ∈ before, Better x y := by
  induction q generalizing x with
  | nil => cases h
  | cons z q ih =>
    unfold bestWaiting at h
    split at h
    · rename_i hq
      cases h
      rw [bestWaiting_eq_none.1 hq]
      exact ⟨[], [], rfl, fun _ hy => (by cases hy), fun _ hy => (by cases hy)⟩
    · rename_i y hq
      obtain ⟨before, after, hsplit, hafter, hbefore⟩ := ih hq
      split at h <;> cases h
      · rename_i hb
        exact ⟨z :: before, after, by rw [hsplit]; rfl, hafter, List.forall_mem_cons.2 ⟨beats_iff.1 hb, hbefore⟩⟩
      · rename_i hb
        have hzy : NoWorse z y := noWorse_of_not_better fun h => hb (beats_iff.2 h)
        refine ⟨[], q, rfl, fun w hw => hzy.trans ?_, fun _ hy => (by cases hy)⟩
        rw [hsplit] at hw
        rcases List.mem_append.1 hw with hw | hw
        · exact (hbefore w hw).noWorse
        · rcases List.mem_cons.1 hw with rfl | hw
          · exact NoWorse.refl _
          · exact hafter w hw

theorem chooseWaiting_eq_none {q : List Shot} : chooseWaiting q = none ↔ ∀ y ∈ q, y.waiting = false := by
  unfold chooseWaiting
  rw [bestWaiting_eq_none, List.filter_eq_nil_iff]
  simp only [Bool.not_eq_true]

/-- R100: the arbiter's choice, in the words of the statements. -/
theorem chooseWaiting_chosen {q : List Shot} {x : Shot} (h : chooseWaiting q = some x) : chosen q x := by
  obtain ⟨b, a, hsplit, hafter, hbefore⟩ := bestWaiting_spec h
  obtain ⟨before, rest, hq, hb, hrest⟩ := List.filter_eq_append_iff.1 hsplit
  obtain ⟨skipped, after, hr, hskip, hx, ha⟩ := List.filter_eq_cons_iff.1 hrest
  refine ⟨before ++ skipped, after, by rw [hq, hr, List.append_assoc], hx, fun y hy hw => ?_, fun y hy hw => ?_⟩
  · exact hafter y (by rw [← ha]; exact List.mem_filter.2 ⟨hy, hw⟩)
  · rcases List.mem_append.1 hy with hy | hy
    · exact hbefore y (by rw [← hb]; exact List.mem_filter.2 ⟨hy, hw⟩)
    · exact absurd hw (hskip y hy)

/-- Settles O45: the choice, taken from the waiting shots alone, and put back into the queue. -/
theorem arbiterChoice : Obligations.ArbiterChoice := by
  unfold Obligations.ArbiterChoice
  exact fun q => ⟨chooseWaiting_eq_none, fun _ h => chooseWaiting_chosen h⟩

/-! ### The deadline of a deferred shot -/

/-- Settles O46: the deadline's instant, and the shot dropped with its chain. -/
theorem deferDeadlineSheds : Obligations.DeferDeadlineSheds := by
  unfold Obligations.DeferDeadlineSheds
  intro k s x d hst hd hq
  have hdue : shotIs s k x.tag (fun x => x.deadlineDue s.timebase) = decide (d ≤ s.timebase) := by
    unfold shotIs
    rw [(eraseShot_named hq).1]
    simp [Shot.deadlineDue, hst, hd]
  refine ⟨fun hlt => ?_, fun hle hc => ?_⟩
  · exact congrArg Host.Outcome.next (whenDue_of_false (f := fun s => dropWithChain k s x.tag .shedConflict)
      (hdue.trans (decide_eq_false (Nat.not_le.2 hlt))))
  · obtain ⟨cs, hcs, ht, htold⟩ := dropWithChain_shed k s x .shedConflict rfl hq hc
    exact ⟨_, cs, congrArg Host.Outcome.next (whenDue_of_true (f := fun s => dropWithChain k s x.tag .shedConflict)
      (hdue.trans (decide_eq_true hle))), hcs, ht, htold⟩

/-! ### Queues in which a tag names one shot -/

/-- A narrower test picks the one shot of a wider one, or none. -/
theorem filter_of_filter {q : List Shot} {x : Shot} {p p' : Shot → Bool} (h : q.filter p = [x])
    (hp : ∀ y, p' y = true → p y = true) : q.filter p' = if p' x = true then [x] else [] := by
  have hsub : q.filter p' = (q.filter p).filter p' := by
    rw [List.filter_filter]
    refine List.filter_congr fun y _ => ?_
    cases hy : p' y
    · rfl
    · rw [hp y hy]; rfl
  rw [hsub, h, List.filter_cons, List.filter_nil]

/-- An update of the shot of a tag leaves the others of the queue. -/
theorem updateShot_others (tag : Byte) {f : Shot → Shot} (hf : Keeps f) (q : List Shot) :
    (updateShot tag f q).filter (fun y => y.tag != tag) = q.filter fun y => y.tag != tag := by
  unfold updateShot
  induction q with
  | nil => rfl
  | cons y q ih =>
    rw [List.map_cons, List.filter_cons, List.filter_cons, ih]
    by_cases hy : y.tag = tag
    · have h1 : ((f y).tag != tag) = false := by rw [(hf y).1, hy]; exact bne_self_eq_false _
      have h2 : (y.tag != tag) = false := by rw [hy]; exact bne_self_eq_false _
      rw [if_pos hy, h1, h2]
      rfl
    · rw [if_neg hy]

theorem updateShot_named {q : List Shot} {x : Shot} (hx : q.filter (fun y => y.tag == x.tag) = [x]) {f : Shot → Shot}
    (hf : Keeps f) : (updateShot x.tag f q).filter (fun y => y.tag == x.tag) = [f x] := by
  have hcomp : ((fun y : Shot => y.tag == x.tag) ∘ fun y => if y.tag = x.tag then f y else y) = fun y => y.tag == x.tag := by
    funext y
    dsimp only [Function.comp]
    split
    · rw [(hf y).1]
    · rfl
  unfold updateShot
  rw [List.filter_map, hcomp, hx, List.map_singleton, if_pos rfl]

theorem updateShot_absent {q : List Shot} {tag : Byte} (h : ∀ y ∈ q, y.tag ≠ tag) (f : Shot → Shot) :
    updateShot tag f q = q := by
  unfold updateShot
  exact (List.map_congr_left fun y hy => if_neg (h y hy)).trans (List.map_id' q)

theorem setQueue_self (s : State) (k : Bank) : setQueue s k (s.schedOf k).queue = s :=
  congrArg (fun b => { s with sched := b }) (banks_set_get s.sched k)

theorem setQueue_setSched (s : State) (k : Bank) (q : List Shot) (x : Sched) :
    (setQueue s k q).setSched k x = s.setSched k x := by
  unfold setQueue State.setSched
  simp

theorem schedOf_setQueue (s : State) (k : Bank) (q : List Shot) :
    (setQueue s k q).schedOf k = { s.schedOf k with queue := q } := banks_get_set_same _ _ _

/-! ### A shot dropped with its chain -/

/-- R93: the shots a chain takes along are named by what an update keeps. -/
theorem chainDrops_update (tag : Byte) {f : Shot → Shot} (hf : Keeps f) (q : List Shot) (n : Nat) (t : Byte) (e : Nat)
    (o : ShotOutcome) : chainDrops n (updateShot tag f q) t e o = chainDrops n q t e o := by
  have hkeep : ∀ y, (if y.tag = tag then f y else y).tag = y.tag ∧ (if y.tag = tag then f y else y).entry = y.entry ∧
      ∀ u, (if y.tag = tag then f y else y).follows u = y.follows u := fun y => by
    obtain ⟨ht, -, he, -, -, ha, -⟩ := hf y
    split
    · exact ⟨ht, he, fun u => by unfold Shot.follows; rw [ha]⟩
    · exact ⟨rfl, rfl, fun _ => rfl⟩
  induction n generalizing t e o with
  | zero => rfl
  | succ n ih =>
    rw [chainDrops, chainDrops]
    unfold updateShot at ih ⊢
    rw [List.filter_map, List.flatMap_map]
    have hcomp : ((fun x : Shot => x.follows t) ∘ fun y => if y.tag = tag then f y else y) = fun y => y.follows t := by
      funext y
      exact (hkeep y).2.2 t
    rw [hcomp]
    refine List.flatMap_congr fun y _ => ?_
    dsimp only
    rw [(hkeep y).1, (hkeep y).2.1, ih]

/-- What a shot that is dropped was set to before does not matter. -/
theorem dropWithChain_update {k : Bank} {s : State} {x : Shot} {f : Shot → Shot} (hf : Keeps f)
    (hx : (s.schedOf k).queue.filter (fun y => y.tag == x.tag) = [x]) (o : ShotOutcome) :
    dropWithChain k (setQueue s k (updateShot x.tag f (s.schedOf k).queue)) x.tag o = dropWithChain k s x.tag o := by
  obtain ⟨hfind, herase⟩ := eraseShot_named hx
  have hx' := updateShot_named hx hf
  rw [← (hf x).1] at hx'
  obtain ⟨hfind', herase'⟩ := eraseShot_named hx'
  rw [(hf x).1] at hfind' herase'
  rw [updateShot_others x.tag hf] at herase'
  have hlen : (updateShot x.tag f (s.schedOf k).queue).length = (s.schedOf k).queue.length := List.length_map _
  have hfirst : dropShot k (setQueue s k (updateShot x.tag f (s.schedOf k).queue)) (x.tag, o) = dropShot k s (x.tag, o) := by
    unfold dropShot
    rw [schedOf_setQueue]
    dsimp only
    rw [hfind, hfind', herase, herase', setQueue_setSched]
    dsimp only
    rw [(hf x).2.1]
    unfold Sched.countRemoval
    split <;> rfl
  unfold dropWithChain
  rw [schedOf_setQueue]
  dsimp only
  rw [hfind, hfind', hlen]
  dsimp only
  rw [chainDrops_update _ hf, (hf x).2.2.1, List.foldl_cons, List.foldl_cons, hfirst]

theorem mem_dropAll {k : Bank} (l : List (Byte × ShotOutcome)) {s : State} {y : Shot}
    (hy : y ∈ ((l.foldl (dropShot k) s).schedOf k).queue) : y ∈ (s.schedOf k).queue := by
  induction l generalizing s with
  | nil => exact hy
  | cons z l ih =>
    have h := ih hy
    rw [State.schedOf, dropShot_sched, banks_get_set_same] at h
    unfold droppedFrom at h
    split at h
    · exact h
    · exact List.mem_of_mem_eraseP h

/-- R93: what is left in the queue was there, and is another shot. -/
theorem mem_dropWithChain {k : Bank} {s : State} {x y : Shot} {o : ShotOutcome}
    (hx : (s.schedOf k).queue.filter (fun y => y.tag == x.tag) = [x])
    (hy : y ∈ ((dropWithChain k s x.tag o).schedOf k).queue) : y ∈ (s.schedOf k).queue ∧ y.tag ≠ x.tag := by
  obtain ⟨hfind, herase⟩ := eraseShot_named hx
  unfold dropWithChain at hy
  dsimp only at hy
  rw [hfind] at hy
  have h := mem_dropAll (s := dropShot k s (x.tag, o)) _ hy
  rw [State.schedOf, dropShot_sched, banks_get_set_same] at h
  unfold droppedFrom at h
  dsimp only at h
  rw [hfind] at h
  dsimp only at h
  rw [herase] at h
  obtain ⟨h1, h2⟩ := List.mem_filter.1 h
  exact ⟨h1, bne_iff_ne.1 h2⟩

/-! ### The start instant -/

theorem inWindow_iff {s : State} {k : Bank} {x : Shot} :
    inWindow s k x ↔ (!x.flags.service && windowPassed s k x.cyl) = false := by
  unfold inWindow
  cases x.flags.service <;> simp

theorem startTest_of_refused {s : State} {k : Bank} {x : Shot} {o : ShotOutcome} (h : startRefused s k x o) :
    startTest s k x = .refused o := by
  unfold startTest
  rcases h with ⟨rfl, hw⟩ | ⟨rfl, hw, hl, hb⟩ | ⟨rfl, hw, hl, hc, hm⟩
  · rw [inWindow_iff, Bool.not_eq_false] at hw
    exact if_pos hw
  · rw [inWindow_iff] at hw
    rw [if_neg (Bool.eq_false_iff.1 hw), if_pos (by simp [hl, hb])]
  · rw [inWindow_iff] at hw
    have hn : ¬(x.lowBoost && decide (s.levelOf k < s.tables.limits.lowWater)) = true := by
      simpa using hl
    rw [if_neg (Bool.eq_false_iff.1 hw), if_neg hn, if_neg (Nat.not_le.2 hc), if_neg hm]

theorem startTest_of_admitted {s : State} {k : Bank} {x : Shot} {dg : Bool} (h : startAdmitted s k x dg) :
    startTest s k x = if dg then .degraded else .boosted := by
  obtain ⟨hw, hl, hc⟩ := h
  rw [inWindow_iff] at hw
  have hn : ¬(x.lowBoost && decide (s.levelOf k < s.tables.limits.lowWater)) = true := by
    simpa using hl
  unfold startTest
  rw [if_neg (Bool.eq_false_iff.1 hw), if_neg hn]
  cases dg with
  | true => exact (if_neg (Nat.not_le.2 hc.1)).trans (if_pos hc.2)
  | false => exact if_pos hc

/-- R102, R103: the tests at the start instant, one way or another. -/
theorem startTest_cases (s : State) (k : Bank) (x : Shot) :
    (∃ o, startTest s k x = .refused o ∧ startRefused s k x o) ∨
    ∃ dg, startTest s k x = (if dg then .degraded else .boosted) ∧ startAdmitted s k x dg := by
  by_cases hw : inWindow s k x
  · by_cases hb : x.lowBoost = true ∧ s.levelOf k < s.tables.limits.lowWater
    · have hr : startRefused s k x .broken := .inr (.inl ⟨rfl, hw, hb.1, hb.2⟩)
      exact .inl ⟨_, startTest_of_refused hr, hr⟩
    · have hl : x.lowBoost = true → s.tables.limits.lowWater ≤ s.levelOf k := fun h => Nat.not_lt.1 fun h' => hb ⟨h, h'⟩
      by_cases hc : (s.profileOf x.cyl).boostCost ≤ s.levelOf k
      · have ha : startAdmitted s k x false := ⟨hw, hl, hc⟩
        exact .inr ⟨_, startTest_of_admitted ha, ha⟩
      · by_cases hm : x.cls = .main
        · have ha : startAdmitted s k x true := ⟨hw, hl, Nat.not_le.1 hc, hm⟩
          exact .inr ⟨_, startTest_of_admitted ha, ha⟩
        · have hr : startRefused s k x .shedBoost := .inr (.inr ⟨rfl, hw, hl, Nat.not_le.1 hc, hm⟩)
          exact .inl ⟨_, startTest_of_refused hr, hr⟩
  · have hr : startRefused s k x .shedWindow := .inl ⟨rfl, hw⟩
    exact .inl ⟨_, startTest_of_refused hr, hr⟩

theorem startRefused_isShed {s : State} {k : Bank} {x : Shot} {o : ShotOutcome} (h : startRefused s k x o) :
    o.isShed = true := by
  rcases h with ⟨rfl, -⟩ | ⟨rfl, -⟩ | ⟨rfl, -⟩ <;> rfl

theorem traceStart_eq (s : State) (k : Bank) (c : Cyl) : traceStart s k c = { s with
    trace := if s.trace.state = .armed ∧ s.trace.cyl = c.val + 1 then
        { s.trace with state := .capturing, bank := some k, start := some s.timebase } else s.trace } := by
  unfold traceStart cylNumber
  by_cases h : s.trace.state = .armed ∧ s.trace.cyl = c.val + 1
  · rw [if_pos h, if_pos h]
    rfl
  · rw [if_neg h, if_neg h]

/-- R104: what opens a queued shot. -/
theorem openPulse_opened {k : Bank} {s : State} {x : Shot} (hx : (s.schedOf k).queue.filter (fun y => y.tag == x.tag) = [x])
    (dg : Bool) : openPulse k s x dg = opened s k x dg := by
  unfold openPulse
  dsimp only
  rw [(eraseShot_named hx).2, traceStart_eq]
  rfl

theorem attemptStart_admitted {k : Bank} {s : State} {x : Shot}
    (hx : (s.schedOf k).queue.filter (fun y => y.tag == x.tag) = [x]) {dg : Bool} (h : startAdmitted s k x dg) :
    attemptStart k s x = (startedNow s k x dg, true) := by
  unfold attemptStart
  rw [startTest_of_admitted h]
  cases dg with
  | true => exact congrArg (·, true) (openPulse_opened hx true)
  | false => exact congrArg (·, true) (openPulse_opened (s := chargeBoost s k x.cyl) hx false)

theorem attemptStart_refused {k : Bank} {s : State} {x : Shot} {o : ShotOutcome} (h : startRefused s k x o) :
    attemptStart k s x = (dropWithChain k s x.tag o, false) := by
  unfold attemptStart
  rw [startTest_of_refused h]

/-! ### The arbiter with one waiting shot -/

theorem bestWaiting_single (x : Shot) : bestWaiting [x] = some x := rfl

theorem chooseWaiting_single {q : List Shot} {x : Shot} (h : q.filter (fun y => y.waiting) = [x]) :
    chooseWaiting q = some x := by
  unfold chooseWaiting
  rw [h, bestWaiting_single]

theorem deferRest_of_none {k : Bank} {s : State} (h : ∀ y ∈ (s.schedOf k).queue, y.waiting = false) : deferRest k s = s := by
  unfold deferRest
  have hnone : (s.schedOf k).queue.filter (fun x => x.waiting && x.state != .deferred) = [] := by
    refine List.filter_eq_nil_iff.2 fun y hy => ?_
    rw [h y hy]
    exact Bool.false_ne_true
  rw [hnone]
  rfl

theorem arbitrate_of_none {k : Bank} {s : State} (n : Nat) (h : ∀ y ∈ (s.schedOf k).queue, y.waiting = false) :
    arbitrate n k s = s := by
  cases n with
  | zero => rfl
  | succ n =>
    unfold arbitrate
    rw [chooseWaiting_eq_none.2 h]

/-- The queue has one waiting shot, and its tag names it. -/
def OnlyWaiting (q : List Shot) (x : Shot) : Prop := x.waiting = true ∧ q.filter (fun y => y.tag == x.tag || y.waiting) = [x]

theorem OnlyWaiting.named {q : List Shot} {x : Shot} (h : OnlyWaiting q x) : q.filter (fun y => y.tag == x.tag) = [x] :=
  (filter_of_filter h.2 fun y hy => by rw [hy]; rfl).trans (if_pos (beq_self_eq_true _))

theorem OnlyWaiting.waits {q : List Shot} {x : Shot} (h : OnlyWaiting q x) : q.filter (fun y => y.waiting) = [x] :=
  (filter_of_filter h.2 fun y hy => by rw [hy]; exact Bool.or_true _).trans (if_pos h.1)

theorem OnlyWaiting.others {q : List Shot} {x y : Shot} (h : OnlyWaiting q x) (hy : y ∈ q) (ht : y.tag ≠ x.tag) :
    y.waiting = false := by
  by_contra hw
  have hm : y ∈ q.filter fun y => y.waiting := List.mem_filter.2 ⟨hy, Bool.not_eq_false _ ▸ hw⟩
  rw [h.waits, List.mem_singleton] at hm
  exact ht (congrArg Shot.tag hm)

theorem runArbiter_once {k : Bank} {s : State} {x : Shot} (hc : (s.schedOf k).cond = .idle)
    (h : OnlyWaiting (s.schedOf k).queue x) : ∃ n, ∀ t,
      (attemptStart k s x = (t, true) → runArbiter k s = deferRest k t) ∧
      (attemptStart k s x = (t, false) → runArbiter k s = arbitrate n k t) := by
  have hrun : runArbiter k s = arbitrate (s.schedOf k).queue.length k s := if_pos hc
  rw [hrun]
  cases hl : (s.schedOf k).queue.length with
  | zero =>
    have hq := h.2
    rw [List.eq_nil_of_length_eq_zero hl] at hq
    cases hq
  | succ n =>
    rw [arbitrate, chooseWaiting_single h.waits]
    exact ⟨n, fun t => ⟨fun ha => by dsimp only; rw [ha], fun ha => by dsimp only; rw [ha]⟩⟩

theorem runArbiter_opens {k : Bank} {s : State} {x : Shot} (hc : (s.schedOf k).cond = .idle)
    (h : OnlyWaiting (s.schedOf k).queue x) {dg : Bool} (ha : startAdmitted s k x dg) :
    runArbiter k s = startedNow s k x dg := by
  obtain ⟨n, hrun⟩ := runArbiter_once hc h
  rw [(hrun _).1 (attemptStart_admitted h.named ha)]
  refine deferRest_of_none fun y hy => ?_
  have hq : ((startedNow s k x dg).schedOf k).queue = (s.schedOf k).queue.filter fun y => y.tag != x.tag :=
    congrArg Sched.queue (banks_get_set_same _ _ _)
  rw [hq] at hy
  obtain ⟨hm, ht⟩ := List.mem_filter.1 hy
  exact h.others hm (bne_iff_ne.1 ht)

theorem runArbiter_refuses {k : Bank} {s : State} {x : Shot} {o : ShotOutcome} (hc : (s.schedOf k).cond = .idle)
    (h : OnlyWaiting (s.schedOf k).queue x) (hr : startRefused s k x o) :
    runArbiter k s = dropWithChain k s x.tag o := by
  obtain ⟨n, hrun⟩ := runArbiter_once hc h
  rw [(hrun _).2 (attemptStart_refused hr)]
  refine arbitrate_of_none n fun y hy => ?_
  obtain ⟨hm, ht⟩ := mem_dropWithChain h.named hy
  exact h.others hm ht

end Sys2Proof.Proofs.Arbiter
end

section
/-! SUPPORT. A shot that falls due alone: what each condition of its bank makes of it. -/

namespace Sys2Proof.Proofs.Due

open Sys2Proof Sys2Proof.Machine Sys2Proof.Laws Sys2Proof.Laws.Fine Sys2Proof.Proofs.Freeze Sys2Proof.Proofs.Frames
  Sys2Proof.Proofs.Removals Sys2Proof.Proofs.Arbiter

/-! ### Falling due -/

/-- R97: a shot that has fallen due now. -/
def fallen (now : Nat) (x : Shot) : Shot := { x with state := .timed, due := some now, waiting := true }

theorem fallen_keeps (now : Nat) : Keeps (fallen now) := fun _ => ⟨rfl, rfl, rfl, rfl, rfl, rfl, rfl, rfl, rfl, rfl⟩

theorem markWaiting_eq (k : Bank) (s : State) (tag : Byte) :
    markWaiting k s tag = setQueue s k (updateShot tag (fallen s.timebase) (s.schedOf k).queue) := rfl

section
variable {k : Bank} {s : State} {x : Shot}

theorem onlyDue_named (h : onlyDue s k x) : (s.schedOf k).queue.filter (fun y => y.tag == x.tag) = [x] :=
  (filter_of_filter h fun y hy => by rw [hy]; rfl).trans (if_pos (beq_self_eq_true _))

theorem onlyDue_waiting (h : onlyDue s k x) {y : Shot} (hy : y ∈ (s.schedOf k).queue) (hw : y.waiting = true) : y = x := by
  have hm : y ∈ (s.schedOf k).queue.filter (fun y => y.tag == x.tag || y.waiting || y.dueNow s.timebase) :=
    List.mem_filter.2 ⟨hy, by rw [hw]; simp⟩
  rw [h, List.mem_singleton] at hm
  exact hm

theorem dueNow_of_falls (hf : fallsDue s x) : x.dueNow s.timebase = true := by
  obtain ⟨hw, -, n, hn, hle⟩ := hf
  simp [Shot.dueNow, hw, hn, hle]

/-- The command of a shot whose instant has come takes it. -/
theorem exec_due (hf : fallsDue s x) (h : onlyDue s k x) : exec (dueCommand k x) s = .next (takeDue k s [x.tag]) := by
  have hnow := dueNow_of_falls hf
  obtain ⟨-, hst, -⟩ := hf
  have hfind := (eraseShot_named (onlyDue_named h)).1
  have htimed : x.isAngle = true → shotIs s k x.tag (fun x => x.timedDue s.timebase) = true := fun ha => by
    unfold shotIs
    rw [hfind, Option.any_some]
    simp [Shot.timedDue, ha, hst ha, hnow]
  have hchain : x.isAngle = false → shotIs s k x.tag (fun x => x.chainDue s.timebase) = true := fun ha => by
    unfold shotIs
    rw [hfind, Option.any_some]
    simp [Shot.chainDue, ha, hnow]
  unfold dueCommand
  cases ha : x.isAngle with
  | true => exact congrArg Host.Outcome.next (whenDue_of_true (f := fun s => takeDue k s [x.tag]) (htimed ha))
  | false => exact congrArg Host.Outcome.next (whenDue_of_true (f := fun s => takeDue k s [x.tag]) (hchain ha))

/-- R101: alone on an IDLE bank, a shot is shed past its window, or waits for the arbiter. -/
theorem takeDue_idle (hf : fallsDue s x) (h : onlyDue s k x) (hc : (s.schedOf k).cond = .idle) :
    takeDue k s [x.tag] = if duePassed s k x then dropWithChain k s x.tag .shedWindow
      else runArbiter k (markWaiting k s x.tag) := by
  have hgroup : (s.schedOf k).queue.filter
      (fun y => !y.waiting && ([x.tag].contains y.tag || y.dueNow s.timebase)) = [x] := by
    refine (filter_of_filter h fun y hy => ?_).trans (if_pos ?_)
    · simp only [Bool.and_eq_true, Bool.or_eq_true, List.contains_iff_mem, List.mem_singleton, beq_iff_eq] at hy ⊢
      exact hy.2.imp .inl id
    · simp [hf.1]
  have hlate : (s.schedOf k).queue.filter (fun y => [x.tag].contains y.tag && duePassed s k y) =
      if duePassed s k x then [x] else [] := by
    refine (filter_of_filter (onlyDue_named h) fun y hy => ?_).trans (if_congr ?_ rfl rfl)
    · simp only [Bool.and_eq_true, List.contains_iff_mem, List.mem_singleton] at hy
      exact beq_iff_eq.2 hy.1
    · simp
  unfold takeDue
  rw [if_pos hc]
  unfold takeTogether
  dsimp only
  rw [hgroup, List.map_singleton, hlate]
  split
  · rw [List.map_singleton, List.foldl_cons, List.foldl_nil, List.foldl_cons, List.foldl_nil]
    have habsent : ∀ y ∈ ((dropWithChain k s x.tag .shedWindow).schedOf k).queue, y.tag ≠ x.tag ∧ y.waiting = false :=
      fun y hy => by
        obtain ⟨hm, ht⟩ := mem_dropWithChain (onlyDue_named h) hy
        exact ⟨ht, Bool.eq_false_iff.2 fun hw => ht (congrArg Shot.tag (onlyDue_waiting h hm hw))⟩
    rw [markWaiting_eq, updateShot_absent fun y hy => (habsent y hy).1, setQueue_self]
    exact runArbiter_of_none (chooseWaiting_eq_none.2 fun y hy => (habsent y hy).2)
  · rfl

theorem setQueue_sched (s : State) (k : Bank) (q : List Shot) :
    (setQueue s k q).sched = s.sched.set k { s.schedOf k with queue := q } := rfl

/-- R97: the shot is the only one that waits. -/
theorem markWaiting_only (h : onlyDue s k x) :
    OnlyWaiting ((markWaiting k s x.tag).schedOf k).queue (fallen s.timebase x) := by
  refine ⟨rfl, ?_⟩
  rw [markWaiting_eq, schedOf_setQueue]
  have hcomp : ((fun y : Shot => y.tag == x.tag || y.waiting) ∘ fun y => if y.tag = x.tag then fallen s.timebase y else y) =
      fun y => y.tag == x.tag || y.waiting := by
    funext y
    dsimp only [Function.comp]
    split
    · rename_i ht
      simp [fallen, ht]
    · rfl
  have hsub : (s.schedOf k).queue.filter (fun y => y.tag == x.tag || y.waiting) = [x] :=
    (filter_of_filter h fun y hy => by rw [hy]; rfl).trans (if_pos (by simp))
  show (updateShot x.tag (fallen s.timebase) (s.schedOf k).queue).filter (fun y => y.tag == x.tag || y.waiting) = _
  unfold updateShot
  rw [List.filter_map, hcomp, hsub, List.map_singleton, if_pos rfl]

/-- The tests at the start instant read nothing that falling due changes. -/
theorem inWindow_markWaiting {y : Shot} : inWindow (markWaiting k s x.tag) k y ↔ inWindow s k y := by
  have ht : trackOf (markWaiting k s x.tag) k y.cyl = trackOf s k y.cyl := by
    unfold trackOf
    rw [markWaiting_eq, schedOf_setQueue]
  unfold inWindow windowPassed
  rw [ht]
  exact .rfl

theorem startAdmitted_fallen {dg : Bool} (h : startAdmitted s k x dg) :
    startAdmitted (markWaiting k s x.tag) k (fallen s.timebase x) dg :=
  ⟨inWindow_markWaiting.2 h.1, h.2⟩

theorem startRefused_fallen {o : ShotOutcome} (h : startRefused s k x o) :
    startRefused (markWaiting k s x.tag) k (fallen s.timebase x) o := by
  have hw : inWindow (markWaiting k s x.tag) k (fallen s.timebase x) ↔ inWindow s k x := inWindow_markWaiting
  unfold startRefused
  rw [hw]
  exact h

/-- R104: what falling due has set is gone with the shot once it opens. -/
theorem startedNow_fallen (dg : Bool) :
    startedNow (markWaiting k s x.tag) k (fallen s.timebase x) dg = startedNow s k x dg := by
  have hq := updateShot_others x.tag (fallen_keeps s.timebase) (s.schedOf k).queue
  have hclose : closingInstant (markWaiting k s x.tag) k x.cyl = closingInstant s k x.cyl := by
    unfold closingInstant trackOf
    rw [markWaiting_eq, schedOf_setQueue]
  unfold startedNow opened
  dsimp only
  rw [show (fallen s.timebase x).cyl = x.cyl from rfl, hclose, markWaiting_eq, schedOf_setQueue]
  simp only [setQueue_sched, banks_set_set]
  rw [show (fallen s.timebase x).tag = x.tag from rfl, hq]
  rfl

end

/-! ### On an IDLE bank -/

section
variable {k : Bank} {s : State} {x : Shot}

theorem duePassed_of_inWindow (h : inWindow s k x) : duePassed s k x = false := by
  rw [inWindow_iff] at h
  unfold duePassed
  rw [Bool.and_assoc, h, Bool.and_false]

theorem not_inWindow_of_duePassed (h : duePassed s k x = true) : ¬inWindow s k x := fun hw => by
  rw [duePassed_of_inWindow hw] at h
  cases h

theorem markWaiting_cond (h : (s.schedOf k).cond = .idle) : ((markWaiting k s x.tag).schedOf k).cond = .idle := by
  rw [markWaiting_eq, schedOf_setQueue]
  exact h

/-- R102, R103: a shot due on an IDLE bank opens where the tests let it. -/
theorem exec_due_opens (hf : fallsDue s x) (h : onlyDue s k x) (hc : (s.schedOf k).cond = .idle) {dg : Bool}
    (ha : startAdmitted s k x dg) : exec (dueCommand k x) s = .next (startedNow s k x dg) := by
  rw [exec_due hf h, takeDue_idle hf h hc, duePassed_of_inWindow ha.1, if_neg Bool.false_ne_true,
    runArbiter_opens (markWaiting_cond hc) (markWaiting_only h) (startAdmitted_fallen ha), startedNow_fallen]

/-- R102, R103: a shot due on an IDLE bank is dropped with its chain where the tests refuse it. -/
theorem exec_due_refused (hf : fallsDue s x) (h : onlyDue s k x) (hc : (s.schedOf k).cond = .idle) {o : ShotOutcome}
    (hr : startRefused s k x o) : exec (dueCommand k x) s = .next (dropWithChain k s x.tag o) := by
  rw [exec_due hf h, takeDue_idle hf h hc]
  cases hd : duePassed s k x with
  | true =>
    have ho : o = .shedWindow := by
      rcases hr with ⟨ho, -⟩ | ⟨-, hw, -⟩ | ⟨-, hw, -⟩
      · exact ho
      · exact absurd hw (not_inWindow_of_duePassed hd)
      · exact absurd hw (not_inWindow_of_duePassed hd)
    rw [ho]
    rfl
  | false =>
    rw [if_neg Bool.false_ne_true,
      runArbiter_refuses (markWaiting_cond hc) (markWaiting_only h) (startRefused_fallen hr), markWaiting_eq]
    exact congrArg Host.Outcome.next (dropWithChain_update (fallen_keeps _) (onlyDue_named h) o)

end

/-- Settles O41: the two ways a shot passes the tests. -/
theorem dueShotOpensOnAnIdleBank : Obligations.DueShotOpensOnAnIdleBank := by
  unfold Obligations.DueShotOpensOnAnIdleBank
  intro k s x hf h hc _ hw hl
  exact ⟨fun hb => exec_due_opens (dg := false) hf h hc ⟨hw, hl, hb⟩,
    fun hb hm => exec_due_opens (dg := true) hf h hc ⟨hw, hl, hb, hm⟩⟩

/-- Settles O42: the tests' refusals, and the shot dropped with its chain. -/
theorem dueShotIsShedAtItsStart : Obligations.DueShotIsShedAtItsStart := by
  unfold Obligations.DueShotIsShedAtItsStart
  intro k s x o hf h hc _ hn hr
  obtain ⟨cs, hcs, ht, htold⟩ := dropWithChain_shed k s x o (startRefused_isShed hr) (onlyDue_named h) hn
  exact ⟨_, cs, exec_due_refused hf h hc hr, hcs, ht, htold⟩

/-! ### On a bank that is not IDLE -/

/-- The update of the one shot of a tag, written with that shot. -/
theorem updateShot_const {q : List Shot} {x : Shot} (hx : q.filter (fun y => y.tag == x.tag) = [x]) (f : Shot → Shot) :
    updateShot x.tag f q = q.map fun y => if y.tag = x.tag then f x else y := by
  refine List.map_congr_left fun y hy => ?_
  split
  · rename_i ht
    have hm : y ∈ q.filter fun y => y.tag == x.tag := List.mem_filter.2 ⟨hy, beq_iff_eq.2 ht⟩
    rw [hx, List.mem_singleton] at hm
    rw [hm]
  · rfl

section
variable {k : Bank} {s : State} {x : Shot}

theorem takeDue_busy (h : onlyDue s k x) (hc : (s.schedOf k).cond ≠ .idle) : takeDue k s [x.tag] =
    if duePassed s k x then dropWithChain k s x.tag .shedWindow
    else takeOneDue k s x.tag := by
  unfold takeDue
  rw [if_neg hc, List.foldl_cons, List.foldl_nil]
  split
  · rename_i hd
    unfold takeOneDue
    rw [(eraseShot_named (onlyDue_named h)).1]
    exact if_pos hd
  · rfl

theorem takeOneDue_free (h : onlyDue s k x) (hd : duePassed s k x = false) (ha : (s.schedOf k).active = none) :
    takeOneDue k s x.tag = runArbiter k (markWaiting k s x.tag) := by
  have hact : ((markWaiting k s x.tag).schedOf k).active = none := by rw [markWaiting_eq, schedOf_setQueue]; exact ha
  unfold takeOneDue
  rw [(eraseShot_named (onlyDue_named h)).1]
  dsimp only
  rw [hd, if_neg Bool.false_ne_true, hact]

theorem takeOneDue_pulse (h : onlyDue s k x) (hd : duePassed s k x = false) {p : Pulse}
    (ha : (s.schedOf k).active = some p) : takeOneDue k s x.tag =
      if preempts x.cls p.cls then settleGap k (endPulse k (markWaiting k s x.tag) .firedPreempted none)
      else deferShot k (markWaiting k s x.tag) x.tag := by
  have hact : ((markWaiting k s x.tag).schedOf k).active = some p := by rw [markWaiting_eq, schedOf_setQueue]; exact ha
  unfold takeOneDue
  rw [(eraseShot_named (onlyDue_named h)).1]
  dsimp only
  rw [hd, if_neg Bool.false_ne_true, hact]

theorem preempts_iff {x y : PulseClass} : preempts x y = true ↔ y.rank < x.rank ∧ (x = .main ∨ x = .pilot) := by
  cases x <;> cases y <;> decide

end

end Sys2Proof.Proofs.Due
end

section
/-! SUPPORT. A shot that falls due against an active pulse: it preempts the pulse, is deferred, or is shed. -/

namespace Sys2Proof.Proofs.Conflict

open Sys2Proof Sys2Proof.Machine Sys2Proof.Laws Sys2Proof.Laws.Fine Sys2Proof.Proofs.Freeze Sys2Proof.Proofs.Frames
  Sys2Proof.Proofs.Removals Sys2Proof.Proofs.Cancelling Sys2Proof.Proofs.Arbiter Sys2Proof.Proofs.Due

/-! ### Changes of the banks, field by field -/

/-- Two changes of the banks from one state are the same where the banks and the Supervisor are. -/
theorem eq_of_banks {s t v : State} (ht : BankChange s t) (hv : BankChange s v) (h1 : t.sched = v.sched)
    (h2 : t.drive = v.drive) (h3 : t.level = v.level) (h4 : t.events = v.events) (h5 : t.sup = v.sup)
    (h6 : t.service = v.service) : t = v := by
  calc t = withBanks s t := ht
    _ = withBanks s v := by unfold withBanks; rw [h1, h2, h3, h4, h5, h6]
    _ = v := hv.symm

theorem removed_banks (k : Bank) (cs : List (Shot × ShotOutcome)) (s : State) :
    (removed k cs s).drive = s.drive ∧ (removed k cs s).level = s.level ∧ (removed k cs s).events = eventsAfter s cs := by
  unfold removed
  exact ⟨tellAll_drive _ _, tellAll_level _ _, tellAll_events _ _⟩

theorem drainSettled_kept (s : State) : (drainSettled s).sched = s.sched ∧ (drainSettled s).sup = s.sup ∧
    (drainSettled s).service = s.service ∧ (drainSettled s).timebase = s.timebase ∧
    (drainSettled s).tables.limits = s.tables.limits := by
  unfold drainSettled
  split
  · refine ⟨rfl, rfl, rfl, rfl, ?_⟩
    dsimp only
    split <;> rfl
  · exact ⟨rfl, rfl, rfl, rfl, rfl⟩

/-- DRAINING goes on while a shot is queued. -/
theorem drainAgrees_of_mem {s : State} {k : Bank} {x : Shot} (h : x ∈ (s.schedOf k).queue) : drainAgrees s := fun _ => by
  refine Bool.eq_false_iff.2 fun hd => ?_
  rw [(drained_iff.1 hd k).1] at h
  cases h

/-- R93: a scheduler from which shots have gone that are all counted as shed. -/
theorem droppedAll_shed (q : Sched) {cs : List (Shot × ShotOutcome)} (h : ∀ z ∈ cs, z.2.isShed = true) :
    droppedAll q cs = { q with queue := withoutShots q.queue cs, shed := q.shed + BitVec.ofNat 32 cs.length } := by
  have hshed : cs.countP (fun z => z.2.isShed) = cs.length := List.countP_eq_length.2 h
  have hrest : cs.countP (fun z => !z.2.isShed) = 0 := by
    rw [List.countP_eq_zero]
    intro z hz
    simp [h z hz]
  unfold droppedAll withoutShots
  rw [hshed, hrest]
  simp

theorem eventsAfter_shed (s : State) {cs : List (Shot × ShotOutcome)} (h : ∀ z ∈ cs, z.2.isShed = true) :
    eventsAfter s cs = if cs = [] then s.events else (s.raise .shed).events := by
  unfold eventsAfter
  cases cs with
  | nil => rfl
  | cons z cs => rw [if_pos (by rw [List.any_cons, h z List.mem_cons_self]; rfl), if_neg (List.cons_ne_nil _ _)]

/-! ### Preemption -/

section
variable {k : Bank} {s : State} {x : Shot} {p : Pulse}

/-- R78, R93: the chain of a pulse is named in the queue in which another shot has fallen due. -/
theorem chain_named_fallen (h : onlyDue s k x) {cs : List (Shot × ShotOutcome)}
    (hcs : chainIs (s.schedOf k).queue p.tag 0 .firedPreempted cs)
    (hq : ∀ z ∈ cs, (s.schedOf k).queue.filter (fun y => y.tag == z.1.tag) = [z.1])
    (hn : ∀ o, ¬ChainFate (s.schedOf k).queue p.tag 0 .firedPreempted x o) :
    Named (updateShot x.tag (fallen s.timebase) (s.schedOf k).queue) cs ∧ ∀ z ∈ cs, z.1.tag ≠ x.tag := by
  have hne : ∀ z ∈ cs, z.1.tag ≠ x.tag := fun z hz ht => by
    have hx := onlyDue_named h
    rw [← ht, hq z hz] at hx
    have he : z.1 = x := List.head_eq_of_cons_eq hx
    exact hn z.2 (he ▸ (hcs.2 z.1 z.2).1 hz)
  refine ⟨⟨hcs.1, fun z hz => ?_⟩, hne⟩
  rw [← hq z hz]
  unfold updateShot
  rw [List.filter_map]
  have hcomp : ((fun y : Shot => y.tag == z.1.tag) ∘ fun y => if y.tag = x.tag then fallen s.timebase y else y) =
      fun y => y.tag == z.1.tag := by
    funext y
    dsimp only [Function.comp]
    split <;> rfl
  rw [hcomp]
  refine (List.map_congr_left fun y hy => if_neg ?_).trans (List.map_id' _)
  intro ht
  exact hne z hz ((beq_iff_eq.1 (List.mem_filter.1 hy).2).symm.trans ht)

theorem pulseOff_sched (s : State) (k : Bank) (p : Pulse) : (pulseOff s k (some p)).sched =
    s.sched.set k { s.schedOf k with active := none, cond := .gap, lastEnd := some s.timebase } := rfl

theorem schedOf_pulseGone (s : State) (k : Bank) (p : Pulse) (o : ShotOutcome) (f : Option FaultKind) :
    (pulseGone k (some p) o f s).schedOf k =
      { s.schedOf k with active := none, cond := .gap, lastEnd := some s.timebase } :=
  schedOf_of_set ((pulseGone_sched k (some p) o f s).trans (pulseOff_sched s k p))

/-- R93, R105: a preempted pulse is off the bank, and its chain gone from the queue. -/
theorem endPulse_preempted (h : onlyDue s k x) (ha : (s.schedOf k).active = some p)
    (hn : chainNamed (s.schedOf k).queue p.tag 0 .firedPreempted)
    (hx : ∀ o, ¬ChainFate (s.schedOf k).queue p.tag 0 .firedPreempted x o) :
    ∃ cs, chainIs (s.schedOf k).queue p.tag 0 .firedPreempted cs ∧
      endPulse k (markWaiting k s x.tag) .firedPreempted none =
        removed k cs (pulseGone k (some p) .firedPreempted none (markWaiting k s x.tag)) := by
  obtain ⟨cs, hcs, hdrops, hq⟩ := chainDrops_is hn
  obtain ⟨hnamed, hne⟩ := chain_named_fallen h hcs (fun z hz => (hq z hz).1) hx
  refine ⟨cs, hcs, ?_⟩
  have hact : ((markWaiting k s x.tag).schedOf k).active = some p := by rw [markWaiting_eq, schedOf_setQueue]; exact ha
  have hqueue : ((pulseGone k (some p) .firedPreempted none (markWaiting k s x.tag)).schedOf k).queue =
      updateShot x.tag (fallen s.timebase) (s.schedOf k).queue := by
    rw [schedOf_pulseGone, markWaiting_eq, schedOf_setQueue]
  have hmem : fallen s.timebase x ∈ updateShot x.tag (fallen s.timebase) (s.schedOf k).queue := by
    have hm : fallen s.timebase x ∈ (updateShot x.tag (fallen s.timebase) (s.schedOf k).queue).filter
        (fun y => y.tag == x.tag) := by
      rw [updateShot_named (onlyDue_named h) (fallen_keeps _)]
      exact List.mem_singleton_self _
    exact (List.mem_filter.1 hm).1
  rw [endPulse_some hact]
  generalize pulseGone k (some p) .firedPreempted none (markWaiting k s x.tag) = g at hqueue ⊢
  have hstays : drainAgrees (removed k cs g) := by
    refine drainAgrees_of_mem (k := k) (x := fallen s.timebase x) ?_
    rw [schedOf_of_set (removed_sched k cs g)]
    refine List.mem_filter.2 ⟨by rw [hqueue]; exact hmem, ?_⟩
    rw [Bool.not_eq_true', List.any_eq_false]
    exact fun z hz ht => hne z hz (beq_iff_eq.1 ht)
  have hfollow : followEnd g k p.tag .firedPreempted = removed k cs g := by
    have hl : (updateShot x.tag (fallen s.timebase) (s.schedOf k).queue).length = (s.schedOf k).queue.length :=
      List.length_map _
    unfold followEnd
    rw [if_neg (by decide), if_pos rfl, hqueue, hl, chainDrops_update _ (fallen_keeps _), hdrops,
      dropAll_removed k (by rwa [hqueue]) (drainAgrees_of_mem (by rw [hqueue]; exact hmem)), drainSettled_of_agrees hstays]
  rw [hfollow, drainTest_settled, drainSettled_of_agrees hstays]

/-- R105, R112, R113, R118: the state after a preemption, in the words of the statement. -/
theorem preempted_eq (h : onlyDue s k x) {cs : List (Shot × ShotOutcome)}
    (hcs : chainIs (s.schedOf k).queue p.tag 0 .firedPreempted cs) :
    let u := removed k cs (pulseGone k (some p) .firedPreempted none (markWaiting k s x.tag))
    u = { pulseOff s k (some p) with
      sched := s.sched.set k { s.schedOf k with
        active := none, cond := .gap, lastEnd := some s.timebase
        queue := withoutShots ((s.schedOf k).queue.map fun y => if y.tag = x.tag then fallen s.timebase x else y) cs
        shed := (s.schedOf k).shed + BitVec.ofNat 32 cs.length }
      events := if cs = [] then s.events else (s.raise .shed).events, sup := u.sup, service := u.service } ∧
    outcomesTold (endCounted s p.cyl) u (pulseOutcome s (some p) .firedPreempted none ++ chainOutcomes cs) ∧
    endPassed u k := by
  have hshed : ∀ z ∈ cs, z.2.isShed = true := fun z hz => chainFate_isShed ((hcs.2 z.1 z.2).1 hz)
  have htold := outcomesTold_trans
    (pulseGone_told (o := .firedPreempted) (by decide) k (some p) none (markWaiting k s x.tag))
    (removed_told k cs (pulseGone k (some p) .firedPreempted none (markWaiting k s x.tag)))
  have hsched : (removed k cs (pulseGone k (some p) .firedPreempted none (markWaiting k s x.tag))).sched =
      s.sched.set k { s.schedOf k with
        active := none, cond := .gap, lastEnd := some s.timebase
        queue := withoutShots ((s.schedOf k).queue.map fun y => if y.tag = x.tag then fallen s.timebase x else y) cs
        shed := (s.schedOf k).shed + BitVec.ofNat 32 cs.length } := by
    rw [removed_sched, schedOf_pulseGone, pulseGone_sched, pulseOff_sched, markWaiting_eq, schedOf_setQueue, setQueue_sched,
      banks_set_set, banks_set_set, droppedAll_shed _ hshed, updateShot_const (onlyDue_named h)]
    rfl
  obtain ⟨hrd, hrl, hre⟩ := removed_banks k cs (pulseGone k (some p) .firedPreempted none (markWaiting k s x.tag))
  obtain ⟨hpd, hpl, hpe⟩ := pulseGone_banks k (some p) .firedPreempted none (markWaiting k s x.tag)
  have hchange : BankChange s (removed k cs (pulseGone k (some p) .firedPreempted none (markWaiting k s x.tag))) :=
    BankChange.trans (t := markWaiting k s x.tag) rfl ((pulseGone_change _ _ _ _ _).trans (removed_change _ _ _))
  have hevents : (removed k cs (pulseGone k (some p) .firedPreempted none (markWaiting k s x.tag))).events =
      if cs = [] then s.events else (s.raise .shed).events := by
    rw [hre, eventsAfter_shed _ hshed, State.raise, hpe]
    rfl
  have hdrive := hrd.trans hpd
  have hlevel := hrl.trans hpl
  generalize removed k cs (pulseGone k (some p) .firedPreempted none (markWaiting k s x.tag)) = u
    at htold hsched hchange hevents hdrive hlevel
  refine ⟨eq_of_banks hchange rfl hsched hdrive hlevel hevents rfl rfl, htold, fun n hn => ?_⟩
  rw [schedOf_of_set hsched] at hn
  cases hn
  rw [hchange]
  exact Nat.le_refl _

end

/-! ### Deferral -/

theorem setQueue_setQueue (s : State) (k : Bank) (q q' : List Shot) : setQueue (setQueue s k q) k q' = setQueue s k q' := by
  rw [setQueue, setQueue_setSched, schedOf_setQueue]
  rfl

/-- R99: a shot deferred until an instant. -/
def putOff (deadline : Nat) (x : Shot) : Shot := { x with state := .deferred, deadline := some deadline }

theorem putOff_keeps (d : Nat) : Keeps (putOff d) := fun _ => ⟨rfl, rfl, rfl, rfl, rfl, rfl, rfl, rfl, rfl, rfl⟩

theorem markDeferred_eq (s : State) (x : Shot) : markDeferred s x.cyl x.tag = deferMarked s x := by
  unfold markDeferred deferMarked
  cases (s.supOf x.cyl).plan <;> rfl

theorem deferMarked_sup (s : State) (x : Shot) : deferMarked s x = { s with sup := (deferMarked s x).sup } := by
  unfold deferMarked
  cases (s.supOf x.cyl).plan <;> rfl

theorem deferMarked_sched (s : State) (x : Shot) : (deferMarked s x).sched = s.sched := by rw [deferMarked_sup]

theorem deferMarked_schedOf (s : State) (x : Shot) (k : Bank) : (deferMarked s x).schedOf k = s.schedOf k :=
  congrArg (Banks.get · k) (deferMarked_sched s x)

/-- The mark is of the Supervisor, the queue of the Scheduler. -/
theorem deferMarked_setQueue (s : State) (x : Shot) (k : Bank) (q : List Shot) :
    deferMarked (setQueue s k q) x = setQueue (deferMarked s x) k q := by
  have hsup : (setQueue s k q).supOf x.cyl = s.supOf x.cyl := rfl
  unfold deferMarked
  rw [hsup]
  cases (s.supOf x.cyl).plan <;> rfl

theorem deferredUntil_eq (s : State) (k : Bank) (x : Shot) (d : Nat) : deferredUntil s k x d =
    setQueue (deferMarked s x) k (updateShot x.tag (putOff d) (s.schedOf k).queue) := by
  unfold deferredUntil setQueue State.setSched
  rw [deferMarked_schedOf, deferMarked_sched]
  rfl

/-- R99, R100: a shot judged against a pulse is DEFERRED until its deadline, or shed where that has come. -/
theorem deferShot_eq {k : Bank} {s : State} {x : Shot} (hx : (s.schedOf k).queue.filter (fun y => y.tag == x.tag) = [x]) :
    deferShot k s x.tag = if deferDeadline s x ≤ s.timebase then dropWithChain k (deferMarked s x) x.tag .shedConflict
      else deferredUntil s k x (deferDeadline s x) := by
  have hmarked : ∀ m : State, m = deferredUntil s k x (deferDeadline s x) →
      (if deferDeadline s x ≤ m.timebase then dropWithChain k m x.tag .shedConflict else m) =
      if deferDeadline s x ≤ s.timebase then dropWithChain k (deferMarked s x) x.tag .shedConflict
      else deferredUntil s k x (deferDeadline s x) := by
    rintro m rfl
    refine if_congr ?_ ?_ rfl
    · rw [deferredUntil_eq, deferMarked_sup]
      exact Iff.rfl
    · rw [deferredUntil_eq, ← deferMarked_schedOf s x k]
      exact dropWithChain_update (s := deferMarked s x) (putOff_keeps _) (by rw [deferMarked_schedOf]; exact hx) _
  unfold deferShot
  rw [(eraseShot_named hx).1]
  refine hmarked _ ?_
  rw [markDeferred_eq, deferMarked_setQueue, deferredUntil_eq]
  rfl

section
variable {k : Bank} {s : State} {x : Shot} {p : Pulse}

theorem markWaiting_named (h : onlyDue s k x) : ((markWaiting k s x.tag).schedOf k).queue.filter
    (fun y => y.tag == (fallen s.timebase x).tag) = [fallen s.timebase x] := by
  rw [markWaiting_eq, schedOf_setQueue]
  exact updateShot_named (onlyDue_named h) (fallen_keeps _)

/-- R99: a shot that falls due against a pulse it does not preempt, and that its class lets wait. -/
theorem deferShot_fallen (h : onlyDue s k x) (hl : 0 < 10 * s.tables.limits.deferUs x.cls) :
    deferShot k (markWaiting k s x.tag) x.tag = { deferMarked s x with
      sched := s.sched.set k { s.schedOf k with
        queue := (s.schedOf k).queue.map fun y =>
          if y.tag = x.tag then putOff (s.timebase + 10 * s.tables.limits.deferUs x.cls) (fallen s.timebase x) else y } } := by
  have hd := deferShot_eq (markWaiting_named h)
  have hn : ¬deferDeadline (markWaiting k s x.tag) (fallen s.timebase x) ≤ (markWaiting k s x.tag).timebase :=
    Nat.not_le.2 (Nat.lt_add_of_pos_right hl)
  have hq : updateShot x.tag (putOff (s.timebase + 10 * s.tables.limits.deferUs x.cls))
      (updateShot x.tag (fallen s.timebase) (s.schedOf k).queue) = (s.schedOf k).queue.map fun y =>
        if y.tag = x.tag then putOff (s.timebase + 10 * s.tables.limits.deferUs x.cls) (fallen s.timebase x) else y := by
    rw [updateShot_const (onlyDue_named h) (fallen s.timebase)]
    unfold updateShot
    rw [List.map_map]
    refine List.map_congr_left fun y _ => ?_
    by_cases ht : y.tag = x.tag <;> simp [ht, fallen]
  have hm : deferMarked (markWaiting k s x.tag) (fallen s.timebase x) = markWaiting k (deferMarked s x) x.tag := by
    have ht : (deferMarked s x).timebase = s.timebase := by rw [deferMarked_sup]
    rw [markWaiting_eq, markWaiting_eq, ht, deferMarked_schedOf]
    exact deferMarked_setQueue s x k _
  rw [if_neg hn, deferredUntil_eq, hm, markWaiting_eq, markWaiting_eq, schedOf_setQueue, setQueue_setQueue] at hd
  rw [← hq]
  refine hd.trans ?_
  unfold setQueue State.setSched
  rw [deferMarked_schedOf, deferMarked_sched]
  rfl

/-- R99: a shot that falls due against a pulse it does not preempt, and that its class does not let wait. -/
theorem deferShot_late (h : onlyDue s k x) (hl : 10 * s.tables.limits.deferUs x.cls = 0) :
    deferShot k (markWaiting k s x.tag) x.tag = dropWithChain k (deferMarked s x) x.tag .shedConflict := by
  have hd := deferShot_eq (markWaiting_named h)
  have hle : deferDeadline (markWaiting k s x.tag) (fallen s.timebase x) ≤ (markWaiting k s x.tag).timebase := by
    show s.timebase + 10 * s.tables.limits.deferUs x.cls ≤ s.timebase
    rw [hl]
    exact Nat.le_refl _
  have hq : deferMarked (markWaiting k s x.tag) (fallen s.timebase x) =
      setQueue (deferMarked s x) k (updateShot x.tag (fallen s.timebase) ((deferMarked s x).schedOf k).queue) := by
    rw [markWaiting_eq, deferMarked_schedOf]
    exact deferMarked_setQueue s x k _
  rw [if_pos hle, hq] at hd
  exact hd.trans (dropWithChain_update (fallen_keeps _) (by rw [deferMarked_schedOf]; exact onlyDue_named h) _)

/-- DRAINING goes on while a pulse is on. -/
theorem drainAgrees_of_active {k : Bank} {s : State} (h : (s.schedOf k).active ≠ none) : drainAgrees s := fun _ =>
  Bool.eq_false_iff.2 fun hd => h (drained_iff.1 hd k).2

end

/-- Settles O43: the window, the bank in GAP, and the three fates against an active pulse. -/
theorem dueShotOnABusyBank : Obligations.DueShotOnABusyBank := by
  unfold Obligations.DueShotOnABusyBank
  refine ⟨fun k s x hf h ha hw hc hn => ?_, fun k s x hf h hw => ?_⟩
  · have hd : duePassed s k x = true := by
      rw [inWindow_iff, Bool.not_eq_false] at hw
      unfold duePassed
      rw [ha, Bool.and_assoc, hw]
      rfl
    rw [exec_due hf h, takeDue_busy h hc, if_pos hd]
    exact ⟨_, rfl, dropWithChain_shed k s x .shedWindow rfl (onlyDue_named h) hn⟩
  · have hd : duePassed s k x = false := by
      cases ha : x.isAngle with
      | true => unfold duePassed; rw [ha]; rfl
      | false => exact duePassed_of_inWindow (hw ha)
    have htake : (s.schedOf k).cond ≠ .idle → exec (dueCommand k x) s = .next (takeOneDue k s x.tag) := fun hc => by
      rw [exec_due hf h, takeDue_busy h hc, if_neg (Bool.eq_false_iff.1 hd)]
    refine ⟨fun hc ha => ?_, fun hc p ha hr hm hn hx => ?_, fun hc p ha hr => ⟨fun hl => ?_, fun hl hn => ?_⟩⟩
    · have hcond : ((markWaiting k s x.tag).schedOf k).cond ≠ .idle := by
        rw [markWaiting_eq, schedOf_setQueue]
        show (s.schedOf k).cond ≠ .idle
        rw [hc]
        exact BankCond.noConfusion
      rw [htake (by rw [hc]; exact BankCond.noConfusion), takeOneDue_free h hd ha, runArbiter, if_neg hcond, markWaiting_eq,
        updateShot_const (onlyDue_named h)]
      rfl
    · obtain ⟨cs, hcs, hend⟩ := endPulse_preempted h ha hn hx
      obtain ⟨hu, htold, hpast⟩ := preempted_eq h hcs
      rw [htake (by rw [hc]; exact BankCond.noConfusion), takeOneDue_pulse h hd ha, if_pos (preempts_iff.2 ⟨hr, hm⟩), hend]
      exact ⟨_, _, cs, rfl, gapSettled_settleGap hpast, hcs, hu, htold⟩
    · rw [htake (by rw [hc]; exact BankCond.noConfusion), takeOneDue_pulse h hd ha, if_neg (fun hp => hr (preempts_iff.1 hp)),
        deferShot_fallen h hl]
      unfold deferMarked
      cases (s.supOf x.cyl).plan <;> rfl
    · obtain ⟨cs, hcs, ht, htold⟩ := dropWithChain_shed k (deferMarked s x) x .shedConflict rfl
        (by rw [deferMarked_schedOf]; exact onlyDue_named h) (by rw [deferMarked_schedOf]; exact hn)
      rw [deferMarked_schedOf] at hcs ht
      rw [htake (by rw [hc]; exact BankCond.noConfusion), takeOneDue_pulse h hd ha, if_neg (fun hp => hr (preempts_iff.1 hp)),
        deferShot_late h hl]
      generalize dropWithChain k (deferMarked s x) x.tag .shedConflict = t at ht htold
      rw [drainSettled_of_agrees (drainAgrees_of_active (k := k) (by
        rw [State.schedOf, banks_get_set_same]
        show (s.schedOf k).active ≠ none
        rw [ha]
        exact Option.some_ne_none p))] at ht
      refine ⟨t, cs, rfl, hcs, ?_, ?_⟩
      · rw [ht, deferMarked_sup]
        rfl
      · have hmark : ∀ m : State, m = deferMarked s x → outcomesTold m t (chainOutcomes ((x, .shedConflict) :: cs)) :=
          fun m hm => hm ▸ htold
        refine hmark _ ?_
        unfold deferMarked
        cases (s.supOf x.cyl).plan <;> rfl

end Sys2Proof.Proofs.Conflict
end

section
/-! SUPPORT. The arbiter with any number of waiting shots, and the end of a gap. -/

namespace Sys2Proof.Proofs.Gap

open Sys2Proof Sys2Proof.Machine Sys2Proof.Laws Sys2Proof.Laws.Fine Sys2Proof.Proofs.Freeze Sys2Proof.Proofs.Frames
  Sys2Proof.Proofs.Removals Sys2Proof.Proofs.Cancelling Sys2Proof.Proofs.Arbiter Sys2Proof.Proofs.Due
  Sys2Proof.Proofs.Conflict

/-! ### Queues whose tags name the shots -/

theorem chainFate_mem {q : List Shot} {tag : Byte} {e : Nat} {o p : ShotOutcome} {y : Shot} (h : ChainFate q tag e o y p) :
    y ∈ q := by
  cases h with
  | first hy _ => exact hy
  | next _ hy _ => exact hy

theorem chainFate_mono {q q' : List Shot} (hq : ∀ y ∈ q', y ∈ q) {tag : Byte} {e : Nat} {o p : ShotOutcome} {y : Shot}
    (h : ChainFate q' tag e o y p) : ChainFate q tag e o y p := by
  induction h with
  | first hy hf => exact .first (hq _ hy) hf
  | next _ hz hf ih => exact .next ih (hq _ hz) hf

/-- R78: fewer shots are named the more. -/
theorem chainsNamed_sublist {q q' : List Shot} (hq : q'.Sublist q) (h : chainsNamed q) : chainsNamed q' := by
  obtain ⟨hn, hc⟩ := h
  have hn' : (q'.map Shot.tag).Nodup := hn.sublist (hq.map _)
  exact ⟨hn', fun x hx o y p hy => ⟨(hc x (hq.subset hx) o y p (chainFate_mono (fun _ h => hq.subset h) hy)).1,
    filter_tag_of_nodup hn' (chainFate_mem hy)⟩⟩

/-- An update that keeps what names a shot and its predecessor. -/
theorem chainFate_map {q : List Shot} {g : Shot → Shot} (hg : Keeps g) {tag : Byte} {e : Nat} {o p : ShotOutcome}
    {y : Shot} (h : ChainFate (q.map g) tag e o y p) : ∃ x ∈ q, g x = y ∧ ChainFate q tag e o x p := by
  have hfollows : ∀ x t, (g x).follows t = x.follows t := fun x t => by
    obtain ⟨-, -, -, -, -, ha, -⟩ := hg x
    unfold Shot.follows
    rw [ha]
  have hentry : ∀ x, (g x).entry = x.entry := fun x => (hg x).2.2.1
  induction h with
  | first hy hf =>
    obtain ⟨x, hx, rfl⟩ := List.mem_map.1 hy
    rw [hentry]
    exact ⟨x, hx, rfl, .first hx (by rwa [hfollows] at hf)⟩
  | next _ hz hf ih =>
    obtain ⟨y, hy, rfl, hfate⟩ := ih
    obtain ⟨z, hm, rfl⟩ := List.mem_map.1 hz
    rw [hentry, hentry]
    exact ⟨z, hm, rfl, .next hfate hm (by rwa [hfollows, (hg y).1] at hf)⟩

theorem map_tag_of_keeps {g : Shot → Shot} (hg : Keeps g) (q : List Shot) : (q.map g).map Shot.tag = q.map Shot.tag := by
  rw [List.map_map]
  exact List.map_congr_left fun x _ => (hg x).1

theorem chainsNamed_map {q : List Shot} {g : Shot → Shot} (hg : Keeps g) (h : chainsNamed q) : chainsNamed (q.map g) := by
  obtain ⟨hn, hc⟩ := h
  have hn' : ((q.map g).map Shot.tag).Nodup := by rwa [map_tag_of_keeps hg]
  refine ⟨hn', fun x hx o y p hy => ?_⟩
  obtain ⟨z, hz, rfl⟩ := List.mem_map.1 hx
  refine ⟨?_, filter_tag_of_nodup hn' (chainFate_mem hy)⟩
  rw [(hg z).1, (hg z).2.2.1] at hy
  obtain ⟨w, -, rfl, hfate⟩ := chainFate_map hg hy
  rw [(hg w).1, (hg z).1]
  exact (hc z hz o w p hfate).1

theorem updateShot_keeps {f : Shot → Shot} (hf : Keeps f) (tag : Byte) : Keeps fun y => if y.tag = tag then f y else y :=
  fun y => by
    dsimp only
    split
    · exact hf y
    · exact ⟨rfl, rfl, rfl, rfl, rfl, rfl, rfl, rfl, rfl, rfl⟩

theorem chainsNamed_named {q : List Shot} (h : chainsNamed q) {x : Shot} (hx : x ∈ q) :
    q.filter (fun y => y.tag == x.tag) = [x] := filter_tag_of_nodup h.1 hx

theorem eq_of_tag {q : List Shot} (h : chainsNamed q) {x y : Shot} (hx : x ∈ q) (hy : y ∈ q) (ht : y.tag = x.tag) :
    y = x := by
  have hm : y ∈ q.filter fun y => y.tag == x.tag := List.mem_filter.2 ⟨hy, beq_iff_eq.2 ht⟩
  rw [chainsNamed_named h hx, List.mem_singleton] at hm
  exact hm

/-- R93: the queue that a shed shot leaves. -/
theorem shedNow_queue {s t : State} {k : Bank} {x : Shot} {o : ShotOutcome} (h : shedNow s k x o t) :
    ∃ cs, (t.schedOf k).queue = withoutShots (s.schedOf k).queue ((x, o) :: cs) := by
  obtain ⟨cs, -, ht, -⟩ := h
  refine ⟨cs, ?_⟩
  rw [ht, State.schedOf, (drainSettled_kept _).1]
  exact congrArg Sched.queue (banks_get_set_same _ _ _)

/-! ### The others, judged against the pulse -/

/-- R99, R100: the shots of a list, judged one after another. -/
theorem restJudged (k : Bank) (xs : List Shot) {s : State} (hq : chainsNamed (s.schedOf k).queue)
    (hn : (xs.map Shot.tag).Nodup)
    (hx : ∀ x ∈ xs, x ∈ (s.schedOf k).queue ∨ ∀ y ∈ (s.schedOf k).queue, y.tag ≠ x.tag) :
    RestJudged k xs s ((xs.map Shot.tag).foldl (deferShot k) s) := by
  induction xs generalizing s with
  | nil => exact .done
  | cons x xs ih =>
    obtain ⟨hxs, hn⟩ := List.nodup_cons.1 hn
    have hne : ∀ z ∈ xs, z.tag ≠ x.tag := fun z hz ht => hxs (List.mem_map.2 ⟨z, hz, ht⟩)
    rw [List.map_cons, List.foldl_cons]
    rcases hx x List.mem_cons_self with hm | hgone
    · rw [deferShot_eq (chainsNamed_named hq hm)]
      split
      · rename_i hle
        have hshed := dropWithChain_shed k (deferMarked s x) x .shedConflict rfl
          (by rw [deferMarked_schedOf]; exact chainsNamed_named hq hm)
          (by rw [deferMarked_schedOf]; exact hq.2 x hm .shedConflict)
        refine .late hm hle hshed ?_
        obtain ⟨cs, hleft⟩ := shedNow_queue hshed
        generalize dropWithChain k (deferMarked s x) x.tag .shedConflict = u at hleft
        rw [deferMarked_schedOf] at hleft
        refine ih (by rw [hleft]; exact chainsNamed_sublist List.filter_sublist hq) hn fun z hz => ?_
        rw [hleft]
        unfold withoutShots
        rcases hx z (List.mem_cons_of_mem _ hz) with hzq | hzg
        · by_cases hz' : z ∈ (s.schedOf k).queue.filter fun y => !((x, .shedConflict) :: cs).any fun w => w.1.tag == y.tag
          · exact .inl hz'
          · refine .inr fun y hy ht => hz' ?_
            rwa [← eq_of_tag hq hzq (List.mem_filter.1 hy).1 ht]
        · exact .inr fun y hy => hzg y (List.mem_filter.1 hy).1
      · rename_i hlt
        refine .deferred hm (Nat.not_le.1 hlt) ?_
        have hleft : ((deferredUntil s k x (deferDeadline s x)).schedOf k).queue =
            updateShot x.tag (putOff (deferDeadline s x)) (s.schedOf k).queue := by
          rw [deferredUntil_eq, schedOf_setQueue]
        refine ih (by rw [hleft]; exact chainsNamed_map (updateShot_keeps (putOff_keeps _) _) hq) hn fun z hz => ?_
        rw [hleft]
        unfold updateShot
        refine (hx z (List.mem_cons_of_mem _ hz)).imp (fun hzq => ?_) fun hzg y hy => ?_
        · exact List.mem_map.2 ⟨z, hzq, if_neg (hne z hz)⟩
        · obtain ⟨w, hw, rfl⟩ := List.mem_map.1 hy
          rw [(updateShot_keeps (putOff_keeps _) _ w).1]
          exact hzg w hw
    · have hnone : deferShot k s x.tag = s := by
        have hfind : findShot x.tag (s.schedOf k).queue = none :=
          List.find?_eq_none.2 fun y hy => by simpa using hgone y hy
        unfold deferShot
        rw [hfind]
      rw [hnone]
      exact .gone hgone (ih hq hn fun z hz => hx z (List.mem_cons_of_mem _ hz))

/-! ### The arbiter -/

theorem startedNow_queue (s : State) (k : Bank) (x : Shot) (dg : Bool) :
    ((startedNow s k x dg).schedOf k).queue = (s.schedOf k).queue.filter fun y => y.tag != x.tag :=
  congrArg Sched.queue (banks_get_set_same _ _ _)

theorem deferRest_judged {k : Bank} {s : State} {x : Shot} (dg : Bool) (hq : chainsNamed (s.schedOf k).queue) :
    RestJudged k ((s.schedOf k).queue.filter fun y => y.tag != x.tag && y.waiting && y.state != .deferred)
      (startedNow s k x dg) (deferRest k (startedNow s k x dg)) := by
  have hrest : ((startedNow s k x dg).schedOf k).queue.filter (fun y => y.waiting && y.state != .deferred) =
      (s.schedOf k).queue.filter fun y => y.tag != x.tag && y.waiting && y.state != .deferred := by
    rw [startedNow_queue, List.filter_filter]
    refine List.filter_congr fun y _ => ?_
    cases y.tag != x.tag <;> simp
  unfold deferRest
  rw [← hrest]
  have hnamed : chainsNamed ((startedNow s k x dg).schedOf k).queue := by
    rw [startedNow_queue]
    exact chainsNamed_sublist List.filter_sublist hq
  exact restJudged k _ hnamed (hnamed.1.sublist (List.filter_sublist.map _)) fun z hz => .inl (List.mem_filter.1 hz).1

/-- R100: the arbiter's choices are as many as the queue is long. -/
theorem arbitrate_arbitrated (k : Bank) (n : Nat) {s : State} (hl : (s.schedOf k).queue.length ≤ n)
    (hq : chainsNamed (s.schedOf k).queue) : Arbitrated k s (arbitrate n k s) := by
  induction n generalizing s with
  | zero =>
    refine .idle fun y hy => ?_
    rw [List.eq_nil_of_length_eq_zero (Nat.le_zero.1 hl)] at hy
    cases hy
  | succ n ih =>
    unfold arbitrate
    cases hc : chooseWaiting (s.schedOf k).queue with
    | none => exact .idle (chooseWaiting_eq_none.1 hc)
    | some x =>
      have hch := chooseWaiting_chosen hc
      have hm := (chooseWaiting_mem hc).1
      dsimp only
      rcases startTest_cases s k x with ⟨o, -, hr⟩ | ⟨dg, -, ha⟩
      · rw [attemptStart_refused hr]
        have hshed := dropWithChain_shed k s x o (startRefused_isShed hr) (chainsNamed_named hq hm) (hq.2 x hm o)
        obtain ⟨cs, hleft⟩ := shedNow_queue hshed
        refine .refused hch hr hshed (ih ?_ (by rw [hleft]; exact chainsNamed_sublist List.filter_sublist hq))
        rw [hleft]
        refine Nat.le_of_lt_succ (Nat.lt_of_lt_of_le (List.length_filter_lt_length_iff_exists.2 ⟨x, hm, ?_⟩) hl)
        simp
      · rw [attemptStart_admitted (chainsNamed_named hq hm) ha]
        exact .opens hch ha (deferRest_judged dg hq)

theorem runArbiter_arbitrated {k : Bank} {s : State} (hc : (s.schedOf k).cond = .idle)
    (hq : chainsNamed (s.schedOf k).queue) : Arbitrated k s (runArbiter k s) := by
  unfold runArbiter
  rw [if_pos hc]
  exact arbitrate_arbitrated k _ (Nat.le_refl _) hq

/-! ### What the arbiter leaves, whatever the queue holds -/

theorem deferShot_cond (k : Bank) (s : State) (tag : Byte) : ((deferShot k s tag).schedOf k).cond = (s.schedOf k).cond := by
  have hset : ∀ q, ((setQueue s k q).schedOf k).cond = (s.schedOf k).cond := fun q => by rw [schedOf_setQueue]
  unfold deferShot
  cases findShot tag (s.schedOf k).queue with
  | none => rfl
  | some x =>
    have hmark : ∀ u : State, ((markDeferred u x.cyl tag).schedOf k).cond = (u.schedOf k).cond := fun u => by
      unfold markDeferred
      cases (u.supOf x.cyl).plan <;> rfl
    dsimp only
    split
    · rw [dropWithChain_cond, hmark, hset]
    · rw [hmark, hset]

theorem deferRest_cond (k : Bank) (s : State) : ((deferRest k s).schedOf k).cond = (s.schedOf k).cond := by
  unfold deferRest
  generalize ((s.schedOf k).queue.filter fun x => x.waiting && x.state != .deferred).map Shot.tag = l
  induction l generalizing s with
  | nil => rfl
  | cons t l ih => rw [List.foldl_cons, ih, deferShot_cond]

theorem length_dropAll (k : Bank) (l : List (Byte × ShotOutcome)) (s : State) :
    ((l.foldl (dropShot k) s).schedOf k).queue.length ≤ (s.schedOf k).queue.length := by
  induction l generalizing s with
  | nil => exact Nat.le_refl _
  | cons z l ih =>
    refine Nat.le_trans (ih _) ?_
    rw [State.schedOf, dropShot_sched, banks_get_set_same]
    unfold droppedFrom
    split
    · exact Nat.le_refl _
    · exact List.eraseP_sublist.length_le

/-- R93: a shot that is dropped leaves the queue shorter. -/
theorem length_dropWithChain {k : Bank} {s : State} {x : Shot} (hx : x ∈ (s.schedOf k).queue) (o : ShotOutcome) :
    ((dropWithChain k s x.tag o).schedOf k).queue.length < (s.schedOf k).queue.length := by
  unfold dropWithChain
  dsimp only
  cases hf : findShot x.tag (s.schedOf k).queue with
  | none => exact absurd (beq_self_eq_true x.tag) (List.find?_eq_none.1 hf x hx)
  | some y =>
    refine Nat.lt_of_le_of_lt (length_dropAll k _ (dropShot k s (x.tag, o))) ?_
    rw [State.schedOf, dropShot_sched, banks_get_set_same]
    unfold droppedFrom
    dsimp only
    rw [hf]
    dsimp only
    unfold eraseShot
    rw [List.length_eraseP_of_mem (List.mem_of_find?_eq_some hf) (List.find?_some hf)]
    exact Nat.sub_lt (List.length_pos_of_mem hx) Nat.one_pos

/-- R100: after the arbiter a pulse is on, or no shot waits. -/
theorem arbitrate_settles (k : Bank) (n : Nat) {s : State} (hl : (s.schedOf k).queue.length ≤ n)
    (hc : (s.schedOf k).cond = .idle) : ((arbitrate n k s).schedOf k).cond = .active ∨
      (((arbitrate n k s).schedOf k).cond = .idle ∧ ∀ y ∈ ((arbitrate n k s).schedOf k).queue, y.waiting = false) := by
  induction n generalizing s with
  | zero =>
    refine .inr ⟨hc, fun y hy => ?_⟩
    rw [show arbitrate 0 k s = s from rfl, List.eq_nil_of_length_eq_zero (Nat.le_zero.1 hl)] at hy
    cases hy
  | succ n ih =>
    unfold arbitrate
    cases hch : chooseWaiting (s.schedOf k).queue with
    | none => exact .inr ⟨hc, chooseWaiting_eq_none.1 hch⟩
    | some x =>
      have hm := (chooseWaiting_mem hch).1
      have hopen : ∀ u dg, ((deferRest k (openPulse k u x dg)).schedOf k).cond = .active := fun u dg => by
        rw [deferRest_cond]
        unfold openPulse
        rw [traceStart_eq]
        exact congrArg Sched.cond (banks_get_set_same _ _ _)
      dsimp only
      unfold attemptStart
      cases startTest s k x with
      | refused o =>
        refine ih (Nat.le_of_lt_succ (Nat.lt_of_lt_of_le (length_dropWithChain hm o) hl)) ?_
        rw [dropWithChain_cond]
        exact hc
      | boosted => exact .inl (hopen _ _)
      | degraded => exact .inl (hopen _ _)

/-- R96: the gap's end, once it has come. -/
theorem exec_gapEnd {k : Bank} {s : State} {n : Nat} (hc : (s.schedOf k).cond = .gap) (hl : (s.schedOf k).lastEnd = some n) :
    exec (.gapEnd k) s = .next (if n + 10 * s.tables.limits.bankGapUs ≤ s.timebase then runArbiter k (gapPast s k) else s) := by
  have hdue : dueGapEnd s k = decide (n + 10 * s.tables.limits.bankGapUs ≤ s.timebase) := by
    unfold dueGapEnd gapOver
    rw [hc, hl]
    rfl
  show Host.Outcome.next (whenDue (dueGapEnd s k) (endGap k) s) = _
  unfold whenDue
  rw [hdue]
  by_cases hd : n + 10 * s.tables.limits.bankGapUs ≤ s.timebase
  · rw [if_pos hd, if_pos (decide_eq_true hd)]
    rfl
  · rw [if_neg hd, if_neg (by simpa using hd)]

theorem schedOf_gapPast (s : State) (k : Bank) : (gapPast s k).schedOf k = { s.schedOf k with cond := .idle } :=
  banks_get_set_same _ _ _

/-- The tests at the start instant read nothing that the end of a gap changes. -/
theorem startAdmitted_gapPast {s : State} {k : Bank} {x : Shot} {dg : Bool} (h : startAdmitted s k x dg) :
    startAdmitted (gapPast s k) k x dg := by
  have hw : inWindow (gapPast s k) k x ↔ inWindow s k x := by
    unfold inWindow windowPassed trackOf
    rw [schedOf_gapPast]
    exact Iff.rfl
  exact ⟨hw.2 h.1, h.2⟩

/-- Settles O44: the arbiter on the bank whose gap is over. -/
theorem gapEndActsTheArbiter : Obligations.GapEndActsTheArbiter := by
  unfold Obligations.GapEndActsTheArbiter
  intro k s n hc hl
  rw [exec_gapEnd hc hl]
  refine ⟨fun hlt => by rw [if_neg (Nat.not_le.2 hlt)], fun hle => ?_⟩
  rw [if_pos hle]
  have hq : ((gapPast s k).schedOf k).queue = (s.schedOf k).queue := by rw [schedOf_gapPast]
  have hi : ((gapPast s k).schedOf k).cond = .idle := by rw [schedOf_gapPast]
  refine ⟨fun hn => ⟨_, rfl, runArbiter_arbitrated hi (by rwa [hq])⟩, fun hw => ?_, ⟨_, rfl, ?_⟩, fun x hx hone hwin hlow => ?_⟩
  · exact congrArg Host.Outcome.next (runArbiter_of_none (chooseWaiting_eq_none.2 (by rwa [hq])))
  · unfold runArbiter
    rw [if_pos hi]
    exact arbitrate_settles k _ (Nat.le_refl _) hi
  · have honly : OnlyWaiting ((gapPast s k).schedOf k).queue x := ⟨hx, by rwa [hq]⟩
    exact ⟨fun hb => congrArg Host.Outcome.next
        (runArbiter_opens (dg := false) hi honly (startAdmitted_gapPast ⟨hwin, hlow, hb⟩)),
      fun hb hm => congrArg Host.Outcome.next
        (runArbiter_opens (dg := true) hi honly (startAdmitted_gapPast ⟨hwin, hlow, hb, hm⟩))⟩

end Sys2Proof.Proofs.Gap
end

section
/-! SUPPORT. Shots of a queue and the pulse of its bank gone in one act, and the acts that come to that: the scheduled end,
the window close, the cut and the service chain ended by an edge. -/

namespace Sys2Proof.Proofs.Sweeps

open Sys2Proof Sys2Proof.Machine Sys2Proof.Laws Sys2Proof.Laws.Fine Sys2Proof.Proofs.Freeze Sys2Proof.Proofs.Frames
  Sys2Proof.Proofs.Removals Sys2Proof.Proofs.Cancelling Sys2Proof.Proofs.Arbiter Sys2Proof.Proofs.Conflict

/-! ### The drain test between two removals -/

theorem drainSettled_not {s : State} (h : drained s = false) : drainSettled s = s :=
  drainSettled_of_agrees fun _ => h

theorem drainSettled_idem (s : State) : drainSettled (drainSettled s) = drainSettled s :=
  drainSettled_of_agrees (drainSettled_agrees s)

theorem schedOf_drainSettled (s : State) (k : Bank) : (drainSettled s).schedOf k = s.schedOf k :=
  congrArg (Banks.get · k) (drainSettled_kept s).1

theorem drainSettled_timebase (s : State) : (drainSettled s).timebase = s.timebase := by
  obtain ⟨-, -, -, ht, -⟩ := drainSettled_kept s
  exact ht

/-- A drain test before an act that has nothing to do on empty banks is the one after it. -/
theorem drainSettled_absorb {s : State} {f : State → State}
    (h : drained s = true → f s = s ∧ f (drainSettled s) = drainSettled s) :
    drainSettled (f (drainSettled s)) = drainSettled (f s) := by
  cases hd : drained s with
  | false => rw [drainSettled_not hd]
  | true =>
    obtain ⟨h1, h2⟩ := h hd
    rw [h1, h2, drainSettled_idem]

theorem schedOf_discardTrack (s : State) (k : Bank) (c : Cyl) : (discardTrack s k c).schedOf k =
    { s.schedOf k with tracks := (s.schedOf k).tracks.filter fun t => t.cyl != c } := banks_get_set_same _ _ _

/-- The drain test does not ask for the tracks. -/
theorem drainSettled_discardTrack (s : State) (k : Bank) (c : Cyl) :
    drainSettled (discardTrack s k c) = discardTrack (drainSettled s) k c := by
  have hd : drained (discardTrack s k c) = drained s := by cases k <;> rfl
  rw [← drainTest_settled, ← drainTest_settled]
  unfold drainTest
  rw [hd]
  show (if s.firing = .draining ∧ drained s = true then _ else _) = _
  split
  · unfold goSafe State.takePendingSwap discardTrack State.setSched State.setLink State.setFiring
    by_cases hp : s.tables.swapPending = true
    · simp only [hp, if_true]
      rfl
    · simp only [hp]
      rfl
  · rfl

/-! ### Shots and a pulse gone in one act -/

theorem pulseOff_queue (s : State) (k : Bank) (p : Option Pulse) :
    ((pulseOff s k p).schedOf k).queue = (s.schedOf k).queue ∧ ((pulseOff s k p).schedOf k).shed = (s.schedOf k).shed ∧
    ((pulseOff s k p).schedOf k).cancelled = (s.schedOf k).cancelled ∧
    ((pulseOff s k p).schedOf k).tracks = (s.schedOf k).tracks := by
  cases p with
  | none => exact ⟨rfl, rfl, rfl, rfl⟩
  | some p =>
    rw [schedOf_of_set (pulseOff_sched s k p)]
    exact ⟨rfl, rfl, rfl, rfl⟩

theorem pulseOff_set (s : State) (k : Bank) (p : Option Pulse) (x : Sched) :
    (pulseOff s k p).sched.set k x = s.sched.set k x := by
  cases p with
  | none => rfl
  | some p => rw [pulseOff_sched, banks_set_set]

/-- Shots of a bank's queue, and its pulse if it is the given one, are gone. -/
structure Swept (k : Bank) (p : Option Pulse) (cs : List (Shot × ShotOutcome)) (s u : State) : Prop where
  change : BankChange s u
  sched : u.sched = s.sched.set k (droppedAll ((pulseOff s k p).schedOf k) cs)
  drive : u.drive = (pulseOff s k p).drive
  level : u.level = (pulseOff s k p).level
  events : u.events = eventsAfter s cs

theorem eventsAfter_congr {s t : State} (h : t.events = s.events) (cs : List (Shot × ShotOutcome)) :
    eventsAfter t cs = eventsAfter s cs := by
  unfold eventsAfter State.raise
  rw [h]
  rfl

/-- The pulse first, then the shots. -/
theorem swept_pulse_first (k : Bank) (p : Option Pulse) (o : ShotOutcome) (f : Option FaultKind)
    (cs : List (Shot × ShotOutcome)) (s : State) : Swept k p cs s (removed k cs (pulseGone k p o f s)) := by
  obtain ⟨hrd, hrl, hre⟩ := removed_banks k cs (pulseGone k p o f s)
  obtain ⟨hpd, hpl, hpe⟩ := pulseGone_banks k p o f s
  have hs : (pulseGone k p o f s).schedOf k = (pulseOff s k p).schedOf k := congrArg (Banks.get · k) (pulseGone_sched _ _ _ _ _)
  refine ⟨(pulseGone_change _ _ _ _ _).trans (removed_change _ _ _), ?_, hrd.trans hpd, hrl.trans hpl,
    hre.trans (eventsAfter_congr hpe cs)⟩
  rw [removed_sched, hs, pulseGone_sched, pulseOff_set]

/-- The shots first, then the pulse. -/
theorem swept_shots_first (k : Bank) (p : Option Pulse) (o : ShotOutcome) (f : Option FaultKind)
    (cs : List (Shot × ShotOutcome)) (s : State) : Swept k p cs s (pulseGone k p o f (removed k cs s)) := by
  obtain ⟨hrd, hrl, hre⟩ := removed_banks k cs s
  obtain ⟨hpd, hpl, hpe⟩ := pulseGone_banks k p o f (removed k cs s)
  have hch := removed_change k cs s
  have htime : (removed k cs s).timebase = s.timebase := by rw [hch]; rfl
  have hlim : (removed k cs s).tables.limits = s.tables.limits := by rw [hch]; rfl
  have hs := schedOf_of_set (removed_sched k cs s)
  have hdr : (removed k cs s).driveOf k = s.driveOf k := congrArg (Banks.get · k) hrd
  refine ⟨hch.trans (pulseGone_change _ _ _ _ _), ?_, hpd.trans ?_, hpl.trans ?_, hpe.trans hre⟩
  · rw [pulseGone_sched]
    cases p with
    | none => exact removed_sched k cs s
    | some p =>
      rw [pulseOff_sched, hs, removed_sched, banks_set_set, schedOf_of_set (pulseOff_sched s k p), htime]
      rfl
  · cases p with
    | none => exact hrd
    | some p =>
      show (removed k cs s).drive.set k (stageEnded ((removed k cs s).driveOf k)) = s.drive.set k (stageEnded (s.driveOf k))
      rw [hrd, hdr]
  · cases p with
    | none => exact hrl
    | some p =>
      show (removed k cs s).level.set k (recuperated (removed k cs s) k) = s.level.set k (recuperated s k)
      rw [hrl, recuperated_congr hrl hrd hlim]

theorem swept_told_pulse_first {o : ShotOutcome} (ho : o ≠ .faulted) (k : Bank) (p : Option Pulse) (f : Option FaultKind)
    (cs : List (Shot × ShotOutcome)) (s : State) : outcomesTold (pulseCounted s p) (removed k cs (pulseGone k p o f s))
      (pulseOutcome s p o f ++ chainOutcomes cs) :=
  outcomesTold_trans (pulseGone_told ho k p f s) (removed_told k cs _)

theorem swept_told_shots_first {o : ShotOutcome} (ho : o ≠ .faulted) (k : Bank) (p : Option Pulse) (f : Option FaultKind)
    (cs : List (Shot × ShotOutcome)) (s : State) : outcomesTold (pulseCounted s p) (pulseGone k p o f (removed k cs s))
      (chainOutcomes cs ++ pulseOutcome s p o f) := by
  have htime : (removed k cs s).timebase = s.timebase := by rw [removed_change k cs s]; rfl
  have h := pulseGone_told ho k p f (removed k cs s)
  rw [pulseOutcome_congr htime] at h
  exact outcomesTold_trans (pulseCounted_told (removed_told k cs s) p) h

/-- R95, R109: what a sweep has left of the bank. -/
theorem Swept.eq {k : Bank} {p : Option Pulse} {cs : List (Shot × ShotOutcome)} {s u : State} (h : Swept k p cs s u) :
    u = { pulseOff s k p with
      sched := (pulseOff s k p).sched.set k (droppedAll ((pulseOff s k p).schedOf k) cs)
      events := eventsAfter s cs, sup := u.sup, service := u.service } := by
  refine eq_of_banks h.change ?_ ?_ h.drive h.level h.events rfl rfl
  · show _ = withBanks s _
    have hp := pulseOff_change s k p
    unfold BankChange withBanks at hp
    unfold withBanks
    rw [hp]
  · rw [pulseOff_set]
    exact h.sched

/-- R95, R109: what a sweep that takes a cylinder's track too has left of the bank. -/
theorem Swept.closed {k : Bank} {p : Option Pulse} {cs : List (Shot × ShotOutcome)} {s u : State} (h : Swept k p cs s u)
    (c : Cyl) : discardTrack u k c = { pulseOff s k p with
      sched := (pulseOff s k p).sched.set k { droppedAll ((pulseOff s k p).schedOf k) cs with
        tracks := (s.schedOf k).tracks.filter fun t => t.cyl != c }
      events := eventsAfter s cs, sup := u.sup, service := u.service } := by
  have hof : u.schedOf k = droppedAll ((pulseOff s k p).schedOf k) cs := schedOf_of_set h.sched
  have htr : (droppedAll ((pulseOff s k p).schedOf k) cs).tracks = (s.schedOf k).tracks := (pulseOff_queue s k p).2.2.2
  unfold discardTrack
  rw [hof, htr]
  conv_lhs => rw [h.eq]
  unfold State.setSched
  dsimp only
  rw [banks_set_set]

/-- R96: the pulse of the sweep ended now, another one before. -/
theorem Swept.endPassed {k : Bank} {p : Option Pulse} {cs : List (Shot × ShotOutcome)} {s u : State} (h : Swept k p cs s u)
    (hs : endPassed s k) : endPassed u k := by
  have htime : u.timebase = s.timebase := by rw [h.change]; rfl
  intro n hn
  rw [htime]
  rw [schedOf_of_set h.sched] at hn
  cases p with
  | none => exact hs n hn
  | some p =>
    rw [schedOf_of_set (pulseOff_sched s k p)] at hn
    cases hn
    exact Nat.le_refl _

/-! ### The shots of a test -/

/-- The queue without the shots of a test. -/
theorem withoutShots_filter {q : List Shot} (hn : (q.map Shot.tag).Nodup) (t : Shot → Bool) (g : Shot → ShotOutcome) :
    withoutShots q ((q.filter t).map fun x => (x, g x)) = q.filter fun y => !t y := by
  unfold withoutShots
  refine List.filter_congr fun y hy => ?_
  rw [List.any_map]
  congr 1
  rw [Bool.eq_iff_iff, List.any_eq_true]
  constructor
  · rintro ⟨x, hx, ht⟩
    obtain ⟨hxq, htx⟩ := List.mem_filter.1 hx
    have hm : y ∈ q.filter fun z => z.tag == x.tag := List.mem_filter.2 ⟨hy, beq_iff_eq.2 (beq_iff_eq.1 ht).symm⟩
    rw [filter_tag_of_nodup hn hxq, List.mem_singleton] at hm
    rwa [hm]
  · exact fun ht => ⟨y, List.mem_filter.2 ⟨hy, ht⟩, beq_self_eq_true _⟩

/-- R113: a scheduler from which shots have gone that are all counted as cancelled. -/
theorem droppedAll_cancelled (q : Sched) {cs : List (Shot × ShotOutcome)} (h : ∀ z ∈ cs, z.2.isShed = false) :
    droppedAll q cs = { q with
      queue := withoutShots q.queue cs, cancelled := q.cancelled + BitVec.ofNat 32 cs.length } := by
  have hrest : cs.countP (fun z => !z.2.isShed) = cs.length :=
    List.countP_eq_length.2 fun z hz => by rw [h z hz]; rfl
  have hshed : cs.countP (fun z => z.2.isShed) = 0 := by
    rw [List.countP_eq_zero]
    intro z hz
    simp [h z hz]
  unfold droppedAll withoutShots
  rw [hshed, hrest]
  simp

theorem eventsAfter_cancelled (s : State) {cs : List (Shot × ShotOutcome)} (h : ∀ z ∈ cs, z.2.isShed = false) :
    eventsAfter s cs = s.events := by
  unfold eventsAfter
  rw [if_neg]
  simp only [Bool.not_eq_true, List.any_eq_false]
  exact h

/-- The shots of a test, cancelled one after another. -/
theorem cancelShots_eq {k : Bank} {s : State} (hn : ((s.schedOf k).queue.map Shot.tag).Nodup) (hd : drainAgrees s)
    (t : Shot → Bool) (o : ShotOutcome) :
    cancelShots k s t o = drainSettled (removed k (allWith o ((s.schedOf k).queue.filter t)) s) := by
  have h := dropAll_removed k (named_of_nodup hn t fun _ => o) hd
  rw [List.map_map] at h
  exact h

theorem allWith_cancelled {o : ShotOutcome} (ho : o.isShed = false) (xs : List Shot) :
    ∀ z ∈ allWith o xs, z.2.isShed = false := fun z hz => by
  obtain ⟨x, -, rfl⟩ := List.mem_map.1 hz
  exact ho

theorem allWith_length (o : ShotOutcome) (xs : List Shot) : (allWith o xs).length = xs.length := List.length_map _

theorem shots_of_drained {s : State} {k : Bank} (h : drained s = true) (t : Shot → Bool) :
    (s.schedOf k).queue.filter t = [] := by
  rw [(drained_iff.1 h k).1]
  rfl

end Sys2Proof.Proofs.Sweeps
end

section
/-! SUPPORT. The scheduled end of a pulse and the window close of a cylinder. -/

namespace Sys2Proof.Proofs.PulseEnds

open Sys2Proof Sys2Proof.Machine Sys2Proof.Laws Sys2Proof.Laws.Fine Sys2Proof.Proofs.Freeze Sys2Proof.Proofs.Frames
  Sys2Proof.Proofs.Removals Sys2Proof.Proofs.Cancelling Sys2Proof.Proofs.Arbiter Sys2Proof.Proofs.Conflict
  Sys2Proof.Proofs.Sweeps

/-! ### One outcome -/

theorem outcomesOf_one (c d : Cyl) (tag : Byte) (o : PlaceOutcome) :
    outcomesOf [(c, tag, o)] d = if d = c then [(tag, o)] else [] := by
  unfold outcomesOf
  by_cases h : d = c
  · subst h
    simp
  · rw [if_neg h, List.filter_cons_of_neg (by simpa using fun hc : c = d => h hc.symm)]
    rfl

/-- R112: one outcome told, in the words of the statements about one outcome. -/
theorem outcomeWritten_of_told {s t : State} {c : Cyl} {tag : Byte} {o : PlaceOutcome}
    (h : outcomesTold s t [(c, tag, o)]) : outcomeWritten s t c tag o := by
  obtain ⟨hsup, hserv⟩ := h
  have hself : t.supOf c = (s.supOf c).told [(tag, o)] := by rw [hsup, outcomesOf_one, if_pos rfl]
  have hdone : (∃ d, (s.supOf d).serviceDone (outcomesOf [(c, tag, o)] d) = true) ↔
      (s.supOf c).serviceDone [(tag, o)] = true := by
    constructor
    · rintro ⟨d, hd⟩
      rw [outcomesOf_one] at hd
      by_cases hdc : d = c
      · rwa [if_pos hdc, hdc] at hd
      · rw [if_neg hdc] at hd
        unfold CylSup.serviceDone at hd
        cases hp : (s.supOf d).plan <;> simp [hp] at hd
    · exact fun hd => ⟨c, by rwa [outcomesOf_one, if_pos rfl]⟩
  rw [if_congr hdone rfl rfl] at hserv
  refine ⟨fun d hd => by rw [hsup, outcomesOf_one, if_neg hd, told_nil], ?_⟩
  unfold CylSup.told at hself
  unfold CylSup.serviceDone at hserv
  cases hp : (s.supOf c).plan with
  | none =>
    rw [hp] at hself hserv
    exact ⟨hself, hserv⟩
  | some p =>
    rw [hp] at hself hserv
    dsimp only at hself hserv ⊢
    rw [if_neg (by simp)] at hself
    have hfilled : p.filled [(tag, o)] = { p with places := fillPlaces tag o p.places } := rfl
    rw [hfilled] at hself
    by_cases hc : ({ p with places := fillPlaces tag o p.places } : Plan).complete = true
    · rw [if_pos hc] at hself ⊢
      refine ⟨hself, hserv.trans (if_congr ?_ rfl rfl)⟩
      simp [hfilled, hc]
    · rw [if_neg hc] at hself ⊢
      refine ⟨hself, hserv.trans (if_neg ?_)⟩
      simp [hfilled, hc]

/-! ### The scheduled end -/

theorem endOutcome_cases (p : Pulse) : p.endOutcome = .fired ∨ p.endOutcome = .firedDegraded := by
  unfold Pulse.endOutcome
  split
  · exact .inr rfl
  · exact .inl rfl

theorem endedNow_of_ne {s : State} {p : Pulse} {o : ShotOutcome} {f : Option FaultKind} (h : o ≠ .firedPreempted) :
    endedNow s p o f = { outcome := o, fault := f, startAngle := p.startAngle
                         onTime := (s.timebase - p.startTime) / 10, flags := p.flags } := by
  unfold endedNow
  rw [if_neg h]

/-- R105: a pulse at its scheduled end, but for the gap. -/
theorem endPulse_fired {k : Bank} {s : State} {p : Pulse} (ha : (s.schedOf k).active = some p) :
    endPulse k s p.endOutcome none =
      drainSettled (timeSuccessors (pulseGone k (some p) p.endOutcome none s) k p.tag) := by
  rw [endPulse_some ha, drainTest_settled]
  unfold followEnd
  rw [if_pos (endOutcome_cases p)]

theorem setQueue_change (s : State) (k : Bank) (q : List Shot) : BankChange s (setQueue s k q) := rfl

/-- Settles O47: the end, its outcome, and the successors timed for it. -/
theorem scheduledEnd : Obligations.ScheduledEnd := by
  unfold Obligations.ScheduledEnd
  intro k s p ha
  have hdue : dueSchedEnd s k = decide (p.schedEnd ≤ s.timebase) := by
    unfold dueSchedEnd
    rw [ha]
    rfl
  refine ⟨fun hlt => ?_, fun hle => ?_⟩
  · exact congrArg Host.Outcome.next (whenDue_of_false (f := endOnSchedule k) (hdue.trans (decide_eq_false (Nat.not_le.2 hlt))))
  have hexec : exec (.scheduledEnd k) s = .next (settleGap k (endPulse k s p.endOutcome none)) := by
    refine congrArg Host.Outcome.next ((whenDue_of_true (f := endOnSchedule k) (hdue.trans (decide_eq_true hle))).trans ?_)
    unfold endOnSchedule
    rw [ha]
  have hout : p.endOutcome ≠ .faulted ∧ p.endOutcome ≠ .firedPreempted := by
    rcases endOutcome_cases p with h | h <;> rw [h] <;> exact ⟨by decide, by decide⟩
  have htold := pulseGone_told hout.1 k (some p) none s
  obtain ⟨hpd, hpl, hpe⟩ := pulseGone_banks k (some p) p.endOutcome none s
  have hch := pulseGone_change k (some p) p.endOutcome none s
  have hsched := pulseGone_sched k (some p) p.endOutcome none s
  have hof := schedOf_pulseGone s k p p.endOutcome none
  rw [hexec, endPulse_fired ha]
  generalize pulseGone k (some p) p.endOutcome none s = g at htold hpd hpl hpe hch hsched hof
  have htime : g.timebase = s.timebase := by rw [hch]; rfl
  have hw : (timeSuccessors g k p.tag).sched = s.sched.set k { s.schedOf k with
      active := none, cond := .gap, lastEnd := some s.timebase
      queue := (s.schedOf k).queue.map fun y =>
        if y.follows p.tag then { y with state := .timed, due := some (s.timebase + y.gapTicks) } else y } := by
    show g.sched.set k { g.schedOf k with queue := (g.schedOf k).queue.map _ } = _
    rw [hsched, pulseOff_sched, banks_set_set, hof, htime]
  have hwc : BankChange s (timeSuccessors g k p.tag) := hch.trans (setQueue_change _ _ _)
  obtain ⟨hks, hku, hkv, hkt, -⟩ := drainSettled_kept (timeSuccessors g k p.tag)
  refine ⟨_, _, rfl, gapSettled_settleGap fun n hn => ?_, ?_, ?_⟩
  · rw [State.schedOf, hks, hw, banks_get_set_same] at hn
    cases hn
    rw [hkt]
    exact Nat.le_of_eq htime.symm
  · refine congrArg drainSettled (eq_of_banks hwc rfl hw hpd hpl hpe ?_ ?_)
    · rw [hku]
    · rw [hkv]
  · have hone : pulseOutcome s (some p) p.endOutcome none = [(p.cyl, p.tag, {
        outcome := p.endOutcome, fault := none, startAngle := p.startAngle
        onTime := (s.timebase - p.startTime) / 10, flags := p.flags })] :=
      congrArg (fun o => [(p.cyl, p.tag, o)]) (endedNow_of_ne hout.2)
    rw [hone] at htold
    exact outcomeWritten_of_told (outcomesTold_congr htold rfl rfl hku hkv)

/-! ### The window close -/

section
variable {k : Bank} {s : State} {c : Cyl}

/-- R95: the pulse of a cylinder that a window close cuts. -/
def cutPulse (s : State) (k : Bank) (c : Cyl) : Option Pulse := (s.schedOf k).active.filter fun p => p.cyl == c && !p.flags.service

theorem anglePulseTag_eq (s : State) (k : Bank) (c : Cyl) : anglePulseTag s k c = (cutPulse s k c).map Pulse.tag := by
  unfold anglePulseTag cutPulse
  cases (s.schedOf k).active with
  | none => rfl
  | some p =>
    dsimp only
    rw [Option.filter_some]
    by_cases h : p.cyl = c ∧ p.flags.service = false
    · rw [if_pos h, if_pos (by simp [h])]
      rfl
    · rw [if_neg h, if_neg (by simpa using h)]
      rfl

theorem active_of_cutPulse {p : Pulse} (h : cutPulse s k c = some p) : (s.schedOf k).active = some p :=
  (Option.filter_eq_some_iff.1 h).1

/-- R95: the shots a window close sweeps, each with its outcome. -/
def sweptShots (s : State) (k : Bank) (c : Cyl) : List (Shot × ShotOutcome) :=
  ((s.schedOf k).queue.filter fun y => y.cyl == c).map fun y =>
    (y, if ((((cutPulse s k c).map Pulse.tag).toList ++ ((s.schedOf k).queue.filter fun y => y.cyl == c).map Shot.tag).any
      fun g => y.follows g) then ShotOutcome.shedChain else ShotOutcome.shedWindow)

theorem sweptShots_shed : ∀ z ∈ sweptShots s k c, z.2.isShed = true := fun z hz => by
  obtain ⟨y, -, rfl⟩ := List.mem_map.1 hz
  dsimp only
  split <;> rfl

/-- R95: a window close, but for the gap. -/
theorem closeTrack_eq (hn : ((s.schedOf k).queue.map Shot.tag).Nodup) (hd : drainAgrees s) : closeTrack k s c =
    settleGap k (drainSettled (discardTrack
      (removed k (sweptShots s k c) (pulseGone k (cutPulse s k c) .firedCutWindow none s)) k c)) := by
  have hend : (if (anglePulseTag s k c).isSome then endPulse k s .firedCutWindow none else s) =
      drainSettled (pulseGone k (cutPulse s k c) .firedCutWindow none s) := by
    rw [anglePulseTag_eq]
    cases h : cutPulse s k c with
    | none =>
      rw [pulseGone_none, drainSettled_of_agrees hd]
      rfl
    | some p =>
      have hgone := endPulse_gone (k := k) (o := .firedCutWindow) (by decide) none hd
      rw [active_of_cutPulse h] at hgone
      exact hgone
  have hq : ((pulseGone k (cutPulse s k c) .firedCutWindow none s).schedOf k).queue = (s.schedOf k).queue := by
    rw [State.schedOf, pulseGone_sched]
    exact (pulseOff_queue s k _).1
  unfold closeTrack
  dsimp only
  rw [hend]
  generalize pulseGone k (cutPulse s k c) .firedCutWindow none s = g at hq
  have hqd : ((drainSettled g).schedOf k).queue = (s.schedOf k).queue := by
    rw [State.schedOf, (drainSettled_kept g).1]
    exact hq
  have hswept : sweepOutcomes ((drainSettled g).schedOf k).queue c (anglePulseTag s k c) =
      (sweptShots s k c).map fun z => (z.1.tag, z.2) := by
    unfold sweepOutcomes sweptShots
    rw [hqd, anglePulseTag_eq, List.map_map]
    rfl
  have hnamed : Named ((drainSettled g).schedOf k).queue (sweptShots s k c) := by
    rw [hqd]
    exact named_of_nodup hn _ _
  rw [hswept, dropAll_removed k hnamed (drainSettled_agrees g),
    drainSettled_absorb (f := removed k (sweptShots s k c)) fun hg => ?_, ← drainSettled_discardTrack]
  have hnone : sweptShots s k c = [] := by
    unfold sweptShots
    rw [← hq, shots_of_drained hg]
    rfl
  rw [hnone]
  exact ⟨removed_nil _ _, removed_nil _ _⟩

end

/-- Settles O48: the sweep of a cylinder. -/
theorem windowCloseSweepsTheCylinder : Obligations.WindowCloseSweepsTheCylinder := by
  unfold Obligations.WindowCloseSweepsTheCylinder
  intro k c s u i hfind hstate
  have hdue : dueClose s k c = decide (i ≤ s.timebase) := by
    unfold dueClose trackOf
    rw [hfind, Option.any_some]
    unfold Track.closeNow
    rw [hstate]
  refine ⟨fun hlt => ?_, fun hle hn hd hp => ?_⟩
  · exact congrArg Host.Outcome.next (whenDue_of_false (f := fun s => closeTrack k s c)
      (hdue.trans (decide_eq_false (Nat.not_le.2 hlt))))
  have hexec : exec (.windowClose k c) s = .next _ := congrArg Host.Outcome.next
    ((whenDue_of_true (f := fun s => closeTrack k s c) (hdue.trans (decide_eq_true hle))).trans (closeTrack_eq hn hd))
  have hw := swept_pulse_first k (cutPulse s k c) .firedCutWindow none (sweptShots s k c) s
  have htold := swept_told_pulse_first (o := .firedCutWindow) (by decide) k (cutPulse s k c) none (sweptShots s k c) s
  generalize removed k (sweptShots s k c) (pulseGone k (cutPulse s k c) .firedCutWindow none s) = w at hexec hw htold
  obtain ⟨hks, hku, hkv, hkt, -⟩ := drainSettled_kept (discardTrack w k c)
  obtain ⟨hoq, hos, -, hot⟩ := pulseOff_queue s k (cutPulse s k c)
  refine ⟨_, _, hexec, gapSettled_settleGap fun n hl => ?_, ?_, ?_⟩
  · rw [State.schedOf, hks] at hl
    rw [hkt]
    refine hw.endPassed hp n ?_
    rw [← State.schedOf, schedOf_discardTrack] at hl
    exact hl
  · refine congrArg drainSettled ?_
    have hmine : sweptShots s k c = [] ↔ (s.schedOf k).queue.filter (fun y => y.cyl == c) = [] := by
      unfold sweptShots
      exact List.map_eq_nil_iff
    have hleft : withoutShots (s.schedOf k).queue (sweptShots s k c) = (s.schedOf k).queue.filter (fun y => y.cyl != c) :=
      withoutShots_filter hn _ _
    have hlen : (sweptShots s k c).length = ((s.schedOf k).queue.filter fun y => y.cyl == c).length := List.length_map _
    rw [hku, hkv, hw.closed c, droppedAll_shed _ sweptShots_shed, eventsAfter_shed _ sweptShots_shed, hoq, hos, hleft, hlen,
      if_congr hmine rfl rfl]
    rfl
  · exact outcomesTold_congr htold rfl rfl hku hkv

end Sys2Proof.Proofs.PulseEnds
end

section
/-! SUPPORT. Cancellations of one cylinder: the cut. -/

namespace Sys2Proof.Proofs.Cuts

open Sys2Proof Sys2Proof.Machine Sys2Proof.Laws Sys2Proof.Laws.Fine Sys2Proof.Proofs.Freeze Sys2Proof.Proofs.Frames
  Sys2Proof.Proofs.Removals Sys2Proof.Proofs.Cancelling Sys2Proof.Proofs.Arbiter Sys2Proof.Proofs.Conflict
  Sys2Proof.Proofs.Sweeps Sys2Proof.Proofs.Layouts

/-! ### Shots of a test, then the pulse of a cylinder -/

theorem removed_active (k : Bank) (cs : List (Shot × ShotOutcome)) (s : State) :
    ((removed k cs s).schedOf k).active = (s.schedOf k).active := by
  rw [schedOf_of_set (removed_sched k cs s)]
  rfl

/-- R109, R111: shots are cancelled, and the pulse of a cylinder after them. -/
theorem cancelShots_endPulse {k : Bank} {s : State} {c : Cyl} {o : ShotOutcome} (hf : follows o = false)
    (hn : ((s.schedOf k).queue.map Shot.tag).Nodup) (hd : drainAgrees s) (t : Shot → Bool) :
    (if pulseIs (cancelShots k s t o) k c then endPulse k (cancelShots k s t o) o none else cancelShots k s t o) =
      drainSettled (pulseGone k ((s.schedOf k).active.filter fun p => p.cyl == c) o none
        (removed k (allWith o ((s.schedOf k).queue.filter t)) s)) := by
  rw [cancelShots_eq hn hd]
  have hact := removed_active k (allWith o ((s.schedOf k).queue.filter t)) s
  generalize removed k (allWith o ((s.schedOf k).queue.filter t)) s = r at hact
  have hactd : ((drainSettled r).schedOf k).active = (s.schedOf k).active := by
    rw [State.schedOf, (drainSettled_kept r).1]
    exact hact
  have hp : pulseIs (drainSettled r) k c = ((s.schedOf k).active.filter fun p => p.cyl == c).isSome := by
    unfold pulseIs
    rw [hactd]
    cases (s.schedOf k).active with
    | none => rfl
    | some p =>
      rw [Option.filter_some]
      dsimp only
      cases p.cyl == c <;> rfl
  rw [hp]
  cases hq : (s.schedOf k).active.filter fun p => p.cyl == c with
  | none =>
    rw [pulseGone_none]
    rfl
  | some p =>
    have ha : (s.schedOf k).active = some p := (Option.filter_eq_some_iff.1 hq).1
    have hgone := endPulse_gone (k := k) hf none (drainSettled_agrees r)
    rw [hactd, ha] at hgone
    refine hgone.trans (drainSettled_absorb (f := pulseGone k (some p) o none) fun hr => ?_)
    rw [(drained_iff.1 hr k).2, ha] at hact
    cases hact

/-! ### CUT -/

theorem cylOf_byte (c : Cyl) (ps : List Byte) : Machine.cylOf (u8 (byte (c.val + 1) :: ps) 0) = some c := by
  refine cylOf_eq_some.2 ?_
  show (BitVec.ofNat 8 (c.val + 1)).toNat = c.val + 1
  rw [BitVec.toNat_ofNat]
  exact Nat.mod_eq_of_lt (by omega)

theorem ownCut_eq (s : State) (c : Cyl) {n : Byte} {op : CutOp} (hop : cutOpOf n.toNat = some op) :
    ownCut s [byte (c.val + 1), n] = answer (cutBy s c op) [flagByte (s.supOf c).cut] := by
  unfold ownCut
  rw [cylOf_byte, show cutOpOf (u8 [byte (c.val + 1), n] 1) = some op from hop]

theorem ownCut_refused (s : State) {a o : Byte} (h : a = 0 ∨ 8 < a.toNat ∨ 3 < o.toNat) :
    ownCut s [a, o] = refuse s .badParam := by
  have hc : a = 0 ∨ 8 < a.toNat → Machine.cylOf (u8 [a, o] 0) = none := fun h =>
    cylOf_eq_none.2 (h.imp_left fun ha => by rw [ha]; rfl)
  have hop : 3 < o.toNat → cutOpOf (u8 [a, o] 1) = none := fun h => by
    show cutOpOf o.toNat = none
    unfold cutOpOf
    rw [if_neg (by omega), if_neg (by omega), if_neg (by omega), if_neg (by omega)]
  unfold ownCut
  rcases or_assoc.2 h with h | h
  · rw [hc h]
  · rw [hop h]
    cases Machine.cylOf (u8 [a, o] 0) <;> rfl

/-- R150: an operation that does not set a clear flag. -/
theorem cutBy_of_kept {s : State} {c : Cyl} {op : CutOp} {new : Bool} (hop : op.apply (s.supOf c).cut = new)
    (h : new = true → (s.supOf c).cut = true) : cutBy s c op = s.setSup c { s.supOf c with cut := new } := by
  unfold cutBy
  dsimp only
  rw [hop]
  refine if_neg ?_
  cases hn : new with
  | false => exact Bool.false_ne_true
  | true =>
    rw [h hn]
    exact Bool.false_ne_true

/-- R151: an operation that sets a clear flag. -/
theorem cutBy_of_set {s : State} {c : Cyl} {op : CutOp} (hop : op.apply (s.supOf c).cut = true)
    (h : (s.supOf c).cut = false) : cutBy s c op = cutNow s c := by
  unfold cutBy
  dsimp only
  rw [hop, h]
  rfl

theorem cutNow_eq (s : State) (c : Cyl) : cutNow s c =
    (cutCylinder (s.bankOf c) { s with sup := s.sup.set c { s.supOf c with cut := true } } c).setSup c
      { (cutCylinder (s.bankOf c) { s with sup := s.sup.set c { s.supOf c with cut := true } } c).supOf c with
        code := .cut } := rfl

/-- R109: the cut of a cylinder at the Scheduler of its bank, but for the gap. -/
theorem cutCylinder_eq {k : Bank} {s : State} {c : Cyl} (hn : ((s.schedOf k).queue.map Shot.tag).Nodup)
    (hd : drainAgrees s) : cutCylinder k s c = settleGap k (drainSettled (discardTrack
      (pulseGone k ((s.schedOf k).active.filter fun p => p.cyl == c) .cancelledCut none
        (removed k (allWith .cancelledCut ((s.schedOf k).queue.filter fun y => y.cyl == c)) s)) k c)) := by
  unfold cutCylinder
  dsimp only
  rw [cancelShots_endPulse (by decide) hn hd, drainSettled_discardTrack]

/-- R109, R151: what the cut of a cylinder comes to, in the words of the statement. -/
theorem cutCylinder_told {k : Bank} {s : State} {c : Cyl} (hn : ((s.schedOf k).queue.map Shot.tag).Nodup)
    (hd : drainAgrees s) (hp : endPassed s k) : ∃ u, gapSettled k u (cutCylinder k s c) ∧
      u = drainSettled { pulseOff s k ((s.schedOf k).active.filter fun p => p.cyl == c) with
        sched := (pulseOff s k ((s.schedOf k).active.filter fun p => p.cyl == c)).sched.set k
          { (pulseOff s k ((s.schedOf k).active.filter fun p => p.cyl == c)).schedOf k with
            queue := (s.schedOf k).queue.filter (fun y => y.cyl != c)
            tracks := (s.schedOf k).tracks.filter (fun u => u.cyl != c)
            cancelled := (s.schedOf k).cancelled +
              BitVec.ofNat 32 ((s.schedOf k).queue.filter fun y => y.cyl == c).length }
        sup := u.sup, service := u.service } ∧
      outcomesTold (pulseCounted s ((s.schedOf k).active.filter fun p => p.cyl == c)) u
        (chainOutcomes (allWith .cancelledCut ((s.schedOf k).queue.filter fun y => y.cyl == c)) ++
          pulseOutcome s ((s.schedOf k).active.filter fun p => p.cyl == c) .cancelledCut none) := by
  have hall := allWith_cancelled (o := .cancelledCut) rfl ((s.schedOf k).queue.filter fun y => y.cyl == c)
  have hlen := allWith_length .cancelledCut ((s.schedOf k).queue.filter fun y => y.cyl == c)
  have hleft : withoutShots (s.schedOf k).queue (allWith .cancelledCut ((s.schedOf k).queue.filter fun y => y.cyl == c)) =
      (s.schedOf k).queue.filter fun y => y.cyl != c := withoutShots_filter hn _ _
  rw [cutCylinder_eq hn hd]
  generalize hcs : allWith .cancelledCut ((s.schedOf k).queue.filter fun y => y.cyl == c) = cs at hall hlen hleft ⊢
  generalize (s.schedOf k).active.filter (fun p => p.cyl == c) = p
  have hw := swept_shots_first k p .cancelledCut none cs s
  have htold := swept_told_shots_first (o := .cancelledCut) (by decide) k p none cs s
  generalize pulseGone k p .cancelledCut none (removed k cs s) = w at hw htold ⊢
  obtain ⟨hks, hku, hkv, hkt, -⟩ := drainSettled_kept (discardTrack w k c)
  obtain ⟨hoq, -, hoc, -⟩ := pulseOff_queue s k p
  refine ⟨_, gapSettled_settleGap fun n hl => ?_, ?_, outcomesTold_congr htold rfl rfl hku hkv⟩
  · rw [State.schedOf, hks] at hl
    rw [hkt]
    refine hw.endPassed hp n ?_
    rw [← State.schedOf, schedOf_discardTrack] at hl
    exact hl
  · refine congrArg drainSettled ?_
    have hev : (pulseOff s k p).events = s.events := by
      rw [pulseOff_change s k p]
      cases p <;> rfl
    rw [hku, hkv, hw.closed c, droppedAll_cancelled _ hall, eventsAfter_cancelled _ hall, hoq, hoc, hleft, hlen, ← hev]

/-- R150: a CUT frame in range, answered with the flag before it. -/
theorem takeFrame_cut {s : State} {f : Frame} {c : Cyl} {n : Byte} {op : CutOp} (h : passes s 0x30 f = true)
    (hps : frameParams f = [byte (c.val + 1), n]) (hop : cutOpOf n.toNat = some op) :
    takeFrame s 0x30 f (exactly 2) ownCut =
      respond (cutBy (received s 0x30 f) c op) 0x30 .ok [if (s.supOf c).cut then 1 else 0] :=
  takeFrame_exactly (n := 2) h (congrArg List.length hps) (by decide)
    ((congrArg (ownCut _) hps).trans (ownCut_eq (received s 0x30 f) c hop))

/-- Settles O56: the operations that keep or clear the flag, the cut itself, and the refusals. -/
theorem cutMovesTheFlag : Obligations.CutMovesTheFlag := by
  unfold Obligations.CutMovesTheFlag
  intro c f s h
  refine ⟨fun hps => ?_, fun hps => ?_, fun hold hps => ?_, fun hold hps => ?_, fun hold hn hd hp i hi => ?_,
    fun a o hps hbad i hi => ?_⟩
  · exact congrArg Host.Outcome.next ((takeFrame_cut (op := .test) h hps rfl).trans
      (congrArg (respond · _ _ _) (cutBy_of_kept (s := received s 0x30 f) (op := .test) (c := c) rfl id)))
  · exact congrArg Host.Outcome.next ((takeFrame_cut (op := .clear) h hps rfl).trans
      (congrArg (respond · _ _ _) (cutBy_of_kept (s := received s 0x30 f) (op := .clear) (c := c) rfl fun hf => (by cases hf))))
  · exact congrArg Host.Outcome.next ((takeFrame_cut (op := .toggle) h hps rfl).trans
      (congrArg (respond · _ _ _) (cutBy_of_kept (s := received s 0x30 f) (op := .toggle) (c := c) (new := false) (congrArg not hold)
        fun hf => (by cases hf))))
  · exact congrArg Host.Outcome.next ((takeFrame_cut (op := .set) h hps rfl).trans
      (congrArg (respond · _ _ _) (cutBy_of_kept (s := received s 0x30 f) (op := .set) (c := c) (new := (s.supOf c).cut) hold.symm id)))
  · have hexec : exec i s = .next (respond (cutNow (received s 0x30 f) c) 0x30 .ok [if (s.supOf c).cut then 1 else 0]) := by
      rcases hi with ⟨rfl, hps⟩ | ⟨rfl, hps⟩
      · exact congrArg Host.Outcome.next ((takeFrame_cut (op := .set) h hps rfl).trans
          (congrArg (respond · _ _ _) (cutBy_of_set (s := received s 0x30 f) (op := .set) (c := c) rfl hold)))
      · exact congrArg Host.Outcome.next ((takeFrame_cut (op := .toggle) h hps rfl).trans
          (congrArg (respond · _ _ _)
            (cutBy_of_set (s := received s 0x30 f) (op := .toggle) (c := c) (congrArg not hold) hold)))
    have hcut := cutNow_eq (received s 0x30 f) c
    intro set ended off
    have hof : set.schedOf (s.bankOf c) = s.schedOf (s.bankOf c) := rfl
    have htime : set.timebase = s.timebase := rfl
    have htold := cutCylinder_told (k := s.bankOf c) (s := set) (c := c) hn hd hp
    change _ = (cutCylinder (s.bankOf c) set c).setSup c { (cutCylinder (s.bankOf c) set c).supOf c with code := .cut } at hcut
    rw [hcut] at hexec
    clear_value set
    obtain ⟨u, hgap, hu, hout⟩ := htold
    rw [hof] at hu hout
    rw [pulseOutcome_congr htime] at hout
    exact ⟨_, u, _, hexec, hgap, rfl, hu, hout⟩
  · have href := takeFrame_refused (n := 2) (owner := ownCut) h (congrArg List.length hps) (by decide)
      (by rw [hps]; exact ownCut_refused (received s 0x30 f) hbad)
    simp only [List.mem_cons, List.not_mem_nil, or_false] at hi
    rcases hi with rfl | rfl | rfl | rfl <;> exact congrArg Host.Outcome.next href

end Sys2Proof.Proofs.Cuts
end

section
/-! SUPPORT. What every operation of the banks keeps of the shots of a bank, and the first edge after a standstill. -/

namespace Sys2Proof.Proofs.Standstill

open Sys2Proof Sys2Proof.Machine Sys2Proof.Laws Sys2Proof.Laws.Fine Sys2Proof.Proofs.Freeze Sys2Proof.Proofs.Frames
  Sys2Proof.Proofs.Removals Sys2Proof.Proofs.Cancelling Sys2Proof.Proofs.Arbiter Sys2Proof.Proofs.Conflict
  Sys2Proof.Proofs.Sweeps Sys2Proof.Proofs.Loads Sys2Proof.Proofs.Edges Sys2Proof.Proofs.Cuts

/-! ### A property of every queued shot -/

/-- Every shot queued on the bank has a property. -/
def AllShots (k : Bank) (P : Shot → Prop) (s : State) : Prop := ∀ y ∈ (s.schedOf k).queue, P y

/-- The property stays with the shots of the bank. -/
def KeepsShots (k : Bank) (P : Shot → Prop) (s t : State) : Prop := AllShots k P s → AllShots k P t

section
variable {k : Bank} {P : Shot → Prop}

theorem KeepsShots.of_same {s t : State} (h : t.sched = s.sched) : KeepsShots k P s t := by
  unfold KeepsShots AllShots State.schedOf
  rw [h]
  exact id

theorem KeepsShots.trans {s t u : State} (h1 : KeepsShots k P s t) (h2 : KeepsShots k P t u) : KeepsShots k P s u :=
  fun h => h2 (h1 h)

/-- A bank has changed to a scheduler whose shots have the property where the old ones had it. -/
theorem KeepsShots.of_bank {s t : State} {j : Bank} {q : Sched} (hs : t.sched = s.sched.set j q)
    (h : (∀ y ∈ (s.schedOf j).queue, P y) → ∀ y ∈ q.queue, P y) : KeepsShots k P s t := fun hP => by
  have ht : t.schedOf k = if k = j then q else s.schedOf k := by
    rw [State.schedOf, hs]
    exact banks_get_set _ _ _ _
  unfold AllShots
  rw [ht]
  split
  · subst j
    exact h hP
  · exact hP

theorem dropShot_keepsShots (j : Bank) (s : State) (t : Byte × ShotOutcome) : KeepsShots k P s (dropShot j s t) := by
  refine .of_bank (dropShot_sched j s t) fun h y hy => h y ?_
  unfold droppedFrom at hy
  split at hy
  · exact hy
  · exact List.mem_of_mem_eraseP hy

theorem followEnd_keepsShots (hP : ∀ f, Keeps f → ∀ x, P x → P (f x)) (j : Bank) (s : State) (tag : Byte)
    (o : ShotOutcome) : KeepsShots k P s (followEnd s j tag o) := by
  unfold followEnd
  split
  · refine .of_bank rfl fun h y hy => ?_
    obtain ⟨x, hx, rfl⟩ := List.mem_map.1 hy
    exact hP _ (Banks.timeSuccessors_keeps tag s.timebase) x (h x hx)
  · split
    · generalize chainDrops _ _ _ _ _ = l
      induction l generalizing s with
      | nil => exact id
      | cons t l ih => exact (dropShot_keepsShots j s t).trans (ih _)
    · exact id

theorem endPulse_keepsShots (hP : ∀ f, Keeps f → ∀ x, P x → P (f x)) (j : Bank) (s : State) (o : ShotOutcome)
    (f : Option FaultKind) : KeepsShots k P s (endPulse j s o f) := by
  cases ha : (s.schedOf j).active with
  | none => rw [endPulse_none ha]; exact id
  | some p =>
    rw [endPulse_some ha]
    refine .trans ?_ (.trans (followEnd_keepsShots hP j _ p.tag o) (.of_same (drainTest_sched _)))
    exact .of_bank ((pulseGone_sched j (some p) o f s).trans (pulseOff_sched s j p)) id

theorem openPulse_keepsShots (j : Bank) (s : State) (x : Shot) (dg : Bool) : KeepsShots k P s (openPulse j s x dg) := by
  unfold openPulse
  rw [traceStart_eq]
  exact .of_bank rfl fun h y hy => h y (List.mem_of_mem_eraseP hy)

/-- Every operation of the banks keeps a property of the shots that no update of a shot moves; the Planner may place more of
them. -/
theorem keepsShots_whole (hP : ∀ f, Keeps f → ∀ x, P x → P (f x)) : WholeRel (fun _ => True) P (KeepsShots k P) where
  refl _ := id
  trans := .trans
  sup _ _ _ _ := .of_same rfl
  service _ := .of_same rfl
  event _ _ := .of_same rfl
  drop s j x _ := dropShot_keepsShots j s x
  pulseEnd s j o f _ := endPulse_keepsShots hP j s o f
  queue _ _ f _ hf := .of_bank rfl fun h y hy => by
    obtain ⟨x, hx, rfl⟩ := List.mem_map.1 hy
    exact hP f hf x (h x hx)
  tracks _ _ _ _ := .of_bank rfl id
  close _ _ _ _ _ := .of_bank rfl id
  boosted s j x _ _ _ _ := .trans (t := chargeBoost s j x.cyl) (.of_same rfl) (openPulse_keepsShots j _ x false)
  degraded s j x _ _ _ := openPulse_keepsShots j s x true
  gap _ _ _ _ := .of_bank rfl id
  regap _ _ _ _ := .of_bank rfl id
  enqueue s j a x _ hx _ := .of_bank rfl fun h y hy => by
    rcases List.mem_cons.1 ((Counters.insertShot_perm a x (s.schedOf j).queue).mem_iff.1 hy) with rfl | hy
    · exact hx
    · exact h y hy
  turned _ _ _ _ _ := .of_bank rfl id
  swap s := .of_same (takePendingSwap_sched s)
  supAny _ _ _ := .of_same rfl

end

/-! ### The service chain ended by an edge -/

/-- The shots of a test are gone, whatever DRAINING comes to. -/
theorem cancelShots_left {k : Bank} {s : State} (hn : ((s.schedOf k).queue.map Shot.tag).Nodup) (t : Shot → Bool)
    {o : ShotOutcome} (ho : o.isShed = false) : (cancelShots k s t o).sched = s.sched.set k { s.schedOf k with
      queue := (s.schedOf k).queue.filter fun y => !t y
      cancelled := (s.schedOf k).cancelled + BitVec.ofNat 32 ((s.schedOf k).queue.filter t).length } := by
  have hnamed := named_of_nodup hn t fun _ => o
  have hdrop := dropAll_eq k s _ hnamed.nodup hnamed.named
  rw [List.map_map] at hdrop
  have hcancel : cancelShots k s t o = _ := hdrop
  have hsched : (cancelShots k s t o).sched =
      s.sched.set k (droppedAll (s.schedOf k) (allWith o ((s.schedOf k).queue.filter t))) := by
    rw [hcancel]
    split
    · rename_i hnil
      rw [show allWith o ((s.schedOf k).queue.filter t) = [] from hnil, droppedAll_nil]
      exact (banks_set_get s.sched k).symm
    · rw [drainTest_sched, tellAll_sched]
      rfl
  rw [hsched, droppedAll_cancelled _ (allWith_cancelled ho _), allWith_length]
  exact congrArg (fun q => s.sched.set k { s.schedOf k with queue := q, cancelled := _ }) (withoutShots_filter hn t _)

/-- R162: the end of a chain, but for the gap. -/
theorem abortChain_eq {k : Bank} {s : State} {c : Cyl} (hn : ((s.schedOf k).queue.map Shot.tag).Nodup)
    (hd : drainAgrees s) : abortChain k s c = settleGap k (drainSettled
      (pulseGone k ((s.schedOf k).active.filter fun p => p.cyl == c) .cancelledSync none
        (removed k (allWith .cancelledSync ((s.schedOf k).queue.filter fun y => y.cyl == c && y.flags.service)) s))) := by
  unfold abortChain
  dsimp only
  rw [cancelShots_endPulse (by decide) hn hd]

/-- R111, R162: what the end of a chain comes to, in the words of the statement. -/
theorem abortChain_told {k : Bank} {s : State} {c : Cyl} (hn : ((s.schedOf k).queue.map Shot.tag).Nodup)
    (hd : drainAgrees s) (hp : endPassed s k) : ∃ u, gapSettled k u (abortChain k s c) ∧
      u = drainSettled { pulseOff s k ((s.schedOf k).active.filter fun p => p.cyl == c) with
        sched := (pulseOff s k ((s.schedOf k).active.filter fun p => p.cyl == c)).sched.set k
          { (pulseOff s k ((s.schedOf k).active.filter fun p => p.cyl == c)).schedOf k with
            queue := (s.schedOf k).queue.filter (fun y => !(y.cyl == c && y.flags.service))
            cancelled := (s.schedOf k).cancelled +
              BitVec.ofNat 32 ((s.schedOf k).queue.filter fun y => y.cyl == c && y.flags.service).length }
        sup := u.sup, service := u.service } ∧
      outcomesTold (pulseCounted s ((s.schedOf k).active.filter fun p => p.cyl == c)) u
        (chainOutcomes (allWith .cancelledSync ((s.schedOf k).queue.filter fun y => y.cyl == c && y.flags.service)) ++
          pulseOutcome s ((s.schedOf k).active.filter fun p => p.cyl == c) .cancelledSync none) := by
  have hall := allWith_cancelled (o := .cancelledSync) rfl
    ((s.schedOf k).queue.filter fun y => y.cyl == c && y.flags.service)
  have hlen := allWith_length .cancelledSync ((s.schedOf k).queue.filter fun y => y.cyl == c && y.flags.service)
  have hleft : withoutShots (s.schedOf k).queue
      (allWith .cancelledSync ((s.schedOf k).queue.filter fun y => y.cyl == c && y.flags.service)) =
      (s.schedOf k).queue.filter fun y => !(y.cyl == c && y.flags.service) := withoutShots_filter hn _ _
  rw [abortChain_eq hn hd]
  generalize hcs : allWith .cancelledSync ((s.schedOf k).queue.filter fun y => y.cyl == c && y.flags.service) = cs
    at hall hlen hleft ⊢
  generalize (s.schedOf k).active.filter (fun p => p.cyl == c) = p
  have hw := swept_shots_first k p .cancelledSync none cs s
  have htold := swept_told_shots_first (o := .cancelledSync) (by decide) k p none cs s
  generalize pulseGone k p .cancelledSync none (removed k cs s) = w at hw htold ⊢
  obtain ⟨hks, hku, hkv, hkt, -⟩ := drainSettled_kept w
  obtain ⟨hoq, -, hoc, -⟩ := pulseOff_queue s k p
  refine ⟨_, gapSettled_settleGap fun n hl => ?_, ?_, outcomesTold_congr htold rfl rfl hku hkv⟩
  · rw [State.schedOf, hks] at hl
    rw [hkt]
    exact hw.endPassed hp n hl
  · refine congrArg drainSettled (hw.eq.trans ?_)
    have hev : (pulseOff s k p).events = s.events := by
      rw [pulseOff_change s k p]
      cases p <;> rfl
    rw [hku, hkv, droppedAll_cancelled _ hall, eventsAfter_cancelled _ hall, hoq, hoc, hleft, hlen, ← hev]

/-- R162: none of the chain's shots is left, also where the bank's gap is over at once and a shot opens. -/
theorem abortChain_left {k : Bank} {s : State} {c : Cyl} (hn : ((s.schedOf k).queue.map Shot.tag).Nodup) :
    AllShots k (fun y => ¬(y.cyl = c ∧ y.flags.service = true)) (abortChain k s c) := by
  have hP : ∀ f, Keeps f → ∀ x : Shot, ¬(x.cyl = c ∧ x.flags.service = true) →
      ¬((f x).cyl = c ∧ (f x).flags.service = true) := fun f hf x hx => by
    obtain ⟨-, hcyl, -, -, -, -, -, -, -, hfl⟩ := hf x
    rwa [hcyl, hfl]
  have hrel := keepsShots_whole (k := k) hP
  unfold abortChain
  refine (hrel.trans (ite_rel hrel.toOpRel _ (hrel.pulseEnd _ k _ _ trivial)) (settleGap_rel hrel.toOpRel k trivial _)) ?_
  unfold AllShots
  rw [schedOf_of_set (cancelShots_left hn _ rfl)]
  intro y hy
  have ht := (List.mem_filter.1 hy).2
  rintro ⟨hcyl, hflag⟩
  simp [hcyl, hflag] at ht

theorem endPulse_active {k : Bank} {s : State} {o : ShotOutcome} (hf : follows o = false) (f : Option FaultKind) :
    ((endPulse k s o f).schedOf k).active = none := by
  have hsched := (endPulse_cancelled k s hf f).sched
  rw [State.schedOf, hsched]
  cases ha : (s.schedOf k).active with
  | none => exact ha
  | some p => exact congrArg Sched.active (banks_get_set_same _ _ _)

/-- R162: the pulse of the cylinder is off, and with a bank gap no other opens now. -/
theorem abortChain_active {k : Bank} {s : State} {c : Cyl} (hn : ((s.schedOf k).queue.map Shot.tag).Nodup)
    (hg : s.tables.limits.bankGapUs ≠ 0) : ∀ p ∈ ((abortChain k s c).schedOf k).active, p.cyl ≠ c := by
  have hlim : (abortChain k s c).tables.limits = s.tables.limits := Laws.abortChain_rel BankAgreement.limits_bank k s c
  have hact : ((cancelShots k s (fun y => y.cyl == c && y.flags.service) .cancelledSync).schedOf k).active =
      (s.schedOf k).active := by rw [schedOf_of_set (cancelShots_left hn _ rfl)]
  have hgap : ∀ u : State, u.tables.limits = s.tables.limits → settleGap k u = u := fun u hu => by
    unfold settleGap
    rw [if_neg]
    rw [hu]
    exact fun h => hg h.2
  have hcs : (cancelShots k s (fun y => y.cyl == c && y.flags.service) .cancelledSync).tables.limits = s.tables.limits :=
    Laws.cancelShots_rel BankAgreement.limits_bank k s _ _
  unfold abortChain
  dsimp only
  generalize cancelShots k s (fun y => y.cyl == c && y.flags.service) .cancelledSync = u at hact hcs
  split
  · rw [hgap _ ((Laws.endPulse_rel BankAgreement.limits_bank k u _ _).trans hcs), endPulse_active (by decide)]
    exact fun p hp => (by cases hp)
  · rename_i hpulse
    rw [hgap _ hcs]
    intro p hp hpc
    refine hpulse ?_
    unfold pulseIs
    rw [Option.mem_def.1 hp]
    exact beq_iff_eq.2 hpc

/-! ### The first edge after a standstill -/

theorem exec_stalled (tie : TieOrder) {s : State} (hc : crankTaken s) (hs : s.clock.sync = .stalled) :
    exec (.crankEdge .rising tie) s = .next (handOn tie .real true (leaveStalled (edgeNoted s))) := by
  refine congrArg Host.Outcome.next ((crankTransition_loaded hc.1 tie).trans ?_)
  unfold risingEdge
  rw [filtered_of_taken hc]
  dsimp only
  rw [if_neg Bool.false_ne_true, show (s.setClock { s.clock with lastCrank := some s.timebase }).clock.sync = .stalled from hs]
  rfl

/-- R6: the clock after the first edge. -/
def wokenClock (s : State) : AngleClock := { s.clock with
  sync := .seeking, lastTooth := some s.timebase, stallFrom := some s.timebase, lastCrank := some s.timebase
  techo := some (s.timebase + 200), speed := 0
  overspeed := if 100 < s.tables.limits.maxSpeed then false else s.clock.overspeed }

theorem leaveStalled_eq (s : State) : leaveStalled (edgeNoted s) = s.setClock (wokenClock s) := by
  unfold leaveStalled
  dsimp only
  rw [echoed_unmarked (fun h => by cases h)]
  exact setSpeed_unsynced (.inl rfl)

/-- R111, R162: an edge that leaves STALLED is handed on to the service chain alone. -/
theorem handOn_woken (tie : TieOrder) (s : State) :
    handOn tie .real true (s.setClock (wokenClock s)) = endServiceByMotion (s.setClock (wokenClock s)) := by
  have hne : (s.setClock (wokenClock s)).clock.sync ≠ .fullSync := by
    intro h
    cases h
  have hmarker : (toothReport (s.setClock (wokenClock s)).tables.wheel (s.setClock (wokenClock s)).clock .real true).marker =
      false := by
    simp only [toothReport, AngleClock.atMarker, beq_eq_false_iff_ne.2 hne, Bool.false_and]
  unfold handOn
  dsimp only
  rw [hmarker, if_neg Bool.false_ne_true]
  exact (if_neg hne).trans (if_pos rfl)

theorem pulseCounted_setClock (s : State) (x : AngleClock) (p : Option Pulse) :
    (pulseCounted (s.setClock x) p).sup = (pulseCounted s p).sup ∧
    (pulseCounted (s.setClock x) p).service = (pulseCounted s p).service := by
  cases p <;> exact ⟨rfl, rfl⟩

/-- Settles O32: the clock, and the service chain ended by the edge. -/
theorem edgeLeavesStalled : Obligations.EdgeLeavesStalled := by
  unfold Obligations.EdgeLeavesStalled
  intro tie s hc hs
  rw [exec_stalled tie hc hs, leaveStalled_eq, handOn_woken]
  have hclock : (endServiceByMotion (s.setClock (wokenClock s))).clock = wokenClock s := by
    unfold endServiceByMotion
    split
    · rfl
    · exact Laws.abortChain_rel clock_bank _ _ _
  refine ⟨_, rfl, hclock, fun hnone => ?_, fun c hsome hn => ?_⟩
  · rw [hclock]
    unfold endServiceByMotion
    rw [show (s.setClock (wokenClock s)).service = none from hnone]
    rfl
  · have hend : endServiceByMotion (s.setClock (wokenClock s)) =
        abortChain (s.bankOf c) (s.setClock (wokenClock s)) c := by
      unfold endServiceByMotion
      rw [show (s.setClock (wokenClock s)).service = some c from hsome]
      rfl
    rw [hclock, hend]
    refine ⟨abortChain_left (s := s.setClock (wokenClock s)) hn,
      fun hg => abortChain_active (s := s.setClock (wokenClock s)) hn hg, fun hd hp => ?_⟩
    obtain ⟨u, hgap, hu, htold⟩ := abortChain_told (s := s.setClock (wokenClock s)) (k := s.bankOf c) (c := c) hn hd hp
    rw [pulseOutcome_congr (s := s) (t := s.setClock (wokenClock s)) rfl] at htold
    refine ⟨u, hgap, hu, outcomesTold_congr htold ?_ ?_ rfl rfl⟩
    · exact (pulseCounted_setClock s _ _).1.symm
    · exact (pulseCounted_setClock s _ _).2.symm

end Sys2Proof.Proofs.Standstill
end

section
/-! SUPPORT. The samples of a Drive Stage: the phases, and the faults. -/

namespace Sys2Proof.Proofs.Samples

open Sys2Proof Sys2Proof.Machine Sys2Proof.Laws Sys2Proof.Laws.Fine Sys2Proof.Proofs.Freeze Sys2Proof.Proofs.Frames
  Sys2Proof.Proofs.Removals Sys2Proof.Proofs.Cancelling Sys2Proof.Proofs.Arbiter Sys2Proof.Proofs.Conflict
  Sys2Proof.Proofs.Sweeps Sys2Proof.Proofs.PulseEnds Sys2Proof.Proofs.Cuts

/-! ### The Supervisor's cylinder -/

theorem cyls_ext {α : Type} {x y : Cyls α} (h : ∀ c, x.get c = y.get c) : x = y := by
  cases x
  cases y
  exact Cyls.mk.injEq .. |>.mpr ⟨h 0, h 1, h 2, h 3, h 4, h 5, h 6, h 7⟩

theorem told_keeps (x : CylSup) (os : List (Byte × PlaceOutcome)) :
    (x.told os).faults = x.faults ∧ (x.told os).firstPulse = x.firstPulse ∧ (x.told os).locked = x.locked := by
  unfold CylSup.told
  split
  · exact ⟨rfl, rfl, rfl⟩
  · split
    · exact ⟨rfl, rfl, rfl⟩
    · split <;> exact ⟨rfl, rfl, rfl⟩

/-- Outcomes that all go to one cylinder. -/
theorem outcomesTold_own {s t : State} {os : List (Cyl × Byte × PlaceOutcome)} {c : Cyl} (h : outcomesTold s t os)
    (hc : ∀ x ∈ os, x.1 = c) : t.sup = s.sup.set c ((s.supOf c).told (outcomesOf os c)) ∧
      t.service = if (s.supOf c).serviceDone (outcomesOf os c) = true then none else s.service := by
  obtain ⟨hsup, hserv⟩ := h
  have hnone : ∀ d, d ≠ c → outcomesOf os d = [] := fun d hd => by
    unfold outcomesOf
    rw [List.filter_eq_nil_iff.2 fun x hx => ?_]
    · rfl
    · rw [hc x hx]
      simpa using Ne.symm hd
  refine ⟨cyls_ext fun d => ?_, hserv.trans (if_congr ⟨?_, fun hd => ⟨c, hd⟩⟩ rfl rfl)⟩
  · have hd := hsup d
    rw [cyls_get_set]
    split
    · subst d
      exact hd
    · rename_i hne
      rw [hnone d hne, told_nil] at hd
      exact hd
  · rintro ⟨d, hd⟩
    by_cases hdc : d = c
    · rwa [← hdc]
    · rw [hnone d hdc] at hd
      unfold CylSup.serviceDone at hd
      cases hp : (s.supOf d).plan <;> simp [hp] at hd

/-! ### A fault -/

/-- R106: a cylinder without shots and track on the bank has none to lose. -/
theorem cancelCylinder_none {k : Bank} {s : State} {c : Cyl} (hq : ∀ y ∈ (s.schedOf k).queue, y.cyl ≠ c)
    (ht : ∀ u ∈ (s.schedOf k).tracks, u.cyl ≠ c) (o : ShotOutcome) : cancelCylinder k s c o = s := by
  have hshots : cancelShots k s (fun y => y.cyl == c) o = s := by
    unfold cancelShots
    rw [List.filter_eq_nil_iff.2 fun y hy => by simpa using hq y hy]
    rfl
  unfold cancelCylinder
  rw [hshots]
  unfold discardTrack
  rw [List.filter_eq_self.2 fun u hu => bne_iff_ne.2 (ht u hu)]
  exact congrArg (fun b => { s with sched := b }) (banks_set_get s.sched k)

/-- R106: the cylinder's shots and its track after its pulse. -/
theorem cancelCylinder_eq {k : Bank} {s : State} {c : Cyl} (hn : ((s.schedOf k).queue.map Shot.tag).Nodup)
    {o : ShotOutcome} : cancelCylinder k (drainSettled s) c o =
      drainSettled (discardTrack (removed k (allWith o ((s.schedOf k).queue.filter fun y => y.cyl == c)) s) k c) := by
  have hsched : (drainSettled s).schedOf k = s.schedOf k := congrArg (Banks.get · k) (drainSettled_kept s).1
  unfold cancelCylinder
  rw [cancelShots_eq (by rwa [hsched]) (drainSettled_agrees s), hsched,
    drainSettled_absorb (f := removed k (allWith o ((s.schedOf k).queue.filter fun y => y.cyl == c))) fun hd => ?_,
    drainSettled_discardTrack]
  rw [shots_of_drained hd]
  exact ⟨removed_nil _ _, removed_nil _ _⟩

theorem drainSettled_supEvents (s : State) (a : Cyls CylSup) (e : EventLatch) :
    drainSettled { s with sup := a, events := e } = { drainSettled s with sup := a, events := e } := by
  unfold drainSettled
  dsimp only
  split <;> rfl

/-- R157: a fault of the cylinder locks it. -/
def locksNow (s : State) (c : Cyl) : Bool := !(s.supOf c).locked &&
  ((s.supOf c).firstPulse || decide (s.tables.limits.lockout ≤ min 7 ((s.supOf c).faults + 1)))

/-- R156, R157: what the Supervisor holds for a cylinder after a fault. -/
def faultCounted (s : State) (c : Cyl) (kind : FaultKind) : CylSup := { s.supOf c with
  faults := min 7 ((s.supOf c).faults + 1), firstPulse := false, locked := (s.supOf c).locked || locksNow s c
  code := if locksNow s c then (if (s.supOf c).firstPulse then .firstPulseFault else .locked) else kind.condCode }

/-- R156, R157: a fault at the Supervisor, where the cylinder's shots and its track are gone. -/
theorem takeFault_eq {k : Bank} {s : State} {c : Cyl} (hq : ∀ y ∈ (s.schedOf k).queue, y.cyl ≠ c)
    (ht : ∀ u ∈ (s.schedOf k).tracks, u.cyl ≠ c) (kind : FaultKind) : takeFault k s c kind = { s with
      sup := s.sup.set c (faultCounted s c kind)
      events := if locksNow s c then (s.raise .lockout).events else s.events } := by
  have hlocks : locksOut (s.setSup c { s.supOf c with faults := min 7 ((s.supOf c).faults + 1), code := kind.condCode }) c
      (min 7 ((s.supOf c).faults + 1)) = locksNow s c := by
    unfold locksOut locksNow
    rw [show (s.setSup c _).supOf c = _ from cyls_get_set_same _ _ _]
    rfl
  have hnone : ∀ u : State, u.sched = s.sched → cancelCylinder k u c .cancelledFault = u := fun u hu => by
    refine cancelCylinder_none ?_ ?_ _ <;> rw [State.schedOf, hu]
    · exact hq
    · exact ht
  unfold takeFault faultCounted
  dsimp only
  rw [hlocks]
  cases locksNow s c with
  | false =>
    unfold State.setSup
    simp [State.supOf]
  | true =>
    unfold lockOut
    dsimp only
    rw [if_pos rfl, hnone]
    · unfold State.setSup State.raise State.setEvents
      simp [State.supOf]
      rfl
    · rfl

theorem pulseGone_faulted (k : Bank) (p : Option Pulse) (f : Option FaultKind) (s : State) :
    outcomesTold s (pulseGone k p .faulted f s) (pulseOutcome s p .faulted f) := by
  unfold pulseGone
  rw [if_pos rfl]
  refine outcomesTold_congr (tellAll_told _ _) ?_ ?_ rfl rfl <;> cases p <;> rfl

/-- R106, R143: a fault, but for the gap. -/
theorem injectorFault_eq {k : Bank} {s : State} {p : Pulse} (ha : (s.schedOf k).active = some p)
    (hn : ((s.schedOf k).queue.map Shot.tag).Nodup) (kind : FaultKind) : ∃ w,
      Swept k (some p) (allWith .cancelledFault ((s.schedOf k).queue.filter fun y => y.cyl == p.cyl)) (s.raise .injFault) w ∧
      outcomesTold s w (pulseOutcome s (some p) .faulted (some kind) ++
        chainOutcomes (allWith .cancelledFault ((s.schedOf k).queue.filter fun y => y.cyl == p.cyl))) ∧
      injectorFault k s kind = settleGap k (drainSettled { discardTrack w k p.cyl with
        sup := w.sup.set p.cyl (faultCounted w p.cyl kind)
        events := if locksNow w p.cyl then (w.raise .lockout).events else w.events }) := by
  have hend := endPulse_gone (k := k) (s := s.raise .injFault) (o := .faulted) (by decide) (some kind)
    (drainAgrees_of_active (k := k) (by
      show (s.schedOf k).active ≠ none
      rw [ha]
      exact Option.some_ne_none p))
  rw [show ((s.raise .injFault).schedOf k).active = some p from ha] at hend
  have hq : ((pulseGone k (some p) .faulted (some kind) (s.raise .injFault)).schedOf k).queue = (s.schedOf k).queue := by
    rw [schedOf_pulseGone]
    rfl
  have hsw := swept_pulse_first k (some p) .faulted (some kind)
    (allWith .cancelledFault ((s.schedOf k).queue.filter fun y => y.cyl == p.cyl)) (s.raise .injFault)
  have htold := outcomesTold_trans (pulseGone_faulted k (some p) (some kind) (s.raise .injFault))
    (removed_told k (allWith .cancelledFault ((s.schedOf k).queue.filter fun y => y.cyl == p.cyl)) _)
  have hcancel := cancelCylinder_eq (k := k) (c := p.cyl) (o := .cancelledFault)
    (s := pulseGone k (some p) .faulted (some kind) (s.raise .injFault)) (by rwa [hq])
  rw [hq] at hcancel
  rw [pulseOutcome_congr (s := s) (t := s.raise .injFault) rfl] at htold
  refine ⟨_, hsw, outcomesTold_congr htold rfl rfl rfl rfl, ?_⟩
  unfold injectorFault
  rw [ha]
  dsimp only
  rw [hend, hcancel]
  generalize removed k _ (pulseGone k (some p) .faulted (some kind) (s.raise .injFault)) = w at hsw
  have hof : w.schedOf k = _ := schedOf_of_set hsw.sched
  have hleft : (w.schedOf k).queue = (s.schedOf k).queue.filter fun y => y.cyl != p.cyl := by
    rw [hof, droppedAll_cancelled _ (allWith_cancelled rfl _)]
    dsimp only
    rw [(pulseOff_queue _ k (some p)).1]
    exact withoutShots_filter hn _ _
  have hsched : (drainSettled (discardTrack w k p.cyl)).schedOf k = (discardTrack w k p.cyl).schedOf k :=
    congrArg (Banks.get · k) (drainSettled_kept _).1
  rw [takeFault_eq (by
      rw [hsched, schedOf_discardTrack]
      dsimp only
      rw [hleft]
      exact fun y hy => bne_iff_ne.1 (List.mem_filter.1 hy).2) (by
      rw [hsched, schedOf_discardTrack]
      exact fun u hu => bne_iff_ne.1 (List.mem_filter.1 hu).2)]
  obtain ⟨-, hku, -, -, hkl⟩ := drainSettled_kept (discardTrack w k p.cyl)
  have hsup : (drainSettled (discardTrack w k p.cyl)).supOf p.cyl = w.supOf p.cyl := congrArg (Cyls.get · p.cyl) hku
  have hlocks : locksNow (drainSettled (discardTrack w k p.cyl)) p.cyl = locksNow w p.cyl := by
    unfold locksNow
    rw [hsup, hkl]
    rfl
  have hev : (drainSettled (discardTrack w k p.cyl)).events = w.events := by
    unfold drainSettled
    split <;> rfl
  have hraise : ((drainSettled (discardTrack w k p.cyl)).raise .lockout).events = (w.raise .lockout).events := by
    unfold State.raise
    rw [hev]
    rfl
  unfold faultCounted
  rw [hlocks, hsup, hku, hev, hraise]
  exact congrArg (settleGap k) (drainSettled_supEvents (discardTrack w k p.cyl) _ _).symm

/-- R132: a sample that is due. -/
theorem exec_driveSample {k : Bank} {s : State} {p : Pulse} (ha : (s.schedOf k).active = some p) (x : Byte) :
    exec (.driveSample k x) s = .next (if (s.driveOf k).startTime + 10 * ((s.driveOf k).samples + 1) ≤ s.timebase then
      judgeSample k ((s.readSense k x).setDrive k (s.driveOf k).counted) (s.senseValue k x).toNat else s) := by
  have hdue : dueDriveSample s k =
      decide ((s.driveOf k).startTime + 10 * ((s.driveOf k).samples + 1) ≤ s.timebase) := by
    unfold dueDriveSample
    rw [ha]
    rfl
  show Host.Outcome.next (whenDue (dueDriveSample s k) (fun s => takeDriveSample k s x) s) = _
  unfold whenDue
  rw [hdue]
  by_cases hd : (s.driveOf k).startTime + 10 * ((s.driveOf k).samples + 1) ≤ s.timebase
  · rw [if_pos hd, if_pos (decide_eq_true hd)]
    rfl
  · rw [if_neg hd, if_neg (by simpa using hd)]

/-- R140, R141: what a sample that shows a fault is judged to be. -/
theorem judgeSample_fault {k : Bank} {s : State} {v : Nat} {kind : FaultKind}
    (h : (kind = .short ∧ (s.driveOf k).profile.short < v) ∨
      (kind = .openLoad ∧ v ≤ (s.driveOf k).profile.short ∧ (s.driveOf k).samples = (s.driveOf k).profile.boostMax ∧
        ((s.driveOf k).phase = .boost ∨ (s.driveOf k).degraded = true) ∧ v < (s.driveOf k).profile.openDetect)) :
    judgeSample k s v = injectorFault k s kind := by
  unfold judgeSample
  rcases h with ⟨rfl, hs⟩ | ⟨rfl, hs, hm, hp, ho⟩
  · exact if_pos (decide_eq_true hs)
  · have hshort : ¬(s.driveOf k).isShort v = true := by
      unfold DriveStage.isShort
      simpa using hs
    have hopen : (s.driveOf k).isOpen v = true := by
      unfold DriveStage.isOpen DriveStage.atBoostMax
      simp [hm, ho, hp]
    exact (if_neg hshort).trans (if_pos hopen)

/-- Settles O54: the fault, the pulse and the shots it takes, and the lockout. -/
theorem faultEndsThePulse : Obligations.FaultEndsThePulse := by
  unfold Obligations.FaultEndsThePulse
  intro k x s p kind ha d q v n hdue hn hfault old faults locks mine os
  have hdrive : ((s.readSense k x).setDrive k (s.driveOf k).counted).driveOf k = (s.driveOf k).counted :=
    banks_get_set_same _ _ _
  have hjudge : judgeSample k ((s.readSense k x).setDrive k (s.driveOf k).counted) v =
      injectorFault k ((s.readSense k x).setDrive k (s.driveOf k).counted) kind :=
    judgeSample_fault (by rw [hdrive]; exact hfault)
  rw [exec_driveSample ha x, if_pos hdue, hjudge]
  obtain ⟨w, hsw, htold, heq⟩ := injectorFault_eq (k := k) (s := (s.readSense k x).setDrive k (s.driveOf k).counted)
    (p := p) ha hn kind
  rw [heq]
  have hown : ∀ y ∈ os, y.1 = p.cyl := fun y hy => by
    rcases List.mem_append.1 hy with hy | hy
    · rw [List.mem_singleton.1 hy]
    · obtain ⟨z, hz, rfl⟩ := List.mem_map.1 hy
      obtain ⟨m, hm, rfl⟩ := List.mem_map.1 hz
      have hmine : m ∈ q.queue.filter fun y => y.cyl == p.cyl := hm
      exact beq_iff_eq.1 (List.mem_filter.1 hmine).2
  rw [pulseOutcome_congr (s := s) (t := (s.readSense k x).setDrive k (s.driveOf k).counted) rfl] at htold
  obtain ⟨hsup, hserv⟩ := outcomesTold_own (os := os) htold hown
  have hold : w.supOf p.cyl = old.told (outcomesOf os p.cyl) := by
    rw [State.supOf, hsup, cyls_get_set_same]
    rfl
  obtain ⟨hkf, hkp, hkl⟩ := told_keeps old (outcomesOf os p.cyl)
  have hwl : w.tables.limits = s.tables.limits := by rw [hsw.change]; rfl
  have hlocks : locksNow w p.cyl = locks := by
    unfold locksNow
    rw [hold, hkf, hkp, hkl, hwl]
  have hcounted : faultCounted w p.cyl kind = { old.told (outcomesOf os p.cyl) with
      faults := faults, firstPulse := false, locked := old.locked || locks
      code := if locks then (if old.firstPulse then .firstPulseFault else .locked)
              else if kind = .short then .short else .openLoad } := by
    unfold faultCounted
    rw [hlocks, hold, hkf, hkp, hkl]
    cases kind <;> rfl
  have hwe : w.events = (s.raise .injFault).events :=
    hsw.events.trans (eventsAfter_cancelled _ (allWith_cancelled rfl _))
  have hev : (if locksNow w p.cyl = true then (w.raise .lockout).events else w.events) =
      if locks then ((s.raise .injFault).raise .lockout).events else (s.raise .injFault).events := by
    rw [hlocks, State.raise, hwe]
    rfl
  have hsched : (discardTrack w k p.cyl).sched = s.sched.set k { q with
      active := none, cond := .gap, lastEnd := some s.timebase
      queue := q.queue.filter fun y => y.cyl != p.cyl
      tracks := q.tracks.filter fun u => u.cyl != p.cyl
      cancelled := q.cancelled + BitVec.ofNat 32 mine.length } := by
    rw [hsw.closed p.cyl]
    dsimp only
    rw [pulseOff_set, schedOf_of_set (pulseOff_sched _ k p), droppedAll_cancelled _ (allWith_cancelled rfl _), allWith_length]
    exact congrArg (fun l => s.sched.set k { q with
      active := none, cond := .gap, lastEnd := some s.timebase, queue := l
      tracks := q.tracks.filter fun u => u.cyl != p.cyl
      cancelled := q.cancelled + BitVec.ofNat 32 mine.length }) (withoutShots_filter hn _ _)
  have hdrive : w.drive = s.drive.set k { stageEnded d with samples := n } := by
    rw [hsw.drive]
    show (s.drive.set k d.counted).set k (stageEnded ((s.drive.set k d.counted).get k)) = _
    rw [banks_set_set, banks_get_set_same]
    rfl
  have hlevel : w.level = s.level.set k (recuperated s k) := by
    rw [hsw.level]
    show s.level.set k (min _ (s.levelOf k + ((s.drive.set k d.counted).get k).profile.recup)) = _
    rw [banks_get_set_same]
    rfl
  have hinner : { discardTrack w k p.cyl with
      sup := w.sup.set p.cyl (faultCounted w p.cyl kind)
      events := if locksNow w p.cyl = true then (w.raise .lockout).events else w.events } = { s with
        sched := s.sched.set k { q with
          active := none, cond := .gap, lastEnd := some s.timebase
          queue := q.queue.filter fun y => y.cyl != p.cyl
          tracks := q.tracks.filter fun u => u.cyl != p.cyl
          cancelled := q.cancelled + BitVec.ofNat 32 mine.length }
        sense := s.sense.set k (some (s.timebase, s.senseValue k x))
        drive := s.drive.set k { stageEnded d with samples := n }
        level := s.level.set k (recuperated s k)
        events := if locks then ((s.raise .injFault).raise .lockout).events else (s.raise .injFault).events
        sup := s.sup.set p.cyl { old.told (outcomesOf os p.cyl) with
          faults := faults, firstPulse := false, locked := old.locked || locks
          code := if locks then (if old.firstPulse then .firstPulseFault else .locked)
                  else if kind = .short then .short else .openLoad }
        service := if old.serviceDone (outcomesOf os p.cyl) = true then none else s.service } := by
    rw [hev, hcounted, hsup, cyls_set_set, ← hsched, ← hdrive, ← hlevel]
    have hserv' : w.service = if old.serviceDone (outcomesOf os p.cyl) = true then none else s.service := hserv
    rw [← hserv']
    have hchange := hsw.change
    unfold BankChange withBanks at hchange
    conv_lhs => rw [hchange]
    rfl
  rw [hinner]
  refine ⟨_, _, rfl, gapSettled_settleGap fun m hm => ?_, rfl⟩
  rw [schedOf_drainSettled, State.schedOf, banks_get_set_same] at hm
  cases hm
  rw [drainSettled_timebase]

/-! ### A sample without a fault -/

/-- R134 to R136: the phase after a sample. -/
def phaseAfter (d : DriveStage) (now v : Nat) : Phase :=
  if d.phase = .boost ∧ (d.profile.peak ≤ v ∨ d.samples + 1 = d.profile.boostMax) then
    (if d.profile.peakHold = 0 then .hold else .peak)
  else if d.phase = .peak ∧ d.entryTime + 10 * d.profile.peakHold ≤ now then .hold
  else d.phase

/-- R132 to R137: the Drive Stage after a sample. -/
def stageAfter (d : DriveStage) (now v : Nat) : DriveStage := { d with
  samples := d.samples + 1, phase := phaseAfter d now v
  entryTime := if phaseAfter d now v = d.phase then d.entryTime else now
  boostSw := if d.phase = .boost ∧ phaseAfter d now v ≠ .boost then false else d.boostSw
  gate := if phaseAfter d now v = .peak then chop d.profile.peak v d.gate
          else if phaseAfter d now v = .hold then chop d.profile.hold v d.gate else d.gate }

theorem moved_boost {d : DriveStage} (now v : Nat) (h : d.phase = .boost) :
    (d.counted.movePhase now v).moveGate v = stageAfter d now v := by
  unfold stageAfter phaseAfter DriveStage.movePhase DriveStage.counted
  dsimp only
  rw [h]
  by_cases hend : d.profile.peak ≤ v ∨ d.samples + 1 = d.profile.boostMax
  · by_cases hhold : d.profile.peakHold = 0 <;>
      simp [hend, hhold, DriveStage.endBoost, DriveStage.enterHold, DriveStage.moveGate]
  · simp [hend, DriveStage.moveGate]

theorem moved_peak {d : DriveStage} (now v : Nat) (h : d.phase = .peak) :
    (d.counted.movePhase now v).moveGate v = stageAfter d now v := by
  unfold stageAfter phaseAfter DriveStage.movePhase DriveStage.counted
  dsimp only
  rw [h]
  by_cases hend : d.entryTime + 10 * d.profile.peakHold ≤ now <;>
    simp [hend, DriveStage.enterHold, DriveStage.moveGate]

theorem moved_hold {d : DriveStage} (now v : Nat) (h : d.phase = .hold) :
    (d.counted.movePhase now v).moveGate v = stageAfter d now v := by
  unfold stageAfter phaseAfter DriveStage.movePhase DriveStage.counted
  simp [h, DriveStage.moveGate]

/-- R140, R141: a sample that shows no fault. -/
theorem judgeSample_calm {k : Bank} {s : State} {v : Nat} (hs : v ≤ (s.driveOf k).profile.short)
    (ho : ¬((s.driveOf k).samples = (s.driveOf k).profile.boostMax ∧
      ((s.driveOf k).phase = .boost ∨ (s.driveOf k).degraded = true) ∧ v < (s.driveOf k).profile.openDetect)) :
    judgeSample k s v = (if (s.driveOf k).isSlow v = true then markSlow k s else s).setDrive k
      (((s.driveOf k).movePhase s.timebase v).moveGate v) := by
  have hshort : ¬(s.driveOf k).isShort v = true := by
    unfold DriveStage.isShort
    simpa using hs
  have hopen : ¬(s.driveOf k).isOpen v = true := by
    unfold DriveStage.isOpen DriveStage.atBoostMax
    simpa [and_assoc] using ho
  unfold judgeSample
  dsimp only
  rw [if_neg hshort, if_neg hopen]
  split <;> rfl

theorem markSlow_eq {k : Bank} {s : State} {p : Pulse} (ha : (s.schedOf k).active = some p) : markSlow k s =
    s.setSched k { s.schedOf k with active := some { p with flags := { p.flags with slowRise := true } } } := by
  unfold markSlow
  rw [ha]
  rfl

/-- Settles O53: the phases one by one. -/
theorem driveSampleMovesThePhase : Obligations.DriveSampleMovesThePhase := by
  unfold Obligations.DriveSampleMovesThePhase
  intro k x s p ha d v n
  rw [exec_driveSample ha x]
  refine ⟨fun hlt => by rw [if_neg (Nat.not_le.2 hlt)], fun hle hphase hs ho => ?_⟩
  have hdrive : ((s.readSense k x).setDrive k d.counted).driveOf k = d.counted := banks_get_set_same _ _ _
  have hmoved : (d.counted.movePhase s.timebase v).moveGate v = stageAfter d s.timebase v := by
    rcases hphase with h | h | h
    · exact moved_boost _ _ h
    · exact moved_peak _ _ h
    · exact moved_hold _ _ h
  have hslow : d.counted.isSlow v = true ↔ n = d.profile.boostMax ∧ d.phase = .boost ∧ v < d.profile.peak := by
    unfold DriveStage.isSlow DriveStage.atBoostMax DriveStage.counted
    simp [and_assoc, n]
  rw [if_pos hle, judgeSample_calm (by rw [hdrive]; exact hs) (by rw [hdrive]; exact ho), hdrive]
  show Host.Outcome.next (State.setDrive _ k ((d.counted.movePhase s.timebase v).moveGate v)) = _
  rw [hmoved]
  by_cases h : n = d.profile.boostMax ∧ d.phase = .boost ∧ v < d.profile.peak
  · rw [if_pos (hslow.2 h), if_pos h]
    rw [markSlow_eq (s := (s.readSense k x).setDrive k d.counted) ha]
    unfold State.setDrive State.setSched
    dsimp only
    rw [banks_set_set]
    rfl
  · rw [if_neg fun hc => h (hslow.1 hc), if_neg h]
    unfold State.setDrive
    dsimp only
    rw [banks_set_set]
    rfl

end Sys2Proof.Proofs.Samples
end

section
/-! SUPPORT. The periodic events of the reservoirs, the supply and the trace, and the two trace commands. -/

namespace Sys2Proof.Proofs.Periodic

open Sys2Proof Sys2Proof.Machine Sys2Proof.Laws Sys2Proof.Laws.Fine Sys2Proof.Proofs.Freeze Sys2Proof.Proofs.Frames
  Sys2Proof.Proofs.Bytes Sys2Proof.Proofs.Layouts

/-! ### Recharge and supply -/

/-- R116: the rate of a step, in the order of the statement. -/
theorem stepRate_eq (l : Limits) (mode : ConverterMode) (band : Band) (level : Nat) : stepRate l mode band level =
    if mode = .off ∨ band = .under then 0
    else if band = .crank then l.rateNormal / 2
    else if band = .normal ∧ mode = .auto ∧ level < l.lowWater then l.rateFast
    else l.rateNormal := by
  cases mode <;> cases band <;> simp [stepRate]

theorem joinWindow_eq (w : List Nat) (x : Nat) :
    joinWindow w x = if w.length < 8 then w ++ [x] else w.tail ++ [x] := by
  unfold joinWindow
  rw [List.drop_one]
  rfl

theorem nextBand_full {m : SupplyMonitor} {l : Limits} {w : List Nat} (h : 8 ≤ w.length) :
    m.nextBand l w = l.decideBand m.band (w.sum / 8) := by
  have hn : ¬w.length < Config.supplyWindow := Nat.not_lt.2 h
  unfold SupplyMonitor.nextBand average
  rw [if_neg hn, if_neg hn]
  rfl

/-- R126: the rise of a band that stands below the average's class. -/
theorem risen_cases {l : Limits} {band : Band} (avg : Nat) (h : 0 < band.code) :
    (l.lowThr + 12 ≤ avg → l.risen band avg = .normal) ∧
    (avg < l.lowThr + 12 → l.crankThr + 12 ≤ avg → 1 < band.code → l.risen band avg = .low) ∧
    (avg < l.lowThr + 12 → avg < l.crankThr + 12 → l.underThr + 12 ≤ avg → band = .under → l.risen band avg = .crank) ∧
    (avg < l.lowThr + 12 → (l.crankThr + 12 ≤ avg → band.code ≤ 1) → (l.underThr + 12 ≤ avg → band ≠ .under) →
      l.risen band avg = band) := by
  have hunder : band = .under ↔ 2 < band.code := by cases band <;> decide
  unfold Limits.risen
  rw [show Config.bandHysteresis = 12 from rfl]
  refine ⟨fun h1 => if_pos ⟨h, h1⟩, fun h1 h2 h3 => ?_, fun h1 h2 h3 h4 => ?_, fun h1 h2 h3 => ?_⟩
  · rw [if_neg fun hc => absurd hc.2 (Nat.not_le.2 h1), if_pos ⟨h3, h2⟩]
  · rw [if_neg fun hc => absurd hc.2 (Nat.not_le.2 h1), if_neg fun hc => absurd hc.2 (Nat.not_le.2 h2),
      if_pos ⟨hunder.1 h4, h3⟩]
  · rw [if_neg fun hc => absurd hc.2 (Nat.not_le.2 h1), if_neg fun hc => absurd hc.1 (Nat.not_lt.2 (h2 hc.2)),
      if_neg fun hc => h3 hc.2 (hunder.2 hc.1)]

theorem takeSupply_eq (s : State) (x : Nat) : takeSupply s x = { s with
    supply := { window := joinWindow s.supply.window x
                band := s.supply.nextBand s.tables.limits (joinWindow s.supply.window x)
                nextSample := s.supply.nextSample + 10000 }
    events := if s.supply.nextBand s.tables.limits (joinWindow s.supply.window x) = s.supply.band then s.events
              else (s.raise .supplyBand).events } := by
  unfold takeSupply
  dsimp only
  split <;> rfl

/-- Settles O52: the two events, and the band by the cases of R124 to R126. -/
theorem rechargeAndSupply : Obligations.RechargeAndSupply := by
  unfold Obligations.RechargeAndSupply
  refine ⟨fun s hle => ?_, fun s hlt => ?_, fun x s hlt => ?_, fun x s hle => ?_⟩
  · refine congrArg Host.Outcome.next ((whenDue_of_true (f := rechargeBoth) (decide_eq_true hle)).trans ?_)
    unfold rechargeBoth recharged
    simp only [stepRate_eq]
    rfl
  · exact congrArg Host.Outcome.next (whenDue_of_false (f := rechargeBoth) (decide_eq_false (Nat.not_le.2 hlt)))
  · exact congrArg Host.Outcome.next (whenDue_of_false (f := fun s => takeSupply s x.toNat)
      (decide_eq_false (Nat.not_le.2 hlt)))
  · intro l win avg cls
    have hwin : joinWindow s.supply.window x.toNat = win := joinWindow_eq _ _
    refine ⟨s.supply.nextBand l win, ?_, fun hw => if_pos hw, fun hw hc => ?_, fun hw hc => ?_⟩
    · rw [← hwin]
      exact congrArg Host.Outcome.next ((whenDue_of_true (f := fun s => takeSupply s x.toNat)
        (decide_eq_true hle)).trans (takeSupply_eq s x.toNat))
    · rw [nextBand_full hw]
      exact if_pos hc
    · rw [nextBand_full hw, show l.decideBand s.supply.band (win.sum / 8) = l.risen s.supply.band avg from
        if_neg (Nat.not_le.2 hc)]
      exact risen_cases avg (Nat.zero_lt_of_lt hc)

/-! ### Fields of a reply -/

theorem fieldAt_skip {xs ys : List Byte} {off n : Nat} (h : xs.length ≤ off) :
    fieldAt (xs ++ ys) off n = fieldAt ys (off - xs.length) n := by
  unfold fieldAt
  rw [List.drop_append, List.drop_of_length_le h]
  rfl

theorem fieldAt_skip_byte {x : Byte} {xs : List Byte} {off n : Nat} (h : 0 < off) :
    fieldAt (x :: xs) off n = fieldAt xs (off - 1) n := fieldAt_skip (xs := [x]) h

theorem fieldAt_here (k v : Nat) (ys : List Byte) : fieldAt (leBytes k v ++ ys) 0 k = v % 256 ^ k := by
  unfold fieldAt
  rw [List.drop_zero, List.take_append_of_le_length (leBytes_length k v).ge, List.take_of_length_le (leBytes_length k v).le,
    leValue_leBytes]

theorem fieldAt_byte_here (x : Byte) (xs : List Byte) : fieldAt (x :: xs) 0 1 = x.toNat := fieldAt_one _ _

/-! ### The trace -/

theorem dueTraceSample_of_not {s : State} (h : s.trace.state ≠ .capturing) : dueTraceSample s = none := by
  unfold dueTraceSample
  cases hs : s.trace.state with
  | capturing => exact absurd hs h
  | _ => rfl

theorem dueTraceSample_capturing {s : State} {k : Bank} {n : Nat} (hs : s.trace.state = .capturing)
    (hk : s.trace.bank = some k) (hn : s.trace.start = some n) : dueTraceSample s =
      if n + 10 * s.trace.interval * (s.trace.stored + 1) ≤ s.timebase then some k else none := by
  unfold dueTraceSample
  rw [hs, hk, hn]

theorem exec_traceSample_none {s : State} (h : dueTraceSample s = none) (x : Byte) : exec (.traceSample x) s = .next s := by
  show execTraceSample x s = _
  unfold execTraceSample
  rw [h]

theorem exec_traceSample_some {s : State} {k : Bank} (h : dueTraceSample s = some k) (x : Byte) :
    exec (.traceSample x) s = .next (takeTraceSample k s x) := by
  show execTraceSample x s = _
  unfold execTraceSample
  rw [h]

/-- R146: a stored sample; the 64th makes the trace DONE. -/
theorem takeTraceSample_eq {k : Bank} {s : State} (h : s.trace.state = .capturing) (x : Byte) :
    takeTraceSample k s x = { s with
      sense := s.sense.set k (some (s.timebase, s.senseValue k x))
      trace := { s.trace with
        buffer := s.trace.buffer.set s.trace.stored (s.senseValue k x), stored := s.trace.stored + 1
        state := if s.trace.stored = 63 then .done else .capturing }
      events := if s.trace.stored = 63 then (s.raise .traceDone).events else s.events } := by
  have hstate : (s.trace.store (s.senseValue k x)).state = if s.trace.stored = 63 then .done else .capturing := by
    unfold TraceCapture.store
    rw [h, show Config.traceSize = 64 from rfl]
    exact if_congr (by omega) rfl rfl
  have hstore : s.trace.store (s.senseValue k x) = { s.trace with
      buffer := s.trace.buffer.set s.trace.stored (s.senseValue k x), stored := s.trace.stored + 1
      state := if s.trace.stored = 63 then .done else .capturing } := by
    rw [← hstate]
    rfl
  show (if (s.trace.store (s.senseValue k x)).state = .done then _ else _) = _
  rw [hstate]
  by_cases h63 : s.trace.stored = 63
  · rw [if_pos h63, if_pos rfl, if_pos h63]
    show State.raise { s.readSense k x with trace := s.trace.store (s.senseValue k x) } .traceDone = _
    rw [hstore, if_pos h63]
    rfl
  · rw [if_neg h63, if_neg (by decide), if_neg h63]
    show { s.readSense k x with trace := s.trace.store (s.senseValue k x) } = _
    rw [hstore, if_neg h63]
    rfl

theorem ownTraceArm_idle (s : State) (n : Byte) :
    ownTraceArm s [0, n] = took (s.setTrace (s.trace.armed .idle 0 s.trace.interval)) := rfl

theorem ownTraceArm_busy {s : State} {c : Byte} (hc : c ≠ 0) (h : s.trace.state = .armed ∨ s.trace.state = .capturing)
    (n : Byte) : ownTraceArm s [c, n] = refuse s .wrongState := by
  have h0 : u8 [c, n] 0 ≠ 0 := fun h => hc (BitVec.eq_of_toNat_eq h)
  unfold ownTraceArm
  dsimp only
  rw [if_neg h0, if_pos h]

theorem ownTraceArm_free {s : State} {c : Byte} (hc : c ≠ 0) (h : s.trace.state = .idle ∨ s.trace.state = .done)
    (n : Byte) : ownTraceArm s [c, n] = if c.toNat ≤ 8 ∧ 1 ≤ n.toNat ∧ n.toNat ≤ 16 then
      took (s.setTrace (s.trace.armed .armed c.toNat n.toNat)) else refuse s .badParam := by
  have h0 : u8 [c, n] 0 ≠ 0 := fun h => hc (BitVec.eq_of_toNat_eq h)
  have hfree : ¬(s.trace.state = .armed ∨ s.trace.state = .capturing) := by
    rcases h with h | h <;> rw [h] <;> decide
  unfold ownTraceArm
  dsimp only
  rw [if_neg h0, if_neg hfree]
  refine if_congr ?_ rfl rfl
  unfold within
  rw [decide_eq_true_eq]
  rfl

/-- R147: the layout of TRACE_READ. -/
theorem traceBytes_layout {t : TraceCapture} (hb : t.buffer.length = 64) (hp : t.readPtr ≤ 64) :
    (traceBytes t).length = 14 + t.readCount ∧ fieldAt (traceBytes t) 0 1 = t.cyl % 256 ∧
    fieldAt (traceBytes t) 1 1 = t.interval % 256 ∧
    fieldAt (traceBytes t) 2 1 = (if t.bank = some .bankB then 1 else 0) ∧
    fieldAt (traceBytes t) 3 8 = t.start.getD 0 % 2 ^ 64 ∧ fieldAt (traceBytes t) 11 1 = t.readPtr ∧
    fieldAt (traceBytes t) 12 1 = t.readCount ∧ fieldAt (traceBytes t) 13 1 = t.stored % 256 ∧
    ∀ i, i < t.readCount → (traceBytes t)[14 + i]? = t.buffer[t.readPtr + i]? := by
  have hcount : t.readCount ≤ 64 - t.readPtr := Nat.min_le_right _ _
  have hcount' : t.readCount ≤ 16 := Nat.min_le_left _ _
  have htake : ((t.buffer.drop t.readPtr).take t.readCount).length = t.readCount := by
    rw [List.length_take, List.length_drop, hb]
    omega
  have hbank : (t.bank.map bankCode).getD 0 % 256 = if t.bank = some .bankB then 1 else 0 := by
    cases t.bank with
    | none => rfl
    | some k => cases k <;> rfl
  have hread : ∀ i, i < t.readCount → (traceBytes t)[14 + i]? = t.buffer[t.readPtr + i]? := fun i hi => by
    unfold traceBytes
    rw [List.getElem?_append_right (by simp), List.getElem?_take_of_lt (by simpa using hi), List.getElem?_drop]
    simp
  have hlen : (traceBytes t).length = 14 + t.readCount := by
    unfold traceBytes
    simp only [List.length_append, List.length_cons, List.length_nil, leBytes_length, htake]
  refine ⟨hlen, ?_, ?_, ?_, ?_, ?_, ?_, ?_, hread⟩
  all_goals
    unfold traceBytes
    simp (disch := simp) only [fieldAt_skip, fieldAt_skip_byte, fieldAt_here, fieldAt_byte_here, byte_toNat,
      leBytes_length, List.append_assoc, List.cons_append, List.nil_append, Nat.reduceSub]
  · exact hbank
  · rfl
  · exact Nat.mod_eq_of_lt (by omega)
  · exact Nat.mod_eq_of_lt (by omega)

/-- Settles O55: the two commands, and the samples between them. -/
theorem traceArmsStoresAndReads : Obligations.TraceArmsStoresAndReads := by
  unfold Obligations.TraceArmsStoresAndReads
  refine ⟨fun f s c n h hps => ?_, fun x s k t₀ => ?_, fun f s h hps => ?_⟩
  · have hown : ∀ {r}, ownTraceArm (received s 0x38 f) [c, n] = r →
        exec (.traceArm f) s = .next (respond r.state 0x38 r.result r.data) := fun hr =>
      congrArg Host.Outcome.next (takeFrame_exactly (n := 2) (owner := ownTraceArm) h (congrArg List.length hps) (by decide)
        ((congrArg (ownTraceArm _) hps).trans hr))
    refine ⟨fun hc => ?_, fun hc hb => ?_, fun hc hf => ⟨fun hr => ?_, fun hr => ?_⟩⟩
    · subst hc
      exact hown (ownTraceArm_idle _ n)
    · exact hown (ownTraceArm_busy (s := received s 0x38 f) hc hb n)
    · exact hown ((ownTraceArm_free (s := received s 0x38 f) hc hf n).trans (if_pos hr))
    · exact hown ((ownTraceArm_free (s := received s 0x38 f) hc hf n).trans (if_neg hr))
  · refine ⟨fun hs => exec_traceSample_none (dueTraceSample_of_not hs) x, fun hs hk hn => ⟨fun hlt => ?_, fun hle => ?_⟩⟩
    · exact exec_traceSample_none ((dueTraceSample_capturing hs hk hn).trans (if_neg (Nat.not_le.2 hlt))) x
    · rw [exec_traceSample_some ((dueTraceSample_capturing hs hk hn).trans (if_pos hle)) x, takeTraceSample_eq hs]
  · have hown : ∀ {r}, ownTraceRead (received s 0x39 f) (frameParams f) = r →
        exec (.traceRead f) s = .next (respond r.state 0x39 r.result r.data) := fun hr =>
      congrArg Host.Outcome.next (takeFrame_exactly (n := 0) (owner := ownTraceRead) h (length_of_empty hps) (by decide) hr)
    refine ⟨fun hs => hown (if_neg hs), fun hs hb hp => ?_⟩
    exact ⟨_, hown (if_pos hs), traceBytes_layout hb hp⟩

end Sys2Proof.Proofs.Periodic
end

section
/-! SUPPORT. DEMAND, ARM and DISARM. -/

namespace Sys2Proof.Proofs.Demands

open Sys2Proof Sys2Proof.Machine Sys2Proof.Laws Sys2Proof.Laws.Fine Sys2Proof.Proofs.Freeze Sys2Proof.Proofs.Frames
  Sys2Proof.Proofs.Removals Sys2Proof.Proofs.Layouts

/-! ### The entries of a frame -/

theorem s8_of_byte {ps : List Byte} {i : Nat} {x : Int} (h : ps.getD i 0 = s8Byte x) (h1 : -128 ≤ x) (h2 : x ≤ 127) :
    s8 ps i = x := by
  have hu : u8 ps i = (x % 256).toNat := by
    unfold u8 s8Byte at *
    rw [h, BitVec.toNat_ofInt]
    rfl
  unfold s8
  rw [hu]
  split <;> omega

theorem bytes_eq (e : DemandEntry) :
    e.bytes = [byte e.cyl, byte e.pattern, byte e.mainUs, byte (e.mainUs / 256), s8Byte e.advance] := rfl

/-- R53: what is sent is what is read. -/
theorem parseDemandEntries_bytes (es : List DemandEntry) (h : ∀ e ∈ es, e.carried = true) :
    parseDemandEntries es.length (es.flatMap DemandEntry.bytes) = es := by
  induction es with
  | nil => rfl
  | cons e es ih =>
    have he := h e List.mem_cons_self
    simp only [DemandEntry.carried, Bool.and_eq_true, decide_eq_true_eq] at he
    obtain ⟨⟨⟨hc, hp⟩, hm⟩, h1, h2⟩ := he
    rw [List.flatMap_cons, bytes_eq, List.length_cons, parseDemandEntries]
    congr 1
    · rw [u8_of_byte rfl hc, u8_of_byte rfl hp, u16_of_bytes rfl rfl hm, s8_of_byte rfl h1 h2]
    · exact ih fun e he => h e (List.mem_cons_of_mem _ he)

theorem length_flatMap_bytes (es : List DemandEntry) : (es.flatMap DemandEntry.bytes).length = 5 * es.length := by
  induction es with
  | nil => rfl
  | cons e es ih =>
    rw [List.flatMap_cons, List.length_append, ih, bytes_eq, List.length_cons]
    simp only [List.length_cons, List.length_nil]
    omega

theorem demandEntries_bytes {es : List DemandEntry} (h : ∀ e ∈ es, e.carried = true) :
    demandEntries (es.flatMap DemandEntry.bytes) = es := by
  unfold demandEntries
  rw [length_flatMap_bytes, Nat.mul_div_cancel_left _ (by decide)]
  exact parseDemandEntries_bytes es h

/-! ### Staging -/

/-- R53, R54: an admitted entry stages for its cylinder its demand, clamped. -/
theorem staged_of_admitted {s : State} {e : DemandEntry} (h : e.admitted s) : ∃ c d,
    e.staged (fun c => (s.cylOf c).enabled) = some (c, d) ∧ e.cyl = c.val + 1 ∧ d.pattern.val = e.pattern ∧
      d.mainUs = min 10000 e.mainUs ∧ d.advance = max (-120) (min 120 e.advance) := by
  obtain ⟨c, hc, hen, hp⟩ := h
  refine ⟨c, { pattern := ⟨e.pattern, hp⟩, mainUs := min 10000 e.mainUs, advance := clampAdvance e.advance }, ?_, hc, rfl,
    rfl, rfl⟩
  unfold DemandEntry.staged
  rw [cylOf_eq_some.2 hc, patternOf_eq_some (i := ⟨e.pattern, hp⟩) |>.2 rfl]
  exact if_pos hen

theorem staged_of_not_admitted {s : State} {e : DemandEntry} (h : ¬e.admitted s) :
    e.staged (fun c => (s.cylOf c).enabled) = none := by
  unfold DemandEntry.staged
  cases hc : Machine.cylOf e.cyl with
  | none => rfl
  | some c =>
    cases hp : patternOf e.pattern with
    | none => rfl
    | some p =>
      refine if_neg fun hen => h ⟨c, cylOf_eq_some.1 hc, hen, ?_⟩
      rw [patternOf_eq_some.1 hp]
      exact p.isLt

theorem stagedEntries_none {en : Cyl → Bool} {es : List DemandEntry} (h : ∃ e ∈ es, e.staged en = none) :
    stagedEntries en es = none := by
  induction es with
  | nil =>
    obtain ⟨e, he, -⟩ := h
    cases he
  | cons e es ih =>
    unfold stagedEntries
    cases hs : e.staged en with
    | none => rfl
    | some x =>
      obtain ⟨e', he, hn⟩ := h
      rcases List.mem_cons.1 he with rfl | he
      · rw [hs] at hn
        cases hn
      · rw [ih ⟨e', he, hn⟩]

theorem stagedEntries_cons {en : Cyl → Bool} {e : DemandEntry} {es : List DemandEntry} {x : Cyl × Demand}
    {xs : List (Cyl × Demand)} (h : e.staged en = some x) (hs : stagedEntries en es = some xs) :
    stagedEntries en (e :: es) = some (x :: xs) := by
  unfold stagedEntries
  rw [h, hs]

/-- What a demand of the list is, for the entry it is staged from. -/
def Stages (e : DemandEntry) (x : Cyl × Demand) : Prop :=
  e.cyl = x.1.val + 1 ∧ x.2.pattern.val = e.pattern ∧ x.2.mainUs = min 10000 e.mainUs ∧
    x.2.advance = max (-120) (min 120 e.advance)

theorem stagedEntries_some {s : State} {es : List DemandEntry} (h : ∀ e ∈ es, e.admitted s) :
    ∃ xs, stagedEntries (fun c => (s.cylOf c).enabled) es = some xs ∧ List.Forall₂ Stages es xs := by
  induction es with
  | nil => exact ⟨[], rfl, .nil⟩
  | cons e es ih =>
    obtain ⟨c, d, hst, hcyl, hd⟩ := staged_of_admitted (h e List.mem_cons_self)
    obtain ⟨xs, hxs, hall⟩ := ih fun e he => h e (List.mem_cons_of_mem _ he)
    exact ⟨(c, d) :: xs, stagedEntries_cons hst hxs, .cons ⟨hcyl, hd⟩ hall⟩

theorem stageAll_demand (xs : List (Cyl × Demand)) (s : State) :
    xs.foldl stageOne s = { s with demand := (xs.foldl stageOne s).demand } := by
  induction xs generalizing s with
  | nil => rfl
  | cons x xs ih =>
    rw [List.foldl_cons, ih (stageOne s x)]
    rfl

theorem demandOf_stageOne (s : State) (x : Cyl × Demand) (c : Cyl) : (stageOne s x).demandOf c =
    if c = x.1 then { s.demandOf x.1 with staged := some x.2 } else s.demandOf c := demandOf_setDemand _ _ _ _

/-- R55: a cylinder that is not named keeps what it had. -/
theorem stageAll_other {xs : List (Cyl × Demand)} {c : Cyl} (h : ∀ x ∈ xs, x.1 ≠ c) (s : State) :
    (xs.foldl stageOne s).demandOf c = s.demandOf c := by
  induction xs generalizing s with
  | nil => rfl
  | cons x xs ih =>
    rw [List.foldl_cons, ih (fun y hy => h y (List.mem_cons_of_mem _ hy)), demandOf_stageOne,
      if_neg (h x List.mem_cons_self).symm]

/-- R55: staging changes nothing of a cylinder but its staged demand. -/
theorem stageAll_staged (xs : List (Cyl × Demand)) (s : State) (c : Cyl) :
    ∃ d, (xs.foldl stageOne s).demandOf c = { s.demandOf c with staged := d } := by
  induction xs generalizing s with
  | nil => exact ⟨(s.demandOf c).staged, rfl⟩
  | cons x xs ih =>
    obtain ⟨d, hd⟩ := ih (stageOne s x)
    refine ⟨d, ?_⟩
    rw [List.foldl_cons, hd, demandOf_stageOne]
    split
    · subst c
      rfl
    · rfl

/-- R55: the last of several demands of a cylinder stays. -/
theorem stageAll_last (xs : List (Cyl × Demand)) {ys : List (Cyl × Demand)} {x : Cyl × Demand} (h : ∀ y ∈ ys, y.1 ≠ x.1)
    (s : State) : ((xs ++ x :: ys).foldl stageOne s).demandOf x.1 = { s.demandOf x.1 with staged := some x.2 } := by
  obtain ⟨d, hd⟩ := stageAll_staged xs s x.1
  rw [List.foldl_append, List.foldl_cons, stageAll_other h, demandOf_stageOne, if_pos rfl, hd]

theorem clamped_iff {e : DemandEntry} :
    e.clamped = true ↔ 10000 < e.mainUs ∨ e.advance < -120 ∨ 120 < e.advance := by
  simp only [DemandEntry.clamped, Bool.or_eq_true, decide_eq_true_eq]
  omega

theorem Stages.ne {e : DemandEntry} {x : Cyl × Demand} (h : Stages e x) {c : Cyl} (hc : e.cyl ≠ c.val + 1) :
    x.1 ≠ c := fun hx => hc (by rw [h.1, hx])

/-- Entries that do not name a cylinder stage nothing for it. -/
theorem forall_ne {es : List DemandEntry} {xs : List (Cyl × Demand)} (h : List.Forall₂ Stages es xs) {c : Cyl}
    (hc : ∀ e ∈ es, e.cyl ≠ c.val + 1) : ∀ x ∈ xs, x.1 ≠ c := by
  induction h with
  | nil => exact fun x hx => (by cases hx)
  | cons he _ ih =>
    intro x hx
    rcases List.mem_cons.1 hx with rfl | hx
    · exact he.ne (hc _ List.mem_cons_self)
    · exact ih (fun e he => hc e (List.mem_cons_of_mem _ he)) x hx

theorem takeFrame_demand {s : State} {f : Frame} {es : List DemandEntry} (h : passes s 0x20 f = true) (h1 : 1 ≤ es.length)
    (h8 : es.length ≤ 8) (hps : frameParams f = es.flatMap DemandEntry.bytes) {r : Reply}
    (hr : ownDemand (received s 0x20 f) (es.flatMap DemandEntry.bytes) = r) :
    exec (.demand f) s = .next (respond r.state 0x20 r.result r.data) := by
  have hl : (frameParams f).length = 5 * es.length := by rw [hps, length_flatMap_bytes]
  refine congrArg Host.Outcome.next (takeFrame_reply h (by omega) ?_ (hps ▸ hr))
  simp only [admitsDemand, within, hl, Bool.and_eq_true, beq_iff_eq, decide_eq_true_eq]
  omega

/-- Settles O23: the entries read back, staged one after another, or refused together. -/
theorem demandIsWholeOrNothing : Obligations.DemandIsWholeOrNothing := by
  unfold Obligations.DemandIsWholeOrNothing
  intro es f s h h1 h8 hcar hps
  refine ⟨fun hadm => ?_, fun ⟨e, he, hbad⟩ => ?_⟩
  · obtain ⟨xs, hxs, hall⟩ := stagedEntries_some hadm
    have hown : ownDemand (received s 0x20 f) (es.flatMap DemandEntry.bytes) =
        { state := xs.foldl stageOne (received s 0x20 f)
          result := if es.any DemandEntry.clamped then .okClamped else .ok, data := [] } := by
      unfold ownDemand
      rw [demandEntries_bytes hcar,
        show stagedEntries (fun c => ((received s 0x20 f).cylOf c).enabled) es = some xs from hxs]
    refine ⟨_, takeFrame_demand h h1 h8 hps hown, ?_, fun c => ⟨fun hc => ?_, fun before e after hsplit hc hafter => ?_⟩⟩
    · have hres : (if es.any DemandEntry.clamped then Result.okClamped else .ok) =
          if ∃ e ∈ es, 10000 < e.mainUs ∨ e.advance < -120 ∨ 120 < e.advance then .okClamped else .ok := by
        refine if_congr ?_ rfl rfl
        simp only [List.any_eq_true, clamped_iff]
      dsimp only
      rw [hres, stageAll_demand]
      rfl
    · exact stageAll_other (forall_ne hall hc) (received s 0x20 f)
    · subst hsplit
      obtain ⟨x, xa, hx, ha, hdrop⟩ := List.forall₂_cons_right_iff.1 (List.forall₂_drop_append _ _ _ hall.flip)
      have hxs' : xs = xs.take before.length ++ x :: xa := by rw [← hdrop, List.take_append_drop]
      rw [hxs']
      have hcx : x.1 = c := by
        have := hx.1
        rw [hc] at this
        exact Fin.ext (by omega)
      subst hcx
      exact ⟨x.2, stageAll_last _ (forall_ne ha.flip hafter) (received s 0x20 f), hx.2⟩
  · refine takeFrame_demand h h1 h8 hps (r := refuse (received s 0x20 f) .badParam) ?_
    unfold ownDemand
    rw [demandEntries_bytes hcar, stagedEntries_none ⟨e, he, staged_of_not_admitted (s := received s 0x20 f) hbad⟩]

/-! ### ARM -/

theorem cyls_get_map {α β : Type} (f : α → β) (x : Cyls α) (c : Cyl) : (Cyls.map f x).get c = f (x.get c) := by
  fin_cases c <;> rfl

theorem cyls_get_zip {α β γ : Type} (f : α → β → γ) (x : Cyls α) (y : Cyls β) (c : Cyl) :
    (Cyls.zip f x y).get c = f (x.get c) (y.get c) := by
  fin_cases c <;> rfl

theorem anyEnabled_iff {s : State} : anyEnabled s = true ↔ ∃ c, (s.cylOf c).enabled = true := by
  unfold anyEnabled
  rw [List.any_eq_true]
  exact ⟨fun ⟨c, _, h⟩ => ⟨c, h⟩, fun ⟨c, h⟩ => ⟨c, mem_allCyls c, h⟩⟩

theorem armAdmitted_iff {s : State} : armAdmitted s = true ↔
    s.firing ≠ .armed ∧ s.tables.wheel.loaded = true ∧ (∃ c, (s.cylOf c).enabled = true) ∧ s.service = none := by
  unfold armAdmitted
  simp only [Bool.and_eq_true, bne_iff_ne, anyEnabled_iff, Option.isNone_iff_eq_none, and_assoc]

theorem ownArm_refused {s : State} (h : s.firing = .armed ∨ s.tables.wheel.loaded = false ∨
    (∀ c, (s.cylOf c).enabled = false) ∨ s.service.isSome = true) (ps : List Byte) :
    ownArm s ps = refuse s .wrongState := by
  refine if_neg fun ha => ?_
  obtain ⟨hf, hw, ⟨c, hc⟩, hs⟩ := armAdmitted_iff.1 ha
  rcases h with h | h | h | h
  · exact hf h
  · rw [hw] at h
    cases h
  · rw [h c] at hc
    cases hc
  · rw [hs] at h
    cases h

theorem ownArm_taken {s : State} (hf : s.firing ≠ .armed) (hw : s.tables.wheel.loaded = true)
    (hc : ∃ c, (s.cylOf c).enabled = true) (hs : s.service = none) (ps : List Byte) :
    ownArm s ps = took (if s.firing = .safe then armFromSafe s else s.setFiring .armed) :=
  if_pos (armAdmitted_iff.2 ⟨hf, hw, hc, hs⟩)

theorem rearmed_firstPulse (r : CylRecord) (x : CylSup) :
    CylSup.rearmed r x = { x with firstPulse := r.enabled || x.firstPulse } := by
  unfold CylSup.rearmed
  cases r.enabled <;> rfl

/-! ### DISARM -/

/-- R48: DISARM with nothing queued and no pulse on is SAFE at once. -/
theorem drainTest_empty {s : State} (h : ∀ k, (s.schedOf k).queue = [] ∧ (s.schedOf k).active = none) :
    drainTest (s.setFiring .draining) = goSafe (s.setFiring .draining) :=
  if_pos ⟨rfl, drained_iff.2 h⟩

theorem drainTest_busy {s : State} (h : ∃ k, (s.schedOf k).queue ≠ [] ∨ (s.schedOf k).active.isSome = true) :
    drainTest (s.setFiring .draining) = s.setFiring .draining := by
  refine if_neg fun hd => ?_
  obtain ⟨k, hk⟩ := h
  obtain ⟨hq, ha⟩ := (drained_iff (s := s)).1 hd.2 k
  rcases hk with hk | hk
  · exact hk hq
  · rw [ha] at hk
    cases hk

theorem goSafe_setFiring (s : State) : goSafe (s.setFiring .draining) = { s with
    firing := .safe
    tables := if s.tables.swapPending then
        { s.tables with activePage1 := !s.tables.activePage1, swapPending := false } else s.tables
    link := { s.link with silence := none } } := by
  unfold goSafe State.takePendingSwap
  by_cases hp : s.tables.swapPending = true
  · rw [if_pos hp]
    exact (congrArg (fun t : State => t.setLink { t.link with silence := none }) (if_pos hp))
  · rw [if_neg hp]
    exact (congrArg (fun t : State => t.setLink { t.link with silence := none }) (if_neg hp))

/-- Settles O24: the two commands from each firing state. -/
theorem armAndDisarm : Obligations.ArmAndDisarm := by
  unfold Obligations.ArmAndDisarm
  refine ⟨fun f s h hps => ?_, fun f s h hps => ?_⟩
  · have hexec : ∀ {r}, ownArm (received s 0x21 f) (frameParams f) = r →
        exec (.arm f) s = .next (respond r.state 0x21 r.result r.data) := fun hr =>
      congrArg Host.Outcome.next (takeFrame_exactly (n := 0) (owner := ownArm) h (length_of_empty hps) (by decide) hr)
    refine ⟨fun hbad => hexec (ownArm_refused (s := received s 0x21 f) hbad _), fun hw hc hs => ⟨fun hf => ?_, fun hf => ?_⟩⟩
    · have hown := ownArm_taken (s := received s 0x21 f) (fun ha => by cases hf.symm.trans ha) hw hc hs (frameParams f)
      have hne : (received s 0x21 f).firing ≠ .safe := fun ha => by cases hf.symm.trans ha
      rw [if_neg hne] at hown
      exact hexec hown
    · have hown := ownArm_taken (s := received s 0x21 f) (fun ha => by cases hf.symm.trans ha) hw hc hs (frameParams f)
      have hsafe : (received s 0x21 f).firing = .safe := hf
      rw [if_pos hsafe] at hown
      refine ⟨_, hexec hown, rfl, fun c => ⟨cyls_get_map _ _ _, ?_⟩⟩
      exact (cyls_get_zip _ _ _ _).trans (rearmed_firstPulse _ _)
  · have hexec : ∀ {r}, ownDisarm (received s 0x22 f) (frameParams f) = r →
        exec (.disarm f) s = .next (respond r.state 0x22 r.result r.data) := fun hr =>
      congrArg Host.Outcome.next (takeFrame_exactly (n := 0) (owner := ownDisarm) h (length_of_empty hps) (by decide) hr)
    refine ⟨fun hf => hexec (if_neg hf), fun hf hbusy => ?_, fun hf hempty => ?_⟩
    · exact hexec ((if_pos hf).trans (congrArg took (drainTest_busy (s := received s 0x22 f) hbusy)))
    · exact hexec ((if_pos hf).trans (congrArg took
        ((drainTest_empty (s := received s 0x22 f) hempty).trans (goSafe_setFiring _))))

end Sys2Proof.Proofs.Demands
end

section
/-! SUPPORT. CLEAR_FAULT and SERVICE. -/

namespace Sys2Proof.Proofs.ServiceChains

open Sys2Proof Sys2Proof.Machine Sys2Proof.Laws Sys2Proof.Laws.Fine Sys2Proof.Proofs.Freeze Sys2Proof.Proofs.Frames
  Sys2Proof.Proofs.Bytes Sys2Proof.Proofs.Layouts Sys2Proof.Proofs.Cuts

/-! ### CLEAR_FAULT -/

theorem ownClearFault_some (s : State) (c : Cyl) : ownClearFault s [byte (c.val + 1)] =
    took (s.setSup c { s.supOf c with locked := false, faults := 0, firstPulse := true, code := .none }) := by
  unfold ownClearFault
  rw [cylOf_byte]

theorem ownClearFault_none (s : State) {a : Byte} (h : a = 0 ∨ 8 < a.toNat) : ownClearFault s [a] = refuse s .badParam := by
  have hc : Machine.cylOf (u8 [a] 0) = none := cylOf_eq_none.2 (h.imp_left fun ha => by rw [ha]; rfl)
  unfold ownClearFault
  rw [hc]

/-! ### SERVICE -/

/-- R159: the parameters of a SERVICE frame are in range. -/
def ServiceInRange (ps : List Byte) : Prop :=
  100 ≤ fieldAt ps 1 2 ∧ fieldAt ps 1 2 ≤ 10000 ∧ 1 ≤ fieldAt ps 3 1 ∧ fieldAt ps 3 1 ≤ 16 ∧
  1000 ≤ fieldAt ps 4 2 ∧ fieldAt ps 4 2 ≤ 60000 ∧ 1 ≤ fieldAt ps 0 1 ∧ fieldAt ps 0 1 ≤ 8

theorem serviceParams_some {ps : List Byte} (h : ServiceInRange ps) {c : Cyl} (hc : fieldAt ps 0 1 = c.val + 1) :
    serviceParams ps = some c := by
  unfold ServiceInRange at h
  simp only [fieldAt_one, fieldAt_two] at h hc
  unfold serviceParams within
  rw [if_pos (by simp only [Bool.and_eq_true, decide_eq_true_eq]; omega)]
  exact cylOf_eq_some.2 hc

theorem serviceParams_none {ps : List Byte} (h : ¬ServiceInRange ps) : serviceParams ps = none := by
  unfold ServiceInRange at h
  simp only [fieldAt_one, fieldAt_two] at h
  unfold serviceParams within
  split
  · rename_i hr
    simp only [Bool.and_eq_true, decide_eq_true_eq] at hr
    exact cylOf_eq_none.2 (by omega)
  · rfl

theorem serviceable_iff {s : State} {c : Cyl} : serviceable s c = true ↔
    (s.cylOf c).enabled = true ∧ (s.supOf c).cut = false ∧ (s.supOf c).locked = false := by
  unfold serviceable
  simp only [Bool.and_eq_true, Bool.not_eq_true', and_assoc]

section
variable {s : State} {ps : List Byte}

theorem ownService_busy (h : s.service.isSome = true) : ownService s ps = refuse s .busy := if_pos h

theorem ownService_wrongState (hn : s.service = none) (h : s.clock.sync ≠ .stalled ∨ s.firing ≠ .safe) :
    ownService s ps = refuse s .wrongState := by
  unfold ownService
  rw [hn, if_neg (by decide), if_pos h]

theorem ownService_none (hn : s.service = none) (hs : s.clock.sync = .stalled) (hf : s.firing = .safe)
    (hp : serviceParams ps = none) : ownService s ps = refuse s .badParam := by
  unfold ownService
  rw [hn, if_neg (by decide), if_neg (by rw [hs, hf]; simp), hp]

theorem ownService_some (hn : s.service = none) (hs : s.clock.sync = .stalled) (hf : s.firing = .safe) {c : Cyl}
    (hp : serviceParams ps = some c) : ownService s ps =
      if serviceable s c then took (startService s c (u16 ps 1) (u8 ps 3) (u16 ps 4)) else refuse s .wrongState := by
  unfold ownService
  rw [hn, if_neg (by decide), if_neg (by rw [hs, hf]; simp), hp]

end

/-- R160: the shots of a chain. -/
def chainShots (s : State) (c : Cyl) (onUs count gapUs : Nat) : List Shot :=
  (List.range count).map
    (serviceShot c (s.schedOf (s.bankOf c)).nextTag (10 * max gapUs (s.profileOf c).minSep) (10 * onUs) (s.timebase + 10000))

/-- R160: the plan of a chain. -/
def chainPlan (s : State) (c : Cyl) (count : Nat) : Plan :=
  { kind := .service, freezes := (s.supOf c).freezes, demand := none, overspeed := false
    serviceCount := count, emptySummary := .none, making := false
    places := (List.range count).map (servicePlace (s.schedOf (s.bankOf c)).nextTag) }

theorem startService_eq (s : State) (c : Cyl) (onUs count gapUs : Nat) : startService s c onUs count gapUs = { s with
    service := some c, sup := s.sup.set c { s.supOf c with plan := some (chainPlan s c count) }
    sched := s.sched.set (s.bankOf c) { s.schedOf (s.bankOf c) with
      queue := (s.schedOf (s.bankOf c)).queue ++ chainShots s c onUs count gapUs
      placed := (s.schedOf (s.bankOf c)).placed + BitVec.ofNat 32 count
      nextTag := (s.schedOf (s.bankOf c)).nextTag + BitVec.ofNat 8 count } } := rfl

theorem chainShots_received (s : State) (f : Frame) (c : Cyl) (onUs count gapUs : Nat) :
    chainShots (received s 0x32 f) c onUs count gapUs = chainShots s c onUs count gapUs := rfl

theorem chainPlan_received (s : State) (f : Frame) (c : Cyl) (count : Nat) :
    chainPlan (received s 0x32 f) c count = chainPlan s c count := rfl

theorem getElem?_map_range {α : Type} (g : Nat → α) {n i : Nat} (h : i < n) : ((List.range n).map g)[i]? = some (g i) := by
  rw [List.getElem?_map, List.getElem?_range h]
  rfl

/-- Settles O57: the two owners, case by case of R158 and R159. -/
theorem clearFaultAndService : Obligations.ClearFaultAndService := by
  unfold Obligations.ClearFaultAndService
  refine ⟨fun a f s h hps => ⟨fun c ha => ?_, fun ha => ?_⟩, fun f s h hps => ?_⟩
  · subst ha
    exact congrArg Host.Outcome.next (takeFrame_exactly (n := 1) (owner := ownClearFault) h (congrArg List.length hps)
      (by decide) ((congrArg (ownClearFault _) hps).trans (ownClearFault_some (received s 0x31 f) c)))
  · exact congrArg Host.Outcome.next (takeFrame_refused (n := 1) (owner := ownClearFault) h (congrArg List.length hps)
      (by decide) ((congrArg (ownClearFault _) hps).trans (ownClearFault_none (received s 0x31 f) ha)))
  · intro cyl onUs count gapUs ok
    have hexec : ∀ {r}, ownService (received s 0x32 f) (frameParams f) = r →
        exec (.service f) s = .next (respond r.state 0x32 r.result r.data) := fun hr =>
      congrArg Host.Outcome.next (takeFrame_exactly (n := 6) (owner := ownService) h hps (by decide) hr)
    refine ⟨fun hb => hexec (ownService_busy (s := received s 0x32 f) hb),
      fun hn hw => hexec (ownService_wrongState (s := received s 0x32 f) hn hw),
      fun hn hs hf => ⟨fun hbad => ?_, fun hok c hc => ?_⟩⟩
    · exact hexec (ownService_none (s := received s 0x32 f) hn hs hf (serviceParams_none hbad))
    · have hown := ownService_some (s := received s 0x32 f) hn hs hf (serviceParams_some hok hc)
      refine ⟨fun hbad => hexec (hown.trans (if_neg fun ha => ?_)), fun hen hcut hlock => ?_⟩
      · obtain ⟨hen, hcut, hlock⟩ := serviceable_iff.1 ha
        rcases hbad with hb | hb | hb
        · exact Bool.false_ne_true (hb.symm.trans hen)
        · exact Bool.false_ne_true (hcut.symm.trans hb)
        · exact Bool.false_ne_true (hlock.symm.trans hb)
      · have hcount : u8 (frameParams f) 3 = count := (fieldAt_one _ _).symm
        have hon : u16 (frameParams f) 1 = onUs := (fieldAt_two _ _).symm
        have hgap : u16 (frameParams f) 4 = gapUs := (fieldAt_two _ _).symm
        rw [if_pos (serviceable_iff (s := received s 0x32 f) |>.2 ⟨hen, hcut, hlock⟩), hcount, hon, hgap,
          startService_eq, chainShots_received, chainPlan_received] at hown
        intro k q tag gap
        refine ⟨chainShots s c onUs count gapUs, chainPlan s c count, hexec hown, ?_, ?_, rfl, fun i hi => ⟨?_, ?_⟩⟩
        · rw [chainShots, List.length_map, List.length_range]
        · rw [chainPlan, List.length_map, List.length_range]
        · exact getElem?_map_range _ hi
        · exact getElem?_map_range _ hi

end Sys2Proof.Proofs.ServiceChains
end

section
/-! SUPPORT. The reads of the clock, the time, the status and the counters. -/

namespace Sys2Proof.Proofs.StatusFields

open Sys2Proof Sys2Proof.Machine Sys2Proof.Laws Sys2Proof.Laws.Fine Sys2Proof.Proofs.Freeze Sys2Proof.Proofs.Frames
  Sys2Proof.Proofs.Bytes Sys2Proof.Proofs.Layouts Sys2Proof.Proofs.Cuts Sys2Proof.Proofs.Periodic

/-! ### The angle -/

/-- R18: the span of the interval after the last tooth. -/
theorem spanAt_eq (w : WheelRecord) (i : Nat) :
    w.spanAt i = (if i = w.n - w.m - 1 then w.m + 1 else 1) * (5760 / w.n) := by
  simp only [WheelRecord.spanAt, WheelRecord.pitches, WheelRecord.gapAfter, WheelRecord.lastIndex, WheelRecord.pitch, beq_iff_eq]
  rfl

theorem anglePast_eq {w : WheelRecord} {k : AngleClock} {now t : Nat} (h : k.lastTooth = some t) :
    anglePast w k now = min (w.spanAt k.index - 1) ((now - t) * (5760 / w.n) / k.tpred) := by
  unfold anglePast
  rw [h]
  rfl

section
variable {s : State}

theorem angleReading_stalled (h : s.clock.sync = .stalled) : s.angleReading = s.clock.held := by
  unfold State.angleReading
  rw [h]

theorem angleReading_seeking (h : s.clock.sync = .seeking) : s.angleReading = 0 := by
  unfold State.angleReading
  rw [h]

theorem angleReading_crankSync (h : s.clock.sync = .crankSync) : s.angleReading =
    (s.tables.wheel.refAngle + s.clock.index * (5760 / s.tables.wheel.n) +
      anglePast s.tables.wheel s.clock s.timebase) % 5760 := by
  unfold State.angleReading toothAngle
  rw [h]
  exact Nat.mod_add_mod _ _ _

theorem angleReading_fullSync (h : s.clock.sync = .fullSync) : s.angleReading =
    (s.tables.wheel.refAngle + s.clock.index * (5760 / s.tables.wheel.n) + (if s.clock.rev1 then 5760 else 0) +
      anglePast s.tables.wheel s.clock s.timebase) % 11520 := by
  unfold State.angleReading toothAngle
  rw [h]
  exact Nat.mod_add_mod _ _ _

end

/-! ### The codes fit a byte -/

theorem sync_code_mod (x : Sync) : x.code % 256 = x.code := by cases x <;> rfl
theorem firing_code_mod (x : Firing) : x.code % 256 = x.code := by cases x <;> rfl
theorem band_code_mod (x : Band) : x.code % 256 = x.code := by cases x <;> rfl
theorem trace_code_mod (x : TraceState) : x.code % 256 = x.code := by cases x <;> rfl
theorem cond_code_mod (x : BankCond) : x.code % 256 = x.code := by cases x <;> rfl
theorem phase_code_mod (x : Phase) : x.code % 256 = x.code := by cases x <;> rfl

theorem cylNumber_mod (c : Cyl) : cylNumber c % 256 = c.val + 1 := Nat.mod_eq_of_lt (by unfold cylNumber; omega)

theorem cylOrNone_mod (c : Option Cyl) : cylOrNone c % 256 = cylOrNone c := by
  cases c with
  | none => rfl
  | some c => exact cylNumber_mod c

theorem statusFlags_mod (a b c d : Bool) : (flagBit a 0 + flagBit b 1 + flagBit c 2 + flagBit d 3) % 256 =
    (if a then 1 else 0) + (if b then 2 else 0) + (if c then 4 else 0) + (if d then 8 else 0) := by
  revert a b c d
  decide

theorem average_mod (w : List Nat) : average w % 256 ^ 2 = if w.length < 8 then 0 else w.sum / 8 % 65536 := by
  unfold average
  exact apply_ite (· % 65536) (w.length < 8) 0 (w.sum / 8)

theorem mask_mod (e : BitVec 13) : e.toNat % 256 ^ 2 = e.toNat := Nat.mod_eq_of_lt (e.isLt.trans (by decide))

theorem counter_mod (e : BitVec 32) : e.toNat % 256 ^ 4 = e.toNat := Nat.mod_eq_of_lt e.isLt

theorem flagByte_toNat_ite (b : Bool) : (flagByte b).toNat = if b then 1 else 0 := by cases b <;> rfl

/-! ### The layouts -/

/-- R183: the fields of READ_ANGLE. -/
theorem angleBytes_layout (s : State) : (angleBytes s).length = 11 ∧
    fieldAt (angleBytes s) 0 1 = s.clock.sync.code ∧ fieldAt (angleBytes s) 1 2 = s.angleReading % 65536 ∧
    fieldAt (angleBytes s) 3 1 = (if s.clock.sync = .crankSync ∨ s.clock.sync = .fullSync then s.clock.index % 256 else 0) ∧
    fieldAt (angleBytes s) 4 1 = (if s.clock.sync = .fullSync ∧ s.clock.rev1 = true then 1 else 0) ∧
    fieldAt (angleBytes s) 5 1 = s.clock.synth % 256 ∧ fieldAt (angleBytes s) 6 3 = s.clock.tpred % 2 ^ 24 ∧
    fieldAt (angleBytes s) 9 2 = s.clock.speed % 65536 := by
  generalize hds : angleBytes s = ds
  unfold angleBytes at hds
  subst ds
  refine ⟨rfl, ?_⟩
  simp (disch := simp) only [fieldAt_skip, fieldAt_skip_byte, fieldAt_here, fieldAt_byte_here, byte_toNat,
    leBytes_length, List.append_assoc, List.cons_append, List.nil_append, Nat.reduceSub, sync_code_mod, flagByte_toNat_ite]
  refine ⟨trivial, rfl, ?_, ?_, trivial, rfl, fieldAt_leBytes 2 _⟩
  · cases s.clock.sync <;> rfl
  · simp only [Bool.and_eq_true, beq_iff_eq]

/-- R182: the fields of READ_STATUS. -/
theorem statusBytes_layout (s : State) : (statusBytes s).length = 27 ∧
    fieldAt (statusBytes s) 0 1 = s.firing.code ∧ fieldAt (statusBytes s) 1 1 = s.clock.sync.code ∧
    fieldAt (statusBytes s) 2 2 = s.clock.speed % 65536 ∧
    fieldAt (statusBytes s) 4 1 = (if s.clock.overspeed then 1 else 0) + (if s.tables.wheel.loaded then 2 else 0) +
      (if s.tables.activePage1 then 4 else 0) + (if s.tables.swapPending then 8 else 0) ∧
    fieldAt (statusBytes s) 5 1 = s.supply.band.code ∧
    fieldAt (statusBytes s) 6 2 = (if s.supply.window.length < 8 then 0 else s.supply.window.sum / 8 % 65536) ∧
    fieldAt (statusBytes s) 8 1 = cylOrNone s.service ∧ fieldAt (statusBytes s) 9 1 = s.trace.state.code ∧
    fieldAt (statusBytes s) 10 1 = s.trace.cyl % 256 ∧ fieldAt (statusBytes s) 11 2 = s.events.latched.toNat ∧
    fieldAt (statusBytes s) 13 2 = s.events.mask.toNat := by
  generalize hds : statusBytes s = ds
  unfold statusBytes eventBytes at hds
  subst ds
  refine ⟨rfl, ?_⟩
  simp (disch := simp) only [fieldAt_skip, fieldAt_skip_byte, fieldAt_here, fieldAt_byte_here, byte_toNat,
    leBytes_length, List.append_assoc, List.cons_append, List.nil_append, Nat.reduceSub, sync_code_mod, firing_code_mod,
    band_code_mod, trace_code_mod, cylOrNone_mod, mask_mod]
  refine ⟨trivial, trivial, rfl, ?_, trivial, ?_, trivial, trivial, trivial, trivial, trivial⟩
  · exact statusFlags_mod _ _ _ _
  · exact average_mod _

/-- R182: the six bytes of a bank. -/
theorem bankStatus_layout (s : State) (k : Bank) : fieldAt (bankStatus s k) 0 1 = (s.schedOf k).cond.code ∧
    fieldAt (bankStatus s k) 1 1 = (s.driveOf k).phase.code ∧
    fieldAt (bankStatus s k) 2 1 = (s.schedOf k).queue.length % 256 ∧
    fieldAt (bankStatus s k) 3 2 = s.levelOf k % 65536 ∧
    fieldAt (bankStatus s k) 5 1 = cylOrNone ((s.schedOf k).active.map Pulse.cyl) := by
  unfold bankStatus
  simp (disch := simp) only [fieldAt_skip, fieldAt_skip_byte, fieldAt_here, fieldAt_byte_here, byte_toNat,
    leBytes_length, Nat.reduceSub, cond_code_mod, phase_code_mod, cylOrNone_mod, true_and]
  exact ⟨rfl, trivial⟩

/-- R182: the two banks stand at the end, six bytes each. -/
theorem statusBytes_bank (s : State) (k : Bank) {i n : Nat} (h : i + n ≤ 6) :
    fieldAt (statusBytes s) ((if k = .bankA then 15 else 21) + i) n = fieldAt (bankStatus s k) i n := by
  obtain ⟨pre, hpre, hl⟩ : ∃ pre, statusBytes s = pre ++ bankStatus s .bankA ++ bankStatus s .bankB ∧ pre.length = 15 :=
    ⟨(statusBytes s).take 15, rfl, rfl⟩
  rw [hpre, List.append_assoc]
  cases k with
  | bankA =>
    rw [fieldAt_skip (by rw [hl]; exact Nat.le_add_right _ _), hl]
    rw [if_pos rfl, Nat.add_sub_cancel_left]
    exact fieldAt_append_left h
  | bankB =>
    rw [if_neg (by decide), fieldAt_skip (by omega), hl, fieldAt_skip (show 6 ≤ _ by omega)]
    congr 1
    show 21 + i - 15 - 6 = i
    omega

/-- R186: the four counters of a bank. -/
theorem counterBytes_layout (q : Sched) : fieldAt (counterBytes q) 0 4 = q.placed.toNat ∧
    fieldAt (counterBytes q) 4 4 = q.started.toNat ∧ fieldAt (counterBytes q) 8 4 = q.shed.toNat ∧
    fieldAt (counterBytes q) 12 4 = q.cancelled.toNat := by
  unfold counterBytes
  simp (disch := simp) only [fieldAt_skip, fieldAt_here, leBytes_length, List.append_assoc, Nat.reduceSub, counter_mod,
    true_and]
  rw [fieldAt_leBytes, counter_mod]

theorem counters_bank (s : State) (k : Bank) {i n : Nat} (h : i + n ≤ 16) :
    fieldAt (counterBytes (s.schedOf .bankA) ++ counterBytes (s.schedOf .bankB)) ((if k = .bankA then 0 else 16) + i) n =
      fieldAt (counterBytes (s.schedOf k)) i n := by
  cases k with
  | bankA =>
    rw [if_pos rfl, Nat.zero_add]
    exact fieldAt_append_left h
  | bankB =>
    rw [if_neg (by decide), fieldAt_skip (Nat.le_add_right 16 i)]
    congr 1
    exact Nat.add_sub_cancel_left 16 i

/-- Settles O58: the angle by its four cases, each layout field by field. -/
theorem statusReads : Obligations.StatusReads := by
  unfold Obligations.StatusReads
  refine ⟨fun s => ⟨angleReading_stalled, angleReading_seeking, fun t0 h0 hp => ?_⟩, fun f s hps =>
    ⟨fun h => ⟨_, congrArg Host.Outcome.next (takeFrame_exactly (n := 0) (owner := ownReadAngle) h (length_of_empty hps)
        (by decide) rfl), angleBytes_layout s⟩,
      fun h => ⟨_, congrArg Host.Outcome.next (takeFrame_exactly (n := 0) (owner := ownReadTime) h (length_of_empty hps)
        (by decide) rfl), rfl, fieldAt_leBytes 8 _⟩, fun h => ?_, fun h => ?_⟩⟩
  · intro w pitch span past
    have hpast : anglePast s.tables.wheel s.clock s.timebase = past := by rw [anglePast_eq h0, spanAt_eq]
    refine ⟨fun h => ?_, fun h => ?_⟩
    · rw [angleReading_crankSync h, hpast]
    · rw [angleReading_fullSync h, hpast]
  · obtain ⟨hlen, h0, h1, h2, h4, h5, h6, h8, h9, h10, h11, h13⟩ := statusBytes_layout s
    refine ⟨statusBytes s, congrArg Host.Outcome.next (takeFrame_exactly (n := 0) (owner := ownReadStatus) h
      (length_of_empty hps) (by decide) rfl), hlen, h0, h1, h2, h4, h5, h6, ?_, h9, h10, h11, h13, fun k => ?_⟩
    · rw [h8]
      cases s.service <;> rfl
    · obtain ⟨k0, k1, k2, k3, k5⟩ := bankStatus_layout s k
      refine ⟨(statusBytes_bank s k (i := 0) (by decide)).trans k0, (statusBytes_bank s k (by decide)).trans k1,
        (statusBytes_bank s k (by decide)).trans k2, (statusBytes_bank s k (by decide)).trans k3, ?_⟩
      refine ((statusBytes_bank s k (by decide)).trans k5).trans ?_
      cases (s.schedOf k).active <;> rfl
  · refine ⟨_, congrArg Host.Outcome.next (takeFrame_exactly (n := 0) (owner := ownReadCounters) h
      (length_of_empty hps) (by decide) rfl), rfl, fun k => ?_⟩
    obtain ⟨h0, h4, h8, h12⟩ := counterBytes_layout (s.schedOf k)
    exact ⟨(counters_bank s k (i := 0) (by decide)).trans h0, (counters_bank s k (by decide)).trans h4,
      (counters_bank s k (by decide)).trans h8, (counters_bank s k (by decide)).trans h12⟩

end Sys2Proof.Proofs.StatusFields
end

section
/-! SUPPORT. The reads of a cylinder, of its report and of a queue, and what a report holds. -/

namespace Sys2Proof.Proofs.RecordFields

open Sys2Proof Sys2Proof.Machine Sys2Proof.Laws Sys2Proof.Laws.Fine Sys2Proof.Proofs.Freeze Sys2Proof.Proofs.Frames
  Sys2Proof.Proofs.Bytes Sys2Proof.Proofs.Layouts Sys2Proof.Proofs.Cuts Sys2Proof.Proofs.Periodic
  Sys2Proof.Proofs.StatusFields

/-! ### The report of a plan -/

theorem filterMap_of_isSome {α β : Type} {f : α → Option β} {l : List α} (h : ∀ x ∈ l, (f x).isSome) :
    (l.filterMap f).map some = l.map f := by
  induction l with
  | nil => rfl
  | cons x l ih =>
    obtain ⟨y, hy⟩ := Option.isSome_iff_exists.1 (h x List.mem_cons_self)
    rw [List.filterMap_cons_some hy, List.map_cons, List.map_cons, ih fun x hx => h x (List.mem_cons_of_mem _ hx), hy]

/-- R153: a complete plan has an entry for every place. -/
theorem entries_of_complete {p : Plan} (h : p.complete = true) :
    (p.places.filterMap Place.toEntry).map some = p.places.map Place.toEntry := by
  refine filterMap_of_isSome fun y hy => ?_
  have hall := List.all_eq_true.1 (Bool.and_eq_true_iff.1 h).2 y hy
  rw [Place.toEntry, Option.isSome_map]
  exact hall

/-- R153: the number of places the report leaves out. -/
def skipped (p : Plan) : Nat := if p.kind = .service then p.places.length - 8 else 0

theorem entries_eq {p : Plan} (h : p.complete = true) :
    p.entries.map some = (p.places.map Place.toEntry).drop (skipped p) := by
  have hmap := entries_of_complete h
  have hlen : (p.places.filterMap Place.toEntry).length = p.places.length := by
    simpa only [List.length_map] using congrArg List.length hmap
  unfold Plan.entries skipped
  cases p.kind with
  | angle => exact hmap
  | service =>
    rw [← hmap, ← List.map_drop, if_pos rfl, ← hlen]
    rfl

theorem toEntry_some {y : Place} {o : PlaceOutcome} (h : y.outcome = some o) : y.toEntry =
    some { entry := y.entry, rep := y.rep, cls := y.cls, outcome := o.outcome, fault := o.fault,
           flags := y.flags.union o.flags, startAngle := o.startAngle, onTime := o.onTime } := by
  rw [Place.toEntry, h]
  rfl

/-! ### The summary of the entries -/

/-- The first code of a list whose code goes down is the greatest that is met. -/
theorem severity_le_find {l : List CondCode} {f : CondCode → Bool} {c k : CondCode}
    (hl : l.Pairwise fun a b => severity b ≤ severity a) (hf : l.find? f = some c) (hk : k ∈ l) (hfk : f k = true) :
    severity k ≤ severity c := by
  induction l with
  | nil => cases hk
  | cons a l ih =>
    rw [List.pairwise_cons] at hl
    rw [List.find?_cons] at hf
    split at hf
    · cases hf
      rcases List.mem_cons.1 hk with rfl | hk
      · exact le_rfl
      · exact hl.1 k hk
    · rename_i hn
      rcases List.mem_cons.1 hk with rfl | hk
      · rw [hfk] at hn
        cases hn
      · exact ih hl.2 hf hk

theorem severityList_falls : severityList.Pairwise fun a b => severity b ≤ severity a := by decide

theorem getD_find?_cons (f : CondCode → Bool) (k : CondCode) (l : List CondCode) :
    ((k :: l).find? f).getD .none = if f k = true then k else (l.find? f).getD .none := by
  rw [List.find?_cons]
  cases f k <;> rfl

/-- R154: the code an entry gives, in the order of the statement. -/
theorem codeGiven_eq (e : ReportEntry) : codeGiven e = e.code.getD .none := by
  unfold codeGiven ReportEntry.code severityList
  simp only [getD_find?_cons, ReportEntry.gives, Bool.or_eq_true, Bool.and_eq_true, beq_iff_eq, or_assoc]
  rfl

/-- R154: the summary is the code of one of the entries, and none gives a code above it. -/
theorem entriesSummary_greatest {es : List ReportEntry} (hne : es ≠ []) :
    (∃ e ∈ es, codeGiven e = entriesSummary es) ∧ ∀ e ∈ es, severity (codeGiven e) ≤ severity (entriesSummary es) := by
  simp only [codeGiven_eq]
  unfold entriesSummary
  have hgiven : ∀ e ∈ es, ∀ k, e.code = some k → k ∈ severityList ∧ (es.any fun e => e.code == some k) = true :=
    fun e he k hk => ⟨List.mem_of_find?_eq_some hk, List.any_eq_true.2 ⟨e, he, beq_iff_eq.2 hk⟩⟩
  cases hf : severityList.find? fun k => es.any fun e => e.code == some k with
  | none =>
    have hnone : ∀ e ∈ es, e.code = none := fun e he => by
      cases hc : e.code with
      | none => rfl
      | some k => exact absurd (hgiven e he k hc).2 (List.find?_eq_none.1 hf k (hgiven e he k hc).1)
    obtain ⟨e, he⟩ := List.exists_mem_of_ne_nil es hne
    exact ⟨⟨e, he, congrArg (Option.getD · _) (hnone e he)⟩, fun e he => (congrArg severity (congrArg (Option.getD · _)
      (hnone e he))).le⟩
  | some c =>
    have hany : (es.any fun e => e.code == some c) = true := List.find?_some (p := fun k => es.any fun e => e.code == some k) hf
    obtain ⟨e, he, hc⟩ := List.any_eq_true.1 hany
    refine ⟨⟨e, he, congrArg (Option.getD · _) (beq_iff_eq.1 hc)⟩, fun e he => ?_⟩
    cases hk : e.code with
    | none => exact Nat.zero_le _
    | some k => exact severity_le_find severityList_falls hf (hgiven e he k hk).1 (hgiven e he k hk).2

/-! ### Records of one length -/

section
variable {α : Type} {g : α → List Byte} {m : Nat}

theorem length_records (hm : ∀ x, (g x).length = m) (xs : List α) : (xs.flatMap g).length = m * xs.length := by
  induction xs with
  | nil => rfl
  | cons x xs ih => rw [List.flatMap_cons, List.length_append, ih, hm, List.length_cons, Nat.mul_succ, Nat.add_comm]

/-- A field of the record at a place of the list. -/
theorem fieldAt_record (hm : ∀ x, (g x).length = m) {xs : List α} {i j n : Nat} {x : α} (hx : xs[i]? = some x)
    (h : j + n ≤ m) : fieldAt (xs.flatMap g) (m * i + j) n = fieldAt (g x) j n := by
  induction xs generalizing i with
  | nil => cases hx
  | cons y ys ih =>
    rw [List.flatMap_cons]
    cases i with
    | zero =>
      cases hx
      rw [Nat.mul_zero, Nat.zero_add]
      exact fieldAt_append_left (h.trans (hm _).ge)
    | succ i =>
      rw [fieldAt_skip (by rw [hm, Nat.mul_succ]; omega), hm, ← ih hx]
      congr 1
      rw [Nat.mul_succ]
      omega

/-- A field of a record behind a head of its own length. -/
theorem fieldAt_headed {pre : List Byte} {p off : Nat} (hp : pre.length = p) (hm : ∀ x, (g x).length = m) {xs : List α}
    {i n : Nat} {x : α} (j : Nat) (hx : xs[i]? = some x) (h : j + n ≤ m) (ho : off = p + (m * i + j)) :
    fieldAt (pre ++ xs.flatMap g) off n = fieldAt (g x) j n := by
  rw [ho, fieldAt_skip (hp.trans_le (Nat.le_add_right _ _)), hp, Nat.add_sub_cancel_left]
  exact fieldAt_record hm hx h

end

/-! ### The codes fit a byte -/

theorem report_code_mod (x : ReportKind) : x.code % 256 = x.code := by cases x <;> rfl
theorem outcome_code_mod (x : ShotOutcome) : x.code % 256 = x.code := by cases x <;> rfl
theorem condition_code_mod (x : CondCode) : x.code % 256 = x.code := by cases x <;> rfl
theorem rank_mod (x : PulseClass) : x.rank % 256 = x.rank := by cases x <;> rfl

theorem number_mod (x : BitVec 16) : x.toNat % 256 ^ 2 = x.toNat := Nat.mod_eq_of_lt x.isLt

theorem flagBit_le (b : Bool) (k : Nat) : flagBit b k ≤ 2 ^ k := by
  cases b
  · exact Nat.zero_le _
  · exact le_rfl

theorem flags_mod (f : ShotFlags) : f.toNat % 256 ^ 2 = f.toNat := by
  refine Nat.mod_eq_of_lt ?_
  have h := fun b k => flagBit_le b k
  have h0 := h f.raisedMin 0
  have h1 := h f.clampedMax 1
  have h2 := h f.startMoved 2
  have h3 := h f.windowFit 3
  have h4 := h f.service 4
  have h5 := h f.preempted 5
  have h6 := h f.degraded 6
  have h7 := h f.slowRise 7
  have h8 := h f.deferred 8
  unfold ShotFlags.toNat
  omega

theorem demandBytes_eq (d : Option Demand) : demandBytes d = demandField d := by
  cases d <;> rfl

/-- A field that is not a number, behind what comes before it. -/
theorem drop_skip {xs ys : List Byte} {off : Nat} (h : xs.length ≤ off) : (xs ++ ys).drop off = ys.drop (off - xs.length) := by
  rw [List.drop_append, List.drop_of_length_le h]
  rfl

theorem demandBytes_length (d : Option Demand) : (demandBytes d).length = 4 := by cases d <;> rfl

theorem take_demandBytes (d : Option Demand) (ys : List Byte) : (demandBytes d ++ ys).take 4 = demandField d := by
  rw [List.take_left' (demandBytes_length d), demandBytes_eq]

/-! ### READ_REPORT -/

/-- R164: the head of a report. -/
def reportHead (r : Report) : List Byte :=
  byte r.kind.code :: (leBytes 2 r.freezes.toNat ++ [flagByte r.demand.isSome] ++
    demandBytes (r.demand.map ActiveDemand.demand) ++
    [flagByte ((r.demand.map ActiveDemand.stale).getD false), flagByte r.overspeed, byte r.summary.code,
     byte r.serviceCount, byte r.entries.length])

theorem reportBytes_eq (r : Report) : reportBytes (some r) = reportHead r ++ r.entries.flatMap reportEntryBytes := rfl

theorem length_reportHead (r : Report) : (reportHead r).length = 13 := by
  unfold reportHead
  simp only [List.length_cons, List.length_append, leBytes_length, demandBytes_length, List.length_nil]

theorem length_reportEntryBytes (e : ReportEntry) : (reportEntryBytes e).length = 11 := rfl

theorem reportHead_layout (r : Report) (ys : List Byte) : fieldAt (reportHead r ++ ys) 0 1 = r.kind.code ∧
    fieldAt (reportHead r ++ ys) 1 2 = r.freezes.toNat ∧
    fieldAt (reportHead r ++ ys) 3 1 = (if r.demand.isSome then 1 else 0) ∧
    ((reportHead r ++ ys).drop 4).take 4 = demandField (r.demand.map ActiveDemand.demand) ∧
    fieldAt (reportHead r ++ ys) 8 1 = (if (r.demand.map ActiveDemand.stale).getD false then 1 else 0) ∧
    fieldAt (reportHead r ++ ys) 9 1 = (if r.overspeed then 1 else 0) ∧
    fieldAt (reportHead r ++ ys) 10 1 = r.summary.code ∧ fieldAt (reportHead r ++ ys) 11 1 = r.serviceCount % 256 ∧
    fieldAt (reportHead r ++ ys) 12 1 = r.entries.length % 256 := by
  unfold reportHead
  simp (disch := simp [demandBytes_length]) only [fieldAt_skip, fieldAt_skip_byte, fieldAt_here, fieldAt_byte_here, byte_toNat,
    drop_skip, List.drop_succ_cons, List.drop_zero, take_demandBytes, leBytes_length, demandBytes_length, List.append_assoc,
    List.cons_append, List.nil_append, Nat.reduceSub, report_code_mod, condition_code_mod, number_mod, flagByte_toNat_ite,
    and_true]

theorem reportEntryBytes_layout (e : ReportEntry) : fieldAt (reportEntryBytes e) 0 1 = e.entry % 256 ∧
    fieldAt (reportEntryBytes e) 1 1 = e.rep % 256 ∧ fieldAt (reportEntryBytes e) 2 1 = e.cls.rank ∧
    fieldAt (reportEntryBytes e) 3 1 = e.outcome.code ∧
    fieldAt (reportEntryBytes e) 4 1 = (e.fault.map FaultKind.code).getD 0 ∧
    fieldAt (reportEntryBytes e) 5 2 = e.flags.toNat ∧ fieldAt (reportEntryBytes e) 7 2 = e.startAngle % 65536 ∧
    fieldAt (reportEntryBytes e) 9 2 = e.onTime % 65536 := by
  have hfault : (e.fault.map FaultKind.code).getD 0 % 256 = (e.fault.map FaultKind.code).getD 0 := by
    cases e.fault with
    | none => rfl
    | some k => cases k <;> rfl
  unfold reportEntryBytes
  simp (disch := simp) only [fieldAt_skip, fieldAt_skip_byte, fieldAt_here, fieldAt_byte_here, byte_toNat,
    leBytes_length, List.append_assoc, List.cons_append, List.nil_append, Nat.reduceSub, outcome_code_mod, rank_mod, flags_mod,
    hfault, true_and]
  exact ⟨rfl, fieldAt_leBytes 2 _⟩

/-! ### READ_CYL -/

theorem mode_code_mod (x : Mode) : x.code % 256 = x.code := by cases x <;> rfl
theorem activity_code_mod (x : Activity) : x.code % 256 = x.code := by cases x <;> rfl

/-- R149: the mode, in the order of the statement. -/
theorem modeOf_code (s : State) (c : Cyl) : (modeOf s c).code =
    if (s.cylOf c).enabled = false then 0 else if (s.supOf c).locked then 1
    else if (s.supOf c).cut then 2 else if s.service = some c then 3 else 4 := by
  unfold modeOf
  simp only [apply_ite Mode.code, Bool.not_eq_true']
  rfl

theorem pulseIs_iff {s : State} {k : Bank} {c : Cyl} :
    pulseIs s k c = true ↔ ∃ p, (s.schedOf k).active = some p ∧ p.cyl = c := by
  unfold pulseIs
  cases (s.schedOf k).active <;> simp

theorem modeOf_active {s : State} {c : Cyl} : modeOf s c = .active ↔ (modeOf s c).code = 4 := by
  cases modeOf s c <;> decide

theorem reportHeld_length (r : Option Report) : (reportHeld r).length = 3 := by cases r <;> rfl

theorem bank_code (r : CylRecord) : bankCode r.bank % 256 = if r.output.val < 4 then 0 else 1 := by
  unfold CylRecord.bank
  split <;> rfl

theorem supFlags_mod (a b c : Bool) : (flagBit a 0 + flagBit b 1 + flagBit c 2) % 256 =
    (if a then 1 else 0) + (if b then 2 else 0) + (if c then 4 else 0) := by
  revert a b c
  decide

theorem output_mod (o : Fin 8) : (o.val + 1) % 256 = o.val + 1 := Nat.mod_eq_of_lt (by omega)

/-- R184: the fields of READ_CYL. -/
theorem cylStatus_layout (s : State) (c : Cyl) : (cylStatus s c).length = 27 ∧
    fieldAt (cylStatus s c) 0 1 = (if (s.cylOf c).enabled then 1 else 0) ∧
    fieldAt (cylStatus s c) 1 1 = (s.cylOf c).output.val + 1 ∧
    fieldAt (cylStatus s c) 2 1 = (if (s.cylOf c).output.val < 4 then 0 else 1) ∧
    fieldAt (cylStatus s c) 3 1 = (modeOf s c).code ∧ fieldAt (cylStatus s c) 4 1 = (activityOf s c).code ∧
    fieldAt (cylStatus s c) 5 1 = (if (s.demandOf c).staged.isSome then 1 else 0) ∧
    ((cylStatus s c).drop 6).take 4 = demandField (s.demandOf c).staged ∧
    fieldAt (cylStatus s c) 10 1 = (if (s.demandOf c).active.isSome then 1 else 0) ∧
    ((cylStatus s c).drop 11).take 4 = demandField ((s.demandOf c).active.map ActiveDemand.demand) ∧
    fieldAt (cylStatus s c) 15 1 = (if ((s.demandOf c).active.map ActiveDemand.stale).getD false then 1 else 0) ∧
    fieldAt (cylStatus s c) 16 1 = (s.demandOf c).staleCount % 256 ∧
    fieldAt (cylStatus s c) 17 1 = (if (s.demandOf c).starved then 1 else 0) ∧
    fieldAt (cylStatus s c) 18 1 = (if (s.supOf c).cut then 1 else 0) + (if (s.supOf c).locked then 2 else 0) +
      (if (s.supOf c).firstPulse then 4 else 0) ∧
    fieldAt (cylStatus s c) 19 1 = (s.supOf c).faults % 256 ∧ fieldAt (cylStatus s c) 20 1 = (s.supOf c).code.code ∧
    fieldAt (cylStatus s c) 21 2 = (s.supOf c).freezes.toNat ∧
    fieldAt (cylStatus s c) 23 1 = fieldAt (reportHeld (s.supOf c).report) 0 1 ∧
    fieldAt (cylStatus s c) 24 2 = fieldAt (reportHeld (s.supOf c).report) 1 2 ∧
    fieldAt (cylStatus s c) 26 1 = openPlaces (s.supOf c).plan % 256 := by
  refine ⟨?_, ?_⟩
  · unfold cylStatus
    simp only [List.length_cons, List.length_append, leBytes_length, demandBytes_length, reportHeld_length, List.length_nil]
  unfold cylStatus
  simp (disch := simp [demandBytes_length, reportHeld_length]) only [fieldAt_skip, fieldAt_skip_byte, fieldAt_leBytes,
    fieldAt_byte_here, fieldAt_append_left, byte_toNat, drop_skip, List.drop_succ_cons, List.drop_zero, take_demandBytes,
    leBytes_length, demandBytes_length, reportHeld_length, List.append_assoc, List.cons_append, List.nil_append, Nat.reduceSub,
    condition_code_mod, number_mod, flagByte_toNat_ite, mode_code_mod, activity_code_mod, bank_code, supFlags_mod, output_mod,
    and_true]

/-! ### READ_QUEUE -/

theorem anchorBytes_length (a : Anchor) : (anchorBytes a).length = 6 := by
  cases a with
  | angle _ => rfl
  | chain p _ => cases p <;> rfl

theorem anchorBytes_angle (a : Nat) :
    fieldAt (anchorBytes (.angle a)) 0 2 = a % 65536 ∧ fieldAt (anchorBytes (.angle a)) 2 4 = 0 :=
  ⟨fieldAt_here 2 a _, rfl⟩

theorem anchorBytes_pred (t : Byte) (g : Nat) :
    fieldAt (anchorBytes (.chain (some t) g)) 0 2 = t.toNat ∧ fieldAt (anchorBytes (.chain (some t) g)) 2 4 = g % 2 ^ 32 :=
  ⟨rfl, fieldAt_leBytes 4 g⟩

theorem anchorBytes_lost (g : Nat) :
    fieldAt (anchorBytes (.chain none g)) 0 2 = 0 ∧ fieldAt (anchorBytes (.chain none g)) 2 4 = g % 2 ^ 32 :=
  ⟨rfl, fieldAt_leBytes 4 g⟩

theorem length_shotBytes (x : Shot) : (shotBytes x).length = 27 := by
  unfold shotBytes
  simp only [List.length_cons, List.length_append, leBytes_length, anchorBytes_length, List.length_nil]

theorem shotFlags_mod (a b c d : Bool) (x : ShotState) :
    (flagBit (!a) 0 + flagBit b 1 + 4 * x.code + flagBit c 4 + flagBit d 5) % 256 =
      (if a then 0 else 1) + (if b then 2 else 0) + 4 * x.code + (if c then 16 else 0) + (if d then 32 else 0) := by
  revert a b c d
  cases x <;> decide

/-- R185: the fields of a queue record. -/
theorem shotBytes_layout (x : Shot) : fieldAt (shotBytes x) 0 1 = x.tag.toNat ∧
    fieldAt (shotBytes x) 1 1 = x.cyl.val + 1 ∧ fieldAt (shotBytes x) 2 1 = x.entry % 256 ∧
    fieldAt (shotBytes x) 3 1 = x.rep % 256 ∧ fieldAt (shotBytes x) 4 1 = x.cls.rank ∧
    fieldAt (shotBytes x) 5 1 = (if x.isAngle then 0 else 1) + (if x.lowBoost then 2 else 0) +
      4 * x.state.code + (if x.reached then 16 else 0) + (if x.hasPred then 32 else 0) ∧
    fieldAt (shotBytes x) 6 2 = fieldAt (anchorBytes x.anchor) 0 2 ∧
    fieldAt (shotBytes x) 8 4 = fieldAt (anchorBytes x.anchor) 2 4 ∧
    fieldAt (shotBytes x) 12 2 = x.order % 65536 ∧ fieldAt (shotBytes x) 14 4 = x.ticks % 2 ^ 32 ∧
    fieldAt (shotBytes x) 18 1 = x.flags.toNat % 256 ∧ fieldAt (shotBytes x) 19 4 = x.due.getD 0 % 2 ^ 32 ∧
    fieldAt (shotBytes x) 23 4 = if x.state = .deferred then x.deadline.getD 0 % 2 ^ 32 else 0 := by
  unfold shotBytes
  simp (disch := simp [anchorBytes_length]) only [fieldAt_skip, fieldAt_skip_byte, fieldAt_leBytes, fieldAt_byte_here,
    fieldAt_append_left, byte_toNat, leBytes_length, anchorBytes_length, List.append_assoc, List.cons_append, List.nil_append,
    Nat.reduceSub, rank_mod, shotFlags_mod, cylNumber_mod, true_and]
  exact ⟨rfl, rfl, rfl, apply_ite (· % 2 ^ 32) (x.state = .deferred) (x.deadline.getD 0) 0⟩

/-- R185: the head of READ_QUEUE. -/
def queueHead (q : Sched) (n : Nat) : List Byte :=
  [byte q.cond.code, byte q.queue.length, q.nextTag] ++ pulseBytes q.active ++ [byte n]

theorem pulseBytes_length (p : Option Pulse) : (pulseBytes p).length = 12 := by cases p <;> rfl

theorem length_queueHead (q : Sched) (n : Nat) : (queueHead q n).length = 16 := by
  unfold queueHead
  simp only [List.length_cons, List.length_append, pulseBytes_length, List.length_nil]

theorem shownFlags_toNat (f : ShotFlags) : (shownFlags f).toNat % 256 ^ 2 =
    (if f.service then 16 else 0) + (if f.preempted then 32 else 0) + (if f.degraded then 64 else 0) +
      (if f.slowRise then 128 else 0) := by
  rw [flags_mod]
  simp [shownFlags, ShotFlags.toNat, flagBit]
  rfl

theorem queueHead_layout (q : Sched) {n : Nat} (hn : n ≤ 8) (ys : List Byte) :
    fieldAt (queueHead q n ++ ys) 0 1 = q.cond.code ∧ fieldAt (queueHead q n ++ ys) 1 1 = q.queue.length % 256 ∧
    fieldAt (queueHead q n ++ ys) 2 1 = q.nextTag.toNat ∧ fieldAt (queueHead q n ++ ys) 15 1 = n := by
  unfold queueHead
  simp (disch := simp [pulseBytes_length]) only [fieldAt_skip, fieldAt_skip_byte,
    fieldAt_byte_here, byte_toNat, pulseBytes_length, List.append_assoc, List.cons_append, List.nil_append,
    Nat.reduceSub, cond_code_mod, true_and]
  omega

theorem queueHead_none {q : Sched} (h : q.active = none) (n : Nat) (ys : List Byte) :
    fieldAt (queueHead q n ++ ys) 3 1 = 0 ∧ ((queueHead q n ++ ys).drop 4).take 11 = List.replicate 11 0 := by
  unfold queueHead
  rw [h]
  exact ⟨rfl, rfl⟩

theorem queueHead_some {q : Sched} {p : Pulse} (h : q.active = some p) (n : Nat) (ys : List Byte) :
    fieldAt (queueHead q n ++ ys) 3 1 = 1 ∧ fieldAt (queueHead q n ++ ys) 4 1 = p.tag.toNat ∧
    fieldAt (queueHead q n ++ ys) 5 1 = p.cyl.val + 1 ∧ fieldAt (queueHead q n ++ ys) 6 1 = p.cls.rank ∧
    fieldAt (queueHead q n ++ ys) 7 2 = (if p.flags.service then 16 else 0) + (if p.flags.preempted then 32 else 0) +
      (if p.flags.degraded then 64 else 0) + (if p.flags.slowRise then 128 else 0) ∧
    fieldAt (queueHead q n ++ ys) 9 2 = p.startAngle % 65536 ∧ fieldAt (queueHead q n ++ ys) 11 4 = p.schedEnd % 2 ^ 32 := by
  unfold queueHead pulseBytes
  rw [h]
  simp (disch := simp) only [fieldAt_skip, fieldAt_skip_byte, fieldAt_here, fieldAt_byte_here, byte_toNat, leBytes_length,
    List.append_assoc, List.cons_append, List.nil_append, Nat.reduceSub, rank_mod, cylNumber_mod, shownFlags_toNat,
    true_and]
  exact ⟨rfl, rfl, rfl⟩

/-! ### The answers -/

section
variable {s : State}

theorem ownReadCyl_none {a : Byte} (h : a = 0 ∨ 8 < a.toNat) : ownReadCyl s [a] = refuse s .badParam := by
  have hc : Machine.cylOf (u8 [a] 0) = none := cylOf_eq_none.2 (h.imp_left fun ha => by rw [ha]; rfl)
  unfold ownReadCyl
  rw [hc]

theorem ownReadCyl_some (c : Cyl) : ownReadCyl s [byte (c.val + 1)] = answer s (cylStatus s c) := by
  unfold ownReadCyl
  rw [cylOf_byte]

theorem ownReadReport_none {a : Byte} (h : a = 0 ∨ 8 < a.toNat) : ownReadReport s [a] = refuse s .badParam := by
  have hc : Machine.cylOf (u8 [a] 0) = none := cylOf_eq_none.2 (h.imp_left fun ha => by rw [ha]; rfl)
  unfold ownReadReport
  rw [hc]

theorem ownReadReport_some (c : Cyl) : ownReadReport s [byte (c.val + 1)] = answer s (reportBytes (s.supOf c).report) := by
  unfold ownReadReport
  rw [cylOf_byte]

theorem ownReadQueue_none {a n : Byte} (h : 1 < a.toNat ∨ 15 < n.toNat) : ownReadQueue s [a, n] = refuse s .badParam := by
  have ha : u8 [a, n] 0 = a.toNat := rfl
  unfold ownReadQueue
  rw [ha]
  cases hk : bankOfCode a.toNat with
  | none => rfl
  | some k =>
    refine if_neg fun hn : n.toNat ≤ 15 => ?_
    rcases h with ha | h
    · unfold bankOfCode at hk
      rw [if_neg (by omega), if_neg (by omega)] at hk
      cases hk
    · omega

theorem ownReadQueue_some (k : Bank) {n : Byte} (hn : n.toNat ≤ 15) :
    ownReadQueue s [if k = .bankA then 0 else 1, n] = answer s (queueBytes (s.schedOf k) n.toNat) := by
  cases k <;> exact if_pos hn

end

/-- R153, R154: what the report of a complete plan holds. -/
theorem report_of_complete {p : Plan} (h : p.complete = true) : p.entries.length = p.places.length - skipped p ∧
    (∀ (i : Nat) (y : Place) (o : PlaceOutcome), p.places[skipped p + i]? = some y → y.outcome = some o →
      p.entries[i]? = some { entry := y.entry, rep := y.rep, cls := y.cls, outcome := o.outcome, fault := o.fault,
                             flags := y.flags.union o.flags, startAngle := o.startAngle, onTime := o.onTime }) := by
  have heq := entries_eq h
  refine ⟨?_, fun i y o hy ho => ?_⟩
  · have hlen := congrArg List.length heq
    rwa [List.length_map, List.length_drop, List.length_map] at hlen
  · have hi := congrArg (·[i]?) heq
    simp only [List.getElem?_map, List.getElem?_drop, hy, Option.map_some, toEntry_some ho] at hi
    obtain ⟨e, he, hs⟩ := Option.map_eq_some_iff.1 hi
    exact he.trans hs

/-- Settles O59: what a report holds, and each layout field by field. -/
theorem recordReads : Obligations.RecordReads := by
  unfold Obligations.RecordReads
  refine ⟨fun p hp => ?_, fun a f s h hps => ?_, fun a f s h hps => ?_, fun a n f s h hps => ?_⟩
  · obtain ⟨hlen, hentry⟩ := report_of_complete hp
    refine ⟨rfl, rfl, hlen, hentry, fun hk => ?_, fun hk he => ?_, fun hk he => ?_⟩
    · show p.summary = _
      rw [Plan.summary, hk]
    · show p.summary = _
      rw [Plan.summary, hk]
      exact if_pos he
    · have hsum : p.summary = entriesSummary p.entries := by
        rw [Plan.summary, hk]
        exact if_neg he
      show (∃ e ∈ p.entries, codeGiven e = p.summary) ∧ ∀ e ∈ p.entries, severity (codeGiven e) ≤ severity p.summary
      rw [hsum]
      exact entriesSummary_greatest he
  · have hexec : ∀ {r}, ownReadCyl (received s 0x43 f) [a] = r →
        exec (.readCyl f) s = .next (respond r.state 0x43 r.result r.data) := fun hr =>
      congrArg Host.Outcome.next (takeFrame_exactly (n := 1) (owner := ownReadCyl) h (congrArg List.length hps) (by decide)
        ((congrArg (ownReadCyl _) hps).trans hr))
    refine ⟨fun ha => hexec (ownReadCyl_none ha), fun c ha => ?_⟩
    subst a
    obtain ⟨hlen, h0, h1, h2, h3, h4, h5, h6, h10, h11, h15, h16, h17, h18, h19, h20, h21, h23, h24, h26⟩ := cylStatus_layout s c
    refine ⟨cylStatus s c, hexec (ownReadCyl_some c), hlen, h0, h1, h2, h3.trans (modeOf_code s c), ?_, h5, h6, h10, h11, h15,
      h16, h17, h18, h19, h20, h21, fun r hr => ?_, fun hr => ?_, ?_⟩
    · rw [h3, h4, activityOf]
      simp only [apply_ite Activity.code, List.any_eq_true, beq_iff_eq, pulseIs_iff, ne_eq, modeOf_active]
      rfl
    · rw [h23, h24, hr]
      exact ⟨report_code_mod _, (fieldAt_leBytes 2 _).trans (number_mod _)⟩
    · rw [h23, h24, hr]
      exact ⟨rfl, rfl⟩
    · rw [h26]
      cases (s.supOf c).plan <;> rfl
  · have hexec : ∀ {r}, ownReadReport (received s 0x44 f) [a] = r →
        exec (.readReport f) s = .next (respond r.state 0x44 r.result r.data) := fun hr =>
      congrArg Host.Outcome.next (takeFrame_exactly (n := 1) (owner := ownReadReport) h (congrArg List.length hps) (by decide)
        ((congrArg (ownReadReport _) hps).trans hr))
    refine ⟨fun ha => hexec (ownReadReport_none ha), fun c ha hr => ?_, fun c r ha hr => ?_⟩
    · subst a
      have hown := hexec (ownReadReport_some c)
      rw [show ((received s 0x44 f).supOf c).report = none from hr] at hown
      exact hown
    · subst a
      have hown := ownReadReport_some (s := received s 0x44 f) c
      rw [show ((received s 0x44 f).supOf c).report = some r from hr] at hown
      obtain ⟨h0, h1, h3, h4, h8, h9, h10, h11, h12⟩ := reportHead_layout r (r.entries.flatMap reportEntryBytes)
      refine ⟨reportBytes (some r), hexec hown, ?_, h0, h1, h3, h4, h8, h9, h10, h11, h12, fun i e he => ?_⟩
      · rw [reportBytes_eq, List.length_append, length_reportHead, length_records length_reportEntryBytes]
      · obtain ⟨e0, e1, e2, e3, e4, e5, e7, e9⟩ := reportEntryBytes_layout e
        have hfield : ∀ {off n : Nat} (j : Nat), j + n ≤ 11 → off = 13 + (11 * i + j) →
            fieldAt (reportBytes (some r)) off n = fieldAt (reportEntryBytes e) j n := fun j =>
          fieldAt_headed (length_reportHead r) length_reportEntryBytes j he
        refine ⟨(hfield 0 (by decide) rfl).trans e0, (hfield 1 (by decide) (by omega)).trans e1,
          (hfield 2 (by decide) (by omega)).trans e2, (hfield 3 (by decide) (by omega)).trans e3,
          ((hfield 4 (by decide) (by omega)).trans e4).trans ?_, (hfield 5 (by decide) (by omega)).trans e5,
          (hfield 7 (by decide) (by omega)).trans e7, (hfield 9 (by decide) (by omega)).trans e9⟩
        cases e.fault <;> rfl
  · have hexec : ∀ {r}, ownReadQueue (received s 0x45 f) [a, n] = r →
        exec (.readQueue f) s = .next (respond r.state 0x45 r.result r.data) := fun hr =>
      congrArg Host.Outcome.next (takeFrame_exactly (n := 2) (owner := ownReadQueue) h (congrArg List.length hps) (by decide)
        ((congrArg (ownReadQueue _) hps).trans hr))
    refine ⟨fun ha => hexec (ownReadQueue_none ha), fun k ha hn => ?_⟩
    subst a
    intro xs
    have hxs : xs.length ≤ 8 := List.length_take_le _ _
    obtain ⟨h0, h1, h2, h15⟩ := queueHead_layout (s.schedOf k) hxs (xs.flatMap shotBytes)
    refine ⟨queueHead (s.schedOf k) xs.length ++ xs.flatMap shotBytes, hexec (ownReadQueue_some k hn), ?_, h0, h1, h2, ?_,
      fun hp => ?_, fun p hp => ?_, h15, fun i x hx => ?_⟩
    · rw [List.length_append, length_queueHead, length_records length_shotBytes]
    · cases hp : (s.schedOf k).active with
      | none => exact (queueHead_none hp _ _).1
      | some p => exact (queueHead_some hp _ _).1
    · exact (queueHead_none hp _ _).2
    · exact (queueHead_some hp _ _).2
    · obtain ⟨e0, e1, e2, e3, e4, e5, e6, e8, e12, e14, e18, e19, e23⟩ := shotBytes_layout x
      have hfield : ∀ {off m : Nat} (j : Nat), j + m ≤ 27 → off = 16 + (27 * i + j) →
          fieldAt (queueHead (s.schedOf k) xs.length ++ xs.flatMap shotBytes) off m = fieldAt (shotBytes x) j m := fun j =>
        fieldAt_headed (length_queueHead _ _) length_shotBytes j hx
      have h6 := (hfield (off := 22 + 27 * i) 6 (by decide) (by omega)).trans e6
      have h8 := (hfield (off := 24 + 27 * i) 8 (by decide) (by omega)).trans e8
      refine ⟨(hfield 0 (by decide) rfl).trans e0, (hfield 1 (by decide) (by omega)).trans e1,
        (hfield 2 (by decide) (by omega)).trans e2, (hfield 3 (by decide) (by omega)).trans e3,
        (hfield 4 (by decide) (by omega)).trans e4, (hfield 5 (by decide) (by omega)).trans e5, fun angle ha => ?_,
        fun pred gap ha => ?_, fun gap ha => ?_, (hfield 12 (by decide) (by omega)).trans e12,
        (hfield 14 (by decide) (by omega)).trans e14, (hfield 18 (by decide) (by omega)).trans e18,
        (hfield 19 (by decide) (by omega)).trans e19, (hfield 23 (by decide) (by omega)).trans e23⟩
      · rw [h6, h8, ha]
        exact anchorBytes_angle angle
      · rw [h6, h8, ha]
        exact anchorBytes_pred pred gap
      · rw [h6, h8, ha]
        exact anchorBytes_lost gap

end Sys2Proof.Proofs.RecordFields
end

section
/-! SUPPORT. The order of a queue and the victim of a full one. -/

namespace Sys2Proof.Proofs.QueueOrder

open Sys2Proof Sys2Proof.Machine Sys2Proof.Laws Sys2Proof.Proofs.Counters

/-! ### The order -/

section
variable {angle : Nat} {x y z : Shot}

/-- R79: before, by key and then by rank. -/
theorem standsBefore_iff : x.standsBefore y angle = true ↔
    x.key angle < y.key angle ∨ (x.key angle = y.key angle ∧ y.cls.rank ≤ x.cls.rank) := by
  unfold Shot.standsBefore
  simp only [Bool.or_eq_true, Bool.and_eq_true, decide_eq_true_eq, beq_iff_eq]

theorem standsBefore_trans (hxy : x.standsBefore y angle = true) (hyz : y.standsBefore z angle = true) :
    x.standsBefore z angle = true := by
  rw [standsBefore_iff] at *
  omega

theorem standsBefore_of_not (h : ¬y.standsBefore x angle = true) : x.standsBefore y angle = true := by
  rw [standsBefore_iff] at *
  omega

end

/-- A queue in the order of R79. -/
def Ordered (angle : Nat) (q : List Shot) : Prop := q.Pairwise fun a b => a.standsBefore b angle = true

/-- Where a new shot enters. -/
theorem insertShot_splits (angle : Nat) (x : Shot) (q : List Shot) :
    ∃ before after, q = before ++ after ∧ insertShot angle x q = before ++ x :: after ∧
      (∀ y ∈ before, y.standsBefore x angle = true) ∧ ∀ y ∈ after.head?, y.standsBefore x angle = false := by
  induction q with
  | nil => exact ⟨[], [], rfl, rfl, List.forall_mem_nil _, fun _ hy => by cases hy⟩
  | cons z q ih =>
    unfold insertShot
    split
    · rename_i hz
      obtain ⟨before, after, hq, hi, hb, ha⟩ := ih
      refine ⟨z :: before, after, congrArg (z :: ·) hq, congrArg (z :: ·) hi, fun y hy => ?_, ha⟩
      rcases List.mem_cons.1 hy with rfl | hy
      · exact hz
      · exact hb y hy
    · rename_i hz
      refine ⟨[], z :: q, rfl, rfl, List.forall_mem_nil _, fun y hy => ?_⟩
      cases hy
      exact Bool.eq_false_iff.2 hz

/-- Behind a shot that does not stand before the new one, none of an ordered queue does. -/
theorem not_before_after {angle : Nat} {x : Shot} {after : List Shot} (ho : Ordered angle after)
    (hh : ∀ y ∈ after.head?, y.standsBefore x angle = false) : ∀ y ∈ after, y.standsBefore x angle = false := by
  cases after with
  | nil => exact List.forall_mem_nil _
  | cons z after =>
    intro y hy
    have hz : z.standsBefore x angle = false := hh z rfl
    rcases List.mem_cons.1 hy with rfl | hy
    · exact hz
    · refine Bool.eq_false_iff.2 fun hyx => ?_
      rw [standsBefore_trans ((List.pairwise_cons.1 ho).1 y hy) hyx] at hz
      cases hz

theorem insertShot_ordered {angle : Nat} {q : List Shot} (ho : Ordered angle q) (x : Shot) :
    Ordered angle (insertShot angle x q) := by
  obtain ⟨before, after, rfl, hi, hb, hh⟩ := insertShot_splits angle x q
  obtain ⟨hob, hoa, hba⟩ := List.pairwise_append.1 ho
  have ha := not_before_after hoa hh
  rw [hi]
  refine List.pairwise_append.2 ⟨hob, List.pairwise_cons.2 ⟨fun y hy => ?_, hoa⟩, fun y hy z hz => ?_⟩
  · exact standsBefore_of_not (Bool.eq_false_iff.1 (ha y hy))
  · rcases List.mem_cons.1 hz with rfl | hz
    · exact hb y hy
    · exact hba y hy z hz

/-! ### A shot's own chain -/

/-- The tag an anchor hangs on. -/
def predOf : Anchor → Option Byte
  | .chain p _ => p
  | .angle _ => none

/-- The tag before a tag of a chain. -/
def tagBefore (q : List Shot) (t : Option Byte) : Option Byte := t.bind fun t => (findShot t q).bind fun y => predOf y.anchor

section
variable {q : List Shot}

theorem chainBack_of_pred {n : Nat} {a : Anchor} {t : Byte} (h : predOf a = some t) : chainBack (n + 1) q a =
    t :: ((findShot t q).elim [] fun y => chainBack n q y.anchor) := by
  cases a with
  | angle _ => cases h
  | chain p gap =>
    cases h
    rw [chainBack]
    cases findShot t q <;> rfl

theorem chainBack_of_none {n : Nat} {a : Anchor} (h : predOf a = none) : chainBack n q a = [] := by
  cases n with
  | zero => rfl
  | succ n =>
    cases a with
    | angle _ => rfl
    | chain p gap =>
      cases h
      rfl

theorem tagBefore_some (t : Byte) : tagBefore q (some t) = (findShot t q).bind fun y => predOf y.anchor := rfl

theorem tagBefore_iterate_none (i : Nat) : (tagBefore q)^[i] none = none := by
  induction i with
  | zero => rfl
  | succ i ih => exact (Function.iterate_succ_apply' _ _ _).trans (congrArg _ ih)

/-- R81: the tags of a chain are those met on the way back. -/
theorem mem_chainBack {n : Nat} {a : Anchor} {u : Byte} :
    u ∈ chainBack n q a ↔ ∃ i, i < n ∧ (tagBefore q)^[i] (predOf a) = some u := by
  induction n generalizing a with
  | zero => exact ⟨nofun, fun ⟨i, hi, _⟩ => absurd hi (Nat.not_lt_zero i)⟩
  | succ n ih =>
    cases hp : predOf a with
    | none =>
      rw [chainBack_of_none hp]
      refine ⟨nofun, fun ⟨i, _, hi⟩ => ?_⟩
      rw [tagBefore_iterate_none] at hi
      cases hi
    | some t =>
      have hrest : u ∈ (findShot t q).elim [] (fun y => chainBack n q y.anchor) ↔
          ∃ i, i < n ∧ (tagBefore q)^[i] (tagBefore q (some t)) = some u := by
        rw [tagBefore_some]
        cases findShot t q with
        | none =>
          refine ⟨nofun, fun ⟨i, _, hi⟩ => ?_⟩
          rw [show Option.bind none _ = none from rfl, tagBefore_iterate_none] at hi
          cases hi
        | some y => exact ih
      rw [chainBack_of_pred hp, List.mem_cons, hrest]
      constructor
      · rintro (rfl | ⟨i, hi, hu⟩)
        · exact ⟨0, Nat.succ_pos n, rfl⟩
        · exact ⟨i + 1, Nat.succ_lt_succ hi, hu⟩
      · rintro ⟨i, hi, hu⟩
        cases i with
        | zero =>
          cases hu
          exact .inl rfl
        | succ i => exact .inr ⟨i, Nat.lt_of_succ_lt_succ hi, hu⟩

theorem backChain_iff {a : Anchor} {u : Byte} : BackChain q a u ↔ ∃ i, (tagBefore q)^[i] (predOf a) = some u := by
  constructor
  · intro h
    induction h with
    | pred => exact ⟨0, rfl⟩
    | back hf _ ih =>
      obtain ⟨i, hi⟩ := ih
      refine ⟨i + 1, ?_⟩
      rw [Function.iterate_succ_apply, predOf, tagBefore_some, findShot, hf]
      exact hi
  · rintro ⟨i, hi⟩
    induction i generalizing a with
    | zero =>
      cases a with
      | angle _ => cases hi
      | chain p gap =>
        cases hi
        exact .pred
    | succ i ih =>
      cases a with
      | angle _ =>
        rw [predOf, tagBefore_iterate_none] at hi
        cases hi
      | chain p gap =>
        cases p with
        | none =>
          rw [predOf, tagBefore_iterate_none] at hi
          cases hi
        | some t =>
          rw [Function.iterate_succ_apply, predOf, tagBefore_some] at hi
          cases hf : findShot t q with
          | none =>
            rw [hf, show Option.bind none _ = none from rfl, tagBefore_iterate_none] at hi
            cases hi
          | some y =>
            rw [hf] at hi
            exact .back hf (ih hi)

/-- What the way back meets before a queued shot is queued. -/
theorem queued_of_iterate {a : Anchor} {i : Nat} {y : Shot} (hy : y ∈ q)
    (h : (tagBefore q)^[i] (predOf a) = some y.tag) {j : Nat} (hj : j ≤ i) :
    (tagBefore q)^[j] (predOf a) ∈ q.map fun z => some z.tag := by
  rcases Nat.eq_or_lt_of_le hj with rfl | hj
  · rw [h]
    exact List.mem_map.2 ⟨y, hy, rfl⟩
  · obtain ⟨d, rfl⟩ := Nat.exists_eq_add_of_lt hj
    have hnext : (tagBefore q)^[d] (tagBefore q ((tagBefore q)^[j] (predOf a))) = some y.tag := by
      rw [← Function.iterate_succ_apply' (tagBefore q), ← Function.iterate_add_apply, ← h]
      exact congrArg (fun n => (tagBefore q)^[n] (predOf a)) (by omega)
    cases ht : (tagBefore q)^[j] (predOf a) with
    | none =>
      rw [ht, show tagBefore q none = none from rfl, tagBefore_iterate_none] at hnext
      cases hnext
    | some t =>
      rw [ht, tagBefore_some] at hnext
      cases hf : findShot t q with
      | none =>
        rw [hf, show Option.bind none _ = none from rfl, tagBefore_iterate_none] at hnext
        cases hnext
      | some z =>
        have hz : z.tag = t := beq_iff_eq.1 (List.find?_some (p := fun x : Shot => x.tag == t) hf)
        exact List.mem_map.2 ⟨z, List.mem_of_find?_eq_some hf, congrArg some hz⟩

/-- A queued shot of a chain is met within as many steps as there are queued shots: the way back that meets it first goes
through no tag twice. -/
theorem iterate_within {a : Anchor} {y : Shot} (hy : y ∈ q) (h : ∃ i, (tagBefore q)^[i] (predOf a) = some y.tag) :
    ∃ i, i < q.length ∧ (tagBefore q)^[i] (predOf a) = some y.tag := by
  refine ⟨Nat.find h, Nat.lt_of_not_le fun hle => ?_, Nat.find_spec h⟩
  have hspec := Nat.find_spec h
  have hcard : (q.map fun z => some z.tag).toFinset.card < (Finset.range (Nat.find h + 1)).card := by
    rw [Finset.card_range]
    refine Nat.lt_succ_of_le (le_trans (List.toFinset_card_le _) ?_)
    rwa [List.length_map]
  obtain ⟨b, hb, c, hc, hne, heq⟩ := Finset.exists_ne_map_eq_of_card_lt_of_maps_to hcard
    (f := fun j => (tagBefore q)^[j] (predOf a)) fun j hj =>
      List.mem_toFinset.2 (queued_of_iterate hy hspec (Nat.le_of_lt_succ (Finset.mem_range.1 hj)))
  have hshort : ∀ {b c : Nat}, b < c → c ≤ Nat.find h →
      (tagBefore q)^[b] (predOf a) = (tagBefore q)^[c] (predOf a) → False := fun {b c} hlt hc heq => by
    refine Nat.find_min h (m := Nat.find h - c + b) (by omega) ?_
    rw [Function.iterate_add_apply, heq, ← Function.iterate_add_apply, Nat.sub_add_cancel hc]
    exact hspec
  rw [Finset.mem_range, Nat.lt_succ_iff] at hb hc
  rcases Nat.lt_or_gt_of_ne hne with hlt | hlt
  · exact hshort hlt hc heq
  · exact hshort hlt hb heq.symm

end

/-! ### The victim -/

section
variable {angle : Nat} {x y : Shot}

theorem ratherVictim_iff : y.ratherVictim x angle = true ↔
    y.cls.rank < x.cls.rank ∨ (y.cls.rank = x.cls.rank ∧ x.key angle ≤ y.key angle) := by
  unfold Shot.ratherVictim
  simp only [Bool.or_eq_true, Bool.and_eq_true, decide_eq_true_eq, beq_iff_eq]

theorem worstShot_eq_none {l : List Shot} : worstShot angle l = none ↔ l = [] := by
  cases l with
  | nil => exact ⟨fun _ => rfl, fun _ => rfl⟩
  | cons x l =>
    refine ⟨fun h => ?_, nofun⟩
    unfold worstShot at h
    split at h
    · cases h
    · split at h <;> cases h

/-- R81: the worst shot of a list, and the last such. -/
theorem worstShot_eq_some {l : List Shot} {v : Shot} (h : worstShot angle l = some v) :
    ∃ before after, l = before ++ v :: after ∧
      (∀ y ∈ before, v.cls.rank < y.cls.rank ∨ (v.cls.rank = y.cls.rank ∧ y.key angle ≤ v.key angle)) ∧
      ∀ y ∈ after, v.cls.rank < y.cls.rank ∨ (v.cls.rank = y.cls.rank ∧ y.key angle < v.key angle) := by
  induction l generalizing v with
  | nil => cases h
  | cons x l ih =>
    unfold worstShot at h
    split at h
    · rename_i hn
      cases h
      rw [worstShot_eq_none] at hn
      subst hn
      exact ⟨[], [], rfl, List.forall_mem_nil _, List.forall_mem_nil _⟩
    · rename_i y hy
      obtain ⟨before, after, rfl, hb, ha⟩ := ih hy
      split at h
      · rename_i hr
        cases h
        refine ⟨x :: before, after, rfl, fun z hz => ?_, ha⟩
        rcases List.mem_cons.1 hz with rfl | hz
        · exact ratherVictim_iff.1 hr
        · exact hb z hz
      · rename_i hr
        cases h
        rw [ratherVictim_iff] at hr
        refine ⟨[], before ++ y :: after, rfl, List.forall_mem_nil _, fun z hz => ?_⟩
        rcases List.mem_append.1 hz with hz | hz
        · have := hb z hz
          omega
        · rcases List.mem_cons.1 hz with rfl | hz
          · omega
          · have := ha z hz
            omega

end

/-- R81: the shots a new one may displace. -/
def displaceable (q : List Shot) (x y : Shot) : Bool :=
  y.state != .deferred && !(chainBack q.length q x.anchor).contains y.tag

theorem displaceable_iff {q : List Shot} {x y : Shot} :
    displaceable q x y = true ↔ y.state ≠ .deferred ∧ y.tag ∉ chainBack q.length q x.anchor := by
  unfold displaceable
  rw [Bool.and_eq_true, bne_iff_ne, Bool.not_eq_true', List.contains_eq_mem, decide_eq_false_iff_not]

theorem victim_eq_none {angle : Nat} {q : List Shot} {x : Shot} : victim angle q x = none ↔
    ∀ y ∈ q, y.state = .deferred ∨ y.tag ∈ chainBack q.length q x.anchor := by
  show worstShot angle (q.filter (displaceable q x)) = none ↔ _
  rw [worstShot_eq_none, List.filter_eq_nil_iff]
  refine forall₂_congr fun y _ => ?_
  rw [displaceable_iff, not_and_or, not_not, not_not]

theorem victim_eq_some {angle : Nat} {q : List Shot} {x v : Shot} (h : victim angle q x = some v) :
    ∃ before after, q = before ++ v :: after ∧ displaceable q x v = true ∧
      (∀ y ∈ before, displaceable q x y = true →
        v.cls.rank < y.cls.rank ∨ (v.cls.rank = y.cls.rank ∧ y.key angle ≤ v.key angle)) ∧
      ∀ y ∈ after, displaceable q x y = true →
        v.cls.rank < y.cls.rank ∨ (v.cls.rank = y.cls.rank ∧ y.key angle < v.key angle) := by
  obtain ⟨before, after, hl, hb, ha⟩ := worstShot_eq_some (l := q.filter (displaceable q x)) h
  obtain ⟨q₁, q₂, hq, h₁, h₂⟩ := List.filter_eq_append_iff.1 hl
  obtain ⟨q₃, q₄, hq₂, hskip, hv, h₄⟩ := List.filter_eq_cons_iff.1 h₂
  refine ⟨q₁ ++ q₃, q₄, by rw [hq, hq₂, List.append_assoc], hv, fun y hy hd => ?_, fun y hy hd => ?_⟩
  · rcases List.mem_append.1 hy with hy | hy
    · exact hb y (h₁ ▸ List.mem_filter.2 ⟨hy, hd⟩)
    · exact absurd hd (hskip y hy)
  · exact ha y (h₄ ▸ List.mem_filter.2 ⟨hy, hd⟩)

/-- Settles O29: the order is a total preorder, and the victim is the last of the worst. -/
theorem queueOrderAndVictim : Obligations.QueueOrderAndVictim := by
  unfold Obligations.QueueOrderAndVictim
  refine ⟨fun angle x q => ⟨?_, insertShot_perm angle x q, fun ho => insertShot_ordered ho x⟩,
    fun angle x y => standsBefore_iff, fun angle x => rfl, fun q x y hy => ?_, fun angle q x => victim_eq_none,
    fun angle q x v h => ?_⟩
  · obtain ⟨before, after, hq, hi, hb, hh⟩ := insertShot_splits angle x q
    refine ⟨before, after, hq, hi, hb, hh, fun ho => not_before_after ?_ hh⟩
    exact (List.pairwise_append.1 (hq ▸ ho)).2.1
  · rw [mem_chainBack, backChain_iff]
    exact ⟨fun ⟨i, _, hi⟩ => ⟨i, hi⟩, iterate_within hy⟩
  · obtain ⟨before, after, hq, hv, hb, ha⟩ := victim_eq_some h
    obtain ⟨hstate, htag⟩ := displaceable_iff.1 hv
    have hmem : v ∈ q := hq ▸ List.mem_append_right _ List.mem_cons_self
    refine ⟨hmem, hstate, htag, fun y hy hs ht => ?_, before, after, hq,
      fun y hy hs ht => ha y hy (displaceable_iff.2 ⟨hs, ht⟩)⟩
    have hd := displaceable_iff.2 ⟨hs, ht⟩
    rw [hq] at hy
    rcases List.mem_append.1 hy with hy | hy
    · exact hb y hy hd
    · rcases List.mem_cons.1 hy with rfl | hy
      · exact .inr ⟨rfl, le_rfl⟩
      · exact (ha y hy hd).imp_right (And.imp_right Nat.le_of_lt)

end Sys2Proof.Proofs.QueueOrder
end

section
/-! SUPPORT. The placing of a created shot on its bank. -/

namespace Sys2Proof.Proofs.Placing

open Sys2Proof Sys2Proof.Machine Sys2Proof.Laws Sys2Proof.Laws.Fine Sys2Proof.Proofs.Freeze Sys2Proof.Proofs.Frames
  Sys2Proof.Proofs.Removals Sys2Proof.Proofs.Arbiter Sys2Proof.Proofs.Gap Sys2Proof.Proofs.QueueOrder
  Sys2Proof.Proofs.Counters Sys2Proof.Proofs.Commands Sys2Proof.Proofs.Edges Sys2Proof.Proofs.Cancelling

/-! ### The place in the plan -/

theorem addPlace_eq (s : State) (x : Shot) : addPlace s x = withPlace s x := by
  unfold addPlace withPlace
  cases (s.supOf x.cyl).plan <;> rfl

theorem withPlace_sup (s : State) (x : Shot) : withPlace s x = { s with sup := (withPlace s x).sup } := by
  unfold withPlace
  cases (s.supOf x.cyl).plan <;> rfl

theorem withPlace_sched (s : State) (x : Shot) : (withPlace s x).sched = s.sched := by rw [withPlace_sup]
theorem withPlace_events (s : State) (x : Shot) : (withPlace s x).events = s.events := by rw [withPlace_sup]
theorem withPlace_firing (s : State) (x : Shot) : (withPlace s x).firing = s.firing := by rw [withPlace_sup]

theorem withPlace_schedOf (s : State) (x : Shot) (k : Bank) : (withPlace s x).schedOf k = s.schedOf k :=
  congrArg (·.get k) (withPlace_sched s x)

/-! ### What a removal leaves -/

/-- A removal moves nothing of a scheduler but the queue and the two counters of removals. -/
structure OnlyRemoved (q q' : Sched) : Prop where
  placed  : q'.placed = q.placed
  nextTag : q'.nextTag = q.nextTag
  started : q'.started = q.started
  active  : q'.active = q.active
  cond    : q'.cond = q.cond

theorem OnlyRemoved.trans {q q' q'' : Sched} (h : OnlyRemoved q q') (h' : OnlyRemoved q' q'') : OnlyRemoved q q'' :=
  ⟨h'.placed.trans h.placed, h'.nextTag.trans h.nextTag, h'.started.trans h.started, h'.active.trans h.active,
    h'.cond.trans h.cond⟩

theorem onlyRemoved_droppedFrom (q : Sched) (z : Byte × ShotOutcome) : OnlyRemoved q (droppedFrom q z) := by
  unfold droppedFrom Sched.countRemoval
  split
  · exact ⟨rfl, rfl, rfl, rfl, rfl⟩
  · split <;> exact ⟨rfl, rfl, rfl, rfl, rfl⟩

theorem onlyRemoved_dropAll (k : Bank) (l : List (Byte × ShotOutcome)) (s : State) :
    OnlyRemoved (s.schedOf k) ((l.foldl (dropShot k) s).schedOf k) := by
  induction l generalizing s with
  | nil => exact ⟨rfl, rfl, rfl, rfl, rfl⟩
  | cons z l ih =>
    refine .trans ?_ (ih _)
    rw [dropShot_schedOf, if_pos rfl]
    exact onlyRemoved_droppedFrom _ z

theorem onlyRemoved_dropWithChain (k : Bank) (s : State) (tag : Byte) (o : ShotOutcome) :
    OnlyRemoved (s.schedOf k) ((dropWithChain k s tag o).schedOf k) := by
  unfold dropWithChain
  dsimp only
  split
  · exact ⟨rfl, rfl, rfl, rfl, rfl⟩
  · exact onlyRemoved_dropAll k _ s

/-- R112: a shot that is shed raises SHED. -/
theorem dropWithChain_raises {k : Bank} {s : State} {x : Shot} {o : ShotOutcome} (hx : x ∈ (s.schedOf k).queue)
    (ho : o.isShed = true) : (dropWithChain k s x.tag o).events.latched.getLsbD Event.shed.bit = true := by
  unfold dropWithChain
  dsimp only
  cases hf : findShot x.tag (s.schedOf k).queue with
  | none => exact absurd (beq_self_eq_true x.tag) (List.find?_eq_none.1 hf x hx)
  | some y =>
    refine dropAll_rel latched_bank k (dropShot k s (x.tag, o)) _ _ ?_
    unfold dropShot
    rw [hf]
    refine drainTest_rel latched_bank _ _ (writeOutcome_rel latched_bank _ _ _ _ _ ?_)
    unfold raiseIfShed
    rw [if_pos ho]
    exact raise_getLsbD _ _

theorem tellAll_told_of {s u : State} (hs : u.sup = s.sup) (hv : u.service = s.service)
    (os : List (Cyl × Byte × PlaceOutcome)) : outcomesTold s (tellAll u os) os :=
  outcomesTold_congr (tellAll_told u os) hs.symm hv.symm rfl rfl

/-! ### The three cases -/

section
variable {k : Bank} {s : State} {angle : Nat} {x v : Shot}

theorem placeShot_enters (h : (s.schedOf k).queue.length < 16) :
    placeShot k s angle x = (enqueue k (withPlace s x) angle x, true) := by
  unfold placeShot
  rw [addPlace_eq]
  exact if_pos h

theorem placeShot_evicts (h : 16 ≤ (s.schedOf k).queue.length) (hv : victim angle (s.schedOf k).queue x = some v)
    (hr : v.cls.rank < x.cls.rank) :
    placeShot k s angle x = (enqueue k (dropWithChain k (withPlace s x) v.tag .shedQueueFull) angle x, true) := by
  unfold placeShot
  rw [addPlace_eq]
  dsimp only
  rw [if_neg (show ¬_ < Config.queueMax from Nat.not_lt.2 h), hv]
  exact if_pos hr

theorem placeShot_shed (h : 16 ≤ (s.schedOf k).queue.length)
    (hv : ∀ v, victim angle (s.schedOf k).queue x = some v → x.cls.rank ≤ v.cls.rank) :
    placeShot k s angle x = (shedAtPlacement k (withPlace s x) x, false) := by
  unfold placeShot
  rw [addPlace_eq]
  dsimp only
  rw [if_neg (show ¬_ < Config.queueMax from Nat.not_lt.2 h)]
  cases hc : victim angle (s.schedOf k).queue x with
  | none => rfl
  | some v => exact if_neg (Nat.not_lt.2 (hv v hc))

/-- R78 to R83: one of the three. -/
theorem placeShot_cases (k : Bank) (s : State) (angle : Nat) (x : Shot) :
    (s.schedOf k).queue.length < 16 ∨ (16 ≤ (s.schedOf k).queue.length ∧
      ((∃ v, victim angle (s.schedOf k).queue x = some v ∧ v.cls.rank < x.cls.rank) ∨
        ∀ v, victim angle (s.schedOf k).queue x = some v → x.cls.rank ≤ v.cls.rank)) := by
  rcases Nat.lt_or_ge (s.schedOf k).queue.length 16 with h | h
  · exact .inl h
  · refine .inr ⟨h, ?_⟩
    by_cases hv : ∃ v, victim angle (s.schedOf k).queue x = some v ∧ v.cls.rank < x.cls.rank
    · exact .inl hv
    · exact .inr fun v hs => Nat.le_of_not_lt fun hr => hv ⟨v, hs, hr⟩

theorem enqueue_eq {b : Banks Sched} {q : Sched} (h : s.sched = b.set k q) : enqueue k s angle x = { s with
    sched := b.set k { q with placed := q.placed + 1, nextTag := q.nextTag + 1, queue := insertShot angle x q.queue } } := by
  have hq : s.schedOf k = q := by
    show s.sched.get k = q
    rw [h]
    exact banks_get_set_same _ _ _
  unfold enqueue
  dsimp only
  rw [hq]
  show { s with sched := s.sched.set k _ } = _
  rw [h, banks_set_set]
  rfl

theorem enqueue_self : enqueue k s angle x = { s with
    sched := s.sched.set k { s.schedOf k with
      placed := (s.schedOf k).placed + 1, nextTag := (s.schedOf k).nextTag + 1
      queue := insertShot angle x (s.schedOf k).queue } } := enqueue_eq (banks_set_get _ _).symm

theorem schedOf_enqueue : (enqueue k s angle x).schedOf k = { s.schedOf k with
      placed := (s.schedOf k).placed + 1, nextTag := (s.schedOf k).nextTag + 1
      queue := insertShot angle x (s.schedOf k).queue } := by
  rw [enqueue_self]
  exact banks_get_set_same _ _ _

theorem shedAtPlacement_eq : shedAtPlacement k (withPlace s x) x = tellAll { withPlace s x with
    sched := s.sched.set k { s.schedOf k with
      placed := (s.schedOf k).placed + 1, nextTag := (s.schedOf k).nextTag + 1, shed := (s.schedOf k).shed + 1 }
    events := (s.raise .shed).events } (chainOutcomes [(x, .shedQueueFull)]) := by
  have hev : ((withPlace s x).raise .shed).events = (s.raise .shed).events := by
    rw [raise_events, raise_events, withPlace_events]
  rw [← hev, ← withPlace_sched s x, ← withPlace_schedOf s x k]
  rfl

/-- R81: a victim stands in the queue. -/
theorem mem_of_victim {q : List Shot} (h : victim angle q x = some v) : v ∈ q := by
  obtain ⟨before, after, hq, -⟩ := victim_eq_some h
  rw [hq]
  exact List.mem_append_right _ List.mem_cons_self

/-- A tag that one queued shot has names it. -/
theorem filter_of_countP {q : List Shot} (hv : v ∈ q) (h : q.countP (fun y => y.tag == v.tag) = 1) :
    q.filter (fun y => y.tag == v.tag) = [v] := by
  obtain ⟨y, hy⟩ := List.length_eq_one_iff.1 (List.countP_eq_length_filter.symm.trans h)
  have hmem : v ∈ q.filter fun y => y.tag == v.tag := List.mem_filter.2 ⟨hv, beq_self_eq_true v.tag⟩
  rw [hy, List.mem_singleton] at hmem
  rw [hy, hmem]

theorem length_insertShot (q : List Shot) : (insertShot angle x q).length = q.length + 1 :=
  (insertShot_perm angle x q).length_eq

theorem mem_insertShot {q : List Shot} {y : Shot} : y ∈ insertShot angle x q ↔ y = x ∨ y ∈ q := by
  rw [(insertShot_perm angle x q).mem_iff, List.mem_cons]

/-- R78, R113: what a placement moves of the counters, and what it leaves. -/
theorem placeShot_counts (k : Bank) (s : State) (angle : Nat) (x : Shot) :
    let q := s.schedOf k
    let q' := (placeShot k s angle x).1.schedOf k
    q'.placed = q.placed + 1 ∧ q'.nextTag = q.nextTag + 1 ∧ q'.started = q.started ∧ q'.active = q.active ∧
      q'.cond = q.cond := by
  intro q q'
  rcases placeShot_cases k s angle x with h | ⟨h, ⟨v, hv, hr⟩ | hn⟩
  · have hq : q' = _ := congrArg (fun r => r.1.schedOf k) (placeShot_enters h)
    rw [hq, schedOf_enqueue, withPlace_schedOf]
    exact ⟨rfl, rfl, rfl, rfl, rfl⟩
  · have hq : q' = _ := congrArg (fun r => r.1.schedOf k) (placeShot_evicts h hv hr)
    have hkept := onlyRemoved_dropWithChain k (withPlace s x) v.tag .shedQueueFull
    rw [withPlace_schedOf] at hkept
    rw [hq, schedOf_enqueue]
    exact ⟨congrArg (· + 1) hkept.placed, congrArg (· + 1) hkept.nextTag, hkept.started, hkept.active, hkept.cond⟩
  · have hq : q' = _ := congrArg (fun r => r.1.schedOf k) (placeShot_shed h hn)
    rw [hq, shedAtPlacement_eq, State.schedOf, tellAll_sched, banks_get_set_same]
    exact ⟨rfl, rfl, rfl, rfl, rfl⟩

/-- R82, R93: the state after an eviction of a named victim. -/
theorem evicted_eq {cs : List (Shot × ShotOutcome)} {u : State} {n : Nat} (hf : s.firing ≠ .draining)
    (hu : u = drainSettled { (withPlace s x).raise .shed with
      sched := (withPlace s x).sched.set k { (withPlace s x).schedOf k with
        queue := withoutShots ((withPlace s x).schedOf k).queue cs
        shed := ((withPlace s x).schedOf k).shed + BitVec.ofNat 32 n }
      sup := u.sup, service := u.service }) :
    enqueue k u angle x = { withPlace s x with
      sched := s.sched.set k { s.schedOf k with
        placed := (s.schedOf k).placed + 1, nextTag := (s.schedOf k).nextTag + 1
        queue := insertShot angle x (withoutShots (s.schedOf k).queue cs)
        shed := (s.schedOf k).shed + BitVec.ofNat 32 n }
      events := (s.raise .shed).events, sup := u.sup, service := u.service } := by
  rw [drainSettled_of_ne (by exact fun h => hf ((withPlace_firing s x).symm.trans h)), withPlace_sched, withPlace_schedOf] at hu
  have hev : ((withPlace s x).raise .shed).events = (s.raise .shed).events := by
    rw [raise_events, raise_events, withPlace_events]
  have hsched := congrArg State.sched hu
  rw [enqueue_eq hsched]
  have hrest := congrArg (fun t : State => { t with events := (s.raise .shed).events, sched := s.sched.set k { s.schedOf k with
        placed := (s.schedOf k).placed + 1, nextTag := (s.schedOf k).nextTag + 1
        queue := insertShot angle x (withoutShots (s.schedOf k).queue cs)
        shed := (s.schedOf k).shed + BitVec.ofNat 32 n } }) hu
  have huev : u.events = (s.raise .shed).events := (congrArg State.events hu).trans hev
  rw [← huev] at hrest ⊢
  exact hrest

end

/-- Settles O30: a queue with room, an eviction, and a newcomer that is shed. -/
theorem placementOnABank : Obligations.PlacementOnABank := by
  unfold Obligations.PlacementOnABank
  intro k s angle x q t counted
  obtain ⟨hplaced, htag, hstarted, hactive, hcond⟩ := placeShot_counts k s angle x
  refine ⟨hplaced, htag, hstarted, hactive, hcond, fun h => ?_, fun h v hv hr => ?_, fun h hn => ?_⟩
  · have hp := placeShot_enters (angle := angle) (x := x) h
    refine ⟨congrArg Prod.snd hp, (congrArg Prod.fst hp).trans ?_⟩
    rw [enqueue_self, withPlace_sched, withPlace_schedOf]
  · have hp := placeShot_evicts h hv hr
    have hmem : v ∈ ((withPlace s x).schedOf k).queue := by
      rw [withPlace_schedOf]
      exact mem_of_victim hv
    have ht : t = enqueue k (dropWithChain k (withPlace s x) v.tag .shedQueueFull) angle x := congrArg Prod.fst hp
    have hqueue : (t.schedOf k).queue =
        insertShot angle x ((dropWithChain k (withPlace s x) v.tag .shedQueueFull).schedOf k).queue := by
      rw [ht, schedOf_enqueue]
    have hlen := length_dropWithChain hmem .shedQueueFull
    rw [withPlace_schedOf] at hlen
    refine ⟨congrArg Prod.snd hp, ?_, ?_, ?_, fun hcount hne y hy => ?_, fun hname hchain hf => ?_⟩
    · rw [hqueue]
      exact mem_insertShot.2 (.inl rfl)
    · rw [hqueue, length_insertShot]
      exact hlen
    · rw [ht]
      exact dropWithChain_raises hmem rfl
    · rw [hqueue] at hy
      rcases mem_insertShot.1 hy with rfl | hy
      · exact hne
      · exact (mem_dropWithChain (by
          rw [withPlace_schedOf]
          exact filter_of_countP (mem_of_victim hv) hcount) hy).2
    · obtain ⟨cs, hcs, hu, htold⟩ := dropWithChain_shed k (withPlace s x) v .shedQueueFull rfl
        (by rw [withPlace_schedOf]; exact hname) (by rw [withPlace_schedOf]; exact hchain)
      rw [withPlace_schedOf] at hcs
      refine ⟨cs, hcs, ht.trans ?_, ?_⟩
      · rw [ht]
        exact evicted_eq hf hu
      · rw [ht]
        exact outcomesTold_congr htold rfl rfl rfl rfl
  · have hp := placeShot_shed (angle := angle) h hn
    have ht : t = _ := (congrArg Prod.fst hp).trans shedAtPlacement_eq
    refine ⟨congrArg Prod.snd hp, ?_, ?_, ?_⟩
    · rw [ht, tellAll_events]
      exact raise_getLsbD _ _
    · rw [ht]
      exact tellAll_eq _ _
    · rw [ht]
      exact tellAll_told_of rfl rfl _

end Sys2Proof.Proofs.Placing
end

section
/-! SUPPORT. LOAD_LIMITS: the record it stores, and what a changed bank gap moves. -/

namespace Sys2Proof.Proofs.NewLimits

open Sys2Proof Sys2Proof.Machine Sys2Proof.Laws Sys2Proof.Laws.Fine Sys2Proof.Proofs.Freeze Sys2Proof.Proofs.Frames
  Sys2Proof.Proofs.Bytes Sys2Proof.Proofs.Layouts Sys2Proof.Proofs.Removals Sys2Proof.Proofs.Arbiter Sys2Proof.Proofs.Gap
  Sys2Proof.Proofs.Loads Sys2Proof.Proofs.Steps

/-! ### An operation on one bank leaves the other alone -/

/-- The scheduler and the Drive Stage of the other bank are as they were. -/
def OtherKept (k : Bank) (s t : State) : Prop := ∀ j, j ≠ k → t.schedOf j = s.schedOf j ∧ t.driveOf j = s.driveOf j

section
variable {k : Bank} {s t u : State}

theorem OtherKept.refl (s : State) : OtherKept k s s := fun _ _ => ⟨rfl, rfl⟩

theorem OtherKept.trans (h : OtherKept k s t) (h' : OtherKept k t u) : OtherKept k s u := fun j hj =>
  ⟨(h' j hj).1.trans (h j hj).1, (h' j hj).2.trans (h j hj).2⟩

theorem OtherKept.of_same (hs : t.sched = s.sched) (hd : t.drive = s.drive) : OtherKept k s t := fun j _ =>
  ⟨congrArg (·.get j) hs, congrArg (·.get j) hd⟩

theorem OtherKept.of_bank {q : Sched} {d : DriveStage} (hs : t.sched = s.sched.set k q) (hd : t.drive = s.drive.set k d) :
    OtherKept k s t := fun j hj => by
  constructor
  · exact (congrArg (·.get j) hs).trans ((banks_get_set _ _ _ _).trans (if_neg hj))
  · exact (congrArg (·.get j) hd).trans ((banks_get_set _ _ _ _).trans (if_neg hj))

theorem OtherKept.of_sched {q : Sched} (hs : t.sched = s.sched.set k q) (hd : t.drive = s.drive) : OtherKept k s t :=
  .of_bank hs (hd.trans (banks_set_get s.drive k).symm)

theorem OtherKept.dropShot (k : Bank) (s : State) (z : Byte × ShotOutcome) : OtherKept k s (Machine.dropShot k s z) :=
  .of_sched (dropShot_sched k s z) (dropShot_drive k s z)

theorem OtherKept.dropAll (k : Bank) (l : List (Byte × ShotOutcome)) (s : State) :
    OtherKept k s (l.foldl (Machine.dropShot k) s) := by
  induction l generalizing s with
  | nil => exact .refl s
  | cons z l ih => exact (OtherKept.dropShot k s z).trans (ih _)

theorem OtherKept.drainTest (s : State) : OtherKept k s (drainTest s) := by
  rw [drainTest_settled]
  unfold drainSettled
  split <;> exact .of_same rfl rfl

theorem OtherKept.followEnd (k : Bank) (s : State) (tag : Byte) (o : ShotOutcome) :
    OtherKept k s (followEnd s k tag o) := by
  unfold Machine.followEnd
  split
  · exact .of_sched rfl rfl
  · split
    · exact .dropAll k _ s
    · exact .refl s

theorem OtherKept.countEnd (s : State) (c : Cyl) (o : ShotOutcome) : OtherKept k s (countEnd s c o) := by
  unfold Machine.countEnd
  split <;> exact .of_same rfl rfl

theorem OtherKept.endPulse (k : Bank) (s : State) (o : ShotOutcome) (f : Option FaultKind) :
    OtherKept k s (endPulse k s o f) := by
  unfold Machine.endPulse
  split
  · exact .refl s
  · rename_i p hp
    have hend : OtherKept k s
        (((creditRecup s k).setDrive k (s.driveOf k).quenched).setSched k ((s.schedOf k).ended s.timebase)) :=
      .of_bank rfl rfl
    refine hend.trans (.trans (t := writeOutcome _ p.cyl p.tag (p.result s.timebase o f)) (.of_same ?_ ?_)
      (.trans (.countEnd _ p.cyl o) (.trans (.followEnd k _ p.tag o) (.drainTest _))))
    · exact writeOutcome_sched _ _ _ _
    · exact writeOutcome_drive _ _ _ _

theorem OtherKept.openPulse (k : Bank) (s : State) (x : Shot) (dg : Bool) : OtherKept k s (openPulse k s x dg) := by
  unfold Machine.openPulse
  rw [traceStart_eq]
  exact .of_bank rfl rfl

end

theorem otherKept_opRel (k : Bank) : OpRel (fun j => j = k) (fun _ => True) (OtherKept k) where
  refl := .refl
  trans := .trans
  sup _ _ _ _ := .of_same rfl rfl
  service _ := .of_same rfl rfl
  event _ _ := .of_same rfl rfl
  drop s _ z hk := hk ▸ .dropShot _ s z
  pulseEnd s _ o f hk := hk ▸ .endPulse _ s o f
  queue _ _ _ hk _ := by subst hk; exact .of_sched rfl rfl
  tracks _ _ _ hk := by subst hk; exact .of_sched rfl rfl
  close _ _ _ _ hk := by subst hk; exact .of_sched rfl rfl
  boosted s _ x hk _ _ _ := by
    subst hk
    exact (OtherKept.of_same (s := s) rfl rfl).trans (.openPulse _ _ x false)
  degraded s _ x hk _ _ := by subst hk; exact .openPulse _ s x true
  gap _ _ hk _ := by subst hk; exact .of_bank rfl rfl
  regap _ _ hk _ := by subst hk; exact .of_bank rfl rfl
  enqueue _ _ _ _ hk _ _ := by subst hk; exact .of_sched rfl rfl
  turned _ _ _ hk _ := by subst hk; exact .of_sched rfl rfl

theorem otherKept_moveGap (k : Bank) (s : State) : OtherKept k s (moveGap k s) := moveGap_rel (otherKept_opRel k) k rfl s

/-- The clock, the time and the limits are as they were. -/
def FrameKept (s t : State) : Prop := t.clock = s.clock ∧ t.timebase = s.timebase ∧ t.tables.limits = s.tables.limits

theorem frameKept_bank : BankRel FrameKept where
  refl _ := ⟨rfl, rfl, rfl⟩
  trans h h' := ⟨h'.1.trans h.1, h'.2.1.trans h.2.1, h'.2.2.trans h.2.2⟩
  sched _ _ _ := ⟨rfl, rfl, rfl⟩
  drive _ _ _ := ⟨rfl, rfl, rfl⟩
  level _ _ _ := ⟨rfl, rfl, rfl⟩
  sup _ _ _ := ⟨rfl, rfl, rfl⟩
  event _ _ := ⟨rfl, rfl, rfl⟩
  safe s := by
    unfold goSafe State.takePendingSwap
    split <;> exact ⟨rfl, rfl, rfl⟩
  swap s := by
    unfold State.takePendingSwap
    split <;> exact ⟨rfl, rfl, rfl⟩
  trace _ _ := ⟨rfl, rfl, rfl⟩
  service _ := ⟨rfl, rfl, rfl⟩

theorem frameKept_moveGap (k : Bank) (s : State) : FrameKept s (moveGap k s) :=
  moveGap_rel (wholeRel_of_bankRel frameKept_bank (fun _ => True) (fun _ => True)).toOpRel k trivial s

/-! ### The bank under a changed gap -/

section
variable {k : Bank} {s : State}

/-- R96: the gap since the last end of a bank is still running. -/
def GapRuns (s : State) (k : Bank) : Prop :=
  ∃ n, (s.schedOf k).lastEnd = some n ∧ s.timebase < n + 10 * s.tables.limits.bankGapUs

theorem gapOver_iff : gapOver s k = true ↔ ¬GapRuns s k := by
  unfold gapOver GapRuns
  cases (s.schedOf k).lastEnd with
  | none => simp
  | some n => simp

theorem moveGap_active (h : (s.schedOf k).cond = .active) : moveGap k s = s := by
  unfold moveGap
  rw [h]

theorem moveGap_gap (h : (s.schedOf k).cond = .gap) : moveGap k s = if gapOver s k then runArbiter k (gapPast s k) else s := by
  unfold moveGap
  rw [h]
  rfl

theorem moveGap_idle (h : (s.schedOf k).cond = .idle) : moveGap k s = if gapOver s k then s else reenterGap k s := by
  unfold moveGap
  rw [h]

/-- R42, R96: what the statement calls `gapMoved`. -/
theorem gapMoved_moveGap (hq : chainsNamed (s.schedOf k).queue) : gapMoved k s (moveGap k s) := by
  refine ⟨moveGap_active, fun hc => ?_, fun hc => ?_⟩
  · rw [moveGap_gap hc]
    refine ⟨fun hr => if_neg fun ho => gapOver_iff.1 ho hr, fun hn => ?_⟩
    rw [if_pos (gapOver_iff.2 hn)]
    refine runArbiter_arbitrated ?_ ?_ <;> rw [schedOf_gapPast]
    exact hq
  · rw [moveGap_idle hc]
    exact ⟨fun hn => if_pos (gapOver_iff.2 hn), fun hr => if_neg fun ho => gapOver_iff.1 ho hr⟩

/-- A bank in GAP on which no shot waits. -/
theorem schedOf_moveGap_gap (hc : (s.schedOf k).cond = .gap) (hw : ∀ y ∈ (s.schedOf k).queue, y.waiting = false) {n : Nat}
    (hl : (s.schedOf k).lastEnd = some n) : (moveGap k s).schedOf k = { s.schedOf k with
      cond := if n + 10 * s.tables.limits.bankGapUs ≤ s.timebase then .idle else .gap } := by
  have hover : gapOver s k = decide (n + 10 * s.tables.limits.bankGapUs ≤ s.timebase) := by
    unfold gapOver
    rw [hl]
  rw [moveGap_gap hc, hover]
  by_cases h : n + 10 * s.tables.limits.bankGapUs ≤ s.timebase
  · rw [if_pos (decide_eq_true h), if_pos h, runArbiter_of_none, schedOf_gapPast]
    rw [chooseWaiting_eq_none, schedOf_gapPast]
    exact hw
  · rw [if_neg (by simpa using h), if_neg h, ← hc]

theorem bank_moveGap_idle (hc : (s.schedOf k).cond = .idle) :
    (GapRuns s k → (moveGap k s).schedOf k = { s.schedOf k with cond := .gap } ∧
      (moveGap k s).driveOf k = { s.driveOf k with phase := .quench }) ∧
    (¬GapRuns s k → (moveGap k s).schedOf k = s.schedOf k ∧ (moveGap k s).driveOf k = s.driveOf k) := by
  rw [moveGap_idle hc]
  refine ⟨fun hr => ?_, fun hn => by rw [if_pos (gapOver_iff.2 hn)]; exact ⟨rfl, rfl⟩⟩
  rw [if_neg fun ho => gapOver_iff.1 ho hr]
  exact ⟨banks_get_set_same _ _ _, banks_get_set_same _ _ _⟩

end

/-! ### The answer at the link -/

section
variable {code : Byte} {r : Result} {k : Bank} {s t u : State}

theorem drainSettled_respond (code : Byte) (r : Result) (s : State) :
    drainSettled (respond s code r []) = respond (drainSettled s) code r [] := by
  unfold drainSettled
  rw [apply_ite fun u : State => respond u code r []]
  rfl

theorem deferMarked_respond (s : State) (x : Shot) :
    deferMarked (respond s code r []) x = respond (deferMarked s x) code r [] := by
  unfold deferMarked
  rw [show (respond s code r []).supOf x.cyl = s.supOf x.cyl from rfl]
  cases (s.supOf x.cyl).plan <;> rfl

theorem deferredUntil_respond (s : State) (k : Bank) (x : Shot) (d : Nat) :
    deferredUntil (respond s code r []) k x d = respond (deferredUntil s k x d) code r [] := by
  unfold deferredUntil
  rw [deferMarked_respond]
  rfl

theorem shedNow_respond {x : Shot} {o : ShotOutcome} (h : shedNow s k x o t) :
    shedNow (respond s code r []) k x o (respond t code r []) := by
  obtain ⟨cs, hcs, ht, htold⟩ := h
  refine ⟨cs, hcs, ?_, outcomesTold_congr htold rfl rfl rfl rfl⟩
  exact (congrArg (fun u : State => respond u code r []) ht).trans (drainSettled_respond code r _).symm

theorem restJudged_respond {xs : List Shot} (h : RestJudged k xs s t) :
    RestJudged k xs (respond s code r []) (respond t code r []) := by
  induction h with
  | done => exact .done
  | gone hn _ ih => exact .gone hn ih
  | deferred hm hd _ ih =>
    rw [← deferredUntil_respond] at ih
    exact .deferred hm hd ih
  | late hm hd hs _ ih =>
    have hs' := shedNow_respond (code := code) (r := r) hs
    rw [← deferMarked_respond] at hs'
    exact .late hm hd hs' ih

theorem arbitrated_respond (h : Arbitrated k s t) : Arbitrated k (respond s code r []) (respond t code r []) := by
  induction h with
  | idle hn => exact .idle hn
  | refused hc hr hs _ ih => exact .refused hc hr (shedNow_respond hs) ih
  | opens hc ha hr => exact .opens hc ha (restJudged_respond hr)

theorem gapMoved_respond (h : gapMoved k s t) : gapMoved k (respond s code r []) (respond t code r []) := by
  obtain ⟨ha, hg, hi⟩ := h
  refine ⟨fun hc => congrArg (fun u : State => respond u code r []) (ha hc), fun hc => ?_, fun hc => ?_⟩
  · exact ⟨fun hr => congrArg (fun u : State => respond u code r []) ((hg hc).1 hr),
      fun hn => arbitrated_respond ((hg hc).2 hn)⟩
  · exact ⟨fun hn => congrArg (fun u : State => respond u code r []) ((hi hc).1 hn),
      fun hr => congrArg (fun u : State => respond u code r []) ((hi hc).2 hr)⟩

end

/-! ### What is moved whatever the gap -/

/-- R20, R42: the overspeed flag under a new maximum speed. -/
def judgedFlag (k : AngleClock) (old new : Nat) : Bool :=
  if new = old then k.overspeed else if new < k.speed then true else if k.speed < new - 100 then false else k.overspeed

/-- R42, R119: the state under a new limits record before the gaps move. -/
def underLimits (s : State) (l : Limits) : State :=
  let flag := judgedFlag s.clock s.tables.limits.maxSpeed l.maxSpeed
  { s with
    tables := { s.tables with limits := l }, clock := { s.clock with overspeed := flag }
    level := ⟨min l.capacity.a s.level.a, min l.capacity.b s.level.b⟩
    events := if flag && !s.clock.overspeed then (s.raise .overspeed).events else s.events }

theorem applyLimits_eq (s : State) (l : Limits) : applyLimits s l =
    if l.bankGapUs = s.tables.limits.bankGapUs then underLimits s l else moveGap .bankB (moveGap .bankA (underLimits s l)) := by
  have hunder : (if l.maxSpeed = s.tables.limits.maxSpeed then clampLevels (s.setTables { s.tables with limits := l })
      else judgeOverspeed (clampLevels (s.setTables { s.tables with limits := l }))) = underLimits s l := by
    unfold underLimits judgedFlag
    by_cases h : l.maxSpeed = s.tables.limits.maxSpeed
    · simp only [if_pos h, Bool.and_not_self]
      rfl
    · simp only [if_neg h]
      exact Edges.judgeOverspeed_eq (clampLevels (s.setTables { s.tables with limits := l }))
  unfold applyLimits
  dsimp only
  rw [hunder]

/-- The record a frame stores, field by field. -/
theorem clampLimits_raw (ps : List Byte) :
    let v := fieldAt ps
    let low := max 100 (min 1000 (v 15 2))
    let crank := max 50 (min (low - 13) (v 17 2))
    let capA := max 1000 (min 4000 (v 21 2))
    let capB := max 1000 (min 4000 (v 23 2))
    clampLimits (rawLimits ps) = {
        bankGapUs := min 200 (v 0 1), deferMain := min 5000 (v 1 2), deferPilot := min 5000 (v 3 2),
        deferAfter := min 5000 (v 5 2), deferLate := min 5000 (v 7 2), staleHold := min 15 (v 9 1),
        lockout := max 1 (min 7 (v 10 1)), linkSilence := max 10 (min 1000 (v 11 2)), maxSpeed := max 500 (min 4000 (v 13 2)),
        lowThr := low, crankThr := crank, underThr := max 25 (min (crank - 13) (v 19 2)),
        capacity := ⟨capA, capB⟩, rateNormal := max 1 (min 63 (v 25 1)), rateFast := max 1 (min 63 (v 26 1)),
        lowWater := min (min capA capB) (v 27 2),
        converter := ⟨ConverterMode.ofCode (v 29 1), ConverterMode.ofCode (v 30 1)⟩ } := by
  simp only [fieldAt_one, fieldAt_two, clampLimits, rawLimits, clampTo, Nat.zero_max]

/-- The gaps of both banks under a changed record. -/
def gapsMoved (u : State) : State := moveGap .bankB (moveGap .bankA u)

section
variable {u : State} {k : Bank}

/-- What moves a bank is what the bank was before, whichever it is. -/
theorem gapsMoved_bank (u : State) (k : Bank) : ∃ w : State, w.schedOf k = u.schedOf k ∧ w.driveOf k = u.driveOf k ∧
    w.timebase = u.timebase ∧ w.tables.limits = u.tables.limits ∧
    (gapsMoved u).schedOf k = (moveGap k w).schedOf k ∧ (gapsMoved u).driveOf k = (moveGap k w).driveOf k := by
  cases k with
  | bankA =>
    obtain ⟨hs, hd⟩ := otherKept_moveGap .bankB (moveGap .bankA u) .bankA (by decide)
    exact ⟨u, rfl, rfl, rfl, rfl, hs, hd⟩
  | bankB =>
    obtain ⟨hs, hd⟩ := otherKept_moveGap .bankA u .bankB (by decide)
    obtain ⟨-, ht, hl⟩ := frameKept_moveGap .bankA u
    exact ⟨moveGap .bankA u, hs, hd, ht, hl, rfl, rfl⟩

theorem gapsMoved_gap {n : Nat} (hc : (u.schedOf k).cond = .gap) (hl : (u.schedOf k).lastEnd = some n)
    (hw : (u.schedOf k).queue.all (fun x => !x.waiting) = true) : (gapsMoved u).schedOf k = { u.schedOf k with
      cond := if n + 10 * u.tables.limits.bankGapUs ≤ u.timebase then .idle else .gap } := by
  obtain ⟨w, hs, -, ht, hlim, heq, -⟩ := gapsMoved_bank u k
  rw [heq, ← hs, ← ht, ← hlim]
  rw [← hs] at hc hl hw
  exact schedOf_moveGap_gap hc (fun y hy => by simpa using List.all_eq_true.1 hw y hy) hl

theorem gapsMoved_active (hc : (u.schedOf k).cond = .active) :
    (gapsMoved u).schedOf k = u.schedOf k ∧ (gapsMoved u).driveOf k = u.driveOf k := by
  obtain ⟨w, hs, hd, -, -, heq, heqd⟩ := gapsMoved_bank u k
  rw [heq, heqd, moveGap_active (by rw [hs]; exact hc)]
  exact ⟨hs, hd⟩

theorem gapsMoved_idle (hc : (u.schedOf k).cond = .idle) :
    (GapRuns u k → (gapsMoved u).schedOf k = { u.schedOf k with cond := .gap } ∧
      (gapsMoved u).driveOf k = { u.driveOf k with phase := .quench }) ∧
    (¬GapRuns u k → (gapsMoved u).schedOf k = u.schedOf k ∧ (gapsMoved u).driveOf k = u.driveOf k) := by
  obtain ⟨w, hs, hd, ht, hlim, heq, heqd⟩ := gapsMoved_bank u k
  have hruns : GapRuns u k ↔ GapRuns w k := by
    unfold GapRuns
    rw [hs, ht, hlim]
  rw [heq, heqd, hruns, ← hs, ← hd]
  exact bank_moveGap_idle (by rw [hs]; exact hc)

/-- R42, R96: the two banks, one after the other. -/
theorem gapMoved_gapsMoved (hq : ∀ k, chainsNamed (u.schedOf k).queue) :
    gapMoved .bankA u (moveGap .bankA u) ∧ gapMoved .bankB (moveGap .bankA u) (gapsMoved u) := by
  refine ⟨gapMoved_moveGap (hq .bankA), gapMoved_moveGap ?_⟩
  rw [(otherKept_moveGap .bankA u .bankB (by decide)).1]
  exact hq .bankB

end

/-- R41: the answer says whether a field was clamped. -/
theorem clampedResult {ps : List Byte} (h : ps.length = 31) : (if limitsClamped ps then Result.okClamped else .ok) =
    if limitsBytes (clampLimits (rawLimits ps)) = ps then .ok else .okClamped := by
  by_cases hc : limitsBytes (clampLimits (rawLimits ps)) = ps
  · rw [if_pos hc, (limitsClamped_eq_false h).2 hc]
    rfl
  · rw [if_neg hc, if_pos (by simpa using fun hn => hc ((limitsClamped_eq_false h).1 hn))]

theorem exec_loadLimits {f : Frame} {s : State} (h : passes s 0x15 f = true) (hps : (frameParams f).length = 31)
    {l : Limits} (hl : clampLimits (rawLimits (frameParams f)) = l) : exec (.loadLimits f) s = .next (respond
      (if l.bankGapUs = s.tables.limits.bankGapUs then underLimits (received s 0x15 f) l
        else gapsMoved (underLimits (received s 0x15 f) l))
      0x15 (if limitsBytes l = frameParams f then .ok else .okClamped) []) := by
  subst hl
  rw [← clampedResult hps]
  exact congrArg Host.Outcome.next ((takeFrame_exactly (n := 31) (owner := ownLoadLimits) h hps (by decide) rfl).trans
    (congrArg (fun u => respond u 0x15 _ []) (applyLimits_eq (received s 0x15 f) _)))

/-- R42: the answer with the new record in force, before the gaps move. -/
def answeredUnder (s : State) (f : Frame) (r : Result) (l : Limits) : State :=
  respond (underLimits (received s 0x15 f) l) 0x15 r []

theorem gapsMoved_limits (u : State) : (gapsMoved u).tables.limits = u.tables.limits ∧ (gapsMoved u).clock = u.clock := by
  obtain ⟨ha, -, hal⟩ := frameKept_moveGap .bankA u
  obtain ⟨hb, -, hbl⟩ := frameKept_moveGap .bankB (moveGap .bankA u)
  exact ⟨hbl.trans hal, hb.trans ha⟩

/-- Settles O18: the stored record, and the state under it before and after the gaps move. -/
theorem loadLimits : Obligations.LoadLimits := by
  unfold Obligations.LoadLimits
  intro f s h hps v low crank capA capB max' flag
  have hraw := clampLimits_raw (frameParams f)
  dsimp only at hraw
  generalize hl : clampLimits (rawLimits (frameParams f)) = l at hraw
  have hexec := exec_loadLimits h hps hl
  generalize hr : (if limitsBytes l = frameParams f then Result.ok else .okClamped) = r at hexec
  have hmax : l.maxSpeed = max' := congrArg Limits.maxSpeed hraw
  have hcap : l.capacity = ⟨capA, capB⟩ := congrArg Limits.capacity hraw
  have hbase : answeredUnder s f r l = { answered s 0x15 f r [] with
      tables := { s.tables with limits := l }, clock := { s.clock with overspeed := flag }
      level := ⟨min capA s.level.a, min capB s.level.b⟩
      events := if flag && !s.clock.overspeed then (s.raise .overspeed).events else s.events } := by
    unfold answeredUnder underLimits judgedFlag
    rw [hmax, hcap]
    rfl
  have hclock : (answeredUnder s f r l).clock = { s.clock with overspeed := flag } := congrArg State.clock hbase
  by_cases hgap : l.bankGapUs = s.tables.limits.bankGapUs
  · rw [if_pos hgap] at hexec
    refine ⟨answeredUnder s f r l, hexec, hraw, hr.symm, hclock, fun _ => ?_, fun hn => absurd hgap hn,
      fun hn => absurd hgap hn, fun k _ => ⟨rfl, rfl⟩, fun hn => absurd hgap hn⟩
    rw [hclock]
    exact hbase
  · rw [if_neg hgap] at hexec
    obtain ⟨hlim, hkept⟩ := gapsMoved_limits (underLimits (received s 0x15 f) l)
    refine ⟨_, hexec, hlim.trans hraw, ?_, hkept.trans hclock, fun he => ?_, fun _ hq => ?_, fun _ k n hc hn hw => ?_,
      fun k hc => gapsMoved_active (u := underLimits (received s 0x15 f) l) hc, fun _ k hc => ?_⟩
    · exact hr.symm.trans (by rw [show (respond (gapsMoved _) 0x15 r []).tables.limits = l from hlim])
    · exact absurd ((congrArg Limits.bankGapUs hlim).symm.trans he) hgap
    · obtain ⟨ha, hb⟩ := gapMoved_gapsMoved (u := underLimits (received s 0x15 f) l) hq
      refine ⟨_, ?_, gapMoved_respond (code := 0x15) (r := r) hb⟩
      have ha' := gapMoved_respond (code := 0x15) (r := r) ha
      rw [show respond (underLimits (received s 0x15 f) l) 0x15 r [] = _ from hbase] at ha'
      rw [show (respond (gapsMoved (underLimits (received s 0x15 f) l)) 0x15 r []).tables.limits = l from hlim,
        show (respond (gapsMoved (underLimits (received s 0x15 f) l)) 0x15 r []).clock = _ from hkept.trans hclock]
      exact ha'
    · rw [show (respond (gapsMoved (underLimits (received s 0x15 f) l)) 0x15 r []).tables.limits = l from hlim]
      exact gapsMoved_gap (u := underLimits (received s 0x15 f) l) hc hn hw
    · rw [show (respond (gapsMoved (underLimits (received s 0x15 f) l)) 0x15 r []).tables.limits = l from hlim]
      obtain ⟨hruns, hover⟩ := gapsMoved_idle (u := underLimits (received s 0x15 f) l) hc
      split
      · exact hruns ‹_›
      · exact hover ‹_›

end Sys2Proof.Proofs.NewLimits
end

section
/-! SUPPORT. The Planner: the duration, the start and the fit of a shot, and the shots a freeze creates where the queue has
room for them. -/

namespace Sys2Proof.Proofs.Planning

open Sys2Proof Sys2Proof.Machine Sys2Proof.Laws Sys2Proof.Laws.Fine Sys2Proof.Proofs.Freeze Sys2Proof.Proofs.Durations
  Sys2Proof.Proofs.Placing

/-! ### Duration, start and fit -/

section
variable {e : PatternEntry} {minOn mainUs : Nat}

/-- R68, R69: a duration, in the order of the tests. -/
theorem entryDuration_eq (e : PatternEntry) (minOn mainUs : Nat) : entryDuration e minOn mainUs =
    if sourceUs e mainUs = 0 then none
    else if sourceUs e mainUs < minOn ∧ e.cls ≠ .main then none
    else some (min (max minOn (sourceUs e mainUs)) e.maxUs,
      { raisedMin := decide (sourceUs e mainUs < minOn)
        clampedMax := decide (e.maxUs < max minOn (sourceUs e mainUs)) }) := by
  unfold entryDuration
  dsimp only
  have hmax : (if sourceUs e mainUs < minOn then minOn else sourceUs e mainUs) = max minOn (sourceUs e mainUs) := by
    split <;> omega
  rw [hmax]

end

section
variable {r : CylRecord} {pos : Int}

theorem windowPosition_moved (h : 0 < r.span) (hp : pos < -(r.windowOpen : Int)) : windowPosition r pos = some (0, true) := by
  unfold windowPosition
  unfold CylRecord.span at h
  dsimp only
  rw [if_pos hp, if_neg (by omega), decide_eq_true hp]
  congr 2
  omega

theorem windowPosition_inside (ho : -(r.windowOpen : Int) ≤ pos) (hc : pos < r.windowClose) :
    windowPosition r pos = some ((pos + r.windowOpen).toNat, false) := by
  unfold windowPosition
  dsimp only
  rw [if_neg (by omega), if_neg (by omega), decide_eq_false (by omega)]

theorem windowPosition_none (h : (r.windowClose : Int) ≤ max pos (-(r.windowOpen : Int))) : windowPosition r pos = none := by
  unfold windowPosition
  dsimp only
  refine if_pos ?_
  split <;> omega

end

section
variable {r : CylRecord} {t : ToothReport} {minOn w ticks : Nat}

theorem windowFit_fits (h : w + t.extent ticks ≤ r.span) : windowFit r minOn t w ticks = some (ticks, false) := if_pos h

theorem windowFit_cut (h : r.span < w + t.extent ticks) : windowFit r minOn t w ticks =
    if (r.span - w) * t.tpred / t.pitch < 10 * minOn then none else some ((r.span - w) * t.tpred / t.pitch, true) :=
  if_neg (Nat.not_le.2 h)

end

/-! ### The shots placed so far -/

/-- R78, R79: a scheduler that has taken shots in, one after another. -/
def grown (q : Sched) (angle : Nat) (xs : List Shot) : Sched :=
  { q with
    queue := xs.foldl (fun l y => insertShot angle y l) q.queue
    placed := q.placed + BitVec.ofNat 32 xs.length, nextTag := q.nextTag + BitVec.ofNat 8 xs.length }

/-- R66, R78: the state of a plan being made, from the state in which it was opened. -/
def planned (k : Bank) (c : Cyl) (p : Plan) (angle : Nat) (s : State) (xs : List Shot) : State :=
  { s with
    sched := s.sched.set k (grown (s.schedOf k) angle xs)
    sup := s.sup.set c { s.supOf c with plan := some { p with places := p.places ++ xs.map placeOf } } }

section
variable {k : Bank} {c : Cyl} {p : Plan} {angle : Nat} {s : State} {xs : List Shot} {x : Shot}

theorem grown_nil (q : Sched) (angle : Nat) : grown q angle [] = q := by
  unfold grown
  simp

theorem length_grown (q : Sched) (angle : Nat) (xs : List Shot) :
    (grown q angle xs).queue.length = q.queue.length + xs.length := by
  show (xs.foldl (fun l y => insertShot angle y l) q.queue).length = _
  induction xs generalizing q with
  | nil => rfl
  | cons x xs ih =>
    rw [List.foldl_cons, ih { q with queue := insertShot angle x q.queue }, length_insertShot, List.length_cons]
    omega

theorem grown_snoc (q : Sched) (angle : Nat) (xs : List Shot) (x : Shot) : grown q angle (xs ++ [x]) =
    { grown q angle xs with
      placed := (grown q angle xs).placed + 1, nextTag := (grown q angle xs).nextTag + 1
      queue := insertShot angle x (grown q angle xs).queue } := by
  unfold grown
  rw [List.foldl_append, List.length_append, BitVec.ofNat_add, BitVec.ofNat_add, ← BitVec.add_assoc, ← BitVec.add_assoc]
  rfl

theorem planned_nil (h : (s.supOf c).plan = some p) : planned k c p angle s [] = s := by
  unfold planned
  rw [grown_nil, List.map_nil, List.append_nil, ← h, show s.schedOf k = s.sched.get k from rfl, banks_set_get]
  exact congrArg (fun a => { s with sup := a }) (cyls_set_get s.sup c)

theorem planned_schedOf : (planned k c p angle s xs).schedOf k = grown (s.schedOf k) angle xs := banks_get_set_same _ _ _

theorem planned_supOf : (planned k c p angle s xs).supOf c =
    { s.supOf c with plan := some { p with places := p.places ++ xs.map placeOf } } := cyls_get_set_same _ _ _

/-- R79, R113: where the queue has room a shot enters. -/
theorem placeShot_planned (hx : x.cyl = c) (hroom : (s.schedOf k).queue.length + xs.length < 16) :
    placeShot k (planned k c p angle s xs) angle x = (planned k c p angle s (xs ++ [x]), true) := by
  have hlen : ((planned k c p angle s xs).schedOf k).queue.length < 16 := by
    rwa [planned_schedOf, length_grown]
  have hplace : withPlace (planned k c p angle s xs) x = { planned k c p angle s xs with
      sup := s.sup.set c { s.supOf c with plan := some { p with places := p.places ++ (xs ++ [x]).map placeOf } } } := by
    unfold withPlace
    rw [hx, planned_supOf, List.map_append, ← List.append_assoc]
    exact congrArg (fun a => { planned k c p angle s xs with sup := a }) (cyls_set_set _ _ _ _)
  rw [placeShot_enters hlen, hplace]
  refine congrArg (·, true) ((enqueue_eq (b := s.sched) (q := grown (s.schedOf k) angle xs) rfl).trans ?_)
  rw [← grown_snoc]
  rfl

end

/-! ### A plan being made -/

/-- The tag the next created shot takes. -/
def tagAfter (first : Byte) : Option ChainEnd → Byte
  | none => first
  | some m => m.tag + 1

/-- The last shot created, none of them shed. -/
def lastMade (m : ChainEnd) : Made := { tag := m.tag, wpos := m.wpos, ticks := m.ticks, shed := false }

/-- A plan of the input has been made as far as the shots `xs`, from the state `s` in which it was opened. -/
structure Making (i : PlanInput) (p : Plan) (s : State) (xs : List Shot) (m : Option ChainEnd) (r : PlanRun) : Prop where
  state  : r.state = planned i.record.bank i.cyl p i.tooth.base s xs
  last   : r.last = m.map lastMade
  queued : r.queued = !xs.isEmpty
  tag    : (s.schedOf i.record.bank).nextTag + BitVec.ofNat 8 xs.length = tagAfter (s.schedOf i.record.bank).nextTag m

section
variable {i : PlanInput} {p : Plan} {s : State} {xs : List Shot} {last : Option ChainEnd} {r : PlanRun} {m : ChainEnd}
  {entry rep : Nat} {e : PatternEntry} {ticks : Nat} {flags : ShotFlags}

/-- The tag the first shot of a plan takes. -/
def firstTag (i : PlanInput) (s : State) : Byte := (s.schedOf i.record.bank).nextTag

/-- The queue of the plan's bank has room for so many shots. -/
def Room (i : PlanInput) (s : State) (n : Nat) : Prop := (s.schedOf i.record.bank).queue.length + n ≤ 16

theorem Room.mono {n n' : Nat} (h : Room i s n) (hn : n' ≤ n) : Room i s n' := Nat.le_trans (Nat.add_le_add_left hn _) h

/-- R78, R79: a shot is created, enters, and is the last one. -/
theorem making_create (h : Making i p s xs last r) (hroom : Room i s (xs.length + 1)) {anchor : Anchor} {order : Nat}
    (ho : ∀ a, anchor = .angle a → order = a) (hc : ∀ t g, anchor = .chain t g → order = provisionalAngle i.record m.wpos)
    (ht : m.tag = tagAfter (firstTag i s) last) :
    Making i p s (xs ++ [createdShot i m.tag entry rep e anchor order m.ticks flags]) (some m)
      (r.create i entry rep e anchor m.wpos m.ticks flags) := by
  have htag : (r.state.schedOf i.record.bank).nextTag = m.tag := by
    rw [h.state, planned_schedOf, ht]
    exact h.tag
  have horder : r.create i entry rep e anchor m.wpos m.ticks flags =
      let u := placeShot i.record.bank r.state i.tooth.base (createdShot i m.tag entry rep e anchor order m.ticks flags)
      { state := u.1, last := some { tag := m.tag, wpos := m.wpos, ticks := m.ticks, shed := !u.2 }
        queued := r.queued || u.2 } := by
    unfold PlanRun.create
    dsimp only
    rw [htag]
    cases anchor with
    | angle a =>
      obtain rfl := ho a rfl
      rfl
    | chain t g =>
      rw [hc t g rfl]
      rfl
  rw [horder, h.state, placeShot_planned (c := i.cyl) (x := createdShot i m.tag entry rep e anchor order m.ticks flags) rfl hroom]
  refine ⟨rfl, rfl, ?_, ?_⟩
  · show (r.queued || true) = _
    rw [Bool.or_true, List.isEmpty_eq_false_iff.2 (List.append_ne_nil_of_right_ne_nil _ (List.cons_ne_nil _ _))]
    rfl
  · rw [List.length_append, BitVec.ofNat_add, ← BitVec.add_assoc, h.tag]
    exact congrArg (· + 1) ht.symm

/-- R74 to R76: a shot is chained on the last one. -/
theorem making_createChained (h : Making i p s xs (some m) r) (hroom : Room i s (xs.length + 1)) {gapUs : Nat} :
    ∃ r', r.createChained i entry rep e gapUs ticks flags = some r' ∧
      Making i p s (xs ++ [(chainedShot i entry rep e gapUs ticks flags m).1])
        (some (chainedShot i entry rep e gapUs ticks flags m).2) r' := by
  refine ⟨_, ?_, making_create (m := (chainedShot i entry rep e gapUs ticks flags m).2) h hroom
    (anchor := .chain (some m.tag) (10 * max gapUs i.profile.minSep)) (fun _ ha => by cases ha) (fun _ _ _ => rfl) rfl⟩
  unfold PlanRun.createChained
  rw [h.last]
  rfl

/-- R75: the repeats of an entry. -/
theorem making_repeats (n : Nat) (h : Making i p s xs (some m) r)
    (hroom : Room i s (xs.length + (repeatShots i entry e ticks flags n rep m).1.length)) :
    Making i p s (xs ++ (repeatShots i entry e ticks flags n rep m).1) (some (repeatShots i entry e ticks flags n rep m).2)
      (PlanRun.repeats i entry e ticks flags n rep r) := by
  induction n generalizing rep xs m r with
  | zero =>
    rw [show repeatShots i entry e ticks flags 0 rep m = ([], m) from rfl, List.append_nil]
    exact h
  | succ n ih =>
    unfold repeatShots at hroom ⊢
    dsimp only at hroom ⊢
    rw [List.length_cons] at hroom
    obtain ⟨r', hr, hmade⟩ := making_createChained (entry := entry) (rep := rep) (e := e) (ticks := ticks) (flags := flags) h
      (hroom.mono (by omega)) (gapUs := e.repeatGapUs)
    unfold PlanRun.repeats
    rw [hr]
    dsimp only
    rw [List.append_cons]
    refine ih hmade ?_
    rwa [List.length_append, Nat.add_assoc, Nat.add_comm [_].length]

/-- R71 to R74: the first shot of an entry, where there is none. -/
theorem making_first_none (h : Making i p s xs last r) (hl : leadShot i (firstTag i s) entry e ticks flags last = none) :
    r.first i entry e ticks flags = none := by
  unfold leadShot at hl
  unfold PlanRun.first
  cases ha : e.anchor with
  | chain gapUs =>
    rw [ha] at hl
    dsimp only at hl ⊢
    unfold PlanRun.createChained
    rw [h.last, Option.map_eq_none_iff.1 hl]
    rfl
  | angle offset applies =>
    rw [ha] at hl
    dsimp only [startPosition] at hl ⊢
    cases hw : windowPosition i.record (if applies then offset - 4 * i.demand.advance else offset) with
    | none => rfl
    | some w =>
      rw [hw] at hl
      dsimp only at hl ⊢
      cases hf : windowFit i.record i.profile.minOn i.tooth w.1 ticks with
      | none => rfl
      | some f =>
        rw [hf] at hl
        cases hl

/-- R71 to R74: the first shot of an entry, where there is one. -/
theorem making_first_some (h : Making i p s xs last r) {x : Shot × ChainEnd}
    (hl : leadShot i (firstTag i s) entry e ticks flags last = some x) (hroom : Room i s (xs.length + 1)) :
    ∃ r', r.first i entry e ticks flags = some r' ∧ Making i p s (xs ++ [x.1]) (some x.2) r' := by
  unfold leadShot at hl
  unfold PlanRun.first
  cases ha : e.anchor with
  | chain gapUs =>
    rw [ha] at hl
    dsimp only at hl ⊢
    obtain ⟨m, rfl, rfl⟩ := Option.map_eq_some_iff.1 hl
    exact making_createChained h hroom
  | angle offset applies =>
    rw [ha] at hl
    dsimp only [startPosition] at hl ⊢
    cases hw : windowPosition i.record (if applies then offset - 4 * i.demand.advance else offset) with
    | none =>
      rw [hw] at hl
      cases hl
    | some w =>
      rw [hw] at hl
      dsimp only at hl ⊢
      cases hf : windowFit i.record i.profile.minOn i.tooth w.1 ticks with
      | none =>
        rw [hf] at hl
        cases hl
      | some f =>
        rw [hf] at hl
        dsimp only at hl ⊢
        cases hl
        refine ⟨_, rfl, ?_⟩
        refine making_create h hroom (m := ⟨_, w.1, f.1⟩) (anchor := .angle ((i.record.openAngle + w.1) % Config.cycle))
          (fun _ ha => by cases ha; rfl) (fun _ _ ha => by cases ha) ?_
        cases last <;> rfl

theorem omitted_iff (i : PlanInput) (e : PatternEntry) : omitted i.band e.cls = true ↔
    (i.band = .crank ∧ e.cls = .late) ∨ (i.band = .under ∧ e.cls ≠ .main) := by
  cases i.band <;> cases e.cls <;> decide

/-- R66 to R75: one entry. -/
theorem making_entry (h : Making i p s xs last r)
    (hroom : Room i s (xs.length + (entryShots i (firstTag i s) entry e last).1.length)) :
    Making i p s (xs ++ (entryShots i (firstTag i s) entry e last).1) (entryShots i (firstTag i s) entry e last).2
      (PlanRun.entry i entry e r) := by
  unfold entryShots at hroom ⊢
  unfold PlanRun.entry
  by_cases ho : omitted i.band e.cls = true
  · rw [if_pos ho, if_pos ((omitted_iff i e).1 ho), List.append_nil]
    exact h
  · rw [if_neg ho, if_neg (mt (omitted_iff i e).2 ho)]
    rw [if_neg (mt (omitted_iff i e).2 ho)] at hroom
    cases hd : entryDuration e i.profile.minOn i.demand.mainUs with
    | none =>
      dsimp only
      rw [List.append_nil]
      exact h
    | some d =>
      rw [hd] at hroom
      dsimp only at hroom ⊢
      cases hl : leadShot i (firstTag i s) entry e (10 * d.1) d.2 last with
      | none =>
        rw [making_first_none h hl]
        dsimp only
        rw [List.append_nil]
        exact h
      | some x =>
        rw [hl] at hroom
        dsimp only at hroom ⊢
        rw [List.length_cons] at hroom
        obtain ⟨r', hr, hmade⟩ := making_first_some h hl (hroom.mono (by omega))
        rw [hr, List.append_cons]
        dsimp only
        refine making_repeats _ hmade ?_
        rwa [List.length_append, Nat.add_assoc, Nat.add_comm [x.1].length]

/-- R66: all entries. -/
theorem making_entries (es : List PatternEntry) (h : Making i p s xs last r)
    (hroom : Room i s (xs.length + (createdShots i (firstTag i s) entry es last).length)) :
    ∃ m, Making i p s (xs ++ createdShots i (firstTag i s) entry es last) m (PlanRun.entries i entry es r) := by
  induction es generalizing entry xs last r with
  | nil =>
    refine ⟨last, ?_⟩
    rw [show createdShots i (firstTag i s) entry [] last = [] from rfl, List.append_nil]
    exact h
  | cons e es ih =>
    unfold createdShots at hroom ⊢
    dsimp only at hroom ⊢
    rw [List.length_append] at hroom
    have hmade := making_entry (entry := entry) (e := e) h (hroom.mono (by omega))
    rw [← List.append_assoc]
    refine ih hmade ?_
    rwa [List.length_append, Nat.add_assoc]

end

/-! ### A freeze -/

/-- R154: the summary an empty plan has. -/
def emptyCode (s : State) (c : Cyl) (demand : Option ActiveDemand) : CondCode :=
  if (s.supOf c).locked then .locked else if (s.supOf c).cut then .cut else if demand = none then .stale
  else if s.clock.overspeed then .overspeed else .none

/-- R61, R152: the plan a freeze opens. -/
def openedPlan (s : State) (c : Cyl) (demand : Option ActiveDemand) : Plan :=
  { kind := .angle, freezes := (s.supOf c).freezes + 1, demand := demand, overspeed := s.clock.overspeed, serviceCount := 0
    emptySummary := emptyCode s c demand, making := true, places := [] }

/-- R60: the condition code after the demand is resolved. -/
def codeBegun (s : State) (c : Cyl) (starved : Bool) : CondCode := if starved then .stale else (s.supOf c).code

section
variable {s : State} {c : Cyl} {r : ToothReport}

theorem signalStarved_eq (s : State) (c : Cyl) (was now : Bool) : signalStarved s c was now = { s with
    sup := s.sup.set c { s.supOf c with code := codeBegun s c now }
    events := if now = true ∧ was = false then (s.raise .stale).events else s.events } := by
  unfold signalStarved codeBegun
  cases now with
  | false =>
    simp only [Bool.false_eq_true, if_false, false_and]
    exact congrArg (fun a => { s with sup := a }) (cyls_set_get s.sup c).symm
  | true => cases was <;> rfl

theorem emptyPlanCode_eq (s : State) (c : Cyl) (demand : Option ActiveDemand) :
    emptyPlanCode s c demand = emptyCode s c demand := by
  unfold emptyPlanCode emptyCode
  simp only [Option.isNone_iff_eq_none]

theorem openPlan_eq (s : State) (c : Cyl) (demand : Option ActiveDemand) : openPlan s c demand = { s with
    sup := s.sup.set c { s.supOf c with
      freezes := (s.supOf c).freezes + 1, plan := some (openedPlan s c demand) } } := by
  unfold openPlan openedPlan
  rw [emptyPlanCode_eq]
  rfl

/-- R59 to R61: the freeze up to the Planner's work. -/
theorem freezeBegun_eq (s : State) (c : Cyl) {d : CylDemand} (hd : (s.demandOf c).resolved s.tables.limits.staleHold = d) :
    freezeBegun s c = { s with
      demand := s.demand.set c d
      events := if d.starved = true ∧ (s.demandOf c).starved = false then (s.raise .stale).events else s.events
      sup := s.sup.set c { s.supOf c with
        freezes := (s.supOf c).freezes + 1, code := codeBegun s c d.starved, plan := some (openedPlan s c d.active) } } := by
  unfold freezeBegun
  dsimp only
  rw [hd, signalStarved_eq, openPlan_eq]
  unfold openedPlan emptyCode State.supOf
  simp only [cyls_get_set_same, cyls_set_set]
  rfl

/-- R153: a plan whose shots all wait stays open; without a shot it is published. -/
theorem finishPlan_waiting {p : Plan} (hp : (s.supOf c).plan = some p) (h : ∃ y ∈ p.places, y.outcome = none) :
    finishPlan s c = { s with sup := s.sup.set c { s.supOf c with plan := some { p with making := false } } } := by
  have hopen : ({ p with making := false } : Plan).complete = false := by
    obtain ⟨y, hy, ho⟩ := h
    refine Bool.eq_false_iff.2 fun hc => ?_
    have hall := List.all_eq_true.1 (Bool.and_eq_true_iff.1 hc).2 y hy
    rw [ho] at hall
    cases hall
  unfold finishPlan
  rw [hp]
  dsimp only
  unfold publishIfComplete setPlan
  rw [setSup_supOf_same]
  dsimp only
  rw [hopen]
  rfl

theorem publish_angle {p : Plan} (h : p.kind = .angle) (s : State) (c : Cyl) : publish s c p =
    s.setSup c { s.supOf c with report := some p.report, plan := none, code := codeAfter p.summary (s.supOf c).code } := by
  unfold publish
  rw [h]

theorem finishPlan_empty {p : Plan} (hp : (s.supOf c).plan = some p) (hk : p.kind = .angle) (h : p.places = []) :
    finishPlan s c = { s with sup := s.sup.set c { s.supOf c with
      plan := none, code := codeAfter p.emptySummary (s.supOf c).code
      report := some { kind := .angle, freezes := p.freezes, demand := p.demand, overspeed := p.overspeed,
                       summary := p.emptySummary, serviceCount := p.serviceCount, entries := [] } } } := by
  have hfull : ({ p with making := false } : Plan).complete = true := by
    unfold Plan.complete
    rw [h]
    rfl
  have hreport : ({ p with making := false } : Plan).report =
      { kind := .angle, freezes := p.freezes, demand := p.demand, overspeed := p.overspeed, summary := p.emptySummary,
        serviceCount := p.serviceCount, entries := [] } := by
    unfold Plan.report Plan.summary Plan.entries
    dsimp only
    rw [hk, h]
    rfl
  have hsum : ({ p with making := false } : Plan).summary = p.emptySummary := congrArg Report.summary hreport
  unfold finishPlan
  rw [hp]
  dsimp only
  unfold publishIfComplete setPlan
  rw [setSup_supOf_same]
  dsimp only
  rw [hfull, if_pos rfl, publish_angle (p := { p with making := false }) hk, hreport, hsum, setSup_supOf_same]
  exact congrArg (fun a => { s with sup := a }) (cyls_set_set _ _ _ _)

/-- R94: the track a plan opens. -/
def tracksWith (s : State) (c : Cyl) (tracks : List Track) : List Track :=
  tracks.filter (fun y => y.cyl != c) ++
    [{ cyl := c, openAngle := (s.cylOf c).openAngle, closeAngle := (s.cylOf c).closeAngle, state := .tracking }]

theorem openTrack_eq (k : Bank) (s : State) (c : Cyl) : openTrack k s c = { s with
    sched := s.sched.set k { s.schedOf k with tracks := tracksWith s c (s.schedOf k).tracks } } := by
  unfold openTrack discardTrack
  dsimp only
  rw [setSched_schedOf_same]
  exact congrArg (fun a => { s with sched := a }) (banks_set_set _ _ _ _)

theorem openTrack_planned (k : Bank) (c : Cyl) (p : Plan) (angle : Nat) (s : State) (xs : List Shot) :
    openTrack k (planned k c p angle s xs) c = { s with
      sched := s.sched.set k { grown (s.schedOf k) angle xs with tracks := tracksWith s c (s.schedOf k).tracks }
      sup := s.sup.set c { s.supOf c with plan := some { p with places := p.places ++ xs.map placeOf } } } := by
  rw [openTrack_eq, planned_schedOf]
  exact congrArg (fun a => { planned k c p angle s xs with sched := a }) (banks_set_set _ _ _ _)

/-- R65, R66: what the Planner expands is what the statement's list of shots is made from. -/
theorem freezeShots_some (r : ToothReport) (s : State) (c : Cyl) (d : ActiveDemand) :
    createdShots (planInput s c d.demand r) (firstTag (planInput s c d.demand r) s) 0 (entriesToPlan s c (some d)) none =
      freezeShots r s c (some d) := by
  unfold freezeShots entriesToPlan
  dsimp only
  by_cases h : (s.supOf c).cut = true ∨ (s.supOf c).locked = true ∨ s.clock.overspeed = true
  · rw [if_pos h, if_pos (by simpa [or_assoc] using h)]
    rfl
  · rw [if_neg h, if_neg (by simpa [or_assoc] using h)]
    rfl

/-- R64 to R66, R78: the plan of a freeze, made with room for its shots. -/
theorem planShots_made {p : Plan} {demand : Option ActiveDemand} (hp : (s.supOf c).plan = some p)
    (hroom : (s.schedOf (s.bankOf c)).queue.length + (freezeShots r s c demand).length ≤ 16) :
    planShots s c demand r = finishPlan
      (if freezeShots r s c demand = [] then s
        else openTrack (s.bankOf c) (planned (s.bankOf c) c p r.base s (freezeShots r s c demand)) c) c := by
  cases demand with
  | none => rfl
  | some d =>
    have hstart : Making (planInput s c d.demand r) p s [] none { state := s, last := none, queued := false } :=
      ⟨(planned_nil hp).symm, rfl, rfl, BitVec.add_zero _⟩
    obtain ⟨m, hmade⟩ := making_entries (entry := 0) (entriesToPlan s c (some d)) hstart (by
      rw [freezeShots_some, List.length_nil, Nat.zero_add]
      exact hroom)
    rw [freezeShots_some, List.nil_append] at hmade
    unfold planShots
    dsimp only
    rw [hmade.queued, hmade.state]
    by_cases hs : freezeShots r s c (some d) = []
    · rw [if_pos hs, hs]
      exact congrArg (finishPlan · c) (planned_nil hp)
    · rw [if_neg hs, List.isEmpty_eq_false_iff.2 hs]
      rfl

/-- R65, R153 to R155: what the Supervisor holds of the cylinder after a freeze. -/
def supFrozen (s : State) (c : Cyl) (d : CylDemand) (shots : List Shot) : CylSup :=
  if shots = [] then
    { s.supOf c with
      freezes := (s.supOf c).freezes + 1, plan := none
      code := codeAfter (emptyCode s c d.active) (codeBegun s c d.starved)
      report := some { kind := .angle, freezes := (s.supOf c).freezes + 1, demand := d.active,
                       overspeed := s.clock.overspeed, summary := emptyCode s c d.active, serviceCount := 0, entries := [] } }
  else
    { s.supOf c with
      freezes := (s.supOf c).freezes + 1, code := codeBegun s c d.starved
      plan := some { openedPlan s c d.active with making := false, places := shots.map placeOf } }

/-- R56 to R66, R77 to R79, R94: a freeze whose shots find room. -/
theorem freeze_made {d : CylDemand} (hd : (s.demandOf c).resolved s.tables.limits.staleHold = d)
    (hroom : (s.schedOf (s.bankOf c)).queue.length + (freezeShots r s c d.active).length ≤ 16) : freeze r s c = { s with
      demand := s.demand.set c d
      events := if d.starved = true ∧ (s.demandOf c).starved = false then (s.raise .stale).events else s.events
      sched := s.sched.set (s.bankOf c) { grown (s.schedOf (s.bankOf c)) r.base (freezeShots r s c d.active) with
        tracks := if freezeShots r s c d.active = [] then (s.schedOf (s.bankOf c)).tracks
          else tracksWith s c (s.schedOf (s.bankOf c)).tracks }
      sup := s.sup.set c (supFrozen s c d (freezeShots r s c d.active)) } := by
  rw [freeze_eq, hd, freezeBegun_eq s c hd]
  generalize hev : (if d.starved = true ∧ (s.demandOf c).starved = false then (s.raise .stale).events else s.events) = e
  generalize hx : ({ s.supOf c with freezes := (s.supOf c).freezes + 1, code := codeBegun s c d.starved,
                                    plan := some (openedPlan s c d.active) } : CylSup) = x
  generalize hu : ({ s with demand := s.demand.set c d, events := e, sup := s.sup.set c x } : State) = u
  have hsup : u.supOf c = x := by
    rw [← hu]
    exact cyls_get_set_same _ _ _
  have hplan : (u.supOf c).plan = some (openedPlan s c d.active) := by rw [hsup, ← hx]
  have hshots : freezeShots r u c d.active = freezeShots r s c d.active := by
    unfold freezeShots
    rw [hsup, ← hx, ← hu]
    rfl
  have hbank : u.bankOf c = s.bankOf c := by rw [← hu]; rfl
  have hschedOf : u.schedOf (s.bankOf c) = s.schedOf (s.bankOf c) := by rw [← hu]; rfl
  rw [planShots_made hplan (by rwa [hshots, hbank, hschedOf]), hshots, hbank]
  generalize freezeShots r s c d.active = shots
  generalize s.bankOf c = k at hschedOf ⊢
  have hstate : ∀ {a a' : Banks Sched} {b b' : Cyls CylSup}, a = a' → b = b' →
      ({ s with demand := s.demand.set c d, events := e, sched := a, sup := b } : State) =
        { s with demand := s.demand.set c d, events := e, sched := a', sup := b' } := fun ha hb => by rw [ha, hb]
  by_cases hs : shots = []
  · subst hs
    rw [if_pos rfl, if_pos rfl, finishPlan_empty hplan rfl rfl, grown_nil, supFrozen, if_pos rfl, hsup, ← hu, ← hx]
    exact hstate (banks_set_get s.sched k).symm (cyls_set_set s.sup c _ _)
  · rw [if_neg hs, if_neg hs, openTrack_planned, supFrozen, if_neg hs, hschedOf, hsup]
    generalize hw : ({ u with
      sched := u.sched.set k { grown (s.schedOf k) r.base shots with tracks := tracksWith u c (s.schedOf k).tracks }
      sup := u.sup.set c { x with plan := some { openedPlan s c d.active with
        places := (openedPlan s c d.active).places ++ shots.map placeOf } } } : State) = w
    have hwsup : w.supOf c = { x with plan := some { openedPlan s c d.active with places := shots.map placeOf } } := by
      rw [← hw]
      exact cyls_get_set_same _ _ _
    rw [finishPlan_waiting (congrArg CylSup.plan hwsup) ?_, hwsup, ← hw, ← hu, ← hx]
    · exact hstate rfl ((cyls_set_set _ _ _ _).trans (cyls_set_set _ _ _ _))
    · obtain ⟨y, hy⟩ := List.exists_mem_of_ne_nil shots hs
      exact ⟨placeOf y, List.mem_map_of_mem hy, rfl⟩

end

end Sys2Proof.Proofs.Planning
end

section
/-! SUPPORT. The state in which a tooth of FULL_SYNC finds the banks, and the order of its freezes. -/

namespace Sys2Proof.Proofs.ToothBegun

open Sys2Proof Sys2Proof.Machine Sys2Proof.Laws Sys2Proof.Proofs.Freeze Sys2Proof.Proofs.Edges Sys2Proof.Proofs.Teeth

/-! ### The clock's part -/

/-- R11, R12: the state of synchronisation after a tooth. -/
def syncAfter (k : AngleClock) : Sync :=
  if k.toothVerdict = .keep then k.sync else if k.toothVerdict = .up then .fullSync else .crankSync

section
variable {synthetic : Bool} {s : State}

theorem settled_kept (w : WheelRecord) (k : AngleClock) (syn : Bool) (now : Nat) :
    (k.settled w syn now).sync = syncAfter k ∧ (k.settled w syn now).t1 = k.t1 ∧
    (k.settled w syn now).overspeed = k.overspeed ∧ (k.settled w syn now).lastTooth = k.lastTooth := by
  unfold AngleClock.settled syncAfter
  dsimp only
  by_cases hi : k.index = 0
  · rw [if_pos hi]
    cases k.toothVerdict <;> exact ⟨rfl, rfl, rfl, rfl⟩
  · rw [if_neg hi, show k.toothVerdict = .keep from if_neg hi]
    exact ⟨rfl, rfl, rfl, rfl⟩

theorem movedClock_sync (synthetic : Bool) (s : State) : (movedClock synthetic s).sync = s.clock.sync := by
  rw [movedClock_fields, metClock_fields]

theorem toothClock_kept (synthetic : Bool) (s : State) :
    (toothClock synthetic s).sync = syncAfter (movedClock synthetic s) ∧
    (toothClock synthetic s).t1 = toothInterval synthetic s ∧
    (toothClock synthetic s).overspeed = s.clock.overspeed ∧
    (toothClock synthetic s).lastTooth = some (toothTime synthetic s) := by
  obtain ⟨hsync, ht1, hover, hlast⟩ := settled_kept s.tables.wheel (movedClock synthetic s) synthetic s.timebase
  refine ⟨hsync, ht1.trans ?_, hover.trans ?_, hlast.trans ?_⟩ <;> rw [movedClock_fields]
  rw [metClock_fields]

theorem ready_sync (h : toothReady synthetic s) : s.clock.sync = .crankSync ∨ s.clock.sync = .fullSync := by
  cases synthetic with
  | false => exact h.2.1
  | true => exact h.1

/-- R11: a revolution check that brings or keeps FULL_SYNC. -/
theorem syncAfter_full {k : AngleClock} (h : syncAfter k = .fullSync) :
    k.toothVerdict = .keep ∧ k.sync = .fullSync ∨ k.toothVerdict = .up ∧ k.sync ≠ .fullSync := by
  unfold syncAfter at h
  split at h
  · rename_i hv
    exact .inl ⟨hv, h⟩
  · split at h
    · rename_i hv
      refine .inr ⟨hv, fun hf => ?_⟩
      unfold AngleClock.toothVerdict AngleClock.camVerdict at hv
      rw [hf] at hv
      dsimp only at hv
      generalize (if k.rev1 then 0 else 1) = n at hv
      split at hv
      · split at hv <;> cases hv
      · cases hv
    · cases h

/-- R11: what a revolution check that loses nothing tells. -/
def upTold (v : CamVerdict) (s : State) : State := if v = .up then s.raise .syncUp else s

theorem signalVerdict_told {v : CamVerdict} (hv : v ≠ .fault) (s : State) (k : AngleClock) :
    signalVerdict v (s.setClock k) = (upTold v s).setClock k := by
  cases v with
  | keep => rfl
  | up => rfl
  | fault => exact absurd rfl hv

theorem upTold_eq (v : CamVerdict) (s : State) : upTold v s = { s with events := (upTold v s).events } := by
  unfold upTold
  split <;> rfl

theorem setSpeed_of {u : State} {k : AngleClock} {x : Nat} {flag was : Bool} (hx : k.speedNow u.tables.wheel = x)
    (hw : k.overspeed = was) (hf : overspeedAfter was x u.tables.limits.maxSpeed = flag) :
    setSpeed (u.setClock k) = { u with
      clock := { k with speed := x, overspeed := flag }
      events := (if flag && !was then u.raise .overspeed else u).events } := by
  subst hx hw hf
  rw [setSpeed_eq, apply_ite State.events]
  rfl

/-- R9 to R23: the state a tooth hands on where it does not lose FULL_SYNC. -/
theorem toothTaken_state (hv : (movedClock synthetic s).toothVerdict ≠ .fault)
    (hsync : (toothClock synthetic s).sync = .crankSync ∨ (toothClock synthetic s).sync = .fullSync) :
    toothTaken synthetic s = { s with
      clock := { toothClock synthetic s with speed := toothSpeed synthetic s, overspeed := toothFlag synthetic s }
      events := (if toothFlag synthetic s && !s.clock.overspeed then
        (upTold (movedClock synthetic s).toothVerdict s).raise .overspeed
        else upTold (movedClock synthetic s).toothVerdict s).events } := by
  obtain ⟨_, ht1, hover, _⟩ := toothClock_kept synthetic s
  have hspeed : (toothClock synthetic s).speedNow s.tables.wheel = toothSpeed synthetic s := by
    rw [speedNow_synced _ hsync, ht1]
    rfl
  rw [toothTaken_eq, signalVerdict_told hv, upTold_eq]
  exact setSpeed_of hspeed hover rfl

/-- R39: the swap a tooth of FULL_SYNC takes at the marker. -/
theorem swapAtMarker_eq (s : State) (r : ToothReport) {k : AngleClock} (hr : r.marker = (decide (k.index = 0) && !k.rev1)) :
    swapAtMarker r s = { s with tables := markerTables s k } := by
  unfold swapAtMarker markerTables State.takePendingSwap
  rw [hr]
  by_cases h : k.index = 0 ∧ k.rev1 = false ∧ s.tables.swapPending = true
  · obtain ⟨hi, hm, hp⟩ := h
    rw [if_pos (by rw [hi, hm]; rfl), if_pos hp, if_pos ⟨hi, hm, hp⟩]
    rfl
  · rw [if_neg h]
    split
    · rename_i hm
      simp only [Bool.and_eq_true, decide_eq_true_eq, Bool.not_eq_true'] at hm
      exact if_neg fun hp => h ⟨hm.1, hm.2, hp⟩
    · rfl

theorem toothTaken_sync (synthetic : Bool) (s : State) :
    (toothTaken synthetic s).clock.sync = syncAfter (movedClock synthetic s) := by
  rw [toothTaken_eq, PendingSwap.setSpeed_sync, signalVerdict_rel clock_bank]
  exact (toothClock_kept synthetic s).1

theorem toothReport_full {w : WheelRecord} {k : AngleClock} (h : k.sync = .fullSync) (kind : ToothKind) :
    toothReport w k kind false =
      { kind := kind, sync := .fullSync, t0 := k.lastTooth.getD 0, angle := some (toothAngle w k), span := w.spanAt k.index
        tpred := k.tpred, pitch := w.pitch, marker := decide (k.index = 0) && !k.rev1, leftStalled := false } := by
  unfold toothReport reportedAngle reportedSpan AngleClock.atMarker
  rw [h]
  rfl

/-- R11, R20, R39: the tooth of FULL_SYNC, with its clock, its events and the swap at the marker. -/
theorem toothTaken_full {u : State} (hu : toothTaken synthetic s = u) (hf : u.clock.sync = .fullSync) :
    toothReport u.tables.wheel u.clock (toothKind synthetic) false = reportOf synthetic s u.clock ∧
    swapAtMarker (reportOf synthetic s u.clock) u = toothBegun s u.clock := by
  have hfull : syncAfter (movedClock synthetic s) = .fullSync := by rw [← toothTaken_sync, hu, hf]
  obtain ⟨hsync, _, _, hlast⟩ := toothClock_kept synthetic s
  have hverdict := syncAfter_full hfull
  have hstate := toothTaken_state (synthetic := synthetic) (s := s)
    (by rcases hverdict with h | h <;> rw [h.1] <;> decide) (.inr (hsync.trans hfull))
  have hup : upTold (movedClock synthetic s).toothVerdict s = if s.clock.sync = .fullSync then s else s.raise .syncUp := by
    rcases hverdict with ⟨hv, hs⟩ | ⟨hv, hs⟩
    · rw [movedClock_sync] at hs
      rw [hv, if_pos hs]
      rfl
    · rw [movedClock_sync] at hs
      rw [hv, if_neg hs]
      rfl
  rw [hup, hu] at hstate
  have hflag : ({ toothClock synthetic s with
      speed := toothSpeed synthetic s, overspeed := toothFlag synthetic s } : AngleClock).overspeed = toothFlag synthetic s :=
    rfl
  have hlast : ({ toothClock synthetic s with
      speed := toothSpeed synthetic s, overspeed := toothFlag synthetic s } : AngleClock).lastTooth =
        some (toothTime synthetic s) := hlast
  generalize ({ toothClock synthetic s with
    speed := toothSpeed synthetic s, overspeed := toothFlag synthetic s } : AngleClock) = k at hstate hflag hlast
  subst hstate
  refine ⟨?_, ?_⟩
  · rw [toothReport_full hf]
    dsimp only
    rw [hlast]
    rfl
  · rw [swapAtMarker_eq _ _ (k := k) rfl]
    unfold toothBegun
    dsimp only
    rw [hflag]
    rfl

end

/-! ### The order of the freezes -/

/-- R58: one cylinder is frozen before another. -/
def FreezesBefore (s : State) (angle : Nat) (c d : Cyl) : Prop :=
  fwd angle (s.cylOf c).freezeAngle < fwd angle (s.cylOf d).freezeAngle ∨
  (fwd angle (s.cylOf c).freezeAngle = fwd angle (s.cylOf d).freezeAngle ∧ c.val < d.val)

section
variable {s : State} {r : ToothReport}

theorem insertFreeze_ordered {c : Cyl} {l : List Cyl} (hl : l.Pairwise (FreezesBefore s r.base))
    (hc : ∀ d ∈ l, d.val < c.val) : (insertFreeze s r c l).Pairwise (FreezesBefore s r.base) := by
  induction l with
  | nil => exact List.pairwise_singleton _ _
  | cons d l ih =>
    obtain ⟨hd, hl'⟩ := List.pairwise_cons.1 hl
    have hnum := hc d List.mem_cons_self
    unfold insertFreeze
    split
    · rename_i hlt
      refine List.pairwise_cons.2 ⟨fun e he => .inl ?_, hl⟩
      rcases List.mem_cons.1 he with rfl | he
      · exact hlt
      · rcases hd e he with h | h <;> omega
    · rename_i hge
      refine List.pairwise_cons.2 ⟨fun e he => ?_, ih hl' fun e he => hc e (List.mem_cons_of_mem _ he)⟩
      rcases List.mem_cons.1 ((insertFreeze_perm s r c l).mem_iff.1 he) with rfl | he
      · unfold FreezesBefore
        omega
      · exact hd e he

theorem foldl_insertFreeze_ordered {cs l : List Cyl} (hl : l.Pairwise (FreezesBefore s r.base))
    (hcs : cs.Pairwise fun c d => c.val < d.val) (hlt : ∀ c ∈ cs, ∀ d ∈ l, d.val < c.val) :
    (cs.foldl (fun l c => insertFreeze s r c l) l).Pairwise (FreezesBefore s r.base) := by
  induction cs generalizing l with
  | nil => exact hl
  | cons c cs ih =>
    obtain ⟨hc, hcs⟩ := List.pairwise_cons.1 hcs
    refine ih (insertFreeze_ordered hl (hlt c List.mem_cons_self)) hcs fun e he d hd => ?_
    rcases List.mem_cons.1 ((insertFreeze_perm s r c l).mem_iff.1 hd) with rfl | hd
    · exact hc e he
    · exact hlt e (List.mem_cons_of_mem _ he) d hd

theorem freezeOrder_ordered (s : State) (r : ToothReport) : (freezeOrder s r).Pairwise (FreezesBefore s r.base) := by
  have hall : allCyls.Pairwise fun c d => c.val < d.val := by decide
  exact foldl_insertFreeze_ordered .nil (hall.filter _) fun _ _ d hd => absurd hd List.not_mem_nil

end

/-- R56 to R58: the order of the freezes is the statement's, where the cylinder records and the firing state stay. -/
theorem freezeOrder_freezeOrdered {synthetic : Bool} {s u : State} {k : AngleClock}
    (hc : u.cylOf = s.cylOf) (ha : s.firing = .armed) :
    freezeOrdered (intervalOf synthetic s k) s (freezeOrder u (reportOf synthetic s k)) := by
  refine ⟨fun c => ?_, ?_⟩
  · rw [mem_freezeOrder]
    unfold freezesAt freezeTooth Interval.holds
    rw [hc, and_iff_right ha, Bool.and_eq_true_iff, decide_eq_true_iff]
    rfl
  · refine (freezeOrder_ordered u _).imp fun {c d} h => ?_
    unfold FreezesBefore at h
    rw [hc] at h
    exact h

end Sys2Proof.Proofs.ToothBegun
end

section
/-! SUPPORT. What a tooth does around its freezes places no shot. -/

namespace Sys2Proof.Proofs.Settling

open Sys2Proof Sys2Proof.Machine Sys2Proof.Laws Sys2Proof.Laws.Fine Sys2Proof.Proofs.Freeze Sys2Proof.Proofs.Frames
  Sys2Proof.Proofs.Removals Sys2Proof.Proofs.Standstill Sys2Proof.Proofs.Conflict Sys2Proof.Proofs.Arbiter Sys2Proof.Proofs.ToothBegun

/-! ### The cylinders' modes -/

/-- No cylinder's cut flag, locked flag or freeze count has moved. -/
def ModesKept (s t : State) : Prop := ∀ c, SameMode (s.supOf c) (t.supOf c)

theorem ModesKept.of_sup {s t : State} (h : t.sup = s.sup) : ModesKept s t := fun c => by
  unfold State.supOf
  rw [h]
  exact ⟨rfl, rfl, rfl⟩

theorem drainTest_sup (s : State) : (drainTest s).sup = s.sup := by
  rw [drainTest_settled]
  unfold drainSettled
  split <;> rfl

theorem takePendingSwap_sup (s : State) : s.takePendingSwap.sup = s.sup := by
  unfold State.takePendingSwap
  split <;> rfl

theorem modesKept_quiet : QuietRel ModesKept where
  refl _ := .of_sup rfl
  trans h1 h2 c := ⟨(h2 c).1.trans (h1 c).1, (h2 c).2.1.trans (h1 c).2.1, (h2 c).2.2.trans (h1 c).2.2⟩
  clock _ _ := .of_sup rfl
  sched _ _ _ _ := .of_sup rfl
  drive _ _ _ := .of_sup rfl
  level _ _ _ := .of_sup rfl
  sup s c x hx d := by
    rw [supOf_setSup]
    split
    · subst d
      exact hx
    · exact ⟨rfl, rfl, rfl⟩
  event _ _ := .of_sup rfl
  drain s := .of_sup (drainTest_sup s)
  swap s := .of_sup (takePendingSwap_sup s)
  trace _ _ := .of_sup rfl
  service _ := .of_sup rfl

/-! ### The queued shots -/

/-- Each queue holds, in their order, shots it held before. -/
def SubQueues (s t : State) : Prop :=
  ∀ k, ((t.schedOf k).queue.map Shot.asPlaced).Sublist ((s.schedOf k).queue.map Shot.asPlaced)

theorem SubQueues.of_sched {s t : State} (h : t.sched = s.sched) : SubQueues s t := fun k => by
  unfold State.schedOf
  rw [h]

theorem SubQueues.trans {s t u : State} (h1 : SubQueues s t) (h2 : SubQueues t u) : SubQueues s u :=
  fun k => (h2 k).trans (h1 k)

theorem SubQueues.of_bank {s t : State} {j : Bank} {q : Sched} (hs : t.sched = s.sched.set j q)
    (h : (q.queue.map Shot.asPlaced).Sublist ((s.schedOf j).queue.map Shot.asPlaced)) : SubQueues s t := fun k => by
  have ht : t.schedOf k = if k = j then q else s.schedOf k := by
    rw [State.schedOf, hs]
    exact banks_get_set _ _ _ _
  rw [ht]
  split
  · subst j
    exact h
  · exact .refl _

theorem asPlaced_of_keeps {f : Shot → Shot} (hf : Keeps f) (x : Shot) : (f x).asPlaced = x.asPlaced := by
  obtain ⟨h1, h2, h3, h4, h5, h6, h7, h8, h9, h10⟩ := hf x
  unfold Shot.asPlaced
  rw [h1, h2, h3, h4, h5, h6, h7, h8, h9, h10]

theorem map_asPlaced_of_keeps {f : Shot → Shot} (hf : Keeps f) (q : List Shot) :
    (q.map f).map Shot.asPlaced = q.map Shot.asPlaced := by
  rw [List.map_map]
  exact List.map_congr_left fun x _ => asPlaced_of_keeps hf x

theorem dropShot_subQueues (j : Bank) (s : State) (t : Byte × ShotOutcome) : SubQueues s (dropShot j s t) := by
  refine .of_bank (dropShot_sched j s t) ?_
  unfold droppedFrom
  split
  · exact .refl _
  · exact List.eraseP_sublist.map _

theorem followEnd_subQueues (j : Bank) (s : State) (tag : Byte) (o : ShotOutcome) : SubQueues s (followEnd s j tag o) := by
  unfold followEnd
  split
  · refine .of_bank rfl ?_
    dsimp only
    rw [map_asPlaced_of_keeps (Banks.timeSuccessors_keeps tag s.timebase)]
  · split
    · generalize chainDrops _ _ _ _ _ = l
      induction l generalizing s with
      | nil => exact .of_sched rfl
      | cons t l ih => exact (dropShot_subQueues j s t).trans (ih _)
    · exact .of_sched rfl

theorem endPulse_subQueues (j : Bank) (s : State) (o : ShotOutcome) (f : Option FaultKind) :
    SubQueues s (endPulse j s o f) := by
  cases ha : (s.schedOf j).active with
  | none => rw [endPulse_none ha]; exact .of_sched rfl
  | some p =>
    rw [endPulse_some ha]
    refine .trans ?_ (.trans (followEnd_subQueues j _ p.tag o) (.of_sched (drainTest_sched _)))
    exact .of_bank ((pulseGone_sched j (some p) o f s).trans (pulseOff_sched s j p)) (.refl _)

theorem openPulse_subQueues (j : Bank) (s : State) (x : Shot) (dg : Bool) : SubQueues s (openPulse j s x dg) := by
  unfold openPulse
  rw [traceStart_eq]
  exact .of_bank rfl (List.eraseP_sublist.map _)

/-- Where no shot is placed, a queue only loses shots. -/
theorem subQueues_op : OpRel (fun _ => True) (fun _ => False) SubQueues where
  refl _ := .of_sched rfl
  trans := .trans
  sup _ _ _ _ := .of_sched rfl
  service _ := .of_sched rfl
  event _ _ := .of_sched rfl
  drop s j x _ := dropShot_subQueues j s x
  pulseEnd s j o f _ := endPulse_subQueues j s o f
  queue _ _ _ _ hf := .of_bank rfl (by rw [map_asPlaced_of_keeps hf])
  tracks _ _ _ _ := .of_bank rfl (.refl _)
  close _ _ _ _ _ := .of_bank rfl (.refl _)
  boosted s j x _ _ _ _ := .trans (t := chargeBoost s j x.cyl) (.of_sched rfl) (openPulse_subQueues j _ x false)
  degraded s j x _ _ _ := openPulse_subQueues j s x true
  gap _ _ _ _ := .of_bank rfl (.refl _)
  regap _ _ _ _ := .of_bank rfl (.refl _)
  enqueue _ _ _ _ _ hx _ := hx.elim
  turned _ _ _ _ hx := hx.elim

/-! ### The tables while ARMED -/

/-- ARMED stays ARMED, with its tables: only an end of DRAINING takes a swap. -/
def Held (s t : State) : Prop := s.firing = .armed → t.firing = .armed ∧ t.tables = s.tables

theorem Held.of_same {s t : State} (hf : t.firing = s.firing) (ht : t.tables = s.tables) : Held s t :=
  fun h => ⟨hf.trans h, ht⟩

theorem Held.trans {s t u : State} (h1 : Held s t) (h2 : Held t u) : Held s u := fun h => by
  obtain ⟨ha, ht⟩ := h1 h
  obtain ⟨hb, hu⟩ := h2 ha
  exact ⟨hb, hu.trans ht⟩

theorem drainTest_held (s : State) : Held s (drainTest s) := fun h => by
  rw [drainTest_settled, drainSettled_of_ne (by rw [h]; decide)]
  exact ⟨h, rfl⟩

theorem writeOutcome_held (s : State) (c : Cyl) (tag : Byte) (o : PlaceOutcome) : Held s (writeOutcome s c tag o) :=
  .of_same (writeOutcome_firing ..) (writeOutcome_tables ..)

theorem dropShot_held (j : Bank) (s : State) (t : Byte × ShotOutcome) : Held s (dropShot j s t) := by
  unfold dropShot
  split
  · exact .of_same rfl rfl
  · refine .trans (.trans ?_ (writeOutcome_held _ _ _ _)) (drainTest_held _)
    unfold raiseIfShed
    split <;> exact .of_same rfl rfl

theorem followEnd_held (j : Bank) (s : State) (tag : Byte) (o : ShotOutcome) : Held s (followEnd s j tag o) := by
  unfold followEnd
  split
  · exact .of_same rfl rfl
  · split
    · generalize chainDrops _ _ _ _ _ = l
      induction l generalizing s with
      | nil => exact .of_same rfl rfl
      | cons t l ih => exact (dropShot_held j s t).trans (ih _)
    · exact .of_same rfl rfl

theorem pulseGone_held (j : Bank) (p : Option Pulse) (o : ShotOutcome) (f : Option FaultKind) (s : State) :
    Held s (pulseGone j p o f s) := by
  rw [pulseGone_change j p o f s]
  exact .of_same rfl rfl

theorem endPulse_held (j : Bank) (s : State) (o : ShotOutcome) (f : Option FaultKind) : Held s (endPulse j s o f) := by
  cases ha : (s.schedOf j).active with
  | none => rw [endPulse_none ha]; exact .of_same rfl rfl
  | some p =>
    rw [endPulse_some ha]
    exact (pulseGone_held j _ o f s).trans ((followEnd_held j _ p.tag o).trans (drainTest_held _))

theorem openPulse_held (j : Bank) (s : State) (x : Shot) (dg : Bool) : Held s (openPulse j s x dg) := by
  unfold openPulse
  rw [traceStart_eq]
  exact .of_same rfl rfl

theorem held_op : OpRel (fun _ => True) (fun _ => True) Held where
  refl _ := .of_same rfl rfl
  trans := .trans
  sup _ _ _ _ := .of_same rfl rfl
  service _ := .of_same rfl rfl
  event _ _ := .of_same rfl rfl
  drop s j x _ := dropShot_held j s x
  pulseEnd s j o f _ := endPulse_held j s o f
  queue _ _ _ _ _ := .of_same rfl rfl
  tracks _ _ _ _ := .of_same rfl rfl
  close _ _ _ _ _ := .of_same rfl rfl
  boosted s j x _ _ _ _ := .trans (t := chargeBoost s j x.cyl) (.of_same rfl rfl) (openPulse_held j _ x false)
  degraded s j x _ _ _ := openPulse_held j s x true
  gap _ _ _ _ := .of_same rfl rfl
  regap _ _ _ _ := .of_same rfl rfl
  enqueue _ _ _ _ _ _ _ := .of_same rfl rfl
  turned _ _ _ _ _ := .of_same rfl rfl

/-! ### The supply -/

theorem supply_bank : BankRel fun s t => t.supply = s.supply where
  refl _ := rfl
  trans h1 h2 := h2.trans h1
  sched _ _ _ := rfl
  drive _ _ _ := rfl
  level _ _ _ := rfl
  sup _ _ _ := rfl
  event _ _ := rfl
  safe s := by
    unfold goSafe State.takePendingSwap
    split <;> rfl
  swap s := by
    unfold State.takePendingSwap
    split <;> rfl
  trace _ _ := rfl
  service _ := rfl

/-! ### Nothing placed -/

theorem nothingPlaced_of {s t : State} (hd : Unfrozen s t) (hm : ModesKept s t) (hp : Unplaced s t) (hq : SubQueues s t) :
    nothingPlaced s t :=
  ⟨hd.demand, hm, fun k => ⟨(hp k).1, (hp k).2, hq k⟩⟩

theorem settleOld_nothingPlaced (tie : TieOrder) (s : State) : nothingPlaced s (settleOld tie s) :=
  nothingPlaced_of (settleOld_rel unfrozen_quiet.opRelNone (fun _ => trivial) tie s)
    (settleOld_rel modesKept_quiet.opRelNone (fun _ => trivial) tie s)
    (settleOld_rel unplaced_quiet.opRelNone (fun _ => trivial) tie s)
    (settleOld_rel subQueues_op (fun _ => trivial) tie s)

theorem settleNew_nothingPlaced (tie : TieOrder) (r : ToothReport) (s : State) : nothingPlaced s (settleNew tie r s) :=
  nothingPlaced_of (unfrozen_quiet.afterFreezes tie r s) (modesKept_quiet.afterFreezes tie r s)
    (unplaced_quiet.afterFreezes tie r s) (settleNew_rel subQueues_op (fun _ => trivial) tie r s)

end Sys2Proof.Proofs.Settling
end

section
/-! SUPPORT. A tooth that finds the banks quiet, and the Planner at a tooth. -/

namespace Sys2Proof.Proofs.QuietTeeth

open Sys2Proof Sys2Proof.Machine Sys2Proof.Laws Sys2Proof.Laws.Fine Sys2Proof.Proofs.Freeze Sys2Proof.Proofs.Frames
  Sys2Proof.Proofs.Removals Sys2Proof.Proofs.Arbiter Sys2Proof.Proofs.Durations Sys2Proof.Proofs.Planning Sys2Proof.Proofs.ToothBegun
  Sys2Proof.Proofs.Settling

/-! ### The interval of a report -/

/-- The interval a tooth reports. -/
def reported (r : ToothReport) : Interval := ⟨r.base, r.span, r.t0, r.tpred, r.pitch⟩

theorem trackReach_eq (r : ToothReport) : Track.reach r = (reported r).trackMet := rfl

/-- R94: the pulse that has met the tracks of its bank. -/
theorem takeClose_instant (p : Pulse) (tracks : List Track) :
    p.takeClose tracks = { p with windowClose := (closeInstantIn tracks p.cyl).or p.windowClose } := by
  unfold Pulse.takeClose closeInstantIn
  cases tracks.find? fun y => y.cyl == p.cyl with
  | none => rfl
  | some y =>
    dsimp only [Option.map]
    cases y.state <;> rfl

section
variable {k : Bank} {s : State} {r : ToothReport}

theorem isClosing_iff (y : Track) : y.isClosing = true ↔ ∃ n, y.state = .closing n := by
  unfold Track.isClosing
  cases y.state <;> simp

theorem closeNow_iff (y : Track) (now : Nat) : y.closeNow now = true ↔ ∃ n, y.state = .closing n ∧ n ≤ now := by
  unfold Track.closeNow
  cases y.state <;> simp

theorem dueNow_iff (x : Shot) (now : Nat) : x.dueNow now = true ↔ x.waiting = false ∧ ∃ n, x.due = some n ∧ n ≤ now := by
  unfold Shot.dueNow
  cases x.due <;> simp

/-! ### What finds nothing to do -/

theorem closeAtTooth_none (h : ∀ y ∈ (s.schedOf k).tracks, ∀ n, y.state ≠ .closing n) : closeAtTooth k s = s := by
  unfold closeAtTooth
  rw [List.filter_eq_nil_iff.2 fun y hy hc => ?_]
  · rfl
  · obtain ⟨n, hn⟩ := (isClosing_iff y).1 hc
    exact h y hy n hn

theorem dueAtTooth_none (h : (s.schedOf k).queue.filter timedAhead = []) : dueAtTooth k s = s := by
  have htags : timedAngles s k = [] := congrArg (List.map Shot.tag) h
  unfold dueAtTooth takeDue
  rw [htags]
  split
  · rfl
  · rfl

/-- Nothing waits for an IDLE bank, and no shot's instant has come. -/
def NothingDue (k : Bank) (s : State) : Prop :=
  (∀ x ∈ (s.schedOf k).queue, x.waiting = true → (s.schedOf k).cond ≠ .idle) ∧
  ∀ x ∈ (s.schedOf k).queue, x.waiting = false → ∀ n, x.due = some n → s.timebase < n

theorem NothingDue.dueNow (h : NothingDue k s) {x : Shot} (hx : x ∈ (s.schedOf k).queue) :
    x.dueNow s.timebase = false := by
  refine Bool.eq_false_iff.2 fun hd => ?_
  obtain ⟨hw, n, hn, hle⟩ := (dueNow_iff x s.timebase).1 hd
  exact absurd (h.2 x hx hw n hn) (Nat.not_lt.2 hle)

/-- R101: where nothing falls due on an IDLE bank, the arbiter judges what waits there. -/
theorem duePast_arbiter (hd : ∀ x ∈ (s.schedOf k).queue, x.dueNow s.timebase = false) (hc : (s.schedOf k).cond = .idle) :
    duePast k s = runArbiter k s := by
  have htags : (s.schedOf k).queue.filter (fun x => x.isAngle && x.state == .timed && x.dueNow s.timebase) = [] :=
    List.filter_eq_nil_iff.2 fun x hx => by
      rw [hd x hx]
      simp
  have hgroup : (s.schedOf k).queue.filter (fun x => !x.waiting && ([].contains x.tag || x.dueNow s.timebase)) = [] :=
    List.filter_eq_nil_iff.2 fun x hx => by
      rw [hd x hx]
      simp
  have hlate : (s.schedOf k).queue.filter (fun x => (List.map Shot.tag []).contains x.tag && duePassed s k x) = [] :=
    List.filter_eq_nil_iff.2 fun x _ => by simp
  unfold duePast takeDue
  rw [htags, if_pos hc]
  unfold takeTogether
  dsimp only
  rw [List.map_nil, hgroup, hlate]
  rfl

theorem duePast_none (h : NothingDue k s) : duePast k s = s := by
  by_cases hc : (s.schedOf k).cond = .idle
  · rw [duePast_arbiter (fun x hx => h.dueNow hx) hc]
    exact runArbiter_of_none (chooseWaiting_eq_none.2 fun x hx => Bool.eq_false_iff.2 fun hw => h.1 x hx hw hc)
  · unfold duePast takeDue
    rw [List.filter_eq_nil_iff.2 fun x hx => by rw [h.dueNow hx]; simp]
    exact if_neg hc

theorem reachTracks_open (h : ∀ y ∈ (s.schedOf k).tracks.map (reported r).trackMet, ∀ n, y.state = .closing n → s.timebase < n) :
    reachTracks r k s = s.setSched k { s.schedOf k with
      tracks := (s.schedOf k).tracks.map (reported r).trackMet
      active := (s.schedOf k).active.map fun p => { p with
        windowClose := (closeInstantIn ((s.schedOf k).tracks.map (reported r).trackMet) p.cyl).or p.windowClose } } := by
  unfold reachTracks
  dsimp only
  rw [trackReach_eq, List.filter_eq_nil_iff.2 fun y hy hc => ?_]
  · simp only [takeClose_instant]
    rfl
  · obtain ⟨n, hn, hle⟩ := (closeNow_iff y _).1 hc
    exact absurd (h y hy n hn) (Nat.not_lt.2 hle)

end

/-! ### A whole tooth on quiet banks -/

/-- R89, R90: a scheduler whose shots the interval has met. -/
def shotsMet (i : Interval) (s : State) (k : Bank) : Sched :=
  { s.schedOf k with queue := (s.schedOf k).queue.map (i.met s) }

/-- R94: a scheduler whose tracks and whose pulse the interval has met. -/
def tracksMet (i : Interval) (s : State) (k : Bank) : Sched :=
  { s.schedOf k with
    tracks := (s.schedOf k).tracks.map i.trackMet
    active := (s.schedOf k).active.map fun p => { p with
      windowClose := (closeInstantIn ((s.schedOf k).tracks.map i.trackMet) p.cyl).or p.windowClose } }

/-- R89, R90: the state whose shots the interval has met. -/
def metShots (i : Interval) (s : State) : State := { s with sched := ⟨shotsMet i s .bankA, shotsMet i s .bankB⟩ }

/-- R94: the state whose tracks the interval has met. -/
def metTracks (i : Interval) (s : State) : State := { s with sched := ⟨tracksMet i s .bankA, tracksMet i s .bankB⟩ }

section
variable {s : State} {r : ToothReport}

theorem timeShots_both (r : ToothReport) (s : State) : bothBanks (timeShots r) s = metShots (reported r) s := rfl

theorem metTracks_metShots (i : Interval) (s : State) : metTracks i (metShots i s) =
    { s with sched := ⟨i.schedMet s .bankA, i.schedMet s .bankB⟩ } := rfl

theorem schedOf_metShots (i : Interval) (s : State) (k : Bank) : (metShots i s).schedOf k = shotsMet i s k := by
  cases k <;> rfl

theorem schedOf_metTracks (i : Interval) (s : State) (k : Bank) : (metTracks i s).schedOf k = tracksMet i s k := by
  cases k <;> rfl

/-- No track closes at once where it meets the interval. -/
def NoCloseNow (i : Interval) (s : State) : Prop :=
  ∀ k, ∀ y ∈ (s.schedOf k).tracks.map i.trackMet, ∀ n, y.state = .closing n → s.timebase < n

theorem reachTracks_both (h : NoCloseNow (reported r) s) : bothBanks (reachTracks r) s = metTracks (reported r) s := by
  unfold bothBanks
  rw [reachTracks_open (h .bankA)]
  refine (reachTracks_open ?_).trans rfl
  exact h .bankB

/-- No track of either bank is CLOSING. -/
def NoneClosing (s : State) : Prop := ∀ k, ∀ y ∈ (s.schedOf k).tracks, ∀ n, y.state ≠ .closing n

theorem closeAtTooth_both (h : NoneClosing s) : bothBanks closeAtTooth s = s := by
  unfold bothBanks
  rw [closeAtTooth_none (h .bankA), closeAtTooth_none (h .bankB)]

theorem duePast_both (h : ∀ k, NothingDue k s) : bothBanks duePast s = s := by
  unfold bothBanks
  rw [duePast_none (h .bankA), duePast_none (h .bankB)]

/-- The banks find nothing to do from the interval before. -/
theorem settleOld_quiet (tie : TieOrder) (h : ∀ k, quietBank (reported r) s k []) : settleOld tie s = s := by
  have hdue : bothBanks dueAtTooth s = s := by
    unfold bothBanks
    rw [dueAtTooth_none (h .bankA).1, dueAtTooth_none (h .bankB).1]
  have hclosing : NoneClosing s := fun k => (h k).2.2.2.1
  cases tie with
  | dueFirst => exact hdue
  | closeFirst => exact (congrArg (bothBanks dueAtTooth) (closeAtTooth_both hclosing)).trans hdue

theorem met_waiting (i : Interval) (s : State) (x : Shot) : (i.met s x).waiting = x.waiting := by
  unfold Interval.met
  split
  · split <;> rfl
  · rfl

/-- A bank that finds nothing to do has nothing due once the interval has met it, its tracks met or not. -/
theorem nothingDue_met {k : Bank} (h : quietBank (reported r) s k []) {u : State}
    (hq : (u.schedOf k).queue = (shotsMet (reported r) s k).queue) (hc : (u.schedOf k).cond = (s.schedOf k).cond)
    (ht : u.timebase = s.timebase) : NothingDue k u := by
  obtain ⟨_, hidle, hdue, _⟩ := h
  unfold NothingDue
  rw [hq, hc, ht]
  refine ⟨fun x hx hw => ?_, fun x hx hw n hn => hdue x hx hw (List.forall_mem_nil _) n hn⟩
  obtain ⟨y, hy, rfl⟩ := List.mem_map.1 hx
  rw [met_waiting] at hw
  exact hidle y hy hw

theorem settleNew_quiet (tie : TieOrder) (h : ∀ k, quietBank (reported r) s k []) : settleNew tie r s =
    { s with sched := ⟨(reported r).schedMet s .bankA, (reported r).schedMet s .bankB⟩ } := by
  have hdueShots : ∀ k, NothingDue k (metShots (reported r) s) := fun k =>
    nothingDue_met (h k) (by rw [schedOf_metShots]) (by rw [schedOf_metShots]; rfl) rfl
  have hdueTracks : ∀ k, NothingDue k (metTracks (reported r) (metShots (reported r) s)) := fun k =>
    nothingDue_met (h k) (by rw [schedOf_metTracks, tracksMet, schedOf_metShots])
      (by rw [schedOf_metTracks, tracksMet, schedOf_metShots]; rfl) rfl
  have hopen : NoCloseNow (reported r) (metShots (reported r) s) := fun k => by
    rw [schedOf_metShots]
    exact (h k).2.2.2.2
  have hclosing : NoneClosing (metShots (reported r) s) := fun k => by
    rw [schedOf_metShots]
    exact (h k).2.2.2.1
  rw [← metTracks_metShots]
  unfold settleNew
  rw [timeShots_both]
  cases tie with
  | dueFirst =>
    dsimp only
    rw [duePast_both hdueShots, closeAtTooth_both hclosing, reachTracks_both hopen]
  | closeFirst =>
    dsimp only
    rw [reachTracks_both hopen, duePast_both hdueTracks]

end

end Sys2Proof.Proofs.QuietTeeth
end

section
/-! SUPPORT. The Planner at a tooth. -/

namespace Sys2Proof.Proofs.PlannedTeeth

open Sys2Proof Sys2Proof.Machine Sys2Proof.Laws Sys2Proof.Laws.Fine Sys2Proof.Proofs.Freeze Sys2Proof.Proofs.Frames
  Sys2Proof.Proofs.Durations Sys2Proof.Proofs.Planning Sys2Proof.Proofs.ToothBegun Sys2Proof.Proofs.Settling
  Sys2Proof.Proofs.QuietTeeth

/-! ### What a cut-down shot covers -/

section
variable {r : CylRecord} {t : ToothReport} {minOn w ticks : Nat}

/-- R73: the longest duration that still fits the window from a start. -/
theorem extent_fits_iff (ht : 0 < t.tpred) (hp : 0 < t.pitch) (hw : w < r.span) (n : Nat) :
    w + t.extent n ≤ r.span ↔ n ≤ (r.span - w) * t.tpred / t.pitch := by
  rw [← extent_le_iff ht hp]
  omega

theorem windowFit_cut_some (ht : 0 < t.tpred) (hp : 0 < t.pitch) (hw : w < r.span) (h : r.span < w + t.extent ticks)
    {d : Nat × Bool} (hd : windowFit r minOn t w ticks = some d) :
    d.2 = true ∧ d.1 < ticks ∧ 10 * minOn ≤ d.1 ∧ w + t.extent d.1 ≤ r.span ∧ r.span < w + t.extent (d.1 + 1) := by
  rw [windowFit_cut h] at hd
  split at hd
  · cases hd
  · rename_i hmin
    cases hd
    have hfits := extent_fits_iff ht hp hw
    refine ⟨rfl, ?_, Nat.not_lt.1 hmin, (hfits _).2 le_rfl, Nat.not_le.1 fun hle => ?_⟩
    · exact Nat.not_le.1 fun hle => absurd ((hfits _).2 hle) (Nat.not_le.2 h)
    · exact absurd ((hfits _).1 hle) (Nat.not_succ_le_self _)

theorem windowFit_cut_none (ht : 0 < t.tpred) (hp : 0 < t.pitch) (hw : w < r.span) (h : r.span < w + t.extent ticks)
    (hd : windowFit r minOn t w ticks = none) : r.span < w + t.extent (10 * minOn) := by
  rw [windowFit_cut h] at hd
  split at hd
  · rename_i hmin
    exact Nat.not_le.1 fun hle => absurd ((extent_fits_iff ht hp hw _).1 hle) (Nat.not_le.2 hmin)
  · cases hd

end

/-! ### The tooth -/

section
variable {synthetic : Bool} {s : State}

theorem markerTables_cyl (s : State) (k : AngleClock) : (markerTables s k).cyl = s.tables.cyl := by
  unfold markerTables
  split <;> rfl

theorem toothBegun_cylOf (s : State) (k : AngleClock) : (toothBegun s k).cylOf = s.cylOf := by
  unfold State.cylOf
  rw [show (toothBegun s k).tables.cyl = s.tables.cyl from markerTables_cyl s k]

theorem met_congr {i : Interval} {u : State} (hc : u.cylOf = s.cylOf) : i.met u = i.met s := by
  unfold Interval.met
  rw [hc]

/-- What an interval meets on a bank is a matter of its scheduler and the cylinder records. -/
theorem schedMet_congr {i : Interval} {u : State} {k : Bank} (hq : u.schedOf k = s.schedOf k) (hc : u.cylOf = s.cylOf) :
    i.schedMet u k = i.schedMet s k := by
  unfold Interval.schedMet
  rw [hq, met_congr hc]

theorem quietBank_congr {i : Interval} {u : State} {k : Bank} {old : List Shot} (hq : u.schedOf k = s.schedOf k)
    (hc : u.cylOf = s.cylOf) (ht : u.timebase = s.timebase) (h : quietBank i s k old) : quietBank i u k old := by
  unfold quietBank
  rw [schedMet_congr hq hc, hq, ht]
  exact h

/-- R56 to R58, R89, R90: the tooth that ends in FULL_SYNC while ARMED. -/
theorem tooth_freezes (tie : TieOrder) (ha : s.firing = .armed) {t : State}
    (ht : handOn tie (toothKind synthetic) false (toothTaken synthetic s) = t) (hf : t.clock.sync = .fullSync) :
    let r := reportOf synthetic s t.clock
    let u := settleOld tie (toothBegun s t.clock)
    freezeOrdered (intervalOf synthetic s t.clock) s (freezeOrder u r) ∧ u.clock = t.clock ∧ u.firing = .armed ∧
      u.supply = s.supply ∧ u.tables = markerTables s t.clock ∧
      t = settleNew tie r ((freezeOrder u r).foldl (freeze r) u) := by
  have hclock : t.clock = (toothTaken synthetic s).clock := by rw [← ht, handOn_clock]
  rw [hclock] at hf ⊢
  obtain ⟨hreport, hbegun⟩ := toothTaken_full rfl hf
  rw [handOn_fullSync tie _ hf] at ht
  dsimp only at ht ⊢
  rw [hreport, hbegun] at ht
  generalize (toothTaken synthetic s).clock = k at ht ⊢
  obtain ⟨harmed, htables⟩ := settleOld_rel held_op (fun _ => trivial) tie (toothBegun s k) ha
  have hsupply : (settleOld tie (toothBegun s k)).supply = s.supply := Laws.settleOld_rel supply_bank tie (toothBegun s k)
  have hk : (settleOld tie (toothBegun s k)).clock = k := Laws.settleOld_rel clock_bank tie (toothBegun s k)
  generalize settleOld tie (toothBegun s k) = u at *
  refine ⟨freezeOrder_freezeOrdered ?_ ha, hk, harmed, hsupply, htables, ?_⟩
  · rw [← toothBegun_cylOf s k]
    unfold State.cylOf
    rw [htables]
  · rw [← ht, freezes, if_pos harmed]

/-- Settles O28: the plan of a freeze from `freeze_made`, the freezes of a tooth from `tooth_freezes`. -/
theorem plannerFitsTheWindow : Obligations.PlannerFitsTheWindow := by
  unfold Obligations.PlannerFitsTheWindow
  refine ⟨fun e minOn mainUs => ?_, fun r pos => ?_, fun r t minOn w ticks ht hp hw => ?_, fun r s c => ?_,
    fun synthetic tie s hready ha => ?_⟩
  · intro d
    have hd : sourceUs e mainUs = d := rfl
    rw [entryDuration_eq, hd]
    clear_value d
    refine ⟨fun h => if_pos h, fun h0 hlt hc => ?_, fun h0 hlt hc => ?_, fun h0 hge => ?_⟩
    · rw [if_neg (by omega), if_pos ⟨hlt, hc⟩]
    · rw [if_neg (by omega), if_neg fun h => h.2 hc, max_eq_left hlt.le, decide_eq_true hlt]
    · rw [if_neg (by omega), if_neg fun h => absurd h.1 (Nat.not_lt.2 hge), max_eq_right hge,
        decide_eq_false (Nat.not_lt.2 hge)]
  · refine ⟨windowPosition_moved, fun ho hc => ⟨_, windowPosition_inside ho hc, ?_, ?_⟩, fun hc => ?_, fun hs => ?_⟩
    · omega
    · unfold CylRecord.span
      omega
    · exact windowPosition_none (by omega)
    · refine windowPosition_none ?_
      unfold CylRecord.span at hs
      omega
  · exact ⟨windowFit_fits, fun h => ⟨fun _ => windowFit_cut_some ht hp hw h, windowFit_cut_none ht hp hw h⟩⟩
  · intro t k q x demand shots code empty hroom
    exact freeze_made (freeze_frozen r s c).demand.symm hroom
  · refine ⟨_, exec_tooth synthetic tie hready, fun hf => ?_⟩
    generalize ht : handOn tie (toothKind synthetic) false (toothTaken synthetic s) = t at hf ⊢
    obtain ⟨horder, hclock, harmed, hsupply, htables, hnew⟩ := tooth_freezes tie ha ht hf
    dsimp only
    generalize hcs : freezeOrder (settleOld tie (toothBegun s t.clock)) (reportOf synthetic s t.clock) = cs at horder hnew
    refine ⟨cs, _, horder, settleOld_nothingPlaced tie (toothBegun s t.clock), hclock, harmed, hsupply, htables, ?_, ?_⟩
    · have hafter := settleNew_nothingPlaced tie (reportOf synthetic s t.clock)
        (cs.foldl (freeze (reportOf synthetic s t.clock)) (settleOld tie (toothBegun s t.clock)))
      rw [← hnew] at hafter
      exact hafter
    · intro hquiet
      have hold : settleOld tie (toothBegun s t.clock) = toothBegun s t.clock :=
        settleOld_quiet (r := reportOf synthetic s t.clock) tie fun k =>
          quietBank_congr (s := s) rfl (toothBegun_cylOf s t.clock) rfl (hquiet k).1
      exact ⟨hold, hnew.trans (settleNew_quiet tie fun k => (hquiet k).2)⟩

end

end Sys2Proof.Proofs.PlannedTeeth
end

section
/-! SUPPORT. What the operations of a tooth make of the shots of a bank, shot by shot. -/

namespace Sys2Proof.Proofs.Ripening

open Sys2Proof Sys2Proof.Machine Sys2Proof.Laws Sys2Proof.Laws.Fine Sys2Proof.Proofs.Freeze Sys2Proof.Proofs.Frames
  Sys2Proof.Proofs.Removals Sys2Proof.Proofs.Cancelling Sys2Proof.Proofs.Arbiter Sys2Proof.Proofs.Conflict

/-! ### The progress of a shot -/

/-- A queued shot has become another record of itself: none goes back to PLANNED, none comes newly to stand TIMED at an
angle. -/
structure Progress (x y : Shot) : Prop where
  tag     : y.tag = x.tag
  cyl     : y.cyl = x.cyl
  order   : y.order = x.order
  isAngle : y.isAngle = x.isAngle
  reached : y.reached = x.reached
  planned : y.state = .planned → x.state = .planned
  ahead   : timedAhead y = true → timedAhead x = true ∧ y.due = x.due

theorem Progress.refl (x : Shot) : Progress x x := ⟨rfl, rfl, rfl, rfl, rfl, id, fun h => ⟨h, rfl⟩⟩

theorem Progress.trans {x y z : Shot} (h : Progress x y) (h' : Progress y z) : Progress x z where
  tag := h'.tag.trans h.tag
  cyl := h'.cyl.trans h.cyl
  order := h'.order.trans h.order
  isAngle := h'.isAngle.trans h.isAngle
  reached := h'.reached.trans h.reached
  planned hz := h.planned (h'.planned hz)
  ahead hz := by
    obtain ⟨hy, hd⟩ := h'.ahead hz
    obtain ⟨hx, hd'⟩ := h.ahead hy
    exact ⟨hx, hd.trans hd'⟩

theorem timedAhead_iff (x : Shot) : timedAhead x = true ↔ x.isAngle = true ∧ x.state = .timed ∧ x.waiting = false := by
  simp [timedAhead, and_assoc]

theorem Progress.waiting (x : Shot) (now : Nat) :
    Progress x { x with state := .timed, due := some now, waiting := true } :=
  ⟨rfl, rfl, rfl, rfl, rfl, nofun, fun h => absurd ((timedAhead_iff _).1 h).2.2 (by simp)⟩

theorem Progress.deferred (x : Shot) (d : Option Nat) : Progress x { x with state := .deferred, deadline := d } :=
  ⟨rfl, rfl, rfl, rfl, rfl, nofun, fun h => absurd ((timedAhead_iff _).1 h).2.1 (by simp)⟩

theorem Progress.followed {x : Shot} (hx : x.isAngle = false) (d : Option Nat) :
    Progress x { x with state := .timed, due := d } :=
  ⟨rfl, rfl, rfl, rfl, rfl, nofun, fun h => absurd (hx.symm.trans ((timedAhead_iff _).1 h).1) (by simp)⟩

theorem isAngle_of_follows {x : Shot} {tag : Byte} (h : x.follows tag = true) : x.isAngle = false := by
  unfold Shot.follows at h
  unfold Shot.isAngle
  cases ha : x.anchor with
  | angle a => rw [ha] at h; cases h
  | chain t g => rfl

/-! ### A scheduler whose shots have gone on -/

/-- A scheduler holds shots it held before, further on, and a pulse it had or of a shot it held; it has placed none. -/
structure Ripened (q q' : Sched) : Prop where
  shots   : ∀ y ∈ q'.queue, ∃ x ∈ q.queue, Progress x y
  tags    : (q'.queue.map Shot.tag).Sublist (q.queue.map Shot.tag)
  active  : ∀ p ∈ q'.active, (∃ o ∈ q.active, p.cyl = o.cyl ∧ p.flags.service = o.flags.service) ∨
    ∃ x ∈ q.queue, p.cyl = x.cyl
  nextTag : q'.nextTag = q.nextTag

/-- Its tracks are as they were, too. -/
structure Settled (q q' : Sched) : Prop extends Ripened q q' where
  tracks : q'.tracks = q.tracks

section
variable {q q' q'' : Sched}

theorem Ripened.trans (h : Ripened q q') (h' : Ripened q' q'') : Ripened q q'' where
  shots z hz := by
    obtain ⟨y, hy, hyz⟩ := h'.shots z hz
    obtain ⟨x, hx, hxy⟩ := h.shots y hy
    exact ⟨x, hx, hxy.trans hyz⟩
  tags := h'.tags.trans h.tags
  active p hp := by
    rcases h'.active p hp with ⟨o, ho, hc, hf⟩ | ⟨y, hy, hc⟩
    · rcases h.active o ho with ⟨o', ho', hc', hf'⟩ | ⟨x, hx, hc'⟩
      · exact .inl ⟨o', ho', hc.trans hc', hf.trans hf'⟩
      · exact .inr ⟨x, hx, hc.trans hc'⟩
    · obtain ⟨x, hx, hxy⟩ := h.shots y hy
      exact .inr ⟨x, hx, hc.trans hxy.cyl⟩
  nextTag := h'.nextTag.trans h.nextTag

/-- The pulse is as it was, or gone, and shots have been taken away. -/
theorem Ripened.of_sublist (hq : q'.queue.Sublist q.queue) (ha : ∀ p ∈ q'.active, p ∈ q.active)
    (hn : q'.nextTag = q.nextTag) : Ripened q q' where
  shots y hy := ⟨y, hq.subset hy, .refl y⟩
  tags := hq.map _
  active p hp := .inl ⟨p, ha p hp, rfl, rfl⟩
  nextTag := hn

/-- Each shot has gone on. -/
theorem Ripened.of_map {f : Shot → Shot} (hf : ∀ x, Progress x (f x)) (hq : q'.queue = q.queue.map f)
    (ha : q'.active = q.active) (hn : q'.nextTag = q.nextTag) : Ripened q q' where
  shots y hy := by
    rw [hq] at hy
    obtain ⟨x, hx, rfl⟩ := List.mem_map.1 hy
    exact ⟨x, hx, hf x⟩
  tags := by
    rw [hq, List.map_map, show Shot.tag ∘ f = Shot.tag from funext fun x => (hf x).tag]
  active p hp := .inl ⟨p, ha ▸ hp, rfl, rfl⟩
  nextTag := hn

theorem Settled.refl (q : Sched) : Settled q q := ⟨.of_sublist (.refl _) (fun _ h => h) rfl, rfl⟩

theorem Settled.trans (h : Settled q q') (h' : Settled q' q'') : Settled q q'' :=
  ⟨h.toRipened.trans h'.toRipened, h'.tracks.trans h.tracks⟩

end

/-! ### Through the operations of a bank -/

/-- The bank's shots have gone on; its tracks stay. -/
def Settles (k : Bank) (s t : State) : Prop := Settled (s.schedOf k) (t.schedOf k)

section
variable {k : Bank} {s t u : State}

theorem Settles.refl (s : State) : Settles k s s := Settled.refl _

theorem Settles.trans (h : Settles k s t) (h' : Settles k t u) : Settles k s u := Settled.trans h h'

theorem Settles.of_same (h : t.sched = s.sched) : Settles k s t := by
  unfold Settles State.schedOf
  rw [h]
  exact .refl _

theorem Settles.of_bank {q : Sched} (hs : t.sched = s.sched.set k q) (h : Settled (s.schedOf k) q) : Settles k s t := by
  unfold Settles
  rw [schedOf_of_set hs]
  exact h

theorem Settles.foldl {β : Type} {f : State → β → State} (hf : ∀ s b, Settles k s (f s b)) (l : List β) (s : State) :
    Settles k s (l.foldl f s) := by
  induction l generalizing s with
  | nil => exact .refl s
  | cons b l ih => exact (hf s b).trans (ih _)

theorem dropShot_settles (s : State) (z : Byte × ShotOutcome) : Settles k s (dropShot k s z) := by
  refine .of_bank (dropShot_sched k s z) ?_
  unfold droppedFrom Sched.countRemoval
  split
  · exact .refl _
  · split <;> exact ⟨.of_sublist List.eraseP_sublist (fun _ h => h) rfl, rfl⟩

theorem dropWithChain_settles (s : State) (tag : Byte) (o : ShotOutcome) : Settles k s (dropWithChain k s tag o) := by
  unfold dropWithChain
  dsimp only
  split
  · exact .refl s
  · exact .foldl dropShot_settles _ s

theorem updateShot_progress {f : Shot → Shot} (hf : ∀ x, Progress x (f x)) (tag : Byte) (x : Shot) :
    Progress x (if x.tag = tag then f x else x) := by
  split
  · exact hf x
  · exact .refl x

theorem setQueue_settles {f : Shot → Shot} (hf : ∀ x, Progress x (f x)) (s : State) :
    Settles k s (setQueue s k ((s.schedOf k).queue.map f)) := .of_bank rfl ⟨.of_map hf rfl rfl rfl, rfl⟩

theorem markWaiting_settles (s : State) (tag : Byte) : Settles k s (markWaiting k s tag) :=
  setQueue_settles (updateShot_progress (fun x => .waiting x s.timebase) tag) s

theorem followEnd_settles (s : State) (tag : Byte) (o : ShotOutcome) : Settles k s (followEnd s k tag o) := by
  unfold followEnd
  split
  · refine setQueue_settles (fun x => ?_) s
    split
    · rename_i hx
      exact .followed (isAngle_of_follows hx) _
    · exact .refl x
  · split
    · exact .foldl dropShot_settles _ s
    · exact .refl s

theorem endPulse_settles (s : State) (o : ShotOutcome) (f : Option FaultKind) : Settles k s (endPulse k s o f) := by
  cases ha : (s.schedOf k).active with
  | none => rw [endPulse_none ha]; exact .refl s
  | some p =>
    rw [endPulse_some ha]
    refine .trans ?_ (.trans (followEnd_settles _ p.tag o) (.of_same (drainTest_sched _)))
    refine .of_bank ((pulseGone_sched k (some p) o f s).trans (pulseOff_sched s k p)) ?_
    exact ⟨.of_sublist (.refl _) (fun _ h => by cases h) rfl, rfl⟩

theorem openPulse_settles {x : Shot} (hx : x ∈ (s.schedOf k).queue) (dg : Bool) : Settles k s (openPulse k s x dg) := by
  unfold openPulse
  rw [traceStart_eq]
  refine .of_bank rfl ⟨⟨fun y hy => ⟨y, List.mem_of_mem_eraseP hy, .refl y⟩, List.eraseP_sublist.map _, fun p hp => ?_, rfl⟩,
    rfl⟩
  cases hp
  exact .inr ⟨x, hx, rfl⟩

theorem attemptStart_settles {x : Shot} (hx : x ∈ (s.schedOf k).queue) : Settles k s (attemptStart k s x).1 := by
  unfold attemptStart
  split
  · exact dropWithChain_settles s _ _
  · exact .trans (t := chargeBoost s k x.cyl) (.of_same rfl)
      (openPulse_settles (s := chargeBoost s k x.cyl) hx false)
  · exact openPulse_settles hx true

theorem markDeferred_sched (s : State) (c : Cyl) (tag : Byte) : (markDeferred s c tag).sched = s.sched := by
  unfold markDeferred
  split <;> rfl

theorem deferShot_settles (s : State) (tag : Byte) : Settles k s (deferShot k s tag) := by
  unfold deferShot
  split
  · exact .refl s
  · dsimp only
    have hmark : ∀ d : Nat, ∀ c, Settles k s (markDeferred (setQueue s k (updateShot tag
        (fun y => { y with state := .deferred, deadline := some d }) (s.schedOf k).queue)) c tag) := fun d c =>
      (setQueue_settles (updateShot_progress (fun x => .deferred x (some d)) tag) s).trans (.of_same (markDeferred_sched _ _ _))
    split
    · exact (hmark _ _).trans (dropWithChain_settles _ _ _)
    · exact hmark _ _

theorem deferRest_settles (s : State) : Settles k s (deferRest k s) := .foldl deferShot_settles _ s

theorem arbitrate_settles (n : Nat) (s : State) : Settles k s (arbitrate n k s) := by
  induction n generalizing s with
  | zero => exact .refl s
  | succ n ih =>
    unfold arbitrate
    split
    · exact .refl s
    · rename_i x hx
      have hstart := attemptStart_settles (chooseWaiting_mem hx).1
      split
      · rename_i s' heq
        rw [heq] at hstart
        exact hstart.trans (deferRest_settles s')
      · rename_i s' heq
        rw [heq] at hstart
        exact hstart.trans (ih s')

theorem runArbiter_settles (s : State) : Settles k s (runArbiter k s) := by
  unfold runArbiter
  split
  · exact arbitrate_settles _ s
  · exact .refl s

theorem settleGap_settles (s : State) : Settles k s (settleGap k s) := by
  unfold settleGap
  split
  · refine .trans (t := gapPassed k s) (.of_bank rfl ⟨.of_sublist (.refl _) (fun _ h => h) rfl, rfl⟩) (runArbiter_settles _)
  · exact .refl s

theorem takeOneDue_settles (s : State) (tag : Byte) : Settles k s (takeOneDue k s tag) := by
  unfold takeOneDue
  split
  · exact .refl s
  · split
    · exact dropWithChain_settles s _ _
    · refine (markWaiting_settles s tag).trans ?_
      dsimp only
      split
      · exact runArbiter_settles _
      · split
        · exact (endPulse_settles _ _ _).trans (settleGap_settles _)
        · exact deferShot_settles _ tag

theorem takeTogether_settles (s : State) (tags : List Byte) : Settles k s (takeTogether k s tags) := by
  unfold takeTogether
  dsimp only
  exact (Settles.foldl (fun s t => dropWithChain_settles s t _) _ s).trans
    ((Settles.foldl markWaiting_settles _ _).trans (runArbiter_settles _))

theorem takeDue_settles (s : State) (tags : List Byte) : Settles k s (takeDue k s tags) := by
  unfold takeDue
  split
  · exact takeTogether_settles s tags
  · exact .foldl takeOneDue_settles _ s

theorem dueAtTooth_settles (s : State) : Settles k s (dueAtTooth k s) := by
  unfold dueAtTooth
  split
  · exact .foldl markWaiting_settles _ s
  · exact takeDue_settles s _

end

end Sys2Proof.Proofs.Ripening
end

section
/-! SUPPORT. What falls due and what closes at a tooth, on one bank. -/

namespace Sys2Proof.Proofs.ToothWork

open Sys2Proof Sys2Proof.Machine Sys2Proof.Laws Sys2Proof.Laws.Fine Sys2Proof.Proofs.Freeze Sys2Proof.Proofs.Frames
  Sys2Proof.Proofs.Removals Sys2Proof.Proofs.Cancelling Sys2Proof.Proofs.Arbiter Sys2Proof.Proofs.Conflict
  Sys2Proof.Proofs.Sweeps Sys2Proof.Proofs.PulseEnds Sys2Proof.Proofs.Standstill Sys2Proof.Proofs.QuietTeeth Sys2Proof.Proofs.Ripening

/-! ### A named shot gone -/

/-- The tags name the queued shots of the bank. -/
def TagsNodup (q : Sched) : Prop := (q.queue.map Shot.tag).Nodup

theorem TagsNodup.ripened {q q' : Sched} (h : Ripened q q') (hn : TagsNodup q) : TagsNodup q' := hn.sublist h.tags

theorem tag_ne_of_mem_eraseShot {t : Byte} {q : List Shot} (hn : (q.map Shot.tag).Nodup) {x : Shot}
    (hx : x ∈ eraseShot t q) : x.tag ≠ t := by
  induction q with
  | nil => cases hx
  | cons y q ih =>
    obtain ⟨hy, hn⟩ := List.nodup_cons.1 hn
    unfold eraseShot at hx
    rw [List.eraseP_cons] at hx
    by_cases ht : (y.tag == t) = true
    · rw [ht, cond_true] at hx
      intro h
      exact hy (List.mem_map.2 ⟨x, hx, h.trans (beq_iff_eq.1 ht).symm⟩)
    · rw [Bool.eq_false_iff.2 ht, cond_false] at hx
      rcases List.mem_cons.1 hx with rfl | hx
      · exact fun h => ht (beq_iff_eq.2 h)
      · exact ih hn hx

section
variable {k : Bank} {s t : State}

theorem dropShot_gone (hn : TagsNodup (s.schedOf k)) (z : Byte × ShotOutcome) :
    ∀ x ∈ ((dropShot k s z).schedOf k).queue, x.tag ≠ z.1 := by
  rw [schedOf_of_set (dropShot_sched k s z)]
  unfold droppedFrom
  split
  · rename_i hf
    exact fun x hx ht => List.find?_eq_none.1 hf x hx (beq_iff_eq.2 ht)
  · exact fun x hx => tag_ne_of_mem_eraseShot hn hx

theorem dropAll_gone (l : List (Byte × ShotOutcome)) (hn : TagsNodup (s.schedOf k)) :
    ∀ x ∈ ((l.foldl (dropShot k) s).schedOf k).queue, ∀ z ∈ l, x.tag ≠ z.1 := by
  induction l generalizing s with
  | nil => exact fun _ _ z hz => absurd hz List.not_mem_nil
  | cons z l ih =>
    have hstep : Settles k s (dropShot k s z) := dropShot_settles s z
    intro x hx w hw
    rcases List.mem_cons.1 hw with rfl | hw
    · obtain ⟨y, hy, hyx⟩ := (Settles.foldl dropShot_settles l (dropShot k s w)).shots x hx
      rw [hyx.tag]
      exact dropShot_gone hn w y hy
    · exact ih (hn.ripened hstep.toRipened) x hx w hw

theorem dropAll_active (l : List (Byte × ShotOutcome)) (s : State) :
    ((l.foldl (dropShot k) s).schedOf k).active = (s.schedOf k).active := by
  induction l generalizing s with
  | nil => rfl
  | cons z l ih =>
    refine (ih _).trans ?_
    rw [schedOf_of_set (dropShot_sched k s z)]
    unfold droppedFrom Sched.countRemoval
    split
    · rfl
    · split <;> rfl

/-! ### What has fallen due -/

/-- No shot of the tag stands TIMED at an angle any more. -/
def Taken (tag : Byte) (q : Sched) : Prop := ∀ y ∈ q.queue, y.tag = tag → timedAhead y = false

theorem Taken.ripened {tag : Byte} {q q' : Sched} (h : Ripened q q') (ht : Taken tag q) : Taken tag q' := fun y hy hyt => by
  obtain ⟨x, hx, hxy⟩ := h.shots y hy
  refine Bool.eq_false_iff.2 fun ha => ?_
  exact absurd (hxy.ahead ha).1 (Bool.eq_false_iff.1 (ht x hx (hxy.tag ▸ hyt)))

theorem dropWithChain_taken (hn : TagsNodup (s.schedOf k)) (tag : Byte) (o : ShotOutcome) :
    Taken tag ((dropWithChain k s tag o).schedOf k) := by
  unfold dropWithChain
  dsimp only
  split
  · rename_i hf
    exact fun y hy ht => absurd (beq_iff_eq.2 ht) (List.find?_eq_none.1 hf y hy)
  · exact fun y hy ht => absurd ht (dropAll_gone _ hn y hy _ List.mem_cons_self)

theorem markWaiting_taken (s : State) (tag : Byte) : Taken tag ((markWaiting k s tag).schedOf k) := by
  rw [show (markWaiting k s tag).schedOf k = _ from banks_get_set_same _ _ _]
  intro y hy ht
  obtain ⟨x, hx, rfl⟩ := List.mem_map.1 hy
  split
  · exact Bool.eq_false_iff.2 fun h => absurd ((timedAhead_iff _).1 h).2.2 (by simp)
  · rename_i hne
    rw [if_neg hne] at ht
    exact absurd ht hne

theorem takeOneDue_taken (hn : TagsNodup (s.schedOf k)) (tag : Byte) : Taken tag ((takeOneDue k s tag).schedOf k) := by
  unfold takeOneDue
  split
  · rename_i hf
    exact fun y hy ht => absurd (beq_iff_eq.2 ht) (List.find?_eq_none.1 hf y hy)
  · split
    · exact dropWithChain_taken hn tag _
    · refine Taken.ripened (Settled.toRipened (?_ : Settles k (markWaiting k s tag) _)) (markWaiting_taken s tag)
      dsimp only
      split
      · exact runArbiter_settles _
      · split
        · exact (endPulse_settles _ _ _).trans (settleGap_settles _)
        · exact deferShot_settles _ tag

/-- Of operations that each take their tag, a list takes every tag of it. -/
theorem foldl_taken {f : State → Byte → State} (hf : ∀ s tag, Settles k s (f s tag))
    (ht : ∀ s tag, TagsNodup (s.schedOf k) → Taken tag ((f s tag).schedOf k)) (tags : List Byte)
    (hn : TagsNodup (s.schedOf k)) : ∀ tag ∈ tags, Taken tag ((tags.foldl f s).schedOf k) := by
  induction tags generalizing s with
  | nil => exact fun _ h => absurd h List.not_mem_nil
  | cons a tags ih =>
    intro tag hmem
    rcases List.mem_cons.1 hmem with rfl | hmem
    · exact (ht s tag hn).ripened (Settles.foldl hf tags (f s tag)).toRipened
    · exact ih (hn.ripened (hf s a).toRipened) tag hmem

theorem takeDue_taken (hn : TagsNodup (s.schedOf k)) {tags : List Byte}
    (htags : ∀ tag ∈ tags, ∃ x ∈ (s.schedOf k).queue, x.tag = tag ∧ x.waiting = false) :
    ∀ tag ∈ tags, Taken tag ((takeDue k s tags).schedOf k) := by
  unfold takeDue
  split
  · intro tag hmem
    unfold takeTogether
    dsimp only
    generalize hg : ((s.schedOf k).queue.filter fun x => !x.waiting && (tags.contains x.tag || x.dueNow s.timebase)).map
      Shot.tag = group
    have hin : tag ∈ group := by
      obtain ⟨x, hx, hxt, hw⟩ := htags tag hmem
      rw [← hg]
      refine List.mem_map.2 ⟨x, List.mem_filter.2 ⟨hx, ?_⟩, hxt⟩
      simp [hw, hxt, hmem]
    generalize List.foldl (fun s t => dropWithChain k s t .shedWindow) s _ = u
    refine Taken.ripened (runArbiter_settles _).toRipened ?_
    have hmark : Taken tag ((group.foldl (markWaiting k) u).schedOf k) := by
      clear hg htags hn
      induction group generalizing u with
      | nil => exact absurd hin List.not_mem_nil
      | cons a group ih =>
        by_cases hmem' : tag ∈ group
        · exact ih hmem' _
        · have ha : tag = a := (List.mem_cons.1 hin).resolve_right hmem'
          subst ha
          exact (markWaiting_taken u tag).ripened (Settles.foldl markWaiting_settles group _).toRipened
    exact hmark
  · exact foldl_taken takeOneDue_settles (fun s tag hn => takeOneDue_taken hn tag) tags hn

/-- R91: no shot stays TIMED at an angle through the next tooth. -/
theorem dueAtTooth_taken (hn : TagsNodup (s.schedOf k)) : ∀ y ∈ ((dueAtTooth k s).schedOf k).queue, timedAhead y = false := by
  have htaken : ∀ tag ∈ timedAngles s k, Taken tag ((dueAtTooth k s).schedOf k) := by
    unfold dueAtTooth
    split
    · exact foldl_taken markWaiting_settles (fun s tag _ => markWaiting_taken s tag) _ hn
    · refine takeDue_taken hn fun tag hmem => ?_
      obtain ⟨x, hx, hxt⟩ := List.mem_map.1 hmem
      obtain ⟨hxq, hax⟩ := List.mem_filter.1 hx
      exact ⟨x, hxq, hxt, ((timedAhead_iff x).1 hax).2.2⟩
  intro y hy
  refine Bool.eq_false_iff.2 fun ha => ?_
  obtain ⟨x, hx, hxy⟩ := (dueAtTooth_settles s).shots y hy
  have hmem : y.tag ∈ timedAngles s k := List.mem_map.2 ⟨x, List.mem_filter.2 ⟨hx, (hxy.ahead ha).1⟩, hxy.tag.symm⟩
  exact absurd ha (Bool.eq_false_iff.1 (htaken _ hmem y hy rfl))

theorem duePast_settles (s : State) : Settles k s (duePast k s) := takeDue_settles s _

/-- R90, R91: a shot TIMED for an instant that has come falls due. -/
theorem duePast_taken (hn : TagsNodup (s.schedOf k)) : ∀ y ∈ ((duePast k s).schedOf k).queue, timedAhead y = true →
    ∀ n, y.due = some n → s.timebase < n := by
  intro y hy ha n hd
  refine Nat.not_le.1 fun hle => ?_
  obtain ⟨x, hx, hxy⟩ := (duePast_settles s).shots y hy
  obtain ⟨hax, hdx⟩ := hxy.ahead ha
  obtain ⟨hang, htimed, hw⟩ := (timedAhead_iff x).1 hax
  have hnow : x.dueNow s.timebase = true := (dueNow_iff x _).2 ⟨hw, n, hdx.symm.trans hd, hle⟩
  have htaken := takeDue_taken (tags := ((s.schedOf k).queue.filter fun x =>
    x.isAngle && x.state == .timed && x.dueNow s.timebase).map Shot.tag) hn (fun tag hmem => by
      obtain ⟨z, hz, hzt⟩ := List.mem_map.1 hmem
      obtain ⟨hzq, hz⟩ := List.mem_filter.1 hz
      exact ⟨z, hzq, hzt, ((dueNow_iff z _).1 (Bool.and_eq_true_iff.1 hz).2).1⟩) y.tag
    (List.mem_map.2 ⟨x, List.mem_filter.2 ⟨hx, by simp [hang, htimed, hnow]⟩, hxy.tag.symm⟩)
  exact absurd ha (Bool.eq_false_iff.1 (htaken y hy rfl))

/-! ### What closes -/

/-- Nothing of the cylinder is left on the bank but its service chain's pulse. -/
structure Clean (c : Cyl) (q : Sched) : Prop where
  shots  : ∀ x ∈ q.queue, x.cyl ≠ c
  tracks : ∀ y ∈ q.tracks, y.cyl ≠ c
  active : ∀ p ∈ q.active, p.cyl = c → p.flags.service = true

theorem Clean.ripened {c : Cyl} {q q' : Sched} (h : Ripened q q') (ht : ∀ y ∈ q'.tracks, ∃ z ∈ q.tracks, y.cyl = z.cyl)
    (hc : Clean c q) : Clean c q' where
  shots y hy := by
    obtain ⟨x, hx, hxy⟩ := h.shots y hy
    rw [hxy.cyl]
    exact hc.shots x hx
  tracks y hy := by
    obtain ⟨z, hz, hyz⟩ := ht y hy
    rw [hyz]
    exact hc.tracks z hz
  active p hp hpc := by
    rcases h.active p hp with ⟨o, ho, hpo, hf⟩ | ⟨x, hx, hpx⟩
    · rw [hf]
      exact hc.active o ho (hpo ▸ hpc)
    · exact absurd (hpx ▸ hpc) (hc.shots x hx)

theorem Clean.settled {c : Cyl} {q q' : Sched} (h : Settled q q') (hc : Clean c q) : Clean c q' :=
  hc.ripened h.toRipened fun y hy => ⟨y, h.tracks ▸ hy, rfl⟩

/-- R95: a close ends the cylinder's angle pulse. -/
theorem pulseCut_active (s : State) (k : Bank) (c : Cyl) :
    ∀ p ∈ ((if (anglePulseTag s k c).isSome then endPulse k s .firedCutWindow none else s).schedOf k).active, p.cyl = c →
      p.flags.service = true := by
  intro p hp hc
  rw [anglePulseTag_eq] at hp
  cases hcut : cutPulse s k c with
  | some o =>
    rw [hcut, if_pos (c := (Option.map Pulse.tag (some o)).isSome = true) rfl, endPulse_active (by decide)] at hp
    cases hp
  | none =>
    rw [hcut, if_neg (by simp)] at hp
    have hservice := Option.filter_eq_none_iff.1 hcut p hp
    simpa [hc] using hservice

theorem pulseCut_settles (s : State) (k : Bank) (c : Cyl) :
    Settles k s (if (anglePulseTag s k c).isSome then endPulse k s .firedCutWindow none else s) := by
  split
  · exact endPulse_settles _ _ _
  · exact .refl s

/-- R95: a close takes the cylinder's track, and its shots and its pulse with it. -/
theorem closeTrack_closes (s : State) (c : Cyl) :
    Ripened (s.schedOf k) ((closeTrack k s c).schedOf k) ∧
    ((closeTrack k s c).schedOf k).tracks = (s.schedOf k).tracks.filter (fun y => y.cyl != c) ∧
    (TagsNodup (s.schedOf k) → Clean c ((closeTrack k s c).schedOf k)) := by
  unfold closeTrack
  dsimp only
  have hcut := pulseCut_settles s k c
  have hpulse := pulseCut_active s k c
  generalize (if (anglePulseTag s k c).isSome then endPulse k s .firedCutWindow none else s) = u at hcut hpulse ⊢
  generalize hl : sweepOutcomes (u.schedOf k).queue c (anglePulseTag s k c) = l
  have hdrop : Settles k u (l.foldl (dropShot k) u) := .foldl dropShot_settles l u
  have hgone := dropAll_gone (k := k) (s := u) l
  have hactive := dropAll_active (k := k) l u
  have hmine : ∀ x ∈ (u.schedOf k).queue, x.cyl = c → ∃ z ∈ l, z.1 = x.tag := fun x hx hc => by
    subst hl
    exact ⟨_, List.mem_map.2 ⟨x, List.mem_filter.2 ⟨hx, beq_iff_eq.2 hc⟩, rfl⟩, rfl⟩
  generalize l.foldl (dropShot k) u = v at hdrop hgone hactive ⊢
  have htrack := schedOf_discardTrack v k c
  have hgap : Settles k (discardTrack v k c) (settleGap k (discardTrack v k c)) := settleGap_settles _
  have htracks : ((discardTrack v k c).schedOf k).tracks = (s.schedOf k).tracks.filter fun y => y.cyl != c := by
    rw [htrack, hdrop.tracks, hcut.tracks]
  have hripe : Ripened (v.schedOf k) ((discardTrack v k c).schedOf k) := by
    rw [htrack]
    exact .of_sublist (.refl _) (fun _ h => h) rfl
  refine ⟨(hcut.toRipened.trans hdrop.toRipened).trans (hripe.trans hgap.toRipened), hgap.tracks.trans htracks, fun hn => ?_⟩
  refine Clean.settled hgap ⟨fun x hx hc => ?_, fun y hy => ?_, fun p hp hc => ?_⟩
  · rw [htrack] at hx
    obtain ⟨y, hy, hyx⟩ := hdrop.shots x hx
    obtain ⟨z, hz, hzt⟩ := hmine y hy (hyx.cyl.symm.trans hc)
    exact hgone (hn.ripened hcut.toRipened) x hx z hz (hyx.tag.trans hzt.symm)
  · rw [htracks] at hy
    simpa using (List.mem_filter.1 hy).2
  · rw [htrack] at hp
    exact hpulse p (hactive ▸ hp) hc

/-- R94, R95: several closes. -/
theorem closeTracks_close (cs : List Cyl) (s : State) :
    Ripened (s.schedOf k) ((cs.foldl (closeTrack k) s).schedOf k) ∧
    ((cs.foldl (closeTrack k) s).schedOf k).tracks = (s.schedOf k).tracks.filter (fun y => !cs.contains y.cyl) ∧
    (TagsNodup (s.schedOf k) → ∀ c ∈ cs, Clean c ((cs.foldl (closeTrack k) s).schedOf k)) := by
  induction cs generalizing s with
  | nil => exact ⟨.of_sublist (.refl _) (fun _ h => h) rfl, by simp, fun _ _ h => absurd h List.not_mem_nil⟩
  | cons c cs ih =>
    obtain ⟨hripe, htracks, hclean⟩ := closeTrack_closes (k := k) s c
    obtain ⟨hripe', htracks', hclean'⟩ := ih (closeTrack k s c)
    refine ⟨hripe.trans hripe', ?_, fun hn d hd => ?_⟩
    · rw [List.foldl_cons, htracks', htracks, List.filter_filter]
      refine List.filter_congr fun y _ => ?_
      rw [List.contains_cons, Bool.not_or, Bool.and_comm]
      rfl
    · rcases List.mem_cons.1 hd with rfl | hd
      · refine (hclean hn).ripened hripe' fun y hy => ⟨y, ?_, rfl⟩
        rw [List.foldl_cons, htracks'] at hy
        exact (List.mem_filter.1 hy).1
      · exact hclean' (hn.ripened hripe) d hd

/-- R94: the next tooth closes every CLOSING track. -/
theorem closeAtTooth_closes (s : State) :
    Ripened (s.schedOf k) ((closeAtTooth k s).schedOf k) ∧
    (∀ y ∈ ((closeAtTooth k s).schedOf k).tracks, y ∈ (s.schedOf k).tracks ∧ ∀ n, y.state ≠ .closing n) ∧
    (TagsNodup (s.schedOf k) → ∀ y ∈ (s.schedOf k).tracks, ∀ n, y.state = .closing n →
      Clean y.cyl ((closeAtTooth k s).schedOf k)) := by
  obtain ⟨hripe, htracks, hclean⟩ :=
    closeTracks_close (k := k) (((s.schedOf k).tracks.filter Track.isClosing).map Track.cyl) s
  have hin : ∀ y ∈ (s.schedOf k).tracks, ∀ n, y.state = .closing n →
      y.cyl ∈ ((s.schedOf k).tracks.filter Track.isClosing).map Track.cyl := fun y hy n hn =>
    List.mem_map_of_mem (List.mem_filter.2 ⟨hy, (isClosing_iff y).2 ⟨n, hn⟩⟩)
  refine ⟨hripe, fun y hy => ?_, fun hn y hy n hc => hclean hn _ (hin y hy n hc)⟩
  unfold closeAtTooth at hy
  rw [htracks] at hy
  obtain ⟨hys, hy⟩ := List.mem_filter.1 hy
  refine ⟨hys, fun n hc => ?_⟩
  rw [List.contains_iff_mem.2 (hin y hys n hc)] at hy
  cases hy

/-- R94: what the tracks of a bank come to where they meet the new interval. -/
theorem reachTracks_closes (r : ToothReport) (s : State) :
    Ripened (s.schedOf k) ((reachTracks r k s).schedOf k) ∧
    ∀ y ∈ ((reachTracks r k s).schedOf k).tracks, (∃ z ∈ (s.schedOf k).tracks, y = (reported r).trackMet z) ∧
      ∀ n, y.state = .closing n → s.timebase < n := by
  unfold reachTracks
  dsimp only
  rw [trackReach_eq]
  generalize hts : (s.schedOf k).tracks.map (reported r).trackMet = ts
  generalize hu : s.setSched k { s.schedOf k with tracks := ts, active := (s.schedOf k).active.map fun p => p.takeClose ts } = u
  have hq : u.schedOf k =
      { s.schedOf k with tracks := ts, active := (s.schedOf k).active.map fun p => p.takeClose ts } := by
    rw [← hu]
    exact banks_get_set_same _ _ _
  have htime : u.timebase = s.timebase := by rw [← hu]; rfl
  obtain ⟨hripe, htracks, -⟩ := closeTracks_close (k := k) ((ts.filter fun t => t.closeNow u.timebase).map Track.cyl) u
  refine ⟨.trans ?_ hripe, fun y hy => ?_⟩
  · rw [hq]
    refine ⟨fun x hx => ⟨x, hx, .refl x⟩, .refl _, fun p hp => ?_, rfl⟩
    obtain ⟨o, ho, rfl⟩ := Option.map_eq_some_iff.1 hp
    rw [takeClose_instant]
    exact .inl ⟨o, ho, rfl, rfl⟩
  · rw [htracks, hq] at hy
    obtain ⟨hyt, hy⟩ := List.mem_filter.1 hy
    refine ⟨?_, fun n hn => Nat.not_le.1 fun hle => ?_⟩
    · rw [← hts] at hyt
      obtain ⟨z, hz, hzy⟩ := List.mem_map.1 hyt
      exact ⟨z, hz, hzy.symm⟩
    · have hnow : y.cyl ∈ (ts.filter fun t => t.closeNow u.timebase).map Track.cyl :=
        List.mem_map_of_mem (List.mem_filter.2 ⟨hyt, (closeNow_iff y _).2 ⟨n, hn, htime ▸ hle⟩⟩)
      rw [List.contains_iff_mem.2 hnow] at hy
      cases hy

end

end Sys2Proof.Proofs.ToothWork
end

section
/-! SUPPORT. What a freeze makes of the shots, the tags and the tracks of a bank, room or no room. -/

namespace Sys2Proof.Proofs.FrozenBanks

open Sys2Proof Sys2Proof.Machine Sys2Proof.Laws Sys2Proof.Laws.Fine Sys2Proof.Proofs.Freeze Sys2Proof.Proofs.Frames
  Sys2Proof.Proofs.Tables Sys2Proof.Proofs.Removals Sys2Proof.Proofs.Cancelling Sys2Proof.Proofs.Arbiter Sys2Proof.Proofs.Conflict

/-! ### A scheduler into which shots have been placed -/

/-- The tags a bank gives out next. -/
def newTags (a : Byte) (m : Nat) : List Byte := (List.range m).map fun j => a + BitVec.ofNat 8 j

theorem newTags_add (a : Byte) (m n : Nat) :
    newTags a (m + n) = newTags a m ++ newTags (a + BitVec.ofNat 8 m) n := by
  unfold newTags
  rw [List.range_add, List.map_append, List.map_map]
  congr 1
  refine List.map_congr_left fun j _ => ?_
  simp [BitVec.ofNat_add, BitVec.add_assoc]

/-- At most `n` new shots, all PLANNED and of cylinders in `C`, have been placed, some of the old ones are gone, and
cylinders in `C` have new tracks. -/
structure Grown (C : Cyl → Prop) (n : Nat) (q q' : Sched) : Prop where
  shots  : ∀ x ∈ q'.queue, x ∈ q.queue ∨ C x.cyl ∧ x.state = .planned
  tracks : ∀ y ∈ q'.tracks, y ∈ q.tracks ∨ C y.cyl ∧ y.state = .tracking
  kept   : ∀ y ∈ q.tracks, ¬C y.cyl → y ∈ q'.tracks
  active : q'.active = q.active
  tags   : ∃ m, m ≤ n ∧ q'.nextTag = q.nextTag + BitVec.ofNat 8 m ∧
    (q'.queue.map Shot.tag).Subperm (newTags q.nextTag m ++ q.queue.map Shot.tag)

section
variable {C : Cyl → Prop} {m n : Nat} {q q' q'' : Sched}

theorem Grown.mono (h : Grown C m q q') (hmn : m ≤ n) : Grown C n q q' :=
  { h with tags := h.tags.imp fun _ ht => ⟨ht.1.trans hmn, ht.2⟩ }

theorem Grown.of_sublist (hq : q'.queue.Sublist q.queue) (ht : q'.tracks = q.tracks) (ha : q'.active = q.active)
    (hn : q'.nextTag = q.nextTag) : Grown C 0 q q' where
  shots _ hx := .inl (hq.subset hx)
  tracks _ hy := .inl (ht ▸ hy)
  kept _ hy _ := ht ▸ hy
  active := ha
  tags := ⟨0, le_rfl, by rw [hn]; exact (BitVec.add_zero _).symm, (hq.map _).subperm⟩

theorem Grown.refl (q : Sched) : Grown C 0 q q := .of_sublist (.refl _) rfl rfl rfl

theorem Grown.trans (h : Grown C m q q') (h' : Grown C n q' q'') : Grown C (m + n) q q'' where
  shots x hx := by
    rcases h'.shots x hx with hx | hx
    · exact h.shots x hx
    · exact .inr hx
  tracks y hy := by
    rcases h'.tracks y hy with hy | hy
    · exact h.tracks y hy
    · exact .inr hy
  kept y hy hc := h'.kept y (h.kept y hy hc) hc
  active := h'.active.trans h.active
  tags := by
    obtain ⟨a, ha, hna, hta⟩ := h.tags
    obtain ⟨b, hb, hnb, htb⟩ := h'.tags
    refine ⟨a + b, Nat.add_le_add ha hb, by rw [hnb, hna, BitVec.add_assoc, BitVec.ofNat_add], htb.trans ?_⟩
    rw [hna, newTags_add]
    refine ((List.subperm_append_left _).2 hta).trans (List.Perm.subperm ?_)
    rw [← List.append_assoc]
    exact List.perm_append_comm.append_right _

/-- R79: a shot that takes the next tag has entered the queue. -/
theorem Grown.entered {x : Shot} (hc : C x.cyl) (hs : x.state = .planned) (ht : x.tag = q.nextTag) (angle : Nat) :
    Grown C 1 q { q.countPlaced with queue := insertShot angle x q.queue } where
  shots y hy := by
    rcases List.mem_cons.1 ((Counters.insertShot_perm angle x q.queue).mem_iff.1 hy) with rfl | hy
    · exact .inr ⟨hc, hs⟩
    · exact .inl hy
  tracks _ hy := .inl hy
  kept _ hy _ := hy
  active := rfl
  tags := by
    refine ⟨1, le_rfl, rfl, ((Counters.insertShot_perm angle x q.queue).map _).subperm.trans ?_⟩
    rw [List.map_cons, ht]
    have hone : newTags q.nextTag 1 = [q.nextTag] := by simp [newTags]
    rw [hone]
    exact .refl _

/-- R83: a shot that takes the next tag has been shed. -/
theorem Grown.turned (q : Sched) (shed : BitVec 32) : Grown C 1 q { q.countPlaced with shed := shed } where
  shots _ hy := .inl hy
  tracks _ hy := .inl hy
  kept _ hy _ := hy
  active := rfl
  tags := ⟨1, le_rfl, rfl, (List.sublist_append_right _ _).subperm⟩

/-- R94: a cylinder has a new track in the place of its old one. -/
theorem Grown.tracked {c : Cyl} (hc : C c) {y : Track} (hy : y.cyl = c) (hs : y.state = .tracking) :
    Grown C 0 q { q with tracks := q.tracks.filter (fun z => z.cyl != c) ++ [y] } where
  shots _ hx := .inl hx
  tracks z hz := by
    rcases List.mem_append.1 hz with hz | hz
    · exact .inl (List.mem_filter.1 hz).1
    · rw [List.mem_singleton.1 hz, hy]
      exact .inr ⟨hc, hs⟩
  kept z hz hzc := List.mem_append_left _ (List.mem_filter.2 ⟨hz, by
    rw [bne_iff_ne]
    rintro rfl
    exact hzc hc⟩)
  active := rfl
  tags := ⟨0, le_rfl, (BitVec.add_zero _).symm, .refl _⟩

end

/-! ### Through the Planner -/

/-- At most `n` shots of cylinders in `C` have been placed on the bank; the other bank is as it was. -/
structure Plants (C : Cyl → Prop) (n : Nat) (k : Bank) (s t : State) : Prop where
  here      : Grown C n (s.schedOf k) (t.schedOf k)
  elsewhere : ∀ j, j ≠ k → t.schedOf j = s.schedOf j

section
variable {C : Cyl → Prop} {m n : Nat} {k : Bank} {s t u : State}

theorem Plants.mono (h : Plants C m k s t) (hmn : m ≤ n) : Plants C n k s t := ⟨h.here.mono hmn, h.elsewhere⟩

theorem Plants.trans (h : Plants C m k s t) (h' : Plants C n k t u) : Plants C (m + n) k s u :=
  ⟨h.here.trans h'.here, fun j hj => (h'.elsewhere j hj).trans (h.elsewhere j hj)⟩

theorem Plants.of_bank {q : Sched} (hs : t.sched = s.sched.set k q) (h : Grown C n (s.schedOf k) q) : Plants C n k s t := by
  refine ⟨?_, fun j hj => ?_⟩
  · rw [schedOf_of_set hs]
    exact h
  · exact (congrArg (·.get j) hs).trans ((banks_get_set _ _ _ _).trans (if_neg hj))

theorem Plants.of_same (h : t.sched = s.sched) : Plants C 0 k s t :=
  .of_bank (h.trans (banks_set_get s.sched k).symm) (.refl _)

theorem dropShot_plants (s : State) (z : Byte × ShotOutcome) : Plants C 0 k s (dropShot k s z) := by
  refine .of_bank (dropShot_sched k s z) ?_
  unfold droppedFrom Sched.countRemoval
  split
  · exact .refl _
  · split <;> exact .of_sublist List.eraseP_sublist rfl rfl rfl

theorem dropWithChain_plants (s : State) (tag : Byte) (o : ShotOutcome) : Plants C 0 k s (dropWithChain k s tag o) := by
  unfold dropWithChain
  dsimp only
  split
  · exact .of_same rfl
  · rename_i x hx
    clear hx
    generalize ((tag, o) :: chainDrops _ _ tag x.entry o) = l
    induction l generalizing s with
    | nil => exact .of_same rfl
    | cons z l ih => exact (dropShot_plants s z).trans (ih _)

theorem addPlace_sched (s : State) (x : Shot) : (addPlace s x).sched = s.sched := by
  unfold addPlace
  split <;> rfl

theorem schedOf_addPlace (s : State) (x : Shot) (k : Bank) : (addPlace s x).schedOf k = s.schedOf k :=
  congrArg (Banks.get · k) (addPlace_sched s x)

theorem dropWithChain_nextTag (s : State) (tag : Byte) (o : ShotOutcome) :
    ((dropWithChain k s tag o).schedOf k).nextTag = (s.schedOf k).nextTag :=
  (Ripening.dropWithChain_settles s tag o).nextTag

theorem shedAtPlacement_plants (s : State) (x : Shot) : Plants C 1 k s (shedAtPlacement k s x) := by
  refine .of_bank ?_ (.turned _ ((s.schedOf k).shed + 1))
  unfold shedAtPlacement
  rw [writeOutcome_sched]
  rfl

/-- R79 to R83: a shot that takes the next tag is placed, with an eviction or none, or turned away. -/
theorem placeShot_plants {x : Shot} (hc : C x.cyl) (hs : x.state = .planned) (ht : x.tag = (s.schedOf k).nextTag)
    (angle : Nat) : Plants C 1 k s (placeShot k s angle x).1 := by
  have hplace : Plants C 0 k s (addPlace s x) := .of_same (addPlace_sched s x)
  rw [← schedOf_addPlace s x k] at ht
  unfold placeShot
  dsimp only
  generalize addPlace s x = u at hplace ht ⊢
  have henter : ∀ v : State, (v.schedOf k).nextTag = x.tag → Plants C 1 k v (enqueue k v angle x) := fun v hv =>
    .of_bank rfl (.entered hc hs hv.symm angle)
  have hgoal : ∀ {v : State}, Plants C 1 k u v → Plants C 1 k s v := fun h => by
    simpa using hplace.trans h
  split
  · exact hgoal (henter u ht.symm)
  · split
    · exact hgoal (shedAtPlacement_plants u x)
    · rename_i v _
      split
      · refine hgoal ?_
        simpa using (dropWithChain_plants (C := C) u v.tag .shedQueueFull).trans
          (henter _ ((dropWithChain_nextTag u _ _).trans ht.symm))
      · exact hgoal (shedAtPlacement_plants u x)

/-! ### One plan -/

variable {i : PlanInput} {r r' : PlanRun}

theorem create_plants (hc : C i.cyl) (r : PlanRun) (entry rep : Nat) (e : PatternEntry) (anchor : Anchor)
    (wpos ticks : Nat) (flags : ShotFlags) :
    Plants C 1 i.record.bank r.state (r.create i entry rep e anchor wpos ticks flags).state := by
  unfold PlanRun.create
  exact placeShot_plants (x := i.shot _ _ _ _ _ _ _ _) hc rfl rfl _

theorem createChained_plants (hc : C i.cyl) {entry rep gapUs ticks : Nat} {e : PatternEntry} {flags : ShotFlags}
    (h : r.createChained i entry rep e gapUs ticks flags = some r') : Plants C 1 i.record.bank r.state r'.state := by
  unfold PlanRun.createChained at h
  split at h
  · cases h
  · split at h
    · cases h
    · cases h
      exact create_plants hc r _ _ _ _ _ _ _

theorem repeats_plants (hc : C i.cyl) (entry : Nat) (e : PatternEntry) (ticks : Nat) (flags : ShotFlags) (n rep : Nat)
    (r : PlanRun) : Plants C n i.record.bank r.state (PlanRun.repeats i entry e ticks flags n rep r).state := by
  induction n generalizing rep r with
  | zero => exact .of_same rfl
  | succ n ih =>
    unfold PlanRun.repeats
    split
    · exact (Plants.of_same rfl).mono (Nat.zero_le _)
    · rename_i h
      have hstep := (createChained_plants hc h).trans (ih (rep + 1) _)
      rwa [Nat.add_comm] at hstep

theorem first_plants (hc : C i.cyl) {entry ticks : Nat} {e : PatternEntry} {flags : ShotFlags}
    (h : r.first i entry e ticks flags = some r') : Plants C 1 i.record.bank r.state r'.state := by
  unfold PlanRun.first at h
  split at h
  · exact createChained_plants hc h
  · split at h
    · cases h
    · split at h
      · cases h
      · cases h
        exact create_plants hc r _ _ _ _ _ _ _

theorem entry_plants (hc : C i.cyl) (entry : Nat) (e : PatternEntry) (r : PlanRun) :
    Plants C (1 + (e.repeats - 1)) i.record.bank r.state (PlanRun.entry i entry e r).state := by
  have hnone : Plants C (1 + (e.repeats - 1)) i.record.bank r.state r.state := (Plants.of_same rfl).mono (Nat.zero_le _)
  unfold PlanRun.entry
  split
  · exact hnone
  · split
    · exact hnone
    · split
      · exact hnone
      · rename_i h
        exact (first_plants hc h).trans (repeats_plants hc _ _ _ _ _ _ _)

/-- The shots a list of entries can make. -/
def shotsOf (es : List PatternEntry) : Nat := (es.map fun e => 1 + (e.repeats - 1)).sum

theorem entries_plants (hc : C i.cyl) (es : List PatternEntry) (entry : Nat) (r : PlanRun) :
    Plants C (shotsOf es) i.record.bank r.state (PlanRun.entries i entry es r).state := by
  induction es generalizing entry r with
  | nil => exact .of_same rfl
  | cons e es ih => exact (entry_plants hc entry e r).trans (ih _ _)

/-! ### One freeze -/

theorem openTrack_plants {c : Cyl} (hc : C c) (s : State) : Plants C 0 k s (openTrack k s c) := by
  rw [Planning.openTrack_eq]
  exact .of_bank rfl (.tracked hc rfl rfl)

theorem publishIfComplete_sched (s : State) (c : Cyl) : (publishIfComplete s c).sched = s.sched := by
  unfold publishIfComplete
  split
  · rfl
  · rename_i p _
    split
    · unfold publish
      cases p.kind <;> rfl
    · rfl

theorem finishPlan_sched (s : State) (c : Cyl) : (finishPlan s c).sched = s.sched := by
  unfold finishPlan
  split
  · rfl
  · rw [publishIfComplete_sched]
    rfl

theorem planShots_plants {c : Cyl} (hc : C c) (s : State) (demand : Option ActiveDemand) (r : ToothReport) :
    Plants C (shotsOf (entriesToPlan s c demand)) (s.bankOf c) s (planShots s c demand r) := by
  unfold planShots
  split
  · exact (Plants.of_same (finishPlan_sched s c)).mono (Nat.zero_le _)
  · rename_i d
    dsimp only
    have hes := entries_plants (C := C) (i := planInput s c d.demand r) hc (entriesToPlan s c (some d)) 0
      { state := s, last := none, queued := false }
    generalize PlanRun.entries (planInput s c d.demand r) 0 (entriesToPlan s c (some d))
      { state := s, last := none, queued := false } = run at hes ⊢
    have hes : Plants C (shotsOf (entriesToPlan s c (some d))) (s.bankOf c) s run.state := hes
    refine hes.trans (n := 0) (?_ : Plants C 0 (s.bankOf c) run.state _)
    split
    · simpa using (openTrack_plants hc run.state).trans (.of_same (finishPlan_sched _ c))
    · exact .of_same (finishPlan_sched _ c)

theorem freezeBegun_sched (s : State) (c : Cyl) : (freezeBegun s c).sched = s.sched := by
  rw [Planning.freezeBegun_eq s c rfl]

/-- The entries a freeze of a cylinder plans. -/
def entriesFrozen (s : State) (c : Cyl) : List PatternEntry :=
  entriesToPlan (freezeBegun s c) c ((s.demandOf c).resolved s.tables.limits.staleHold).active

theorem freeze_plants {c : Cyl} (hc : C c) (r : ToothReport) (s : State) :
    Plants C (shotsOf (entriesFrozen s c)) (s.bankOf c) s (freeze r s c) := by
  have hbank : (freezeBegun s c).bankOf c = s.bankOf c := by
    rw [Planning.freezeBegun_eq s c rfl]
    rfl
  have hplan := planShots_plants hc (freezeBegun s c) ((s.demandOf c).resolved s.tables.limits.staleHold).active r
  rw [hbank] at hplan
  have hboth := (Plants.of_same (C := C) (k := s.bankOf c) (freezeBegun_sched s c)).trans hplan
  rw [Nat.zero_add] at hboth
  rw [freeze_eq]
  exact hboth

/-! ### The shots of a pattern in range -/

theorem shotsOf_le {es : List PatternEntry} (h : patternInRange es = true) : shotsOf es ≤ 24 := by
  simp only [patternInRange, Bool.and_eq_true, decide_eq_true_eq, List.all_eq_true] at h
  obtain ⟨⟨hlen, hall⟩, -⟩ := h
  have hentry : ∀ e ∈ es, 1 + (e.repeats - 1) ≤ 4 := fun e he => by
    have hrange := hall e he
    simp only [PatternEntry.inRange, Bool.and_eq_true, within_iff] at hrange
    obtain ⟨⟨-, hrep⟩, -⟩ := hrange
    omega
  have hsum : shotsOf es ≤ es.length * 4 := by
    unfold shotsOf
    rw [← List.length_map (f := fun e : PatternEntry => 1 + (e.repeats - 1))]
    refine List.sum_le_card_nsmul _ 4 fun n hn => ?_
    obtain ⟨e, he, rfl⟩ := List.mem_map.1 hn
    exact hentry e he
  omega

theorem pattern_inRange {t : TableStore} (h : tablesInRange t) (page1 : Bool) (i : Fin 16) :
    patternInRange (t.pattern page1 i) = true := by
  obtain ⟨-, -, -, hlen0, hlen1, h0, h1, -⟩ := h
  unfold TableStore.pattern TableStore.page
  cases page1 with
  | false =>
    rw [if_neg Bool.false_ne_true, List.getD_eq_getElem _ _ (by rw [hlen0]; exact i.isLt)]
    exact h0 _ (List.getElem_mem _)
  | true =>
    rw [if_pos rfl, List.getD_eq_getElem _ _ (by rw [hlen1]; exact i.isLt)]
    exact h1 _ (List.getElem_mem _)

theorem entriesFrozen_le {s : State} (h : tablesInRange s.tables) (c : Cyl) : shotsOf (entriesFrozen s c) ≤ 24 := by
  have htables : (freezeBegun s c).tables = s.tables := by rw [Planning.freezeBegun_eq s c rfl]
  unfold entriesFrozen entriesToPlan
  split
  · exact Nat.zero_le _
  · split
    · exact Nat.zero_le _
    · rw [htables]
      exact shotsOf_le (pattern_inRange h _ _)

/-! ### The freezes of a tooth -/

/-- R57, R58: several freezes, on one bank. -/
theorem freezes_grown (r : ToothReport) (k : Bank) {cs : List Cyl} (hC : ∀ c ∈ cs, C c) (s : State) :
    ∃ n, (tablesInRange s.tables → n ≤ 24 * cs.length) ∧ Grown C n (s.schedOf k) ((cs.foldl (freeze r) s).schedOf k) := by
  induction cs generalizing s with
  | nil => exact ⟨0, fun _ => Nat.zero_le _, .refl _⟩
  | cons c cs ih =>
    obtain ⟨n, hn, hrest⟩ := ih (fun d hd => hC d (List.mem_cons_of_mem _ hd)) (freeze r s c)
    have hkept : TablesKept s.tables (freeze r s c).tables :=
      Laws.freeze_rel tablesKept_bank (fun _ _ _ => .refl _) r s c
    have hone := freeze_plants (hC c List.mem_cons_self) r s
    by_cases hk : s.bankOf c = k
    · subst hk
      refine ⟨shotsOf (entriesFrozen s c) + n, fun hrange => ?_, hone.here.trans hrest⟩
      have hle := entriesFrozen_le hrange c
      have hle' := hn (hkept.range hrange)
      rw [List.length_cons]
      omega
    · refine ⟨n, fun hrange => (hn (hkept.range hrange)).trans (by rw [List.length_cons]; omega), ?_⟩
      rw [← hone.elsewhere k (Ne.symm hk)]
      exact hrest

theorem freezes_elsewhere (r : ToothReport) (k : Bank) (cs : List Cyl) (s : State) (hk : ∀ c ∈ cs, s.bankOf c ≠ k) :
    (cs.foldl (freeze r) s).schedOf k = s.schedOf k := by
  induction cs generalizing s with
  | nil => rfl
  | cons c cs ih =>
    have hone := freeze_plants (C := fun _ => True) (c := c) trivial r s
    refine (ih (freeze r s c) fun d hd => ?_).trans (hone.elsewhere k (Ne.symm (hk c List.mem_cons_self)))
    rw [bankOf_congr (freeze_steady r s c).cyl]
    exact hk d (List.mem_cons_of_mem _ hd)

end

end Sys2Proof.Proofs.FrozenBanks
end

section
/-! SUPPORT. A tooth of FULL_SYNC on one bank: what its shots, its tracks and its pulse come to. -/

namespace Sys2Proof.Proofs.ToothOnBank

open Sys2Proof Sys2Proof.Machine Sys2Proof.Laws Sys2Proof.Laws.Fine Sys2Proof.Proofs.Steps Sys2Proof.Proofs.Freeze
  Sys2Proof.Proofs.NewLimits Sys2Proof.Proofs.QuietTeeth Sys2Proof.Proofs.Ripening Sys2Proof.Proofs.ToothWork
  Sys2Proof.Proofs.FrozenBanks

/-! ### One bank of two -/

/-- An operation on a bank leaves the other bank's scheduler, the time and the cylinder records. -/
structure Beside (j : Bank) (s t : State) : Prop where
  other : ∀ k, k ≠ j → t.schedOf k = s.schedOf k
  time  : t.timebase = s.timebase
  cyl   : t.tables.cyl = s.tables.cyl

/-- Two states agree on a bank's scheduler, the time and the cylinder records. -/
structure SameBank (k : Bank) (s t : State) : Prop where
  sched : t.schedOf k = s.schedOf k
  time  : t.timebase = s.timebase
  cyl   : t.tables.cyl = s.tables.cyl

section
variable {j k : Bank} {s t u : State}

theorem SameBank.refl (s : State) : SameBank k s s := ⟨rfl, rfl, rfl⟩

theorem SameBank.trans (h : SameBank k s t) (h' : SameBank k t u) : SameBank k s u :=
  ⟨h'.sched.trans h.sched, h'.time.trans h.time, h'.cyl.trans h.cyl⟩

theorem Beside.of_op (h : ∀ R : State → State → Prop, OpRel (fun i => i = j) (fun _ => True) R → R s t) : Beside j s t where
  other k hk := (h _ (otherKept_opRel j) k hk).1
  time := (h _ (wholeRel_of_bankRel frameKept_bank _ _).toOpRel).2.1
  cyl := h _ (wholeRel_of_bankRel cylRecords_rel _ _).toOpRel

theorem dueAtTooth_beside (j : Bank) (s : State) : Beside j s (dueAtTooth j s) :=
  .of_op fun _ h => dueAtTooth_rel h j rfl s

theorem duePast_beside (j : Bank) (s : State) : Beside j s (duePast j s) := .of_op fun _ h => duePast_rel h j rfl s

theorem closeAtTooth_beside (j : Bank) (s : State) : Beside j s (closeAtTooth j s) :=
  .of_op fun _ h => closeAtTooth_rel h j rfl s

theorem reachTracks_beside (r : ToothReport) (j : Bank) (s : State) : Beside j s (reachTracks r j s) :=
  .of_op fun _ h => reachTracks_rel h r j rfl s

/-- Work on both banks is, for one of them, its own work on a state that agrees on it. -/
theorem bothBanks_at {f : Bank → State → State} (hf : ∀ j s, Beside j s (f j s)) (k : Bank) (s : State) :
    ∃ s', SameBank k s s' ∧ SameBank k (f k s') (bothBanks f s) := by
  unfold bothBanks
  have hA := hf .bankA s
  have hB := hf .bankB (f .bankA s)
  cases k with
  | bankA => exact ⟨s, .refl s, hB.other .bankA (by decide), hB.time, hB.cyl⟩
  | bankB => exact ⟨_, ⟨hA.other .bankB (by decide), hA.time, hA.cyl⟩, .refl _⟩

end

/-! ### Before the freezes -/

section
variable {k : Bank} {s : State}

/-- What was left over from the interval before is done with, on a bank. -/
structure OldSettled (tie : TieOrder) (q q' : Sched) : Prop where
  ripe   : Ripened q q'
  ahead  : ∀ y ∈ q'.queue, timedAhead y = false
  tracks : ∀ y ∈ q'.tracks, y ∈ q.tracks
  kept   : tie = .dueFirst → q'.tracks = q.tracks
  closed : tie = .closeFirst → ∀ y ∈ q'.tracks, ∀ n, y.state ≠ .closing n
  clean  : tie = .closeFirst → ∀ y ∈ q.tracks, ∀ n, y.state = .closing n → Clean y.cyl q'

theorem settleOld_bank (tie : TieOrder) (hn : TagsNodup (s.schedOf k)) :
    OldSettled tie (s.schedOf k) ((settleOld tie s).schedOf k) := by
  cases tie with
  | dueFirst =>
    obtain ⟨s', hs, ht⟩ := bothBanks_at dueAtTooth_beside k s
    have hdue := dueAtTooth_settles (k := k) s'
    have htaken := dueAtTooth_taken (k := k) (s := s') (by rwa [hs.sched])
    unfold settleOld
    dsimp only
    rw [ht.sched, ← hs.sched]
    exact ⟨hdue.toRipened, htaken, fun y hy => hdue.tracks ▸ hy, fun _ => hdue.tracks, nofun, nofun⟩
  | closeFirst =>
    obtain ⟨s', hs, ht⟩ := bothBanks_at closeAtTooth_beside k s
    obtain ⟨s'', hs', ht'⟩ := bothBanks_at dueAtTooth_beside k (bothBanks closeAtTooth s)
    obtain ⟨hripe, hclosed, hclean⟩ := closeAtTooth_closes (k := k) s'
    have hn' : TagsNodup (s'.schedOf k) := by rwa [hs.sched]
    have hdue := dueAtTooth_settles (k := k) s''
    have hmid : s''.schedOf k = (closeAtTooth k s').schedOf k := hs'.sched.trans ht.sched
    have htaken := dueAtTooth_taken (k := k) (s := s'') (by
      rw [hmid]
      exact hn'.ripened hripe)
    unfold settleOld
    dsimp only
    rw [ht'.sched, ← hs.sched]
    rw [Settles, hmid] at hdue
    exact ⟨hripe.trans hdue.toRipened, htaken, fun y hy => (hclosed y (hdue.tracks ▸ hy)).1, nofun,
      fun _ y hy => (hclosed y (hdue.tracks ▸ hy)).2, fun _ y hy n hc => (hclean hn' y hy n hc).settled hdue⟩

end

/-! ### After the freezes -/

/-- R89, R90: a queued shot that has met the interval. -/
structure ShotMet (i : Interval) (s : State) (x : Shot) : Prop where
  reached : i.holds x.order → x.reached = true ∧ (x.isAngle = true → x.state ≠ .planned)
  ahead   : timedAhead x = true → i.holds x.order ∧ x.due = some (i.startInstant (s.cylOf x.cyl).openAngle x.order)

theorem ShotMet.progress {i : Interval} {s : State} {x y : Shot} (h : ShotMet i s x) (hxy : Progress x y) :
    ShotMet i s y where
  reached hy := by
    rw [hxy.order] at hy
    obtain ⟨hr, hp⟩ := h.reached hy
    exact ⟨hxy.reached.trans hr, fun ha hs => hp (hxy.isAngle ▸ ha) (hxy.planned hs)⟩
  ahead hy := by
    obtain ⟨hx, hd⟩ := hxy.ahead hy
    rw [hxy.order, hxy.cyl, hd]
    exact h.ahead hx

/-- R90: a PLANNED shot in the interval is TIMED now; no shot was TIMED before. -/
theorem shotMet_met (i : Interval) (s : State) {x : Shot} (h : timedAhead x = false) : ShotMet i s (i.met s x) := by
  unfold Interval.met
  by_cases ho : fwd i.angle x.order < i.span
  · rw [if_pos ho]
    by_cases hp : x.isAngle = true ∧ x.state = .planned
    · rw [if_pos hp]
      exact ⟨fun _ => ⟨rfl, fun _ => nofun⟩, fun _ => ⟨ho, rfl⟩⟩
    · rw [if_neg hp]
      refine ⟨fun _ => ⟨rfl, fun ha hs => hp ⟨ha, hs⟩⟩, fun ha => ?_⟩
      exact absurd (show timedAhead x = true from ha) (Bool.eq_false_iff.1 h)
  · rw [if_neg ho]
    exact ⟨fun hx => absurd hx ho, fun ha => absurd ha (Bool.eq_false_iff.1 h)⟩

/-- R94: a track that has met the interval. -/
structure TrackMet (i : Interval) (now : Nat) (y : Track) : Prop where
  reached : i.holds y.closeAngle → y.state ≠ .tracking
  closing : ∀ n, y.state = .closing n → i.holds y.closeAngle ∧ n = i.passing y.closeAngle ∧ now < n

theorem trackMet_met {i : Interval} {now : Nat} {y : Track} (h : ∀ n, y.state ≠ .closing n)
    (hnow : ∀ n, (i.trackMet y).state = .closing n → now < n) : TrackMet i now (i.trackMet y) := by
  unfold Interval.trackMet at hnow ⊢
  by_cases hm : y.state = .tracking ∧ fwd i.angle y.closeAngle < i.span
  · rw [if_pos hm] at hnow ⊢
    refine ⟨fun _ => nofun, fun n hn => ⟨hm.2, ?_, hnow n hn⟩⟩
    cases hn
    rfl
  · rw [if_neg hm]
    exact ⟨fun ho hs => hm ⟨hs, ho⟩, fun n hn => absurd hn (h n)⟩

/-- What the new interval makes of a bank. -/
structure NewSettled (tie : TieOrder) (i : Interval) (s : State) (q q' : Sched) : Prop where
  shots   : ∀ x ∈ q'.queue, ShotMet i s x
  due     : TagsNodup q → ∀ x ∈ q'.queue, timedAhead x = true → ∀ n, x.due = some n → s.timebase < n
  tracks  : ∀ y ∈ q'.tracks, TrackMet i s.timebase y
  nextTag : q'.nextTag = q.nextTag
  clean   : ∀ c, Clean c q → Clean c q'
  closed  : tie = .dueFirst → TagsNodup q → ∀ y ∈ q.tracks, ∀ n, y.state = .closing n → Clean y.cyl q'

section
variable {k : Bank} {s : State} {r : ToothReport}

theorem cylOf_congr {s t : State} (h : t.tables.cyl = s.tables.cyl) : t.cylOf = s.cylOf := by
  unfold State.cylOf
  rw [h]

/-- R89, R90: the bank once its shots have met the interval. -/
theorem timeShots_bank (r : ToothReport) (k : Bank) (s : State) :
    (bothBanks (timeShots r) s).schedOf k = shotsMet (reported r) s k ∧ (bothBanks (timeShots r) s).timebase = s.timebase := by
  rw [timeShots_both]
  cases k <;> exact ⟨rfl, rfl⟩

theorem shotsMet_tags {i : Interval} (h : TagsNodup (s.schedOf k)) : TagsNodup (shotsMet i s k) := by
  have htag : Shot.tag ∘ i.met s = Shot.tag := funext fun x => by
    show (i.met s x).tag = x.tag
    unfold Interval.met
    split
    · split <;> rfl
    · rfl
  unfold TagsNodup shotsMet
  rw [List.map_map, htag]
  exact h

theorem shotsMet_clean {i : Interval} {c : Cyl} (h : Clean c (s.schedOf k)) : Clean c (shotsMet i s k) where
  shots x hx := by
    obtain ⟨y, hy, rfl⟩ := List.mem_map.1 hx
    have hcyl : (i.met s y).cyl = y.cyl := by
      unfold Interval.met
      split
      · split <;> rfl
      · rfl
    rw [hcyl]
    exact h.shots y hy
  tracks := h.tracks
  active := h.active

theorem trackMet_cyl (i : Interval) (y : Track) : (i.trackMet y).cyl = y.cyl := by
  unfold Interval.trackMet
  split <;> rfl

theorem settleNew_bank (tie : TieOrder) (hahead : ∀ y ∈ (s.schedOf k).queue, timedAhead y = false)
    (hopen : tie = .closeFirst → ∀ y ∈ (s.schedOf k).tracks, ∀ n, y.state ≠ .closing n) :
    NewSettled tie (reported r) s (s.schedOf k) ((settleNew tie r s).schedOf k) := by
  obtain ⟨hmet, htime⟩ := timeShots_bank r k s
  have hshots : ∀ x ∈ (shotsMet (reported r) s k).queue, ShotMet (reported r) s x := fun x hx => by
    obtain ⟨y, hy, rfl⟩ := List.mem_map.1 hx
    exact shotMet_met _ _ (hahead y hy)
  have hkeep : ∀ {q q' : Sched}, Ripened q q' → (∀ x ∈ q.queue, ShotMet (reported r) s x) →
      ∀ x ∈ q'.queue, ShotMet (reported r) s x := fun h hq x hx => by
    obtain ⟨y, hy, hyx⟩ := h.shots x hx
    exact (hq y hy).progress hyx
  have hlater : ∀ {q q' : Sched}, Ripened q q' →
      (∀ x ∈ q.queue, timedAhead x = true → ∀ n, x.due = some n → s.timebase < n) →
      ∀ x ∈ q'.queue, timedAhead x = true → ∀ n, x.due = some n → s.timebase < n := fun h hq x hx ha n hn => by
    obtain ⟨y, hy, hyx⟩ := h.shots x hx
    obtain ⟨hay, hd⟩ := hyx.ahead ha
    exact hq y hy hay n (hd ▸ hn)
  unfold settleNew
  dsimp only
  generalize bothBanks (timeShots r) s = u at hmet htime ⊢
  cases tie with
  | dueFirst =>
    obtain ⟨s1, hs1, ht1⟩ := bothBanks_at duePast_beside k u
    obtain ⟨s2, hs2, ht2⟩ := bothBanks_at closeAtTooth_beside k (bothBanks duePast u)
    obtain ⟨s3, hs3, ht3⟩ := bothBanks_at (reachTracks_beside r) k (bothBanks closeAtTooth (bothBanks duePast u))
    have hq1 : s1.schedOf k = shotsMet (reported r) s k := hs1.sched.trans hmet
    have hq2 : s2.schedOf k = (duePast k s1).schedOf k := hs2.sched.trans ht1.sched
    have hq3 : s3.schedOf k = (closeAtTooth k s2).schedOf k := hs3.sched.trans ht2.sched
    have htime1 : s1.timebase = s.timebase := hs1.time.trans htime
    have htime3 : s3.timebase = s.timebase := by
      rw [hs3.time, ht2.time, (closeAtTooth_beside k s2).time, hs2.time, ht1.time, (duePast_beside k s1).time, htime1]
    have hdue : Settled (shotsMet (reported r) s k) (s2.schedOf k) := by
      rw [← hq1, hq2]
      exact duePast_settles s1
    have hnow : TagsNodup (s.schedOf k) → ∀ x ∈ (s2.schedOf k).queue, timedAhead x = true → ∀ n, x.due = some n →
        s.timebase < n := fun hn => by
      rw [hq2, ← htime1]
      refine duePast_taken ?_
      rw [hq1]
      exact shotsMet_tags hn
    obtain ⟨hclose, hclosed, hclean⟩ := closeAtTooth_closes (k := k) s2
    obtain ⟨hreach, htracks⟩ := reachTracks_closes (k := k) r s3
    rw [← hq3] at hclose hclosed hclean
    rw [← ht3.sched] at hreach htracks
    have hcyl : ∀ y ∈ ((bothBanks (reachTracks r) (bothBanks closeAtTooth (bothBanks duePast u))).schedOf k).tracks,
        ∃ z ∈ (s3.schedOf k).tracks, y.cyl = z.cyl := fun y hy => by
      obtain ⟨⟨z, hz, rfl⟩, -⟩ := htracks y hy
      exact ⟨z, hz, trackMet_cyl _ z⟩
    refine ⟨hkeep hreach (hkeep hclose (hkeep hdue.toRipened hshots)), fun hn => hlater hreach (hlater hclose (hnow hn)),
      fun y hy => ?_, hreach.nextTag.trans (hclose.nextTag.trans hdue.nextTag), fun c hc => ?_, fun _ hn y hy n hyn => ?_⟩
    · obtain ⟨⟨z, hz, rfl⟩, hlt⟩ := htracks y hy
      exact trackMet_met (hclosed z hz).2 (htime3 ▸ hlt)
    · refine Clean.ripened hreach hcyl (Clean.ripened hclose (fun y hy => ⟨y, (hclosed y hy).1, rfl⟩) ?_)
      exact (shotsMet_clean hc).settled hdue
    · refine Clean.ripened hreach hcyl (hclean ((shotsMet_tags hn).ripened hdue.toRipened) y ?_ n hyn)
      rw [hdue.tracks]
      exact hy
  | closeFirst =>
    obtain ⟨s1, hs1, ht1⟩ := bothBanks_at (reachTracks_beside r) k u
    obtain ⟨s2, hs2, ht2⟩ := bothBanks_at duePast_beside k (bothBanks (reachTracks r) u)
    have hq1 : s1.schedOf k = shotsMet (reported r) s k := hs1.sched.trans hmet
    have hq2 : s2.schedOf k = (reachTracks r k s1).schedOf k := hs2.sched.trans ht1.sched
    have htime1 : s1.timebase = s.timebase := hs1.time.trans htime
    have htime2 : s2.timebase = s.timebase := by rw [hs2.time, ht1.time, (reachTracks_beside r k s1).time, htime1]
    obtain ⟨hreach, htracks⟩ := reachTracks_closes (k := k) r s1
    have hdue := duePast_settles (k := k) s2
    have hnow := duePast_taken (k := k) (s := s2)
    unfold Settles at hdue
    rw [← hq2, hq1] at hreach htracks
    rw [← ht2.sched] at hdue hnow
    rw [htime2] at hnow
    have hcyl : ∀ y ∈ (s2.schedOf k).tracks, ∃ z ∈ (shotsMet (reported r) s k).tracks, y.cyl = z.cyl := fun y hy => by
      obtain ⟨⟨z, hz, rfl⟩, -⟩ := htracks y hy
      exact ⟨z, hz, trackMet_cyl _ z⟩
    refine ⟨hkeep hdue.toRipened (hkeep hreach hshots), fun hn => hnow ((shotsMet_tags hn).ripened hreach), fun y hy => ?_,
      hdue.nextTag.trans hreach.nextTag, fun c hc => ((shotsMet_clean hc).ripened hreach hcyl).settled hdue, nofun⟩
    rw [hdue.tracks] at hy
    obtain ⟨⟨z, hz, rfl⟩, hlt⟩ := htracks y hy
    exact trackMet_met (hopen rfl z hz) (htime1 ▸ hlt)

end

end Sys2Proof.Proofs.ToothOnBank
end

section
/-! SUPPORT. The accepted tooth: its clock, and what it does on quiet banks and on any banks. -/

namespace Sys2Proof.Proofs.AcceptedTeeth

open Sys2Proof Sys2Proof.Machine Sys2Proof.Laws Sys2Proof.Laws.Fine Sys2Proof.Proofs.Freeze Sys2Proof.Proofs.Frames
  Sys2Proof.Proofs.Tables Sys2Proof.Proofs.Edges Sys2Proof.Proofs.Teeth Sys2Proof.Proofs.ToothBegun
  Sys2Proof.Proofs.Settling Sys2Proof.Proofs.NewLimits Sys2Proof.Proofs.QuietTeeth Sys2Proof.Proofs.PlannedTeeth
  Sys2Proof.Proofs.Ripening Sys2Proof.Proofs.ToothWork Sys2Proof.Proofs.FrozenBanks Sys2Proof.Proofs.ToothOnBank

/-! ### The clock -/

section
variable {synthetic : Bool} {s : State}

/-- R11, R12: a revolution check that keeps the state. -/
theorem verdict_keep (hready : toothReady synthetic s)
    (h : nextIndex s.tables.wheel s.clock = 0 → ((s.clock.sync == .fullSync) = false → s.clock.camCount ≠ 1) ∧
      ((s.clock.sync == .fullSync) = true → s.clock.camCount = if nextRev s.tables.wheel s.clock then 0 else 1)) :
    (movedClock synthetic s).toothVerdict = .keep := by
  unfold AngleClock.toothVerdict
  rw [movedClock_fields, metClock_fields]
  dsimp only
  by_cases hi : nextIndex s.tables.wheel s.clock = 0
  · rw [if_pos hi]
    obtain ⟨hcrank, hfull⟩ := h hi
    unfold AngleClock.camVerdict
    rcases ready_sync hready with hs | hs
    · simp only [hs]
      exact if_neg (hcrank (by rw [hs]; rfl))
    · simp only [hs]
      exact if_pos (hfull (by rw [hs]; rfl))
  · exact if_neg hi

/-- R9 to R23: the clock after an accepted tooth. -/
theorem toothClock_keep (hv : (movedClock synthetic s).toothVerdict = .keep) : toothClock synthetic s =
    { s.clock with
      lastCrank := if synthetic then s.clock.lastCrank else some s.timebase
      lastTooth := some (toothTime synthetic s), t1 := toothInterval synthetic s, t2 := s.clock.t1
      tpred := predict (toothInterval synthetic s) s.clock.t1, index := nextIndex s.tables.wheel s.clock
      rev1 := nextRev s.tables.wheel s.clock
      camCount := if nextIndex s.tables.wheel s.clock = 0 then 0 else s.clock.camCount
      synth := if synthetic then s.clock.synth + 1 else 0, absorb := synthetic
      stallFrom := if synthetic then s.clock.stallFrom else some s.timebase
      deadline := some (toothTime synthetic s +
        (if nextIndex s.tables.wheel s.clock = s.tables.wheel.n - s.tables.wheel.m - 1 then
          (2 * s.tables.wheel.m + 3) * predict (toothInterval synthetic s) s.clock.t1 / 2
        else 3 * predict (toothInterval synthetic s) s.clock.t1 / 2))
      techo := some (s.timebase + 200)
      cmark := if s.clock.sync == .fullSync && nextIndex s.tables.wheel s.clock == 0 && !nextRev s.tables.wheel s.clock then
        some (s.timebase + 200) else s.clock.cmark } := by
  unfold toothClock
  rw [settled_keep hv, deadlineAfter, movedClock_fields, metClock_fields]
  rfl

/-- R9 to R23: the clock a tooth that keeps the state leaves. -/
def keptClock (synthetic : Bool) (s : State) : AngleClock :=
  { toothClock synthetic s with speed := toothSpeed synthetic s, overspeed := toothFlag synthetic s }

/-- R20: the events a tooth that keeps the state leaves. -/
def keptEvents (synthetic : Bool) (s : State) : EventLatch :=
  if toothFlag synthetic s && !s.clock.overspeed then (s.raise .overspeed).events else s.events

theorem toothTaken_keep (hready : toothReady synthetic s) (hv : (movedClock synthetic s).toothVerdict = .keep) :
    toothTaken synthetic s = { s with clock := keptClock synthetic s, events := keptEvents synthetic s } := by
  have hsync : (toothClock synthetic s).sync = s.clock.sync := by rw [toothClock_keep hv]
  rw [toothTaken_state (by rw [hv]; decide) (by rw [hsync]; exact ready_sync hready), hv]
  unfold keptClock keptEvents
  rw [apply_ite State.events]
  rfl

theorem keptClock_sync (hv : (movedClock synthetic s).toothVerdict = .keep) : (keptClock synthetic s).sync = s.clock.sync := by
  unfold keptClock
  rw [toothClock_keep hv]

end

/-! ### A tooth of FULL_SYNC, in its parts -/

section
variable {synthetic : Bool} {s : State}

theorem toothBegun_keep (hf : s.clock.sync = .fullSync) : toothBegun s (keptClock synthetic s) =
    { s with clock := keptClock synthetic s, events := keptEvents synthetic s
             tables := markerTables s (keptClock synthetic s) } := by
  unfold toothBegun keptEvents
  rw [if_pos hf]
  dsimp only
  rw [apply_ite State.events]
  rfl

/-- R18: the hand-on of a tooth of FULL_SYNC: what was left over, the freezes, the new interval. -/
theorem handOn_parts (tie : TieOrder) {t : State} (ht : handOn tie (toothKind synthetic) false (toothTaken synthetic s) = t)
    (hf : t.clock.sync = .fullSync) :
    t = settleNew tie (reportOf synthetic s t.clock)
      (freezes (reportOf synthetic s t.clock) (settleOld tie (toothBegun s t.clock))) := by
  have hclock : t.clock = (toothTaken synthetic s).clock := by rw [← ht, handOn_clock]
  rw [hclock] at hf ⊢
  obtain ⟨hreport, hbegun⟩ := toothTaken_full rfl hf
  rw [handOn_fullSync tie _ hf] at ht
  dsimp only at ht
  rw [hreport, hbegun] at ht
  exact ht.symm

/-- R56 to R58: the cylinders a tooth freezes, in the order in which it does. -/
theorem freezes_listed (tie : TieOrder) (s : State) (k : AngleClock) :
    ∃ cs : List Cyl, (∀ c, c ∈ cs ↔ freezeTooth (intervalOf synthetic s k) s c) ∧ cs.length ≤ 8 ∧
      freezes (reportOf synthetic s k) (settleOld tie (toothBegun s k)) =
        cs.foldl (freeze (reportOf synthetic s k)) (settleOld tie (toothBegun s k)) := by
  have harmed : (settleOld tie (toothBegun s k)).firing = .armed ↔ s.firing = .armed :=
    (settleOld_rel unfrozen_quiet.opRelNone (fun _ => trivial) tie (toothBegun s k)).armed
  have hcyl : (settleOld tie (toothBegun s k)).cylOf = s.cylOf :=
    (cylOf_congr (Laws.settleOld_rel cylRecords_rel tie (toothBegun s k))).trans (toothBegun_cylOf s k)
  generalize settleOld tie (toothBegun s k) = u at harmed hcyl ⊢
  by_cases ha : s.firing = .armed
  · refine ⟨freezeOrder u (reportOf synthetic s k), (freezeOrder_freezeOrdered hcyl ha).1, ?_, if_pos (harmed.2 ha)⟩
    exact (freezeOrder_nodup u _).length_le_card.trans (by decide)
  · exact ⟨[], fun c => ⟨fun h => absurd h List.not_mem_nil, fun h => absurd h.1 ha⟩, Nat.zero_le _,
      freezes_not_armed _ (mt harmed.1 ha)⟩

/-- R56: a tooth that is nobody's freeze tooth. -/
theorem tooth_unfrozen {tie : TieOrder} {k : AngleClock} (hno : ∀ c, ¬freezeTooth (intervalOf synthetic s k) s c) :
    freezes (reportOf synthetic s k) (settleOld tie (toothBegun s k)) = settleOld tie (toothBegun s k) := by
  obtain ⟨cs, hcs, -, hfold⟩ := freezes_listed (synthetic := synthetic) tie s k
  rw [hfold, List.eq_nil_iff_forall_not_mem.2 fun c hc => hno c ((hcs c).1 hc)]
  rfl

theorem quietBank_begun {k : AngleClock} {b : Bank} {old : List Shot} {i : Interval} (h : quietBank i s b old) :
    quietBank i (toothBegun s k) b old := quietBank_congr (s := s) rfl (toothBegun_cylOf s k) rfl h

/-- R89, R90, R94: the interval meets the banks of a tooth of FULL_SYNC. -/
theorem met_begun (i : Interval) (s : State) (k : AngleClock) :
    metTracks i (metShots i (toothBegun s k)) = bothMet i s k (toothBegun s k).events := by
  rw [metTracks_metShots, schedMet_congr (s := s) (u := toothBegun s k) (k := .bankA) rfl (toothBegun_cylOf s k),
    schedMet_congr (s := s) (u := toothBegun s k) (k := .bankB) rfl (toothBegun_cylOf s k)]
  rfl

/-- R89, R90, R94: a tooth that finds both banks quiet and freezes nobody. -/
theorem tooth_quiet (tie : TieOrder) {k : AngleClock} (hno : ∀ c, ¬freezeTooth (intervalOf synthetic s k) s c)
    (hquiet : ∀ b, quietBank (intervalOf synthetic s k) s b []) :
    settleNew tie (reportOf synthetic s k) (freezes (reportOf synthetic s k) (settleOld tie (toothBegun s k))) =
      bothMet (intervalOf synthetic s k) s k (toothBegun s k).events := by
  have hbegun : ∀ b, quietBank (reported (reportOf synthetic s k)) (toothBegun s k) b [] := fun b => quietBank_begun (hquiet b)
  rw [tooth_unfrozen hno, settleOld_quiet tie hbegun, settleNew_quiet tie hbegun, ← met_begun]
  rfl

/-! ### A tooth on any banks -/

theorem tagsNodup_grown {C : Cyl → Prop} {n : Nat} {q q' : Sched} (h : Grown C n q q') (hn : n < 256) (hq : TagsNodup q)
    (hfree : ∀ x ∈ q.queue, (q'.nextTag - q.nextTag).toNat ≤ (x.tag - q.nextTag).toNat) : TagsNodup q' := by
  obtain ⟨m, hm, hnext, l, hperm, hsub⟩ := h.tags
  have hcount : ∀ j, j ≤ m → (q.nextTag + BitVec.ofNat 8 j - q.nextTag).toNat = j := fun j hj => by
    rw [BitVec.add_comm, BitVec.add_sub_cancel, BitVec.toNat_ofNat]
    exact Nat.mod_eq_of_lt (by omega)
  refine hperm.nodup_iff.1 (List.Nodup.sublist hsub (List.nodup_append.2 ⟨?_, hq, ?_⟩))
  · refine List.Nodup.map_on (fun a ha b hb hab => ?_) List.nodup_range
    rw [List.mem_range] at ha hb
    rw [← hcount a ha.le, hab, hcount b hb.le]
  · rintro a ha b hb rfl
    obtain ⟨j, hj, rfl⟩ := List.mem_map.1 ha
    obtain ⟨x, hx, hxt⟩ := List.mem_map.1 hb
    rw [List.mem_range] at hj
    have hle := hfree x hx
    rw [hnext, hcount m le_rfl, hxt, hcount j hj.le] at hle
    omega

theorem clean_grown {C : Cyl → Prop} {n : Nat} {c : Cyl} {q q' : Sched} (h : Grown C n q q') (hC : ¬C c) (hc : Clean c q) :
    Clean c q' where
  shots x hx hxc := by
    rcases h.shots x hx with hx | ⟨hx, -⟩
    · exact hc.shots x hx hxc
    · exact hC (hxc ▸ hx)
  tracks y hy hyc := by
    rcases h.tracks y hy with hy | ⟨hy, -⟩
    · exact hc.tracks y hy hyc
    · exact hC (hyc ▸ hy)
  active p hp := hc.active p (h.active ▸ hp)

theorem tablesInRange_marker (k : AngleClock) (h : tablesInRange s.tables) : tablesInRange (markerTables s k) := by
  unfold markerTables
  split <;> exact h

/-- R89 to R95: what a tooth of FULL_SYNC leaves on a bank, whatever meets at it. -/
structure ToothLeaves (i : Interval) (s t : State) (k : Bank) : Prop where
  shots  : ∀ x ∈ (t.schedOf k).queue, ShotMet i s x
  due    : (∀ c, ¬freezeTooth i s c) → ∀ x ∈ (t.schedOf k).queue, timedAhead x = true → ∀ n, x.due = some n → s.timebase < n
  tracks : ∀ y ∈ (t.schedOf k).tracks, TrackMet i s.timebase y
  clean  : ∀ y ∈ (s.schedOf k).tracks, ∀ n, y.state = .closing n → ¬freezeTooth i s y.cyl →
    (∀ c, freezeTooth i s c → s.bankOf c ≠ k) ∨ (tablesInRange s.tables ∧ tagsFree s t k) → Clean y.cyl (t.schedOf k)

theorem shotMet_congr {i : Interval} {t : State} {x : Shot} (hc : t.cylOf = s.cylOf) (h : ShotMet i t x) : ShotMet i s x :=
  ⟨h.reached, hc ▸ h.ahead⟩

theorem tooth_leaves (tie : TieOrder) {k : AngleClock} (b : Bank) (hn : TagsNodup (s.schedOf b)) :
    ToothLeaves (intervalOf synthetic s k) s (settleNew tie (reportOf synthetic s k)
      (freezes (reportOf synthetic s k) (settleOld tie (toothBegun s k)))) b := by
  obtain ⟨cs, hcs, hlen, hfold⟩ := freezes_listed (synthetic := synthetic) tie s k
  have hold : OldSettled tie (s.schedOf b) ((settleOld tie (toothBegun s k)).schedOf b) :=
    settleOld_bank (s := toothBegun s k) tie hn
  have hcyl : (settleOld tie (toothBegun s k)).tables.cyl = s.tables.cyl :=
    (Laws.settleOld_rel cylRecords_rel tie (toothBegun s k)).trans (markerTables_cyl s k)
  have htime : (settleOld tie (toothBegun s k)).timebase = s.timebase :=
    (Laws.settleOld_rel frameKept_bank tie (toothBegun s k)).2.1
  have hrange : tablesInRange s.tables → tablesInRange (settleOld tie (toothBegun s k)).tables := fun h =>
    (Laws.settleOld_rel tablesKept_bank tie (toothBegun s k)).range (tablesInRange_marker k h)
  rw [hfold]
  generalize settleOld tie (toothBegun s k) = u at hold hcyl htime hrange ⊢
  generalize hr : reportOf synthetic s k = r
  have hi : intervalOf synthetic s k = reported r := by rw [← hr]; rfl
  rw [hi] at hcs ⊢
  have hcylV : (cs.foldl (freeze r) u).tables.cyl = s.tables.cyl :=
    (Laws.foldl_rel steady_bank _ (fun s c => freeze_steady r s c) cs u).cyl.trans hcyl
  have htimeV : (cs.foldl (freeze r) u).timebase = s.timebase :=
    (Laws.foldl_rel frameKept_bank _ (fun s c => Laws.freeze_rel frameKept_bank (fun _ _ _ => ⟨rfl, rfl, rfl⟩) r s c)
      cs u).2.1.trans htime
  obtain ⟨n, hle, hgrown⟩ := freezes_grown r b (C := freezeTooth (reported r) s) (fun c hc => (hcs c).1 hc) u
  have helse := freezes_elsewhere r b cs u
  have hnone : (∀ c, ¬freezeTooth (reported r) s c) → cs.foldl (freeze r) u = u := fun hno => by
    rw [List.eq_nil_iff_forall_not_mem.2 fun c hc => hno c ((hcs c).1 hc)]
    rfl
  generalize cs.foldl (freeze r) u = v at hcylV htimeV hgrown helse hnone ⊢
  have hahead : ∀ y ∈ (v.schedOf b).queue, timedAhead y = false := fun y hy => by
    rcases hgrown.shots y hy with hy | ⟨-, hs⟩
    · exact hold.ahead y hy
    · exact Bool.eq_false_iff.2 fun ha => by cases hs.symm.trans ((timedAhead_iff y).1 ha).2.1
  have hopen : tie = .closeFirst → ∀ y ∈ (v.schedOf b).tracks, ∀ n, y.state ≠ .closing n := fun ht y hy n hc => by
    rcases hgrown.tracks y hy with hy | ⟨-, hs⟩
    · exact hold.closed ht y hy n hc
    · cases hs.symm.trans hc
  have hnew := settleNew_bank (r := r) tie hahead hopen
  refine ⟨fun x hx => shotMet_congr (cylOf_congr hcylV) (hnew.shots x hx), fun hno x hx ha m hm => ?_,
    fun y hy => htimeV ▸ hnew.tracks y hy, fun y hy m hc hy' hcase => ?_⟩
  · rw [← htimeV]
    refine hnew.due ?_ x hx ha m hm
    rw [hnone hno]
    exact hn.ripened hold.ripe
  · cases tie with
    | closeFirst => exact hnew.clean _ (clean_grown hgrown hy' (hold.clean rfl y hy m hc))
    | dueFirst =>
      refine hnew.closed rfl ?_ y (hgrown.kept y (by rw [hold.kept rfl]; exact hy) hy') m hc
      rcases hcase with helsewhere | ⟨htables, hfree⟩
      · rw [helse fun c hc => by
          rw [bankOf_congr hcyl]
          exact helsewhere c ((hcs c).1 hc)]
        exact hn.ripened hold.ripe
      · have hsmall := hle (hrange htables)
        refine tagsNodup_grown hgrown (by omega) (hn.ripened hold.ripe) fun x hx => ?_
        obtain ⟨z, hz, hzx⟩ := hold.ripe.shots x hx
        rw [hzx.tag, hold.ripe.nextTag, ← hnew.nextTag]
        exact hfree z hz

end

end Sys2Proof.Proofs.AcceptedTeeth
end

section
/-! SUPPORT. A tooth that finds one shot still TIMED: it opens. -/

namespace Sys2Proof.Proofs.LeftoverShot

open Sys2Proof Sys2Proof.Machine Sys2Proof.Laws Sys2Proof.Laws.Fine Sys2Proof.Proofs.Freeze Sys2Proof.Proofs.Frames
  Sys2Proof.Proofs.Cancelling Sys2Proof.Proofs.Arbiter Sys2Proof.Proofs.Due Sys2Proof.Proofs.ToothBegun
  Sys2Proof.Proofs.QuietTeeth Sys2Proof.Proofs.PlannedTeeth Sys2Proof.Proofs.Ripening Sys2Proof.Proofs.AcceptedTeeth

/-! ### The interval and the shot that falls due -/

section
variable {i : Interval} {k : Bank} {s : State} {x : Shot} {dg : Bool}

theorem met_kept (i : Interval) (s : State) : Keeps (i.met s) := fun x => by
  unfold Interval.met
  split
  · split <;> exact ⟨rfl, rfl, rfl, rfl, rfl, rfl, rfl, rfl, rfl, rfl⟩
  · exact ⟨rfl, rfl, rfl, rfl, rfl, rfl, rfl, rfl, rfl, rfl⟩

/-- A shot that falls due is no longer timed by the interval, before or after. -/
theorem met_fallen (i : Interval) (s : State) (now : Nat) (x : Shot) : i.met s (fallen now x) = fallen now (i.met s x) := by
  unfold Interval.met
  by_cases ho : fwd i.angle x.order < i.span
  · rw [if_pos (show fwd i.angle (fallen now x).order < i.span from ho), if_pos ho]
    rw [if_neg (show ¬((fallen now x).isAngle = true ∧ (fallen now x).state = .planned) from fun h => by cases h.2)]
    split <;> rfl
  · rw [if_neg (show ¬fwd i.angle (fallen now x).order < i.span from ho), if_neg ho]

theorem metShots_markWaiting (i : Interval) (k : Bank) (s : State) (tag : Byte) :
    metShots i (markWaiting k s tag) = markWaiting k (metShots i s) tag := by
  have hqueue : (updateShot tag (fallen s.timebase) (s.schedOf k).queue).map (i.met s) =
      updateShot tag (fallen s.timebase) ((s.schedOf k).queue.map (i.met s)) := by
    unfold updateShot
    rw [List.map_map, List.map_map]
    refine List.map_congr_left fun y _ => ?_
    dsimp only [Function.comp]
    rw [(met_kept i s y).1]
    split
    · exact met_fallen i s s.timebase y
    · rfl
  rw [markWaiting_eq, markWaiting_eq]
  cases k with
  | bankA =>
    exact congrArg (fun q => ({ s with sched := ⟨{ s.schedOf .bankA with queue := q }, shotsMet i s .bankB⟩ } : State)) hqueue
  | bankB =>
    exact congrArg (fun q => ({ s with sched := ⟨shotsMet i s .bankA, { s.schedOf .bankB with queue := q }⟩ } : State)) hqueue

theorem metTracks_markWaiting (i : Interval) (k : Bank) (s : State) (tag : Byte) :
    metTracks i (markWaiting k s tag) = markWaiting k (metTracks i s) tag := by
  rw [markWaiting_eq, markWaiting_eq]
  cases k <;> rfl

/-! ### The interval and the shot that opens -/

theorem startedNow_met {u : State} : startedNow u k (i.met s x) dg = startedNow u k x dg := by
  unfold Interval.met
  split
  · split <;> rfl
  · rfl

theorem find_trackMet (i : Interval) (ts : List Track) (c : Cyl) :
    (ts.map i.trackMet).find? (fun y => y.cyl == c) = (ts.find? fun y => y.cyl == c).map i.trackMet := by
  rw [List.find?_map]
  congr 2
  funext y
  dsimp only [Function.comp]
  rw [ToothOnBank.trackMet_cyl]

theorem trackOf_metTracks (i : Interval) (s : State) (k : Bank) (c : Cyl) :
    trackOf (metTracks i s) k c = (trackOf s k c).map i.trackMet := by
  unfold trackOf
  rw [schedOf_metTracks]
  exact find_trackMet i _ c

/-- R92, R102: what passes a window is not what an interval brings. -/
theorem windowPassed_metTracks (i : Interval) (s : State) (k : Bank) (c : Cyl) :
    windowPassed (metTracks i s) k c = windowPassed s k c := by
  have hclosed : ∀ y : Track, ((i.trackMet y).state == .closed) = (y.state == .closed) := fun y => by
    unfold Interval.trackMet
    split
    · rename_i h
      rw [h.1]
      rfl
    · rfl
  unfold windowPassed
  rw [trackOf_metTracks, Option.any_map]
  simp only [hclosed]
  rfl

theorem closingInstant_eq (s : State) (k : Bank) (c : Cyl) :
    closingInstant s k c = closeInstantIn (s.schedOf k).tracks c := by
  unfold closingInstant trackOf closeInstantIn
  cases (s.schedOf k).tracks.find? fun y => y.cyl == c with
  | none => rfl
  | some y =>
    dsimp only [Option.map]
    cases y.state <;> rfl

theorem closingInstant_none (h : ∀ y ∈ (s.schedOf k).tracks, ∀ n, y.state ≠ .closing n) (c : Cyl) :
    closingInstant s k c = none := by
  unfold closingInstant trackOf
  cases hf : (s.schedOf k).tracks.find? fun y => y.cyl == c with
  | none => rfl
  | some y =>
    dsimp only
    cases hs : y.state with
    | tracking => rfl
    | closing n => exact absurd hs (h y (List.mem_of_find?_eq_some hf) n)
    | closed => rfl

/-- R94, R104: a pulse that opens before the tracks meet the interval takes its close from them then. -/
theorem metTracks_startedNow (h : ∀ y ∈ (s.schedOf k).tracks, ∀ n, y.state ≠ .closing n) :
    metTracks i (startedNow s k x dg) = startedNow (metTracks i s) k x dg := by
  have hnone := closingInstant_none h x.cyl
  have hclose : (closeInstantIn ((s.schedOf k).tracks.map i.trackMet) x.cyl).or (closingInstant s k x.cyl) =
      closingInstant (metTracks i s) k x.cyl := by
    rw [hnone, Option.or_none, closingInstant_eq, schedOf_metTracks]
    rfl
  unfold startedNow opened
  rw [← hclose]
  cases k <;> rfl

/-! ### The tooth -/

/-- R91: the tooth finds one shot TIMED on an IDLE bank, and nothing else to do. -/
structure Leftover (i : Interval) (s : State) (k : Bank) (x : Shot) : Prop where
  here  : quietBank i s k [x]
  other : ∀ j, j ≠ k → quietBank i s j []
  named : (s.schedOf k).queue.filter (fun y => y.tag == x.tag) = [x]
  idle  : (s.schedOf k).cond = .idle

/-- Work on both banks that is one bank's alone. -/
theorem bothBanks_one {f : Bank → State → State} {t : State} (hk : f k s = t) (hs : ∀ j, j ≠ k → f j s = s)
    (ht : ∀ j, j ≠ k → f j t = t) : bothBanks f s = t := by
  unfold bothBanks
  cases k with
  | bankA => rw [hk, ht .bankB (by decide)]
  | bankB => rw [hs .bankA (by decide), hk]

variable {r : ToothReport} {tie : TieOrder}

theorem Leftover.noneClosing (h : Leftover i s k x) : NoneClosing s := fun j => by
  by_cases hj : j = k
  · subst hj
    exact h.here.2.2.2.1
  · exact (h.other j hj).2.2.2.1

theorem Leftover.noCloseNow (h : Leftover i s k x) : NoCloseNow i s := fun j => by
  by_cases hj : j = k
  · subst hj
    exact h.here.2.2.2.2
  · exact (h.other j hj).2.2.2.2

theorem schedOf_markWaiting_other {j : Bank} (hj : j ≠ k) (s : State) (tag : Byte) :
    (markWaiting k s tag).schedOf j = s.schedOf j := (banks_get_set _ _ _ _).trans (if_neg hj)

/-- R91: the shot left over falls due at the tooth. -/
theorem Leftover.settleOld (h : Leftover i s k x) : settleOld tie s = markWaiting k s x.tag := by
  have htags : timedAngles s k = [x.tag] := congrArg (List.map Shot.tag) h.here.1
  have hdue : bothBanks dueAtTooth s = markWaiting k s x.tag := by
    refine bothBanks_one ?_ (fun j hj => dueAtTooth_none (h.other j hj).1) fun j hj => dueAtTooth_none ?_
    · unfold dueAtTooth
      rw [if_pos h.idle, htags]
      rfl
    · rw [schedOf_markWaiting_other hj]
      exact (h.other j hj).1
  cases tie with
  | dueFirst => exact hdue
  | closeFirst => exact (congrArg (bothBanks dueAtTooth) (closeAtTooth_both h.noneClosing)).trans hdue

/-! ### The shot opens -/

theorem schedOf_startedNow_other {j : Bank} (hj : j ≠ k) (s : State) (x : Shot) (dg : Bool) :
    (startedNow s k x dg).schedOf j = s.schedOf j := (banks_get_set _ _ _ _).trans (if_neg hj)

theorem startedNow_tracks (j : Bank) : ((startedNow s k x dg).schedOf j).tracks = (s.schedOf j).tracks := by
  by_cases hj : j = k
  · subst hj
    have hq : (startedNow s j x dg).schedOf j = _ := banks_get_set_same _ _ _
    rw [hq]
  · rw [schedOf_startedNow_other hj]

theorem markWaiting_tracks (j : Bank) (tag : Byte) : ((markWaiting k s tag).schedOf j).tracks = (s.schedOf j).tracks := by
  by_cases hj : j = k
  · subst hj
    rw [markWaiting_eq, schedOf_setQueue]
  · rw [schedOf_markWaiting_other hj]

theorem Leftover.timed (h : Leftover i s k x) : x ∈ (s.schedOf k).queue ∧ x.state = .timed := by
  have hmem : x ∈ (s.schedOf k).queue.filter timedAhead := by
    rw [h.here.1]
    exact List.mem_singleton.2 rfl
  obtain ⟨hx, ha⟩ := List.mem_filter.1 hmem
  exact ⟨hx, ((timedAhead_iff x).1 ha).2.1⟩

/-- No other shot of the bank waits, and of no other the instant has come. -/
theorem Leftover.others (h : Leftover i s k x) {y : Shot} (hy : y ∈ (s.schedOf k).queue) (ht : y.tag ≠ x.tag) :
    (i.met s y).waiting = false ∧ (i.met s y).dueNow s.timebase = false := by
  obtain ⟨-, hidle, hdue, -⟩ := h.here
  have hw : (i.met s y).waiting = false := by
    rw [met_waiting]
    exact Bool.eq_false_iff.2 fun hw => hidle y hy hw h.idle
  refine ⟨hw, Bool.eq_false_iff.2 fun hd => ?_⟩
  obtain ⟨-, n, hn, hle⟩ := (dueNow_iff _ _).1 hd
  refine absurd (hdue _ (List.mem_map_of_mem hy) hw (fun z hz => ?_) n hn) (Nat.not_lt.2 hle)
  rw [List.mem_singleton.1 hz, (met_kept i s y).1]
  exact Ne.symm ht

/-- The bank of a state whose shots have met the interval, its tracks or not. -/
structure MetBank (i : Interval) (s u : State) (k : Bank) : Prop where
  queue : (u.schedOf k).queue = (s.schedOf k).queue.map (i.met s)
  cond  : (u.schedOf k).cond = (s.schedOf k).cond
  time  : u.timebase = s.timebase

variable {u : State}

theorem Leftover.onlyDue_met (h : Leftover i s k x) (hu : MetBank i s u k) : onlyDue u k (i.met s x) := by
  unfold onlyDue
  rw [hu.queue, hu.time, List.filter_map]
  have htest : (s.schedOf k).queue.filter ((fun y => y.tag == (i.met s x).tag || y.waiting || y.dueNow s.timebase) ∘ i.met s) =
      (s.schedOf k).queue.filter fun y => y.tag == x.tag := by
    refine List.filter_congr fun y hy => ?_
    dsimp only [Function.comp]
    rw [(met_kept i s y).1, (met_kept i s x).1]
    by_cases ht : y.tag = x.tag
    · rw [beq_iff_eq.2 ht]
      rfl
    · obtain ⟨hw, hd⟩ := h.others hy ht
      rw [hw, hd, Bool.or_false, Bool.or_false]
  rw [htest, h.named]
  rfl

/-- R91, R104: a shot that alone falls due on an IDLE bank opens with the tooth. -/
theorem duePast_opens (hd : onlyDue s k x) (hc : (s.schedOf k).cond = .idle) (ha : startAdmitted s k x false) :
    duePast k (markWaiting k s x.tag) = startedNow s k x false := by
  have hidle : ((markWaiting k s x.tag).schedOf k).cond = .idle := markWaiting_cond hc
  rw [duePast_arbiter (fun y hy => ?_) hidle, runArbiter_opens hidle (markWaiting_only hd) (startAdmitted_fallen ha),
    startedNow_fallen]
  rw [markWaiting_eq, schedOf_setQueue] at hy
  obtain ⟨z, hz, rfl⟩ := List.mem_map.1 hy
  split
  · rfl
  · rename_i hne
    refine Bool.eq_false_iff.2 fun hnow => hne ?_
    have hmem : z ∈ (s.schedOf k).queue.filter fun y => y.tag == x.tag || y.waiting || y.dueNow s.timebase :=
      List.mem_filter.2 ⟨hz, Bool.or_eq_true_iff.2 (.inr hnow)⟩
    rw [show (s.schedOf k).queue.filter _ = [x] from hd] at hmem
    rw [List.mem_singleton.1 hmem]

theorem inWindow_congr {y z : Shot} (hs : z.flags = y.flags) (hc : z.cyl = y.cyl) : inWindow s k z ↔ inWindow s k y := by
  unfold inWindow
  rw [hs, hc]

theorem startAdmitted_met (ha : startAdmitted u k x dg) : startAdmitted u k (i.met s x) dg := by
  obtain ⟨-, hcyl, -, -, hcls, -, -, -, hlow, hflags⟩ := met_kept i s x
  unfold startAdmitted
  rw [inWindow_congr hflags hcyl, hcyl, hcls, hlow]
  exact ha

theorem Leftover.opens (h : Leftover i s k x) (hu : MetBank i s u k) (ha : startAdmitted u k x false) :
    duePast k (markWaiting k u x.tag) = startedNow u k x false := by
  have hopen := duePast_opens (h.onlyDue_met hu) (hu.cond.trans h.idle) (startAdmitted_met (i := i) (s := s) ha)
  rwa [startedNow_met, (met_kept i s x).1] at hopen

/-- R91, R104: of both banks, only that of the shot left over has work. -/
theorem Leftover.duePast_both (h : Leftover (reported r) s k x) (hu : ∀ j, MetBank (reported r) s u j)
    (ha : startAdmitted u k x false) : bothBanks duePast (markWaiting k u x.tag) = startedNow u k x false := by
  have hother : ∀ {v : State} {j : Bank}, j ≠ k → v.schedOf j = u.schedOf j → v.timebase = u.timebase → duePast j v = v :=
    fun {v j} hj hq ht => duePast_none (nothingDue_met (h.other j hj) (by rw [hq, (hu j).queue]; rfl)
      (by rw [hq, (hu j).cond]) (ht.trans (hu j).time))
  exact bothBanks_one (h.opens (hu k) ha) (fun j hj => hother hj (schedOf_markWaiting_other hj u x.tag) rfl)
    fun j hj => hother hj (schedOf_startedNow_other hj u x false) rfl

theorem metBank_shots (i : Interval) (s : State) (k : Bank) : MetBank i s (metShots i s) k := by
  constructor
  · rw [schedOf_metShots]
    rfl
  · rw [schedOf_metShots]
    rfl
  · rfl

theorem metBank_tracks (i : Interval) (s : State) (k : Bank) : MetBank i s (metTracks i (metShots i s)) k := by
  constructor
  · rw [schedOf_metTracks, tracksMet, schedOf_metShots]
    rfl
  · rw [schedOf_metTracks, tracksMet, schedOf_metShots]
    rfl
  · rfl

theorem inWindow_metTracks : inWindow (metTracks i s) k x ↔ inWindow s k x := by
  unfold inWindow
  rw [windowPassed_metTracks]

/-- R89 to R94: the new interval where a shot of the one before opens. -/
theorem Leftover.settleNew (h : Leftover (reported r) s k x)
    (ha : startAdmitted (metTracks (reported r) (metShots (reported r) s)) k x false) :
    settleNew tie r (markWaiting k s x.tag) = startedNow (metTracks (reported r) (metShots (reported r) s)) k x false := by
  have htracks : ∀ j, ((metShots (reported r) s).schedOf j).tracks = (s.schedOf j).tracks := fun j => by
    rw [schedOf_metShots]
    rfl
  have hclosing : ∀ j, ∀ y ∈ ((metShots (reported r) s).schedOf j).tracks, ∀ n, y.state ≠ .closing n := fun j => by
    rw [htracks]
    exact h.noneClosing j
  unfold Machine.settleNew
  rw [timeShots_both, metShots_markWaiting]
  cases tie with
  | dueFirst =>
    dsimp only
    have hshots : startAdmitted (metShots (reported r) s) k x false := ⟨inWindow_metTracks.1 ha.1, ha.2⟩
    rw [h.duePast_both (metBank_shots _ s) hshots, closeAtTooth_both fun j => by rw [startedNow_tracks]; exact hclosing j,
      reachTracks_both fun j => by rw [startedNow_tracks, htracks]; exact h.noCloseNow j,
      metTracks_startedNow (hclosing k)]
  | closeFirst =>
    dsimp only
    rw [reachTracks_both fun j => by rw [markWaiting_tracks, htracks]; exact h.noCloseNow j, metTracks_markWaiting,
      h.duePast_both (metBank_tracks _ s) ha]

end

end Sys2Proof.Proofs.LeftoverShot
end

section
/-! SUPPORT. The accepted tooth, put together. -/

namespace Sys2Proof.Proofs.AcceptedTooth

open Sys2Proof Sys2Proof.Machine Sys2Proof.Laws Sys2Proof.Laws.Fine Sys2Proof.Proofs.Freeze Sys2Proof.Proofs.Frames
  Sys2Proof.Proofs.Arbiter Sys2Proof.Proofs.Edges Sys2Proof.Proofs.Teeth Sys2Proof.Proofs.ToothBegun
  Sys2Proof.Proofs.QuietTeeth Sys2Proof.Proofs.PlannedTeeth Sys2Proof.Proofs.ToothWork Sys2Proof.Proofs.ToothOnBank
  Sys2Proof.Proofs.AcceptedTeeth Sys2Proof.Proofs.LeftoverShot

/-! ### The prediction -/

theorem predict_first (t1 : Nat) : predict t1 0 = t1 := by
  unfold predict
  split
  · omega
  · rfl

theorem predict_clamped {t1 t2 : Nat} (h1 : 0 < t1) (h2 : 0 < t2) {n : Nat}
    (hn : ((t1 : Int) + ((t1 : Int) - t2).tdiv 2).toNat = n) :
    predict t1 t2 = max (3 * t1 / 4) (min (5 * t1 / 4) n) := by
  subst hn
  unfold predict
  rw [if_neg h1.ne', if_neg h2.ne']
  rfl

/-- R4: a crank that slows down. -/
theorem predict_slower {t1 t2 : Nat} (h1 : 0 < t1) (h2 : 0 < t2) (h : t2 ≤ t1) :
    predict t1 t2 = max (3 * t1 / 4) (min (5 * t1 / 4) (t1 + (t1 - t2) / 2)) := by
  refine predict_clamped h1 h2 ?_
  rw [Int.tdiv_eq_ediv_of_nonneg (by omega)]
  omega

/-- R4: a crank that speeds up. -/
theorem predict_faster {t1 t2 : Nat} (h1 : 0 < t1) (h : t1 < t2) :
    predict t1 t2 = max (3 * t1 / 4) (min (5 * t1 / 4) (t1 - (t2 - t1) / 2)) := by
  refine predict_clamped h1 (by omega) ?_
  have hneg : ((t1 : Int) - t2).tdiv 2 = -(((t2 - t1) / 2 : Nat) : Int) := by
    rw [show (t1 : Int) - t2 = -((t2 - t1 : Nat) : Int) by omega, Int.neg_tdiv,
      Int.tdiv_eq_ediv_of_nonneg (by omega)]
    omega
  rw [hneg]
  omega

/-! ### The accepted tooth -/

section
variable {synthetic : Bool} {s : State} {tie : TieOrder}

theorem markerTables_profile (s : State) (k : AngleClock) : (markerTables s k).profile = s.tables.profile := by
  unfold markerTables
  split <;> rfl

theorem markerTables_limits (s : State) (k : AngleClock) : (markerTables s k).limits = s.tables.limits := by
  unfold markerTables
  split <;> rfl

theorem bothMet_profileOf (i : Interval) (s : State) (k : AngleClock) (e : EventLatch) (c : Cyl) :
    (bothMet i s k e).profileOf c = s.profileOf c := by
  unfold State.profileOf State.cylOf bothMet
  rw [markerTables_profile, markerTables_cyl]

/-- R91, R104: a tooth that finds one shot TIMED opens it. -/
theorem tooth_opens {k : AngleClock} {b : Bank} {x : Shot} (hno : ∀ c, ¬freezeTooth (intervalOf synthetic s k) s c)
    (h : Leftover (intervalOf synthetic s k) s b x) {u : State}
    (hu : bothMet (intervalOf synthetic s k) s k (toothBegun s k).events = u) (hw : inWindow u b x)
    (hl : x.lowBoost = true → s.tables.limits.lowWater ≤ s.levelOf b) (hc : (s.profileOf x.cyl).boostCost ≤ s.levelOf b) :
    settleNew tie (reportOf synthetic s k) (freezes (reportOf synthetic s k) (settleOld tie (toothBegun s k))) =
      opened { u with level := s.level.set b (s.levelOf b - (s.profileOf x.cyl).boostCost) } b x false := by
  have hleft : Leftover (reported (reportOf synthetic s k)) (toothBegun s k) b x :=
    ⟨quietBank_begun h.here, fun j hj => quietBank_begun (h.other j hj), h.named, h.idle⟩
  have hprofile : u.profileOf x.cyl = s.profileOf x.cyl := by rw [← hu, bothMet_profileOf]
  have hmet : metTracks (reported (reportOf synthetic s k)) (metShots (reported (reportOf synthetic s k)) (toothBegun s k)) = u :=
    (met_begun _ s k).trans hu
  have hadmitted : startAdmitted u b x false := by
    refine ⟨hw, ?_, ?_⟩
    · rw [← hu]
      unfold bothMet
      rw [markerTables_limits]
      exact hl
    · rw [hprofile, ← hu]
      exact hc
  rw [tooth_unfrozen hno, hleft.settleOld, hleft.settleNew (by rwa [hmet]), hmet]
  unfold startedNow
  rw [if_neg Bool.false_ne_true, hprofile, ← hu]
  rfl

/-- Settles O34: the clock from `toothClock_keep`; in FULL_SYNC `tooth_quiet`, `tooth_opens` and `tooth_leaves`. -/
theorem acceptedTooth : Obligations.AcceptedTooth := by
  unfold Obligations.AcceptedTooth
  refine ⟨fun synthetic tie s hready _ => ?_, fun t1 t2 h1 => ⟨predict_first t1, predict_slower h1, predict_faster h1⟩⟩
  intro w now full index rev1 t1 tpred speed flag hcam
  have hv : (movedClock synthetic s).toothVerdict = .keep := verdict_keep hready hcam
  have htaken := toothTaken_keep hready hv
  have hclock : (handOn tie (toothKind synthetic) false (toothTaken synthetic s)).clock = keptClock synthetic s := by
    rw [handOn_clock, htaken]
  refine ⟨_, exec_tooth synthetic tie hready, ?_, fun hfull => ?_, fun hfull => ?_⟩
  · rw [hclock, keptClock, toothClock_keep hv]
    rfl
  · have hsync : (toothTaken synthetic s).clock.sync ≠ .fullSync := by
      rw [htaken]
      exact fun hs => (beq_eq_false_iff_ne.1 hfull) ((keptClock_sync hv).symm.trans hs)
    rw [hclock]
    exact (handOn_nobody tie _ hsync).trans htaken
  · have hsync : s.clock.sync = .fullSync := beq_iff_eq.1 hfull
    generalize ht : handOn tie (toothKind synthetic) false (toothTaken synthetic s) = t at hclock ⊢
    have hparts := handOn_parts tie ht (by rw [hclock, keptClock_sync hv, hsync])
    have hevents : (toothBegun s t.clock).events = keptEvents synthetic s := by
      rw [hclock, toothBegun_keep hsync]
    intro i u
    have hu : bothMet (intervalOf synthetic s t.clock) s t.clock (toothBegun s t.clock).events = u := by
      rw [hevents]
      rfl
    clear_value u
    refine ⟨fun hno hquiet => ?_, fun k x hno hx hother hnamed hidle _ hw hl hc => ?_, fun k hn => ?_⟩
    · exact hparts.trans ((tooth_quiet tie hno hquiet).trans hu)
    · exact hparts.trans (tooth_opens hno ⟨hx, hother, hnamed, hidle⟩ hu hw hl hc)
    · have hleaves := tooth_leaves (synthetic := synthetic) tie (k := t.clock) k hn
      rw [← hparts] at hleaves
      exact ⟨fun x hx => ⟨(hleaves.shots x hx).reached, fun ha =>
          ⟨((hleaves.shots x hx).ahead ha).1, ((hleaves.shots x hx).ahead ha).2, fun hno => hleaves.due hno x hx ha⟩⟩,
        fun y hy => ⟨(hleaves.tracks y hy).reached, (hleaves.tracks y hy).closing⟩,
        fun y hy n hs hno hcase =>
          have hclean := hleaves.clean y hy n hs hno hcase
          ⟨hclean.shots, hclean.tracks, hclean.active⟩⟩

end

end Sys2Proof.Proofs.AcceptedTooth
end
